-- ==== Sys2Proof/Word.lean ====
section
/-! DEFINITION. The word types of the hart: XLEN = 32 (00_scope R9), bytes, halfwords, and the 64-bit
values of the floating-point slots and of the timer (10_state R32, R50). -/

namespace Sys2Proof

/-- A general register, the pc, a CSR or an address (R9). -/
abbrev Word := BitVec 32

/-- The smallest addressable unit of memory (R54). -/
abbrev Byte := BitVec 8

/-- A 16-bit instruction (R89). -/
abbrev Half := BitVec 16

/-- A floating-point slot (R32) or a timer value (R50). -/
abbrev DWord := BitVec 64

end Sys2Proof
end

