-- ==== Sys2Proof/Machine/Flags.lean ====
section
/-! DEFINITION. The hart has no condition-code register and no instruction writes a flag (10_state R36): what a
flag would hold is a comparison of two registers. This file holds the comparisons (00_scope R23) and the 0 or 1
they yield (40_rv32i R132). -/

namespace Sys2Proof.Machine

open Sys2Proof

/-- `a <s b`. -/
def ltS (a b : Word) : Bool := a.slt b

/-- `a <u b`. -/
def ltU (a b : Word) : Bool := a.ult b

/-- A comparison's result as a register value: 0 or 1. -/
def ofCond (c : Bool) : Word := if c then 1#32 else 0#32

end Sys2Proof.Machine
end

