-- ==== Sys2Proof/Config.lean ====
section
/-! DEFINITION. What an implementation or a launch fixes (00_scope section 4, R9 to R21) and the free
values: the draws of R27, each an opaque constant without a body, so that nothing can be proved of its
value. The parameters of a launch are plain data, a field of the machine's state, so that a statement
over every state holds for every choice of them. -/

namespace Sys2Proof

/-- Which floating-point register moves are implemented, `FP_MOVES` (R21, 44_rvc R191). -/
structure FpMoves where
  cFld : Bool
  cFlw : Bool
  cFsd : Bool
  cFsw : Bool
  cFldsp : Bool
  cFlwsp : Bool
  cFsdsp : Bool
  cFswsp : Bool
deriving DecidableEq, Repr, Inhabited

/-- What a word that matches no row does, `DECODE_RESERVED` (R21, 30_encoding R104). -/
inductive DecodeReserved where
  | noop
  | refuse
deriving DecidableEq, Repr, Inhabited

/-- Division by zero and signed overflow, `DIV_CORNER` (R21, 41_rv32m R155). -/
inductive DivCorner where
  | riscv
  | refuse
deriving DecidableEq, Repr, Inhabited

/-- Which half of a packed `(a, b)` word holds `a`, `PAIR_PACK` (20_memory R74). -/
inductive PairPack where
  | firstHigh
  | firstLow
deriving DecidableEq, Repr, Inhabited

/-- The three OPEN parameters of the bit-blt (20_memory R74): bytes per pixel, packing, clipping. -/
structure BltParams where
  bpp : Nat
  pack : PairPack
  clip : Bool
deriving DecidableEq, Repr, Inhabited

/-- `DEVADDR` (R18, 20_memory R69): the address of every scalar device register and the base of every
block. -/
structure DevMap where
  stdio : Word
  stderr : Word
  getch : Word
  kbhit : Word
  consoleClear : Word
  consoleGoto : Word
  sleep : Word
  mouseXy : Word
  mouseBtn : Word
  mtimecurL : Word
  mtimecurH : Word
  mtimecmpL : Word
  mtimecmpH : Word
  realtime : Word
  diskSectorNum : Word
  diskSectorSize : Word
  diskSectorIdx : Word
  diskSectorDat : Word
  cpuFreq : Word
  keybdBase : Word
  displayBase : Word
  audioOutBase : Word
  audioInBase : Word
deriving DecidableEq, Repr, Inhabited

/-- The parameters and switches of a launch (00_scope R9 to R21), fixed for the run (70_reset R250 (4)). -/
structure Params where
  /-- `MEM_SIZE` is two to this power (R11): a power of two that is at most `DEVICE_BASE`. -/
  memLog2 : Fin 32
  /-- `FRAMERATE` (R15). -/
  frameRate : Nat
  /-- `CLOSE_EXIT_CODE` (R15). -/
  closeExitCode : Word
  /-- `CPU_FREQ_MAX` and `CPU_FREQ_RESET` (R16); the register is 32 bits wide (log 19). -/
  cpuFreqMax : Word
  cpuFreqReset : Word
  /-- `DEVADDR` (R18). -/
  devAddr : DevMap
  fpMoves : FpMoves
  decodeReserved : DecodeReserved
  divCorner : DivCorner
  /-- `STORE_BREAKS_RESERVATION` (R21, 42_rv32a R166). -/
  storeBreaksReservation : Bool
  /-- `MRET_CLEARS_BIT0` (R21, 43_system R181). -/
  mretClearsBit0 : Bool
  /-- `BPP`, `PAIR_PACK`, `BLT_CLIP` where the model fixes them, `none` where it does not (R74). -/
  blt : Option BltParams
  /-- `DISK_EOF_VALUE` and the two geometry values the host fixes for the run (20_memory R78). -/
  diskEof : Word
  diskSectorNum : Word
  diskSectorSize : Word
deriving DecidableEq, Repr

/-- A host device descriptor (70_reset R248: `absent` until the guest writes a mode register; R249: a
failed initialisation disables the subsystem for the session). -/
inductive DeviceStatus where
  | absent
  | present
  | disabled
deriving DecidableEq, Repr, Inhabited

/-- One move of the audio-capture agent (20_memory R83): start a capture step that appends these
samples, perform one of the effects the step in progress still owes, or release the mutex. -/
inductive CaptureMove where
  | start (samples : List Byte)
  | act (i : Nat)
  | release
deriving DecidableEq, Repr, Inhabited

/-! The free values. Each function takes the number of draws made so far (the field `draws` of the
state), so that every draw is a value of its own; log 4. -/

/-- A 32-bit value the host returns for a device read (20_memory R68, R70 to R72, R77, R78). -/
opaque Config.hostWord : Nat → Word

/-- The host's monotonic clock, before it is bounded below by the earlier samples (60_exceptions R231,
20_memory R77). -/
opaque Config.hostClock : Nat → DWord

/-- Whether the host reports the display closed at a frame end (60_exceptions R246). -/
opaque Config.hostClose : Nat → Bool

/-- The outcome of a host device's (re)initialisation, or of starting or stopping recording
(20_memory R73, R75, R76; 70_reset R249). -/
opaque Config.hostDevice : Nat → DeviceStatus

/-- The audio pump at a frame end: no action, or an amount (20_memory R75). -/
opaque Config.hostPump : Nat → Option Nat

/-- The moves the capture agent makes at one instant of the hart (20_memory R83). -/
opaque Config.captureMoves : Nat → List CaptureMove

/-- Whether the read number `j` of a register for pending effect number `k` of a capture step is made after a write of
the hart during the step, or was made before it (20_memory R83; log 9): by the draw, `k` and `j`. -/
opaque Config.captureReread : Nat → Nat → Nat → Bool

/-- A ring offset reduced modulo a ring size of 0, of which the spec states no value (log 10). -/
opaque Config.ringModZero : Nat → Word → Word

/-- A byte of the disk file between its old end and a later write past the end (20_memory R78, OPEN). -/
opaque Config.diskGap : Nat → Byte

/-- The host clock at start (70_reset R248). -/
opaque Config.clockAtStart : DWord

/-- `DEVADDR` as the launch gives it (R18, OPEN), before it is normalised to the constraints of R69. -/
opaque Config.devAddr : DevMap

/-- `CLOSE_EXIT_CODE` (R15, OPEN). -/
opaque Config.closeExitCode : Word

/-- `BPP`, `PAIR_PACK`, `BLT_CLIP` (20_memory R74, OPEN). -/
opaque Config.blt : BltParams

/-- `DISK_EOF_VALUE` (20_memory R78, OPEN). -/
opaque Config.diskEof : Word

/-- DISK_SECTOR_NUM and DISK_SECTOR_SIZE as the host derives them from the file (20_memory R78). -/
opaque Config.diskSectorNum : Word
opaque Config.diskSectorSize : Word

end Sys2Proof
end

