-- ==== Sys2Proof/Machine/Launch.lean ====
section
/-! DEFINITION. The constants of the hart (00_scope R12, R14, R17, R19), the constraints on `DEVADDR`
(20_memory R69) and the parameters of the launch that State.reset stands for. -/

namespace Sys2Proof.Machine

open Sys2Proof

/-- `DEVICE_BASE` (R12). -/
def deviceBase : Word := 0xFF000000#32

/-- `RESET_PC` (R17, D1). -/
def resetPc : Word := 0#32

/-- `NSUB` (R14): sub-batches a frame. -/
def nsub : Nat := 2

/-- `SECTOR_BYTES` (R19). -/
def sectorBytes : Nat := 512

/-- `MEM_SIZE` (R11). -/
def memSize (p : Params) : Nat := 2 ^ p.memLog2.val

/-- The sub-batch length `K` of a frame that starts with this frequency (60_exceptions R244). -/
def batchLength (p : Params) (cpuFreq : Word) : Nat := cpuFreq.toNat / p.frameRate / nsub

/-- The addresses of the scalar registers, in the order of the table of 20_memory R69. -/
def scalarAddresses (m : DevMap) : List Word :=
  [m.stdio, m.stderr, m.getch, m.kbhit, m.consoleClear, m.consoleGoto, m.sleep, m.mouseXy, m.mouseBtn,
    m.mtimecurL, m.mtimecurH, m.mtimecmpL, m.mtimecmpH, m.realtime, m.diskSectorNum, m.diskSectorSize,
    m.diskSectorIdx, m.diskSectorDat, m.cpuFreq]

/-- The blocks: base and number of registers (20_memory R69). -/
def blocks (m : DevMap) : List (Word × Nat) :=
  [(m.keybdBase, 4), (m.displayBase, 8), (m.audioOutBase, 7), (m.audioInBase, 7)]

/-- `addr` lies in the block of `k` registers at `base` (20_memory R67). -/
def inBlock (base : Word) (k : Nat) (addr : Word) : Bool :=
  base.toNat ≤ addr.toNat && addr.toNat < base.toNat + 4 * k

/-- Two blocks share no address. -/
def blocksApart (a b : Word × Nat) : Bool :=
  a.1.toNat + 4 * a.2 ≤ b.1.toNat || b.1.toNat + 4 * b.2 ≤ a.1.toNat

/-- The members of a list are pairwise related. -/
def pairwiseB {α : Type} (r : α → α → Bool) : List α → Bool
  | [] => true
  | a :: rest => rest.all (r a) && pairwiseB r rest

/-- The constraints of 20_memory R69: every address at or above `DEVICE_BASE`, scalar addresses distinct and
outside every block, blocks apart. A block ends within the address space (log 30). -/
def devMapWf (m : DevMap) : Bool :=
  (scalarAddresses m).all (fun a => deviceBase.toNat ≤ a.toNat)
  && (blocks m).all (fun b => deviceBase.toNat ≤ b.1.toNat && b.1.toNat + 4 * b.2 ≤ 2 ^ 32)
  && pairwiseB (fun a b => a != b) (scalarAddresses m)
  && (scalarAddresses m).all (fun a => (blocks m).all (fun b => !inBlock b.1 b.2 a))
  && pairwiseB blocksApart (blocks m)

/-- A map that meets the constraints, taken where the launch's own does not (log 2). -/
def fallbackDevMap : DevMap where
  stdio := 0xFF000000#32
  stderr := 0xFF000004#32
  getch := 0xFF000008#32
  kbhit := 0xFF00000C#32
  consoleClear := 0xFF000010#32
  consoleGoto := 0xFF000014#32
  sleep := 0xFF000018#32
  mouseXy := 0xFF00001C#32
  mouseBtn := 0xFF000020#32
  mtimecurL := 0xFF000024#32
  mtimecurH := 0xFF000028#32
  mtimecmpL := 0xFF00002C#32
  mtimecmpH := 0xFF000030#32
  realtime := 0xFF000034#32
  diskSectorNum := 0xFF000038#32
  diskSectorSize := 0xFF00003C#32
  diskSectorIdx := 0xFF000040#32
  diskSectorDat := 0xFF000044#32
  cpuFreq := 0xFF000048#32
  keybdBase := 0xFF000100#32
  displayBase := 0xFF000200#32
  audioOutBase := 0xFF000300#32
  audioInBase := 0xFF000400#32

/-- `DEVADDR` of the launch: any map that meets the constraints of R69 (R18, OPEN; log 2). -/
def launchDevMap : DevMap := if devMapWf Config.devAddr then Config.devAddr else fallbackDevMap

/-- The constraints on the parameters: R15 (a positive frame rate), R16 (the reset frequency at most the
maximum), R18. `MEM_SIZE` meets R11 by its type. -/
def paramsWf (p : Params) : Bool :=
  p.frameRate != 0 && p.cpuFreqReset.toNat ≤ p.cpuFreqMax.toNat && devMapWf p.devAddr

/-- `FP_MOVES` by default: the four double-width moves (R21, D5). -/
def defaultFpMoves : FpMoves where
  cFld := true
  cFlw := false
  cFsd := true
  cFsw := false
  cFldsp := true
  cFlwsp := false
  cFsdsp := true
  cFswsp := false

/-- The parameters of the launch (log 1): `MEM_SIZE` = 64 MiB and the frequencies of the worked vectors of
95_test_vectors, every switch at the default of R21, every other OPEN parameter free. -/
def launchParams : Params where
  memLog2 := 26
  frameRate := 50
  closeExitCode := Config.closeExitCode
  cpuFreqMax := 1500000#32
  cpuFreqReset := 1000000#32
  devAddr := launchDevMap
  fpMoves := defaultFpMoves
  decodeReserved := .noop
  divCorner := .riscv
  storeBreaksReservation := false
  mretClearsBit0 := false
  blt := some Config.blt
  diskEof := Config.diskEof
  diskSectorNum := Config.diskSectorNum
  diskSectorSize := Config.diskSectorSize

end Sys2Proof.Machine
end

