-- ==== Sys2Proof/Syntax.lean ====
section
/-! DEFINITION. The instructions: one constructor per row of spec/opcode_table.json, in the table's order.
Immediates are held as the rules name them (30_encoding R97, R100), so an even offset has its bit 0 and a
scaled one its low zero bits; WellFormed.lean says which values an encoding has. -/

namespace Sys2Proof

/-- A general register number x0..x31, or a floating-point slot number f0..f31 (R93, R98). -/
abbrev Reg := BitVec 5

/-- A 3-bit register field of a compressed form: x8..x15 or f8..f15 (R99). -/
abbrev CReg := BitVec 3

/-- The instructions of the hart. `aq`, `rl`, the fields of the fences and the immediate of C.NOP are kept
although they select nothing (R96, R152, R153, R199), so that no bit of an encoding is dropped. -/
inductive Instr where
  -- RV32I, 40_rv32i
  | lui (rd : Reg) (imm : BitVec 20)
  | auipc (rd : Reg) (imm : BitVec 20)
  | jal (rd : Reg) (imm : BitVec 21)
  | jalr (rd rs1 : Reg) (imm : BitVec 12)
  | beq (rs1 rs2 : Reg) (imm : BitVec 13)
  | bne (rs1 rs2 : Reg) (imm : BitVec 13)
  | blt (rs1 rs2 : Reg) (imm : BitVec 13)
  | bge (rs1 rs2 : Reg) (imm : BitVec 13)
  | bltu (rs1 rs2 : Reg) (imm : BitVec 13)
  | bgeu (rs1 rs2 : Reg) (imm : BitVec 13)
  | lb (rd rs1 : Reg) (imm : BitVec 12)
  | lh (rd rs1 : Reg) (imm : BitVec 12)
  | lw (rd rs1 : Reg) (imm : BitVec 12)
  | lbu (rd rs1 : Reg) (imm : BitVec 12)
  | lhu (rd rs1 : Reg) (imm : BitVec 12)
  | sb (rs1 rs2 : Reg) (imm : BitVec 12)
  | sh (rs1 rs2 : Reg) (imm : BitVec 12)
  | sw (rs1 rs2 : Reg) (imm : BitVec 12)
  | addi (rd rs1 : Reg) (imm : BitVec 12)
  | slti (rd rs1 : Reg) (imm : BitVec 12)
  | sltiu (rd rs1 : Reg) (imm : BitVec 12)
  | xori (rd rs1 : Reg) (imm : BitVec 12)
  | ori (rd rs1 : Reg) (imm : BitVec 12)
  | andi (rd rs1 : Reg) (imm : BitVec 12)
  | slli (rd rs1 : Reg) (shamt : BitVec 5)
  | srli (rd rs1 : Reg) (shamt : BitVec 5)
  | srai (rd rs1 : Reg) (shamt : BitVec 5)
  | add (rd rs1 rs2 : Reg)
  | sub (rd rs1 rs2 : Reg)
  | sll (rd rs1 rs2 : Reg)
  | slt (rd rs1 rs2 : Reg)
  | sltu (rd rs1 rs2 : Reg)
  | xor (rd rs1 rs2 : Reg)
  | srl (rd rs1 rs2 : Reg)
  | sra (rd rs1 rs2 : Reg)
  | or (rd rs1 rs2 : Reg)
  | and (rd rs1 rs2 : Reg)
  | fence (fm pred succ : BitVec 4) (rs1 rd : Reg)
  | fenceI (imm : BitVec 12) (rs1 rd : Reg)
  -- RV32M, 41_rv32m
  | mul (rd rs1 rs2 : Reg)
  | mulh (rd rs1 rs2 : Reg)
  | mulhsu (rd rs1 rs2 : Reg)
  | mulhu (rd rs1 rs2 : Reg)
  | div (rd rs1 rs2 : Reg)
  | divu (rd rs1 rs2 : Reg)
  | rem (rd rs1 rs2 : Reg)
  | remu (rd rs1 rs2 : Reg)
  -- RV32A, 42_rv32a
  | lrW (rd rs1 : Reg) (aq rl : BitVec 1)
  | scW (rd rs1 rs2 : Reg) (aq rl : BitVec 1)
  | amoswapW (rd rs1 rs2 : Reg) (aq rl : BitVec 1)
  | amoaddW (rd rs1 rs2 : Reg) (aq rl : BitVec 1)
  | amoxorW (rd rs1 rs2 : Reg) (aq rl : BitVec 1)
  | amoandW (rd rs1 rs2 : Reg) (aq rl : BitVec 1)
  | amoorW (rd rs1 rs2 : Reg) (aq rl : BitVec 1)
  | amominW (rd rs1 rs2 : Reg) (aq rl : BitVec 1)
  | amomaxW (rd rs1 rs2 : Reg) (aq rl : BitVec 1)
  | amominuW (rd rs1 rs2 : Reg) (aq rl : BitVec 1)
  | amomaxuW (rd rs1 rs2 : Reg) (aq rl : BitVec 1)
  -- system, 43_system
  | ecall
  | ebreak
  | mret
  | wfi
  | csrrw (rd rs1 : Reg) (csr : BitVec 12)
  | csrrs (rd rs1 : Reg) (csr : BitVec 12)
  | csrrc (rd rs1 : Reg) (csr : BitVec 12)
  | csrrwi (rd : Reg) (uimm : BitVec 5) (csr : BitVec 12)
  | csrrsi (rd : Reg) (uimm : BitVec 5) (csr : BitVec 12)
  | csrrci (rd : Reg) (uimm : BitVec 5) (csr : BitVec 12)
  -- RVC, 44_rvc
  | cAddi4spn (rd : CReg) (imm : BitVec 10)
  | cFld (rd rs1 : CReg) (imm : BitVec 8)
  | cLw (rd rs1 : CReg) (imm : BitVec 7)
  | cFlw (rd rs1 : CReg) (imm : BitVec 7)
  | cFsd (rs2 rs1 : CReg) (imm : BitVec 8)
  | cSw (rs2 rs1 : CReg) (imm : BitVec 7)
  | cFsw (rs2 rs1 : CReg) (imm : BitVec 7)
  | cNop (imm : BitVec 6)
  | cAddi (rd : Reg) (imm : BitVec 6)
  | cJal (imm : BitVec 12)
  | cLi (rd : Reg) (imm : BitVec 6)
  | cAddi16sp (imm : BitVec 10)
  | cLui (rd : Reg) (imm : BitVec 18)
  | cSrli (rd : CReg) (shamt : BitVec 5)
  | cSrai (rd : CReg) (shamt : BitVec 5)
  | cAndi (rd : CReg) (imm : BitVec 6)
  | cSub (rd rs2 : CReg)
  | cXor (rd rs2 : CReg)
  | cOr (rd rs2 : CReg)
  | cAnd (rd rs2 : CReg)
  | cJ (imm : BitVec 12)
  | cBeqz (rs1 : CReg) (imm : BitVec 9)
  | cBnez (rs1 : CReg) (imm : BitVec 9)
  | cSlli (rd : Reg) (shamt : BitVec 5)
  | cFldsp (rd : Reg) (imm : BitVec 9)
  | cLwsp (rd : Reg) (imm : BitVec 8)
  | cFlwsp (rd : Reg) (imm : BitVec 8)
  | cJr (rs1 : Reg)
  | cMv (rd rs2 : Reg)
  | cEbreak
  | cJalr (rs1 : Reg)
  | cAdd (rd rs2 : Reg)
  | cFsdsp (rs2 : Reg) (imm : BitVec 9)
  | cSwsp (rs2 : Reg) (imm : BitVec 8)
  | cFswsp (rs2 : Reg) (imm : BitVec 8)
deriving DecidableEq, Repr

end Sys2Proof
end

