-- ==== Sys2Proof/Machine/State.lean ====
section
/-! DEFINITION. The state of the machine (10_state), the reasons a step can stop, and the state after
reset (70_reset R248). Memory and the CSR file are sparse lists of (index, value) pairs in one canonical form:
indexes strictly rising, no entry equal to 0, the value every unlisted index reads as (D17). -/

namespace Sys2Proof.Machine

open Sys2Proof

/-- The privilege mode: machine mode is the only one (60_exceptions R238). -/
inductive Mode where
  | machine
deriving DecidableEq, Repr

/-- The owner of the audio-in mutex (10_state R51). -/
inductive MutexOwner where
  | free
  | hart
  | capture
deriving DecidableEq, Repr

/-- What an effect of a capture step has read (20_memory R83): AUDIO_IN_ADDR, TAIL, SIZE and CURR, the number of
samples of the step, and the number of its draw. -/
structure CaptureSeen where
  addr : Word
  tail : Word
  /-- SIZE where the ring wraps, and where CURR takes it -/
  size : Word
  /-- SIZE where CURR is held against it -/
  limit : Word
  curr : Word
  /-- TAIL and CURR read after the step has set them, where the hart has written them since -/
  tailNow : Option Word
  currNow : Option Word
  count : Nat
  draw : Nat
deriving DecidableEq, Repr

/-- The parts of a capture step (R83). -/
inductive CapturePart where
  /-- sample number `j`, of value `v` -/
  | byte (j : Nat) (v : Byte)
  /-- `TAIL <- (TAIL + k) mod SIZE` -/
  | tail
  /-- `CURR <- CURR + k` -/
  | curr
  /-- on overflow, `HEAD <- TAIL` -/
  | head
  /-- on overflow, `CURR <- SIZE` -/
  | full
deriving DecidableEq, Repr

/-- One effect of a capture step that is still to be performed (R83), with what it has read for it. -/
structure CaptureEffect where
  part : CapturePart
  seen : CaptureSeen
deriving DecidableEq, Repr

/-- The disk file `DISK` (20_memory R78): its length and the bytes known of it, by position. A position below
the length that is not listed was never written: it lies in a gap that a write past the end left (log 16). -/
structure DiskFile where
  size : Nat
  cells : List Host.Cell
deriving DecidableEq, Repr

/-- What the hart hands the host (60_exceptions R247, "Sends"; log 17). -/
inductive HostEvent where
  | stdoutByte (b : Byte)
  | stdoutFlush
  | stderrByte (b : Byte)
  | stderrFlush
  | consoleClear (v : Word)
  | consoleGoto (v : Word)
  | sleep (ms : Word)
  | displayInit (wh : Word)
  | audioOutInit (fmt : Word)
  | audioInInit (fmt : Word)
  | realtimeAdjust (v : Word)
deriving DecidableEq, Repr

/-- The device-register state (10_state R51) and the host device descriptors (70_reset R248). -/
structure Devices where
  /-- DISP_WH, DISP_ADDR, DISP_REFRESH_XY, DISP_REFRESH_WH, DISP_REFRESH_DIV, DISP_BITBLT_ADDR,
  DISP_BITBLT_XY, DISP_BITBLT_WH, by index (20_memory R69, R73) -/
  display : Vector Word 8
  /-- FMT, ADDR, HEAD, TAIL, SIZE, CURR, LOCK, by index (R69, R75) -/
  audioOut : Vector Word 7
  /-- the same names (R69, R76) -/
  audioIn : Vector Word 7
  audioOwner : MutexOwner
  /-- MODEL: what the capture step that owns the mutex has still to do (R83) -/
  capturePending : List CaptureEffect
  /-- MODEL: AUDIO_IN_SIZE has held a value other than 0, so that there has been a ring (R83; log 33) -/
  ringMade : Bool
  displayDev : DeviceStatus
  audioOutDev : DeviceStatus
  audioInDev : DeviceStatus
  /-- CPU_FREQ (R79) -/
  cpuFreq : Word
  /-- `none`: no disk file is open (R78) -/
  disk : Option DiskFile
  /-- the disk cursor `pos` (R78) -/
  diskPos : Nat
  /-- the last written sector index (10_state R51) -/
  diskIndex : Word
deriving DecidableEq, Repr

/-- The scheduling state (10_state R52) and whether the display close has ended the run (60_exceptions R246). -/
structure Sched where
  /-- the frame's `K` -/
  batchSteps : Nat
  /-- steps still to run in the current sub-batch -/
  stepsLeft : Nat
  /-- the current sub-batch is the second of the two -/
  lastBatch : Bool
  closed : Bool
deriving DecidableEq, Repr

/-- The state of the machine: everything 10_state lists, the launch's parameters, and the model's own
`clockSeen`, `draws` and `sent`. -/
structure State where
  /-- x0..x31 (R29) -/
  regs : Vector Word 32
  /-- f0..f31 (R32) -/
  fregs : Vector DWord 32
  pc : Word
  mode : Mode
  /-- `flags.EXIT` (R37) -/
  exitFlag : Bool
  /-- the CSR file, by CSR number (R38) -/
  csrs : List (Nat × Word)
  /-- the load reservation (R49) -/
  mreserved : Option Word
  /-- guest memory, by index into `backing` (20_memory R56) -/
  mem : List Host.Cell
  mtimecur : DWord
  mtimecmp : DWord
  /-- MODEL: the greatest clock value sampled or read so far (60_exceptions R231) -/
  clockSeen : DWord
  dev : Devices
  sched : Sched
  params : Params
  /-- MODEL: the number of host draws made so far (00_scope R27) -/
  draws : Nat
  /-- MODEL: what the hart has handed the host, the newest first -/
  sent : List HostEvent
deriving DecidableEq, Repr

/-- Why the machine stops. No guest action faults (60_exceptions R227); both faults say that the run has
ended (R246). -/
inductive Fault where
  /-- raised by step when `EXIT` is 1: the hart takes no further step (10_state R37). Safe. -/
  | exited
  /-- raised by step when the host has reported the display closed (R246). Safe. -/
  | displayClosed
deriving DecidableEq, Repr

/-- Why a step has no meaning. Every one but `notModelled` is a refusal that the spec names (R227). -/
inductive Refusal where
  /-- raised by exec for an instruction without a meaning; no arm answers it. Safe. -/
  | notModelled (mnemonic : String)
  /-- raised by a word that matches no row under DECODE_RESERVED = refuse (30_encoding R104). Safe. -/
  | reservedEncoding
  /-- raised by DIV, DIVU, REM, REMU on a corner case under DIV_CORNER = refuse (41_rv32m R155). Safe. -/
  | divisionCorner
  /-- raised by a non-zero write of AUDIO_IN_LOCK while the hart owns the mutex (20_memory R76). Safe. -/
  | audioLockRetaken
  /-- raised by a zero write of AUDIO_IN_LOCK while the hart does not own the mutex (R76). Safe. -/
  | audioLockNotOwned
  /-- raised by a non-empty bit-blt where BPP, PAIR_PACK, BLT_CLIP are not fixed (R74). Safe. -/
  | bitBltNotFixed
deriving DecidableEq, Repr

/-- The devices after reset (70_reset R248). -/
def Devices.reset : Devices where
  display := Vector.replicate 8 0
  audioOut := Vector.replicate 7 0
  audioIn := Vector.replicate 7 0
  audioOwner := .free
  capturePending := []
  ringMade := false
  displayDev := .absent
  audioOutDev := .absent
  audioInDev := .absent
  cpuFreq := launchParams.cpuFreqReset
  disk := none
  diskPos := 0
  diskIndex := 0

/-- The first sub-batch of the first frame (70_reset R248). -/
def Sched.reset : Sched where
  batchSteps := batchLength launchParams launchParams.cpuFreqReset
  stepsLeft := batchLength launchParams launchParams.cpuFreqReset
  lastBatch := false
  closed := false

/-- The machine right after reset (70_reset R248, R249), with a missing ROM and a missing disk: both are
launches the spec describes (log 18). -/
def State.reset : State where
  regs := Vector.replicate 32 0
  fregs := Vector.replicate 32 0
  pc := resetPc
  mode := .machine
  exitFlag := false
  csrs := []
  mreserved := none
  mem := []
  mtimecur := Config.clockAtStart
  mtimecmp := 0
  clockSeen := Config.clockAtStart
  dev := Devices.reset
  sched := Sched.reset
  params := launchParams
  draws := 0
  sent := []

end Sys2Proof.Machine
end

