-- ==== Sys2Proof/Machine/Memory.lean ====
section
/-! DEFINITION. Sparse storage in canonical form, for guest memory and the CSR file, and the bytes of guest
memory (20_memory R56, R57). -/

namespace Sys2Proof.Machine

open Sys2Proof

/-- The value at index `k`; an unlisted index reads as 0 (70_reset R248, D17). -/
def sparseGet {w : Nat} (m : List (Nat × BitVec w)) (k : Nat) : BitVec w :=
  match m with
  | [] => 0
  | c :: rest => if c.1 = k then c.2 else sparseGet rest k

/-- `v` at index `k` in a list in rising order. -/
def sparseInsert {w : Nat} (m : List (Nat × BitVec w)) (k : Nat) (v : BitVec w) : List (Nat × BitVec w) :=
  match m with
  | [] => [(k, v)]
  | c :: rest =>
    if k < c.1 then (k, v) :: c :: rest
    else if k = c.1 then (k, v) :: rest
    else c :: sparseInsert rest k v

/-- Store `v` at index `k`, keeping the canonical form: storing 0 removes the entry. -/
def sparseSet {w : Nat} (m : List (Nat × BitVec w)) (k : Nat) (v : BitVec w) : List (Nat × BitVec w) :=
  if v = 0 then m.filter (fun c => c.1 != k) else sparseInsert m k v

/-- The canonical form: indexes strictly rising, no entry equal to 0. -/
def sparseWf {w : Nat} : List (Nat × BitVec w) → Bool
  | [] => true
  | c :: rest => c.2 != 0 && rest.all (fun d => c.1 < d.1) && sparseWf rest

/-- Every index is below `n`. -/
def sparseBelow {w : Nat} (n : Nat) (m : List (Nat × BitVec w)) : Bool := m.all (fun c => c.1 < n)

/-- The canonical form of guest memory. -/
def Memory.wf (m : List Host.Cell) : Bool := sparseWf m

/-- The byte of `backing` that a guest-memory address names (20_memory R56). -/
def backingIndex (p : Params) (a : Word) : Nat := a.toNat % memSize p

/-- The byte of guest memory at an address. -/
def State.byteAt (s : State) (a : Word) : Byte := sparseGet s.mem (backingIndex s.params a)

/-- Guest memory with one byte written. -/
def State.setByte (s : State) (a : Word) (v : Byte) : State :=
  { s with mem := sparseSet s.mem (backingIndex s.params a) v }

/-- One more host draw has been made (00_scope R27). -/
def State.drawn (s : State) : State := { s with draws := s.draws + 1 }

/-- The hart hands the host something (60_exceptions R247). -/
def State.send (s : State) (e : HostEvent) : State := { s with sent := e :: s.sent }

end Sys2Proof.Machine
end

