-- ==== Sys2Proof/Machine/Capture.lean ====
section
/-! DEFINITION. The audio-capture agent (20_memory R83). It moves at instants of the hart at which the hart does not
own the audio-in mutex: before every byte the hart reads or writes in guest memory, before every device access, in the
frame-end sleep and at the ECALL that ends the run. At an instant it makes a free list of moves; each effect of a capture step is a move of its own, so the hart may see any
part of a step done and the rest not, as R83 and I16 say. Logs 3 and 8 to 12. -/

namespace Sys2Proof.Machine

open Sys2Proof

/-- `x mod size` for a ring of `size` bytes; for a ring of size 0 the spec states no value (log 10). -/
def ringMod (n : Nat) (x size : Word) : Word := if size = 0 then Config.ringModZero n x else x % size

/-! ## What one capture step does -/

/-- CURR after the step has set it: `CURR + k`, or what the hart has written there since (R83). -/
def CaptureSeen.sum (c : CaptureSeen) : Word := c.currNow.getD (c.curr + BitVec.ofNat 32 c.count)

/-- "if that exceeds SIZE" (R83). -/
def CaptureSeen.overflows (c : CaptureSeen) : Bool := c.limit.ult c.sum

/-- TAIL after the step has set it: `(TAIL + k) mod SIZE`, or what the hart has written there since (R83). -/
def CaptureSeen.newTail (c : CaptureSeen) : Word :=
  c.tailNow.getD (ringMod c.draw (c.tail + BitVec.ofNat 32 c.count) c.size)

/-- Where sample `j` goes: `ADDR + TAIL + j`, wrapping at SIZE (R83). Of more than SIZE samples only the last SIZE
remain in the ring, so only they are written (log 9). -/
def CaptureSeen.byteAddr (c : CaptureSeen) (j : Nat) : Option Word :=
  if c.count ≤ j + c.size.toNat then some (c.addr + (c.tail + BitVec.ofNat 32 j) % c.size) else none

/-- The address of guest memory that an effect writes, if it writes one. -/
def CaptureEffect.target (e : CaptureEffect) : Option Word :=
  match e.part with
  | .byte j _ => e.seen.byteAddr j
  | .tail | .curr | .head | .full => none

/-- `part` is still to be performed. -/
def isDue (part : CapturePart) (pending : List CaptureEffect) : Bool := pending.any (fun e => e.part == part)

/-- The effect may be performed: CURR is set to SIZE only after the step has set it to `CURR + k`; the order is free
otherwise (R83; log 9). -/
def CaptureEffect.isReady (e : CaptureEffect) (pending : List CaptureEffect) : Bool :=
  !(e.part == .full && isDue .curr pending)

/-- The effects of one capture step that appends `samples` (R83, D27). -/
def captureEffects (c : CaptureSeen) (samples : List Byte) : List CaptureEffect :=
  samples.mapIdx (fun j v => ⟨.byte j v, c⟩) ++ [⟨.tail, c⟩, ⟨.curr, c⟩, ⟨.head, c⟩, ⟨.full, c⟩]

/-! ## The agent's view of the machine -/

/-- What the agent can change (R83): guest memory, AUDIO_IN_HEAD, TAIL and CURR, its hold of the mutex, and what its
step has still to do. -/
structure CaptureRing where
  mem : List Host.Cell
  head : Word
  tail : Word
  curr : Word
  owner : MutexOwner
  pending : List CaptureEffect

def State.ring (s : State) : CaptureRing where
  mem := s.mem
  head := s.dev.audioIn[2]
  tail := s.dev.audioIn[3]
  curr := s.dev.audioIn[5]
  owner := s.dev.audioOwner
  pending := s.dev.capturePending

/-- There is or has been a ring: while there has been none, no effect of the agent names a byte (log 33). -/
def State.hasRing (s : State) : Bool := s.dev.ringMade || s.dev.audioIn[4] != 0

/-- The machine after the agent has left its part of it as `r`. -/
def State.withRing (s : State) (r : CaptureRing) : State :=
  { s with
    mem := if s.hasRing then r.mem else s.mem
    dev := { s.dev with
      audioIn := #v[s.dev.audioIn[0], s.dev.audioIn[1], r.head, r.tail, s.dev.audioIn[4], r.curr, s.dev.audioIn[6]]
      audioOwner := r.owner
      capturePending := r.pending } }

/-! ## The moves of the agent -/

/-- Perform one effect. The bytes go to guest memory itself, not through the address decoder (log 12). -/
def applyEffect (p : Params) (r : CaptureRing) (e : CaptureEffect) : CaptureRing :=
  match e.part with
  | .byte j v =>
    match e.seen.byteAddr j with
    | some a => { r with mem := sparseSet r.mem (backingIndex p a) v }
    | none => r
  | .tail => { r with tail := e.seen.newTail }
  | .curr => { r with curr := e.seen.sum }
  | .head => if e.seen.overflows then { r with head := e.seen.newTail } else r
  | .full => if e.seen.overflows then { r with curr := e.seen.size } else r

/-- What a step that appends `count` samples reads when it starts. -/
def State.captureSeen (s : State) (r : CaptureRing) (count : Nat) : CaptureSeen where
  addr := s.dev.audioIn[1]
  tail := r.tail
  size := s.dev.audioIn[4]
  limit := s.dev.audioIn[4]
  curr := r.curr
  tailNow := none
  currNow := none
  count := count
  draw := s.draws

/-- One move of the agent. A step starts where the mutex is free, with the audio-in registers as they are then, and
owns the mutex until it has performed every effect and released it (R83); a move that is not possible does
nothing. -/
def captureMove (s : State) (r : CaptureRing) : CaptureMove → CaptureRing
  | .start samples =>
    if r.owner = .free then
      { r with owner := .capture, pending := captureEffects (s.captureSeen r samples.length) samples }
    else r
  | .act i =>
    if r.owner = .capture then
      match r.pending[i]? with
      | some e =>
        if e.isReady r.pending then applyEffect s.params { r with pending := r.pending.eraseIdx i } e else r
      | none => r
    else r
  | .release => if r.owner = .capture ∧ r.pending = [] then { r with owner := .free } else r

/-- The agent's part of the machine after a free list of moves; while the hart owns the mutex it makes none. -/
def instantRing (s : State) : CaptureRing :=
  if s.dev.audioOwner = .hart then s.ring else (Config.captureMoves s.draws).foldl (captureMove s) s.ring

/-- An instant at which the agent may act. -/
def captureInstant (s : State) : State :=
  { s.withRing (instantRing s) with draws := if s.dev.audioOwner = .hart then s.draws else s.draws + 1 }

/-- The agent completes the step in progress and releases the mutex, as it must (60_exceptions R247,
70_reset R256): what a hart that waits for the mutex waits for. -/
def finishCapture (s : State) : State :=
  if s.dev.audioOwner = .capture then
    s.withRing { s.dev.capturePending.foldl (applyEffect s.params) s.ring with owner := .free, pending := [] }
  else s

/-! ## Writes of the hart during a step -/

/-- What has been read for an effect, after the hart has written `v` to audio-in register `i`. `again 0` says that the
register is read after the write, and `again 1` the same of SIZE where CURR is held against it. A read of TAIL or CURR
that is made after the write is the one for setting it, as long as that is due, and the later one that HEAD and the
overflow need once it is done (R83; log 9). -/
def CaptureSeen.reread (c : CaptureSeen) (again : Nat → Bool) (tailDue currDue : Bool) (i : Fin 7) (v : Word) :
    CaptureSeen where
  addr := if i = 1 ∧ again 0 then v else c.addr
  tail := if i = 3 ∧ tailDue ∧ again 0 then v else c.tail
  size := if i = 4 ∧ again 0 then v else c.size
  limit := if i = 4 ∧ again 1 then v else c.limit
  curr := if i = 5 ∧ currDue ∧ again 0 then v else c.curr
  tailNow := if i = 3 ∧ !tailDue ∧ again 0 then some v else c.tailNow
  currNow := if i = 5 ∧ !currDue ∧ again 0 then some v else c.currNow
  count := c.count
  draw := c.draw

/-- The effects still to be performed after the hart has written `v` to audio-in register `i`: each of them may have
read the register before the write, or reads it after (R83; log 9). -/
def rereadPending (n : Nat) (i : Fin 7) (v : Word) (pending : List CaptureEffect) : List CaptureEffect :=
  pending.mapIdx (fun k e => { e with
    seen := e.seen.reread (Config.captureReread n k) (isDue .tail pending) (isDue .curr pending) i v })

end Sys2Proof.Machine
end

