-- ==== Sys2Proof/Machine/Device.lean ====
section
/-! DEFINITION. The device-register multiplexer (20_memory R67 to R79): which register an address selects, and
what a read and a write of it does. The copy that a write of DISP_BITBLT_WH starts is in Ops.lean, since it
goes through the address decoder again. -/

namespace Sys2Proof.Machine

open Sys2Proof

/-- The device registers (20_memory R69). -/
inductive DevReg where
  | stdio
  | stderr
  | getch
  | kbhit
  | consoleClear
  | consoleGoto
  | sleep
  | keybd (i : Fin 4)
  | mouseXy
  | mouseBtn
  | display (i : Fin 8)
  | audioOut (i : Fin 7)
  | audioIn (i : Fin 7)
  | mtimecurL
  | mtimecurH
  | mtimecmpL
  | mtimecmpH
  | realtime
  | diskSectorNum
  | diskSectorSize
  | diskSectorIdx
  | diskSectorDat
  | cpuFreq
deriving DecidableEq, Repr

/-- The scalar register at exactly this address (R67). -/
def selectScalar (m : DevMap) (a : Word) : Option DevReg :=
  if a = m.stdio then some .stdio
  else if a = m.stderr then some .stderr
  else if a = m.getch then some .getch
  else if a = m.kbhit then some .kbhit
  else if a = m.consoleClear then some .consoleClear
  else if a = m.consoleGoto then some .consoleGoto
  else if a = m.sleep then some .sleep
  else if a = m.mouseXy then some .mouseXy
  else if a = m.mouseBtn then some .mouseBtn
  else if a = m.mtimecurL then some .mtimecurL
  else if a = m.mtimecurH then some .mtimecurH
  else if a = m.mtimecmpL then some .mtimecmpL
  else if a = m.mtimecmpH then some .mtimecmpH
  else if a = m.realtime then some .realtime
  else if a = m.diskSectorNum then some .diskSectorNum
  else if a = m.diskSectorSize then some .diskSectorSize
  else if a = m.diskSectorIdx then some .diskSectorIdx
  else if a = m.diskSectorDat then some .diskSectorDat
  else if a = m.cpuFreq then some .cpuFreq
  else none

/-- The index of the register of a block of `k` at `base` that an address selects: `floor((addr - B) / 4)` where
`B <= addr < B + 4k` (R67). -/
def blockIndex (base : Word) (k : Nat) (a : Word) : Option (Fin k) :=
  if h : base.toNat ≤ a.toNat ∧ a.toNat < base.toNat + 4 * k then
    some ⟨(a.toNat - base.toNat) / 4, by omega⟩
  else none

/-- The register an address of the device window selects, if any (R67, R68). -/
def select (m : DevMap) (a : Word) : Option DevReg :=
  match selectScalar m a with
  | some r => some r
  | none =>
    match blockIndex m.keybdBase 4 a with
    | some i => some (.keybd i)
    | none =>
      match blockIndex m.displayBase 8 a with
      | some i => some (.display i)
      | none =>
        match blockIndex m.audioOutBase 7 a with
        | some i => some (.audioOut i)
        | none =>
          match blockIndex m.audioInBase 7 a with
          | some i => some (.audioIn i)
          | none => none

/-- A fresh sample of the host's monotonic clock: a draw no smaller than every earlier sample or read
(60_exceptions R231, 20_memory R77). -/
def sampleClock (s : State) : DWord :=
  if s.clockSeen.ule (Config.hostClock s.draws) then Config.hostClock s.draws else s.clockSeen

/-- The state after a clock sample. -/
def afterSample (s : State) : State := { s.drawn with clockSeen := sampleClock s }

/-- A 32-bit host draw and the state after it. -/
def drawWord (s : State) : Word × State := (Config.hostWord s.draws, s.drawn)

/-- A byte of the disk file below its length (R78; log 16). -/
def diskByte (d : DiskFile) (pos : Nat) : Byte :=
  match d.cells.find? (fun c => c.1 == pos) with
  | some c => c.2
  | none => Config.diskGap pos

/-- The disk file with one byte written; a write past the end extends it (R78, D31). -/
def diskWrite (d : DiskFile) (pos : Nat) (v : Byte) : DiskFile where
  size := max d.size (pos + 1)
  cells := sparseInsert d.cells pos v

/-- A read of DISK_SECTOR_DAT (R78). -/
def readDiskData (s : State) : Word × State :=
  match s.dev.disk with
  | none => (s.params.diskEof, s)
  | some d =>
    if s.dev.diskPos < d.size then
      ((diskByte d s.dev.diskPos).setWidth 32,
        { s with dev := { s.dev with diskPos := s.dev.diskPos + 1 } })
    else (s.params.diskEof, s)

/-- The read value of a device register and the state after the read (R68 to R79). -/
def devRead (r : Option DevReg) (s : State) : Word × State :=
  match r with
  | none => drawWord s
  | some .stdio | some .stderr | some .getch | some .kbhit | some .consoleClear | some .consoleGoto
  | some .sleep | some (.keybd _) | some .mouseXy | some .mouseBtn | some .realtime => drawWord s
  | some (.display i) => (s.dev.display[i.val], s)
  | some (.audioOut i) => (s.dev.audioOut[i.val], s)
  | some (.audioIn i) => (s.dev.audioIn[i.val], s)
  | some .mtimecurL => ((sampleClock s).extractLsb' 0 32, afterSample s)
  | some .mtimecurH => ((sampleClock s).extractLsb' 32 32, afterSample s)
  | some .mtimecmpL => (s.mtimecmp.extractLsb' 0 32, s)
  | some .mtimecmpH => (s.mtimecmp.extractLsb' 32 32, s)
  | some .diskSectorNum => (if s.dev.disk.isSome then s.params.diskSectorNum else 0, s)
  | some .diskSectorSize => (if s.dev.disk.isSome then s.params.diskSectorSize else 0, s)
  | some .diskSectorIdx => if s.dev.disk.isSome then drawWord s else (0, s)
  | some .diskSectorDat => readDiskData s
  | some .cpuFreq => (s.dev.cpuFreq, s)

/-- A host device after a (re)initialisation: free, but a failed one stays disabled for the session
(70_reset R249, log 21). -/
def reinit (n : Nat) (old : DeviceStatus) : DeviceStatus :=
  if old = .disabled then .disabled else Config.hostDevice n

/-- A write of a display register (R73): stored; a changed DISP_WH reinitialises the host's display. -/
def storeDisplay (i : Fin 8) (v : Word) (s : State) : State :=
  let stored := { s with dev := { s.dev with display := s.dev.display.set i.val v i.isLt } }
  if i = 0 ∧ v ≠ s.dev.display[0] then
    { (stored.drawn.send (.displayInit v)) with
      dev := { stored.dev with displayDev := reinit s.draws s.dev.displayDev } }
  else stored

/-- A write of an audio-out register (R75): stored; a changed FMT reinitialises the host's audio device. -/
def storeAudioOut (i : Fin 7) (v : Word) (s : State) : State :=
  let stored := { s with dev := { s.dev with audioOut := s.dev.audioOut.set i.val v i.isLt } }
  if i = 0 ∧ v ≠ s.dev.audioOut[0] then
    { (stored.drawn.send (.audioOutInit v)) with
      dev := { stored.dev with audioOutDev := reinit s.draws s.dev.audioOutDev } }
  else stored

/-- A write of AUDIO_IN_LOCK (R76). Taking the mutex while the capture agent owns it waits until the agent has
finished its step and released it (log 13). -/
def storeAudioLock (v : Word) (s : State) : Except Refusal State :=
  if v = 0 then
    if s.dev.audioOwner = .hart then
      .ok { s with dev := { s.dev with audioIn := s.dev.audioIn.set 6 v, audioOwner := .free } }
    else .error .audioLockNotOwned
  else
    if s.dev.audioOwner = .hart then .error .audioLockRetaken
    else
      let s' := finishCapture s
      .ok { s' with dev := { s'.dev with audioIn := s'.dev.audioIn.set 6 v, audioOwner := .hart } }

/-- An audio-in register other than LOCK with `v` stored in it (R76). A capture step in progress may read the register
before or after the write (R83). -/
def storeAudioReg (i : Fin 7) (v : Word) (s : State) : State :=
  { s with
    draws := if s.dev.audioOwner = .capture then s.draws + 1 else s.draws
    dev := { s.dev with
      audioIn := s.dev.audioIn.set i.val v i.isLt
      capturePending :=
        if s.dev.audioOwner = .capture then rereadPending s.draws i v s.dev.capturePending
        else s.dev.capturePending
      ringMade := s.dev.ringMade || (i == 4 && v != 0) } }

/-- A write of an audio-in register (R76): stored; a changed FMT starts or stops recording; LOCK takes or
releases the mutex. -/
def storeAudioIn (i : Fin 7) (v : Word) (s : State) : Except Refusal State :=
  if i = 6 then storeAudioLock v s
  else
    let stored := storeAudioReg i v s
    if i = 0 ∧ v ≠ s.dev.audioIn[0] then
      .ok { (stored.drawn.send (.audioInInit v)) with
        dev := { stored.dev with audioInDev := reinit s.draws s.dev.audioInDev } }
    else .ok stored

/-- A write of DISK_SECTOR_IDX (R78): the cursor moves to `u(v) * 512`; dropped when no disk is open. -/
def storeDiskIndex (v : Word) (s : State) : State :=
  if s.dev.disk.isSome then
    { s with dev := { s.dev with diskPos := v.toNat * sectorBytes, diskIndex := v } }
  else s

/-- A write of DISK_SECTOR_DAT (R78): the byte `v[7:0]` at the cursor, which advances; dropped when no disk is
open. -/
def storeDiskData (v : Word) (s : State) : State :=
  match s.dev.disk with
  | none => s
  | some d =>
    { s with dev := { s.dev with
        disk := some (diskWrite d s.dev.diskPos (v.setWidth 8))
        diskPos := s.dev.diskPos + 1 } }

/-- `v` in one half of the timer compare value, the other half unchanged (R77). -/
def withLow (t : DWord) (v : Word) : DWord := t.extractLsb' 32 32 ++ v
def withHigh (t : DWord) (v : Word) : DWord := v ++ t.extractLsb' 0 32

/-- The flush value of STDIO and STDERR (R70). -/
def flushValue : Word := 0xFFFFFFFF#32

/-- What a write of `v` to a device register does, but for the copy that DISP_BITBLT_WH starts (R68 to R79).
The whole register is replaced (R67). -/
def devStore (r : Option DevReg) (v : Word) (s : State) : Except Refusal State :=
  match r with
  | none => .ok s
  | some .stdio => .ok (s.send (if v = flushValue then .stdoutFlush else .stdoutByte (v.setWidth 8)))
  | some .stderr => .ok (s.send (if v = flushValue then .stderrFlush else .stderrByte (v.setWidth 8)))
  | some .consoleClear => .ok (s.send (.consoleClear v))
  | some .consoleGoto => .ok (s.send (.consoleGoto v))
  | some .sleep => .ok (s.send (.sleep v))
  | some .realtime => .ok (s.send (.realtimeAdjust v))
  | some .getch | some .kbhit | some (.keybd _) | some .mouseXy | some .mouseBtn
  | some .mtimecurL | some .mtimecurH | some .diskSectorNum | some .diskSectorSize => .ok s
  | some (.display i) => .ok (storeDisplay i v s)
  | some (.audioOut i) => .ok (storeAudioOut i v s)
  | some (.audioIn i) => storeAudioIn i v s
  | some .mtimecmpL => .ok { s with mtimecmp := withLow s.mtimecmp v }
  | some .mtimecmpH => .ok { s with mtimecmp := withHigh s.mtimecmp v }
  | some .diskSectorIdx => .ok (storeDiskIndex v s)
  | some .diskSectorDat => .ok (storeDiskData v s)
  | some .cpuFreq =>
    .ok { s with dev := { s.dev with cpuFreq := if v.ult s.params.cpuFreqMax then v else s.params.cpuFreqMax } }

end Sys2Proof.Machine
end

