-- ==== Sys2Proof/Machine/Ops.lean ====
section
/-! DEFINITION. The named operations over registers, memory and CSRs that every meaning uses: the access paths
`MemRead` and `MemWrite` (20_memory R58, R59), the bit-blt (R74), the end of an instruction (30_encoding R90,
R92), trap entry (60_exceptions R232, R233) and the return from it (43_system R181). -/

namespace Sys2Proof.Machine

open Sys2Proof

/-- The outcome of an instruction. -/
abbrev Result := Host.Outcome State Fault Refusal

/-! ## Registers -/

/-- `x[r]` as a source operand: x0 reads as 0 (10_state R30). -/
def State.getReg (s : State) (r : Reg) : Word := if r = 0 then 0 else s.regs[r.toNat]'(r.isLt)

/-- `x[r] <- v`. A value written to x0 lasts until the end of the instruction, which forces x0 to 0
(30_encoding R92). -/
def State.setReg (s : State) (r : Reg) (v : Word) : State := { s with regs := s.regs.set r.toNat v r.isLt }

/-- `f[r]` (10_state R32). -/
def State.getFreg (s : State) (r : Reg) : DWord := s.fregs[r.toNat]'(r.isLt)

/-- `f[r] <- v`. -/
def State.setFreg (s : State) (r : Reg) (v : DWord) : State := { s with fregs := s.fregs.set r.toNat v r.isLt }

/-! ## The end of an instruction -/

/-- The end of an instruction whose `npc` is `target`: the pc takes it and x0 is forced to 0 (R90, R92). -/
def State.jumpTo (s : State) (target : Word) : State := { s with pc := target, regs := s.regs.set 0 0 }

/-- The end of an instruction of `len` bytes that transfers no control: `npc = pc + len` (00_scope R26). -/
def State.retire (s : State) (len : Word) : State := s.jumpTo (s.pc + len)

/-- An instruction of `len` bytes whose one effect is `x[rd] <- v`. -/
def retireWith (len : Word) (rd : Reg) (v : Word) (s : State) : Result := .next ((s.setReg rd v).retire len)

/-- An instruction of `len` bytes that ends after an effect that may be refused. -/
def retireAfter (len : Word) (r : Except Refusal State) : Result :=
  match r with
  | .ok s => .next (s.retire len)
  | .error e => .refused e

/-- What a word that matches no row does (30_encoding R104): a no-op of `len` bytes, or a refusal. -/
def unmatched (len : Word) (s : State) : Result :=
  match s.params.decodeReserved with
  | .noop => .next (s.retire len)
  | .refuse => .refused .reservedEncoding

/-! ## Memory -/

/-- The access widths (20_memory R58). -/
inductive Width where
  | byte
  | half
  | word
deriving DecidableEq, Repr

def Width.bytes : Width → Nat
  | .byte => 1
  | .half => 2
  | .word => 4

/-- The low `8n` bits, zero-extended (R67). -/
def Width.low (w : Width) (v : Word) : Word :=
  match w with
  | .byte => (v.setWidth 8).setWidth 32
  | .half => (v.setWidth 16).setWidth 32
  | .word => v

/-- `n` bytes of guest memory from `a` on, each byte address reduced separately, the first byte lowest
(R57, R58); before each byte the capture agent may act (R83). -/
def readBytes : Nat → Word → State → Word × State
  | 0, _, s => (0, s)
  | n + 1, a, s =>
    let s1 := captureInstant s
    let r := readBytes n (a + 1) s1
    ((s1.byteAt a).setWidth 32 ||| r.1 <<< 8, r.2)

/-- The low `n` bytes of `v` to guest memory from `a` on (R57, R59). -/
def writeBytes : Nat → Word → Word → State → State
  | 0, _, _, s => s
  | n + 1, a, v, s => writeBytes n (a + 1) (v >>> 8) ((captureInstant s).setByte a (v.setWidth 8))

/-- The address decoder (R55): the start address alone decides. -/
def isDevice (a : Word) : Bool := !(a.ult deviceBase)

/-- The device register that an access at `a` is dispatched to, if it is one (R55, R67). -/
def State.selects (s : State) (a : Word) : Option DevReg := if isDevice a then select s.params.devAddr a else none

/-- `MemRead(addr, n)` (R58): the value, zero-extended, and the state after the access. -/
def memRead (w : Width) (a : Word) (s : State) : Word × State :=
  if isDevice a then
    let r := devRead (s.selects a) (captureInstant s)
    (w.low r.1, r.2)
  else readBytes w.bytes a s

/-- The `n` bytes at `a` and the four bytes at `r` share an address (42_rv32a R166; log 23). -/
def overlaps (n : Nat) (a r : Word) : Bool := (List.range n).any (fun i => (a + BitVec.ofNat 32 i - r).ult 4#32)

/-- Under STORE_BREAKS_RESERVATION = true a write that overlaps the reserved word clears the reservation
(42_rv32a R166). -/
def breakReservation (n : Nat) (a : Word) (s : State) : State :=
  if s.params.storeBreaksReservation then
    match s.mreserved with
    | some r => if overlaps n a r then { s with mreserved := none } else s
    | none => s
  else s

/-- `MemWrite(addr, n, v)` (R59) but for the copy that a write of DISP_BITBLT_WH starts. -/
def memStore (w : Width) (a v : Word) (s : State) : Except Refusal State :=
  (if isDevice a then devStore (s.selects a) (w.low v) (captureInstant s)
   else .ok (writeBytes w.bytes a v s)).map (breakReservation w.bytes a)

/-! ## The bit-blt (R74) -/

/-- `unpack` of a packed `(a, b)` word (R74, `PAIR_PACK`). -/
def unpack (q : BltParams) (v : Word) : Word × Word :=
  let hi := (v.extractLsb' 16 16).setWidth 32
  let lo := (v.extractLsb' 0 16).setWidth 32
  match q.pack with
  | .firstHigh => (hi, lo)
  | .firstLow => (lo, hi)

/-- What a bit-blt reads before it copies: the display's width and height, the destination, the size of the
rectangle and the source (R74). -/
structure Blt where
  width : Word
  height : Word
  dx : Word
  dy : Word
  w : Word
  h : Word
  source : Word

def bltOf (q : BltParams) (v : Vector Word 8) : Blt where
  width := (unpack q v[0]).1
  height := (unpack q v[0]).2
  dx := (unpack q v[6]).1
  dy := (unpack q v[6]).2
  w := (unpack q v[7]).1
  h := (unpack q v[7]).2
  source := v[5]

/-- The pixel of byte `j` of row `r` lies outside the display and `BLT_CLIP` skips it (R74; log 14). -/
def bltSkips (q : BltParams) (b : Blt) (r j : Nat) : Bool :=
  q.clip && (b.width.toNat ≤ b.dx.toNat + j / q.bpp || b.height.toNat ≤ b.dy.toNat + r)

/-- One byte of the copy: byte `j` of row `r`, through the address decoder both ways (R74). -/
def bltByte (q : BltParams) (b : Blt) (r j : Nat) (s : State) : Except Refusal State :=
  if bltSkips q b r j then .ok s
  else
    let bpp := BitVec.ofNat 32 q.bpp
    let row := BitVec.ofNat 32 r
    let col := BitVec.ofNat 32 j
    let got := memRead .byte (b.source + row * b.w * bpp + col) s
    memStore .byte (got.2.dev.display[1] + ((b.dy + row) * b.width + b.dx) * bpp + col) got.1 got.2

/-- One row of the copy. -/
def bltRow (q : BltParams) (b : Blt) (r : Nat) (s : State) : Except Refusal State :=
  (List.range (b.w.toNat * q.bpp)).foldlM (fun t j => bltByte q b r j t) s

/-- The copy that a write of DISP_BITBLT_WH starts (R74). Where the parameters are not fixed, a rectangle that
is not empty is refused. A byte of the copy that itself lands on DISP_BITBLT_WH stores there a value below 256,
whose rectangle is empty, so no copy starts within a copy (log 15). -/
def bitBlt (s : State) : Except Refusal State :=
  match s.params.blt with
  | some q =>
    let b := bltOf q s.dev.display
    (List.range b.h.toNat).foldlM (fun t r => bltRow q b r t) s
  | none =>
    if s.dev.display[7].extractLsb' 0 16 ≠ 0 ∧ s.dev.display[7].extractLsb' 16 16 ≠ 0 then .error .bitBltNotFixed
    else .ok s

/-- `MemWrite(addr, n, v)` (R59); a write of DISP_BITBLT_WH copies the rectangle before the store ends (R74). -/
def memWrite (w : Width) (a v : Word) (s : State) : Except Refusal State :=
  match memStore w a v s with
  | .ok s' => if s.selects a = some (.display 7) then bitBlt s' else .ok s'
  | .error e => .error e

/-- A 64-bit read: two 4-byte reads, the low word first (R60). -/
def memRead64 (a : Word) (s : State) : DWord × State :=
  let lo := memRead .word a s
  let hi := memRead .word (a + 4) lo.2
  (hi.1 ++ lo.1, hi.2)

/-- A 64-bit write: two 4-byte writes, the low word first (R60). -/
def memWrite64 (a : Word) (v : DWord) (s : State) : Except Refusal State :=
  match memWrite .word a (v.extractLsb' 0 32) s with
  | .ok s' => memWrite .word (a + 4) (v.extractLsb' 32 32) s'
  | .error e => .error e

/-! ## CSRs -/

/-- CSR numbers (10_state R42 to R47). -/
def mstatusNo : BitVec 12 := 0x300#12
def mieNo : BitVec 12 := 0x304#12
def mtvecNo : BitVec 12 := 0x305#12
def mepcNo : BitVec 12 := 0x341#12
def mcauseNo : BitVec 12 := 0x342#12
def mipNo : BitVec 12 := 0x344#12

/-- `csr[n]` (00_scope R24). -/
def State.csr (s : State) (n : BitVec 12) : Word := sparseGet s.csrs n.toNat

/-- `csr[n] <- v`, with no read-only check (00_scope R24). -/
def State.setCsr (s : State) (n : BitVec 12) (v : Word) : State := { s with csrs := sparseSet s.csrs n.toNat v }

/-- `v` with bit `i` replaced. -/
def setBit (v : Word) (i : Nat) (b : Bool) : Word :=
  (v &&& ~~~(1#32 <<< i)) ||| (if b then 1#32 <<< i else 0)

/-! ## Taking the interrupt and returning from it -/

/-- The machine timer's source number (60_exceptions R229). -/
def timerSource : Nat := 7

/-- `mstatus.MIE` and `mie[src]` are both 1 (R230, R232). -/
def State.interruptEnabled (s : State) (src : Nat) : Bool :=
  (s.csr mstatusNo).getLsbD 3 && (s.csr mieNo).getLsbD src

/-- `TrapTarget(src)` (R233). -/
def trapTarget (mtvec : Word) (src : Nat) : Word :=
  let base := mtvec &&& 0xFFFFFFFC#32
  if mtvec.extractLsb' 0 2 = 1 then base + 4#32 * BitVec.ofNat 32 src else base

/-- `mstatus` after trap entry: MPIE <- MIE, MIE <- 0 (R232). -/
def mstatusOnTrap (m : Word) : Word := setBit (setBit m 7 (m.getLsbD 3)) 3 false

/-- `TakeInterrupt(src)`, made between two steps with `pc` the next instruction's address (R232). -/
def takeInterrupt (src : Nat) (s : State) : State :=
  if s.interruptEnabled src then
    { ((((s.setCsr mstatusNo (mstatusOnTrap (s.csr mstatusNo))).setCsr mipNo
        (s.csr mipNo ||| 1#32 <<< src)).setCsr mcauseNo (0x80000000#32 ||| BitVec.ofNat 32 src)).setCsr mepcNo s.pc)
      with pc := trapTarget (s.csr mtvecNo) src }
  else s

/-- `mstatus` after MRET: MIE <- MPIE, MPIE <- 1 (43_system R181). -/
def mstatusOnReturn (m : Word) : Word := setBit (setBit m 3 (m.getLsbD 7)) 7 true

/-- The target of MRET: `mepc`, with bit 0 cleared under MRET_CLEARS_BIT0 (43_system R181). -/
def returnTarget (s : State) : Word :=
  if s.params.mretClearsBit0 then s.csr mepcNo &&& 0xFFFFFFFE#32 else s.csr mepcNo

/-- Return from the trap (43_system R181). -/
def returnFromTrap (s : State) : State :=
  (s.setCsr mstatusNo (mstatusOnReturn (s.csr mstatusNo))).jumpTo (returnTarget s)

end Sys2Proof.Machine
end

