-- ==== Sys2Proof/Machine/Operands.lean ====
section
/-! DEFINITION. Operand forms: sign and zero extension (00_scope R23), the compressed register fields
(30_encoding R99), effective addresses (40_rv32i R122, R128; 42_rv32a R164; 44_rvc), shift amounts (R132). -/

namespace Sys2Proof.Machine

open Sys2Proof

/-- `sext_n` to 32 bits (R23). -/
def sext {n : Nat} (v : BitVec n) : Word := v.signExtend 32

/-- `zext_n` to 32 bits (R23). -/
def zext {n : Nat} (v : BitVec n) : Word := v.setWidth 32

/-- The instruction lengths in bytes (30_encoding R89). -/
def len4 : Word := 4#32
def len2 : Word := 2#32

/-- The register that a 3-bit field names: x8..x15, f8..f15 (30_encoding R99). -/
def cReg (r : CReg) : Reg := 8#5 + r.setWidth 5

/-- The stack pointer and the link register of the compressed forms (10_state R29). -/
def spReg : Reg := 2#5
def raReg : Reg := 1#5

/-- ECALL's syscall number and result registers (43_system R179). -/
def a0Reg : Reg := 10#5
def a7Reg : Reg := 17#5

/-- `immU = imm << 12` (30_encoding R97). -/
def immUpper (imm : BitVec 20) : Word := imm ++ 0#12

/-- Base plus a signed 12-bit displacement (R122, R128). -/
def eaSigned (s : State) (rs1 : Reg) (imm : BitVec 12) : Word := s.getReg rs1 + sext imm

/-- Base plus an unsigned displacement: the compressed loads and stores (44_rvc). -/
def eaUnsigned {n : Nat} (s : State) (base : Reg) (imm : BitVec n) : Word := s.getReg base + zext imm

/-- A 5-bit shift amount taken from a register: `x[rs2][4:0]` (R132). -/
def shiftAmount (v : Word) : Nat := (v.extractLsb' 0 5).toNat

/-- Bit 0 cleared: the targets of JALR, C.JR, C.JALR (40_rv32i R114). -/
def clearBit0 (v : Word) : Word := v &&& 0xFFFFFFFE#32

end Sys2Proof.Machine
end

