-- ==== Sys2Proof/Machine/Alu.lean ====
section
/-! DEFINITION. The arithmetic of the register instructions: shifts (40_rv32i R132), products and quotients
(41_rv32m), the operations of the AMOs (42_rv32a R169 to R178). -/

namespace Sys2Proof.Machine

open Sys2Proof

def shl (a : Word) (n : Nat) : Word := a <<< n
def shrU (a : Word) (n : Nat) : Word := a >>> n
def shrS (a : Word) (n : Nat) : Word := a.sshiftRight n

/-- Bits 63:32 of an exact product (41_rv32m R155). -/
def highWord (p : Int) : Word := (BitVec.ofInt 64 p).extractLsb' 32 32

/-- R156 to R159. -/
def mulLow (a b : Word) : Word := a * b
def mulHighSS (a b : Word) : Word := highWord (a.toInt * b.toInt)
def mulHighSU (a b : Word) : Word := highWord (a.toInt * (b.toNat : Int))
def mulHighUU (a b : Word) : Word := highWord ((a.toNat : Int) * (b.toNat : Int))

/-- The most negative value and -1, the signed overflow of R155. -/
def signedOverflow (a b : Word) : Bool := a == 0x80000000#32 && b == 0xFFFFFFFF#32

/-- A division result, or `corner` where the spec fixes the case by DIV_CORNER (R155): that value under
`riscv`, a refusal under `refuse`. -/
def divResult (c : DivCorner) (isCorner : Bool) (corner ordinary : Word) : Except Refusal Word :=
  if isCorner then
    match c with
    | .riscv => .ok corner
    | .refuse => .error .divisionCorner
  else .ok ordinary

/-- R160: the quotient is rounded toward zero. -/
def divSigned (c : DivCorner) (a b : Word) : Except Refusal Word :=
  if b = 0 then divResult c true 0xFFFFFFFF#32 0
  else divResult c (signedOverflow a b) 0x80000000#32 (BitVec.ofInt 32 (a.toInt.tdiv b.toInt))

/-- R161. -/
def divUnsigned (c : DivCorner) (a b : Word) : Except Refusal Word :=
  divResult c (b == 0) 0xFFFFFFFF#32 (BitVec.ofNat 32 (a.toNat / b.toNat))

/-- R162: `a - b * trunc(a / b)`. -/
def remSigned (c : DivCorner) (a b : Word) : Except Refusal Word :=
  if b = 0 then divResult c true a 0
  else divResult c (signedOverflow a b) 0#32 (BitVec.ofInt 32 (a.toInt - b.toInt * a.toInt.tdiv b.toInt))

/-- R163. -/
def remUnsigned (c : DivCorner) (a b : Word) : Except Refusal Word :=
  divResult c (b == 0) a (BitVec.ofNat 32 (a.toNat % b.toNat))

/-- `OP(t, b)` of AMOMIN.W, AMOMAX.W, AMOMINU.W, AMOMAXU.W (R175 to R178). -/
def minS (t b : Word) : Word := if ltS t b then t else b
def maxS (t b : Word) : Word := if ltS b t then t else b
def minU (t b : Word) : Word := if ltU t b then t else b
def maxU (t b : Word) : Word := if ltU b t then t else b

end Sys2Proof.Machine
end

