-- ==== Sys2Proof/Machine/Arith.lean ====
section
/-! DEFINITION. RV32I register arithmetic and the fences (40_rv32i R111, R112, R132 to R153). -/

namespace Sys2Proof.Machine

open Sys2Proof

/-- LUI (R111). -/
def execLui (rd : Reg) (imm : BitVec 20) (s : State) : Result := retireWith len4 rd (immUpper imm) s

/-- AUIPC (R112): the pc is the address of this instruction. -/
def execAuipc (rd : Reg) (imm : BitVec 20) (s : State) : Result := retireWith len4 rd (s.pc + immUpper imm) s

/-- A register-immediate operation on `x[rs1]` and the sign-extended immediate (R132). -/
def opImm (f : Word → Word → Word) (rd rs1 : Reg) (imm : BitVec 12) (s : State) : Result :=
  retireWith len4 rd (f (s.getReg rs1) (sext imm)) s

/-- A shift by an immediate amount (R132). -/
def shiftImm (f : Word → Nat → Word) (rd rs1 : Reg) (shamt : BitVec 5) (s : State) : Result :=
  retireWith len4 rd (f (s.getReg rs1) shamt.toNat) s

/-- A register-register operation (R132). -/
def opReg (f : Word → Word → Word) (rd rs1 rs2 : Reg) (s : State) : Result :=
  retireWith len4 rd (f (s.getReg rs1) (s.getReg rs2)) s

/-- A shift by a register's low five bits (R132). -/
def shiftReg (f : Word → Nat → Word) (rd rs1 rs2 : Reg) (s : State) : Result :=
  retireWith len4 rd (f (s.getReg rs1) (shiftAmount (s.getReg rs2))) s

/-- ADDI (R133). -/
def execAddi (rd rs1 : Reg) (imm : BitVec 12) (s : State) : Result := opImm (· + ·) rd rs1 imm s

/-- SLTI (R134). -/
def execSlti (rd rs1 : Reg) (imm : BitVec 12) (s : State) : Result := opImm (fun a b => ofCond (ltS a b)) rd rs1 imm s

/-- SLTIU (R135). -/
def execSltiu (rd rs1 : Reg) (imm : BitVec 12) (s : State) : Result := opImm (fun a b => ofCond (ltU a b)) rd rs1 imm s

/-- XORI (R136). -/
def execXori (rd rs1 : Reg) (imm : BitVec 12) (s : State) : Result := opImm (· ^^^ ·) rd rs1 imm s

/-- ORI (R137). -/
def execOri (rd rs1 : Reg) (imm : BitVec 12) (s : State) : Result := opImm (· ||| ·) rd rs1 imm s

/-- ANDI (R138). -/
def execAndi (rd rs1 : Reg) (imm : BitVec 12) (s : State) : Result := opImm (· &&& ·) rd rs1 imm s

/-- SLLI (R139). -/
def execSlli (rd rs1 : Reg) (shamt : BitVec 5) (s : State) : Result := shiftImm shl rd rs1 shamt s

/-- SRLI (R140). -/
def execSrli (rd rs1 : Reg) (shamt : BitVec 5) (s : State) : Result := shiftImm shrU rd rs1 shamt s

/-- SRAI (R141). -/
def execSrai (rd rs1 : Reg) (shamt : BitVec 5) (s : State) : Result := shiftImm shrS rd rs1 shamt s

/-- ADD (R142). -/
def execAdd (rd rs1 rs2 : Reg) (s : State) : Result := opReg (· + ·) rd rs1 rs2 s

/-- SUB (R143). -/
def execSub (rd rs1 rs2 : Reg) (s : State) : Result := opReg (· - ·) rd rs1 rs2 s

/-- SLL (R144). -/
def execSll (rd rs1 rs2 : Reg) (s : State) : Result := shiftReg shl rd rs1 rs2 s

/-- SLT (R145). -/
def execSlt (rd rs1 rs2 : Reg) (s : State) : Result := opReg (fun a b => ofCond (ltS a b)) rd rs1 rs2 s

/-- SLTU (R146). -/
def execSltu (rd rs1 rs2 : Reg) (s : State) : Result := opReg (fun a b => ofCond (ltU a b)) rd rs1 rs2 s

/-- XOR (R147). -/
def execXor (rd rs1 rs2 : Reg) (s : State) : Result := opReg (· ^^^ ·) rd rs1 rs2 s

/-- SRL (R148). -/
def execSrl (rd rs1 rs2 : Reg) (s : State) : Result := shiftReg shrU rd rs1 rs2 s

/-- SRA (R149). -/
def execSra (rd rs1 rs2 : Reg) (s : State) : Result := shiftReg shrS rd rs1 rs2 s

/-- OR (R150). -/
def execOr (rd rs1 rs2 : Reg) (s : State) : Result := opReg (· ||| ·) rd rs1 rs2 s

/-- AND (R151). -/
def execAnd (rd rs1 rs2 : Reg) (s : State) : Result := opReg (· &&& ·) rd rs1 rs2 s

/-- FENCE (R152): a no-op; every field is ignored. -/
def execFence (_fm _pred _succ : BitVec 4) (_rs1 _rd : Reg) (s : State) : Result := .next (s.retire len4)

/-- FENCE.I (R153): a no-op; every field is ignored. -/
def execFenceI (_imm : BitVec 12) (_rs1 _rd : Reg) (s : State) : Result := .next (s.retire len4)

end Sys2Proof.Machine
end

