-- ==== Sys2Proof/Machine/Atomic.lean ====
section
/-! DEFINITION. RV32A (42_rv32a). `aq` and `rl` are ignored (R165). -/

namespace Sys2Proof.Machine

open Sys2Proof

/-- An AMO (R169): one 4-byte read, one 4-byte write at the same address, `x[rd]` receives the old word. -/
def amo (f : Word → Word → Word) (rd rs1 rs2 : Reg) (s : State) : Result :=
  let ea := s.getReg rs1
  let b := s.getReg rs2
  let r := memRead .word ea s
  retireAfter len4 ((memWrite .word ea (f r.1 b) r.2).map (fun t => t.setReg rd r.1))

/-- LR.W (R167): loads and reserves the address. -/
def execLrW (rd rs1 : Reg) (_aq _rl : BitVec 1) (s : State) : Result :=
  let ea := s.getReg rs1
  let r := memRead .word ea s
  .next (({ r.2.setReg rd r.1 with mreserved := some ea }).retire len4)

/-- SC.W (R168): stores where the reservation matches; the reservation is consumed either way. -/
def execScW (rd rs1 rs2 : Reg) (_aq _rl : BitVec 1) (s : State) : Result :=
  let ea := s.getReg rs1
  if s.mreserved = some ea then
    retireAfter len4 ((memWrite .word ea (s.getReg rs2) s).map
      (fun t => { t.setReg rd 0 with mreserved := none }))
  else .next (({ s.setReg rd 1 with mreserved := none }).retire len4)

/-- AMOSWAP.W (R170). -/
def execAmoswapW (rd rs1 rs2 : Reg) (_aq _rl : BitVec 1) (s : State) : Result := amo (fun _ b => b) rd rs1 rs2 s

/-- AMOADD.W (R171). -/
def execAmoaddW (rd rs1 rs2 : Reg) (_aq _rl : BitVec 1) (s : State) : Result := amo (· + ·) rd rs1 rs2 s

/-- AMOXOR.W (R172). -/
def execAmoxorW (rd rs1 rs2 : Reg) (_aq _rl : BitVec 1) (s : State) : Result := amo (· ^^^ ·) rd rs1 rs2 s

/-- AMOAND.W (R173). -/
def execAmoandW (rd rs1 rs2 : Reg) (_aq _rl : BitVec 1) (s : State) : Result := amo (· &&& ·) rd rs1 rs2 s

/-- AMOOR.W (R174). -/
def execAmoorW (rd rs1 rs2 : Reg) (_aq _rl : BitVec 1) (s : State) : Result := amo (· ||| ·) rd rs1 rs2 s

/-- AMOMIN.W (R175). -/
def execAmominW (rd rs1 rs2 : Reg) (_aq _rl : BitVec 1) (s : State) : Result := amo minS rd rs1 rs2 s

/-- AMOMAX.W (R176). -/
def execAmomaxW (rd rs1 rs2 : Reg) (_aq _rl : BitVec 1) (s : State) : Result := amo maxS rd rs1 rs2 s

/-- AMOMINU.W (R177). -/
def execAmominuW (rd rs1 rs2 : Reg) (_aq _rl : BitVec 1) (s : State) : Result := amo minU rd rs1 rs2 s

/-- AMOMAXU.W (R178). -/
def execAmomaxuW (rd rs1 rs2 : Reg) (_aq _rl : BitVec 1) (s : State) : Result := amo maxU rd rs1 rs2 s

end Sys2Proof.Machine
end

