-- ==== Sys2Proof/Machine/Control.lean ====
section
/-! DEFINITION. RV32I jumps and conditional branches (40_rv32i R113 to R121). -/

namespace Sys2Proof.Machine

open Sys2Proof

/-- A jump from an instruction of `len` bytes that writes the link `pc + len` to `rd` (R113, R114). -/
def jumpLink (len : Word) (rd : Reg) (target : Word) (s : State) : Result :=
  .next ((s.setReg rd (s.pc + len)).jumpTo target)

/-- A conditional branch of `len` bytes (R115). -/
def branch (len : Word) (taken : Bool) (offset : Word) (s : State) : Result :=
  if taken then .next (s.jumpTo (s.pc + offset)) else .next (s.retire len)

/-- JAL (R113). -/
def execJal (rd : Reg) (imm : BitVec 21) (s : State) : Result := jumpLink len4 rd (s.pc + sext imm) s

/-- JALR (R114): bit 0 of the target is cleared; the base is read before the link is written. -/
def execJalr (rd rs1 : Reg) (imm : BitVec 12) (s : State) : Result :=
  jumpLink len4 rd (clearBit0 (s.getReg rs1 + sext imm)) s

/-- BEQ (R116). -/
def execBeq (rs1 rs2 : Reg) (imm : BitVec 13) (s : State) : Result :=
  branch len4 (s.getReg rs1 == s.getReg rs2) (sext imm) s

/-- BNE (R117). -/
def execBne (rs1 rs2 : Reg) (imm : BitVec 13) (s : State) : Result :=
  branch len4 (s.getReg rs1 != s.getReg rs2) (sext imm) s

/-- BLT (R118). -/
def execBlt (rs1 rs2 : Reg) (imm : BitVec 13) (s : State) : Result :=
  branch len4 (ltS (s.getReg rs1) (s.getReg rs2)) (sext imm) s

/-- BGE (R119). -/
def execBge (rs1 rs2 : Reg) (imm : BitVec 13) (s : State) : Result :=
  branch len4 (!ltS (s.getReg rs1) (s.getReg rs2)) (sext imm) s

/-- BLTU (R120). -/
def execBltu (rs1 rs2 : Reg) (imm : BitVec 13) (s : State) : Result :=
  branch len4 (ltU (s.getReg rs1) (s.getReg rs2)) (sext imm) s

/-- BGEU (R121). -/
def execBgeu (rs1 rs2 : Reg) (imm : BitVec 13) (s : State) : Result :=
  branch len4 (!ltU (s.getReg rs1) (s.getReg rs2)) (sext imm) s

end Sys2Proof.Machine
end

