-- ==== Sys2Proof/Machine/LoadStore.lean ====
section
/-! DEFINITION. RV32I loads and stores (40_rv32i R122 to R131). -/

namespace Sys2Proof.Machine

open Sys2Proof

/-- A load of `len` bytes: `x[rd] <- ext (MemRead(ea, n))`; with `rd` = x0 the read is made all the same (R122). -/
def loadReg (len : Word) (w : Width) (ext : Word → Word) (rd : Reg) (ea : Word) (s : State) : Result :=
  let r := memRead w ea s
  retireWith len rd (ext r.1) r.2

/-- A store of `len` bytes: `MemWrite(ea, n, v)` (R128). -/
def storeReg (len : Word) (w : Width) (ea v : Word) (s : State) : Result := retireAfter len (memWrite w ea v s)

/-- `sext_8` and `sext_16` of a value read (R123, R124); the other loads take it as it is, zero-extended. -/
def sextByte (v : Word) : Word := sext (v.extractLsb' 0 8)
def sextHalf (v : Word) : Word := sext (v.extractLsb' 0 16)

/-- LB (R123). -/
def execLb (rd rs1 : Reg) (imm : BitVec 12) (s : State) : Result :=
  loadReg len4 .byte sextByte rd (eaSigned s rs1 imm) s

/-- LH (R124). -/
def execLh (rd rs1 : Reg) (imm : BitVec 12) (s : State) : Result :=
  loadReg len4 .half sextHalf rd (eaSigned s rs1 imm) s

/-- LW (R125). -/
def execLw (rd rs1 : Reg) (imm : BitVec 12) (s : State) : Result :=
  loadReg len4 .word id rd (eaSigned s rs1 imm) s

/-- LBU (R126). -/
def execLbu (rd rs1 : Reg) (imm : BitVec 12) (s : State) : Result :=
  loadReg len4 .byte id rd (eaSigned s rs1 imm) s

/-- LHU (R127). -/
def execLhu (rd rs1 : Reg) (imm : BitVec 12) (s : State) : Result :=
  loadReg len4 .half id rd (eaSigned s rs1 imm) s

/-- SB (R129). -/
def execSb (rs1 rs2 : Reg) (imm : BitVec 12) (s : State) : Result :=
  storeReg len4 .byte (eaSigned s rs1 imm) (s.getReg rs2) s

/-- SH (R130). -/
def execSh (rs1 rs2 : Reg) (imm : BitVec 12) (s : State) : Result :=
  storeReg len4 .half (eaSigned s rs1 imm) (s.getReg rs2) s

/-- SW (R131). -/
def execSw (rs1 rs2 : Reg) (imm : BitVec 12) (s : State) : Result :=
  storeReg len4 .word (eaSigned s rs1 imm) (s.getReg rs2) s

end Sys2Proof.Machine
end

