-- ==== Sys2Proof/Machine/Compressed.lean ====
section
/-! DEFINITION. RV32C (44_rvc): each form has the effect of its expansion with length 2 and link `pc + 2` (R190). -/

namespace Sys2Proof.Machine

open Sys2Proof

/-- A floating-point register move is decoded only if it is in FP_MOVES; otherwise its word matches no row
(44_rvc R191, 30_encoding R103, R104; log 5). -/
def fpMove (enabled : Bool) (s : State) (r : Result) : Result := if enabled then r else unmatched len2 s

/-- A 64-bit load into a slot (R191): two 4-byte reads, low word first. -/
def loadFreg64 (fd : Reg) (ea : Word) (s : State) : Result :=
  let r := memRead64 ea s
  .next ((r.2.setFreg fd r.1).retire len2)

/-- A 32-bit load into a slot (R191): `f[fd] <- zext_32(value)`. -/
def loadFreg32 (fd : Reg) (ea : Word) (s : State) : Result :=
  let r := memRead .word ea s
  .next ((r.2.setFreg fd (r.1.setWidth 64)).retire len2)

/-- A 64-bit store from a slot (R191). -/
def storeFreg64 (fs : Reg) (ea : Word) (s : State) : Result := retireAfter len2 (memWrite64 ea (s.getFreg fs) s)

/-- A 32-bit store of a slot's low word (R191). -/
def storeFreg32 (fs : Reg) (ea : Word) (s : State) : Result :=
  retireAfter len2 (memWrite .word ea ((s.getFreg fs).extractLsb' 0 32) s)

/-- C.ADDI4SPN (R192). -/
def execCAddi4spn (rd : CReg) (imm : BitVec 10) (s : State) : Result :=
  retireWith len2 (cReg rd) (s.getReg spReg + zext imm) s

/-- C.FLD (R193). -/
def execCFld (rd rs1 : CReg) (imm : BitVec 8) (s : State) : Result :=
  fpMove s.params.fpMoves.cFld s (loadFreg64 (cReg rd) (eaUnsigned s (cReg rs1) imm) s)

/-- C.LW (R194). -/
def execCLw (rd rs1 : CReg) (imm : BitVec 7) (s : State) : Result :=
  loadReg len2 .word id (cReg rd) (eaUnsigned s (cReg rs1) imm) s

/-- C.FLW (R195). -/
def execCFlw (rd rs1 : CReg) (imm : BitVec 7) (s : State) : Result :=
  fpMove s.params.fpMoves.cFlw s (loadFreg32 (cReg rd) (eaUnsigned s (cReg rs1) imm) s)

/-- C.FSD (R196). -/
def execCFsd (rs2 rs1 : CReg) (imm : BitVec 8) (s : State) : Result :=
  fpMove s.params.fpMoves.cFsd s (storeFreg64 (cReg rs2) (eaUnsigned s (cReg rs1) imm) s)

/-- C.SW (R197). -/
def execCSw (rs2 rs1 : CReg) (imm : BitVec 7) (s : State) : Result :=
  storeReg len2 .word (eaUnsigned s (cReg rs1) imm) (s.getReg (cReg rs2)) s

/-- C.FSW (R198). -/
def execCFsw (rs2 rs1 : CReg) (imm : BitVec 7) (s : State) : Result :=
  fpMove s.params.fpMoves.cFsw s (storeFreg32 (cReg rs2) (eaUnsigned s (cReg rs1) imm) s)

/-- C.NOP (R199): the immediate is ignored. -/
def execCNop (_imm : BitVec 6) (s : State) : Result := .next (s.retire len2)

/-- C.ADDI (R200). -/
def execCAddi (rd : Reg) (imm : BitVec 6) (s : State) : Result := retireWith len2 rd (s.getReg rd + sext imm) s

/-- C.JAL (R201). -/
def execCJal (imm : BitVec 12) (s : State) : Result := jumpLink len2 raReg (s.pc + sext imm) s

/-- C.LI (R202). -/
def execCLi (rd : Reg) (imm : BitVec 6) (s : State) : Result := retireWith len2 rd (sext imm) s

/-- C.ADDI16SP (R203). -/
def execCAddi16sp (imm : BitVec 10) (s : State) : Result := retireWith len2 spReg (s.getReg spReg + sext imm) s

/-- C.LUI (R204). -/
def execCLui (rd : Reg) (imm : BitVec 18) (s : State) : Result := retireWith len2 rd (sext imm) s

/-- A two-operand operation on a compressed register (R205 to R211). -/
def cOp (rd : CReg) (v : Word) (s : State) : Result := retireWith len2 (cReg rd) v s

/-- C.SRLI (R205). -/
def execCSrli (rd : CReg) (shamt : BitVec 5) (s : State) : Result := cOp rd (shrU (s.getReg (cReg rd)) shamt.toNat) s

/-- C.SRAI (R206). -/
def execCSrai (rd : CReg) (shamt : BitVec 5) (s : State) : Result := cOp rd (shrS (s.getReg (cReg rd)) shamt.toNat) s

/-- C.ANDI (R207). -/
def execCAndi (rd : CReg) (imm : BitVec 6) (s : State) : Result := cOp rd (s.getReg (cReg rd) &&& sext imm) s

/-- C.SUB (R208). -/
def execCSub (rd rs2 : CReg) (s : State) : Result := cOp rd (s.getReg (cReg rd) - s.getReg (cReg rs2)) s

/-- C.XOR (R209). -/
def execCXor (rd rs2 : CReg) (s : State) : Result := cOp rd (s.getReg (cReg rd) ^^^ s.getReg (cReg rs2)) s

/-- C.OR (R210). -/
def execCOr (rd rs2 : CReg) (s : State) : Result := cOp rd (s.getReg (cReg rd) ||| s.getReg (cReg rs2)) s

/-- C.AND (R211). -/
def execCAnd (rd rs2 : CReg) (s : State) : Result := cOp rd (s.getReg (cReg rd) &&& s.getReg (cReg rs2)) s

/-- C.J (R212). -/
def execCJ (imm : BitVec 12) (s : State) : Result := .next (s.jumpTo (s.pc + sext imm))

/-- C.BEQZ (R213). -/
def execCBeqz (rs1 : CReg) (imm : BitVec 9) (s : State) : Result :=
  branch len2 (s.getReg (cReg rs1) == 0) (sext imm) s

/-- C.BNEZ (R214). -/
def execCBnez (rs1 : CReg) (imm : BitVec 9) (s : State) : Result :=
  branch len2 (s.getReg (cReg rs1) != 0) (sext imm) s

/-- C.SLLI (R215). -/
def execCSlli (rd : Reg) (shamt : BitVec 5) (s : State) : Result :=
  retireWith len2 rd (shl (s.getReg rd) shamt.toNat) s

/-- C.FLDSP (R216). -/
def execCFldsp (rd : Reg) (imm : BitVec 9) (s : State) : Result :=
  fpMove s.params.fpMoves.cFldsp s (loadFreg64 rd (eaUnsigned s spReg imm) s)

/-- C.LWSP (R217). -/
def execCLwsp (rd : Reg) (imm : BitVec 8) (s : State) : Result := loadReg len2 .word id rd (eaUnsigned s spReg imm) s

/-- C.FLWSP (R218). -/
def execCFlwsp (rd : Reg) (imm : BitVec 8) (s : State) : Result :=
  fpMove s.params.fpMoves.cFlwsp s (loadFreg32 rd (eaUnsigned s spReg imm) s)

/-- C.JR (R219). -/
def execCJr (rs1 : Reg) (s : State) : Result := .next (s.jumpTo (clearBit0 (s.getReg rs1)))

/-- C.MV (R220). -/
def execCMv (rd rs2 : Reg) (s : State) : Result := retireWith len2 rd (s.getReg rs2) s

/-- C.EBREAK (R221): a no-op. -/
def execCEbreak (s : State) : Result := .next (s.retire len2)

/-- C.JALR (R222): the target is read before x1 is written. -/
def execCJalr (rs1 : Reg) (s : State) : Result := jumpLink len2 raReg (clearBit0 (s.getReg rs1)) s

/-- C.ADD (R223). -/
def execCAdd (rd rs2 : Reg) (s : State) : Result := retireWith len2 rd (s.getReg rd + s.getReg rs2) s

/-- C.FSDSP (R224). -/
def execCFsdsp (rs2 : Reg) (imm : BitVec 9) (s : State) : Result :=
  fpMove s.params.fpMoves.cFsdsp s (storeFreg64 rs2 (eaUnsigned s spReg imm) s)

/-- C.SWSP (R225). -/
def execCSwsp (rs2 : Reg) (imm : BitVec 8) (s : State) : Result :=
  storeReg len2 .word (eaUnsigned s spReg imm) (s.getReg rs2) s

/-- C.FSWSP (R226). -/
def execCFswsp (rs2 : Reg) (imm : BitVec 8) (s : State) : Result :=
  fpMove s.params.fpMoves.cFswsp s (storeFreg32 rs2 (eaUnsigned s spReg imm) s)

end Sys2Proof.Machine
end

