-- ==== Sys2Proof/Machine/MulDiv.lean ====
section
/-! DEFINITION. RV32M (41_rv32m). -/

namespace Sys2Proof.Machine

open Sys2Proof

/-- A multiplication (R155). -/
def mulReg (f : Word → Word → Word) (rd rs1 rs2 : Reg) (s : State) : Result :=
  retireWith len4 rd (f (s.getReg rs1) (s.getReg rs2)) s

/-- A division: its result, or the refusal that DIV_CORNER names (R155). -/
def divReg (f : DivCorner → Word → Word → Except Refusal Word) (rd rs1 rs2 : Reg) (s : State) : Result :=
  match f s.params.divCorner (s.getReg rs1) (s.getReg rs2) with
  | .ok v => retireWith len4 rd v s
  | .error e => .refused e

/-- MUL (R156). -/
def execMul (rd rs1 rs2 : Reg) (s : State) : Result := mulReg mulLow rd rs1 rs2 s

/-- MULH (R157). -/
def execMulh (rd rs1 rs2 : Reg) (s : State) : Result := mulReg mulHighSS rd rs1 rs2 s

/-- MULHSU (R158). -/
def execMulhsu (rd rs1 rs2 : Reg) (s : State) : Result := mulReg mulHighSU rd rs1 rs2 s

/-- MULHU (R159). -/
def execMulhu (rd rs1 rs2 : Reg) (s : State) : Result := mulReg mulHighUU rd rs1 rs2 s

/-- DIV (R160). -/
def execDiv (rd rs1 rs2 : Reg) (s : State) : Result := divReg divSigned rd rs1 rs2 s

/-- DIVU (R161). -/
def execDivu (rd rs1 rs2 : Reg) (s : State) : Result := divReg divUnsigned rd rs1 rs2 s

/-- REM (R162). -/
def execRem (rd rs1 rs2 : Reg) (s : State) : Result := divReg remSigned rd rs1 rs2 s

/-- REMU (R163). -/
def execRemu (rd rs1 rs2 : Reg) (s : State) : Result := divReg remUnsigned rd rs1 rs2 s

end Sys2Proof.Machine
end

