-- ==== Sys2Proof/Machine/System.lean ====
section
/-! DEFINITION. The system instructions and CSR access (43_system). -/

namespace Sys2Proof.Machine

open Sys2Proof

/-- ECALL (R179): syscall 93 sets EXIT; any other number returns 0 in x10. It does not trap. The capture agent may act
until the run has ended (20_memory R83), and no access follows at which it could (log 3). -/
def execEcall (s : State) : Result :=
  if s.getReg a7Reg = 93#32 then .next (({ captureInstant s with exitFlag := true }).retire len4)
  else retireWith len4 a0Reg 0 s

/-- EBREAK (R180): a no-op. -/
def execEbreak (s : State) : Result := .next (s.retire len4)

/-- MRET (R181). -/
def execMret (s : State) : Result := .next (returnFromTrap s)

/-- WFI (R182): a no-op. -/
def execWfi (s : State) : Result := .next (s.retire len4)

/-- The three kinds of CSR operation (R183). -/
inductive CsrKind where
  | write
  | set
  | clear
deriving DecidableEq, Repr

/-- `c[11:10] != 0b11` (10_state R40). -/
def csrWritable (c : BitVec 12) : Bool := c.extractLsb' 10 2 != 3#2

/-- The value an operation of this kind writes (R183). -/
def csrNew (kind : CsrKind) (old opnd : Word) : Word :=
  match kind with
  | .write => opnd
  | .set => old ||| opnd
  | .clear => old &&& ~~~opnd

/-- Whether an operation of this kind writes (R183): not in the read-only range, and the set and clear forms not
on a zero operand. -/
def csrDoesWrite (kind : CsrKind) (c : BitVec 12) (opnd : Word) : Bool :=
  match kind with
  | .write => csrWritable c
  | .set | .clear => csrWritable c && opnd != 0

/-- `CsrOp(kind, c, opnd)` (R183); `x[rd]` receives the value before the modification. -/
def csrOp (kind : CsrKind) (rd : Reg) (c : BitVec 12) (opnd : Word) (s : State) : Result :=
  let old := s.csr c
  let s' := if csrDoesWrite kind c opnd then s.setCsr c (csrNew kind old opnd) else s
  retireWith len4 rd old s'

/-- CSRRW (R184). -/
def execCsrrw (rd rs1 : Reg) (csr : BitVec 12) (s : State) : Result := csrOp .write rd csr (s.getReg rs1) s

/-- CSRRS (R185). -/
def execCsrrs (rd rs1 : Reg) (csr : BitVec 12) (s : State) : Result := csrOp .set rd csr (s.getReg rs1) s

/-- CSRRC (R186). -/
def execCsrrc (rd rs1 : Reg) (csr : BitVec 12) (s : State) : Result := csrOp .clear rd csr (s.getReg rs1) s

/-- CSRRWI (R187). -/
def execCsrrwi (rd : Reg) (uimm : BitVec 5) (csr : BitVec 12) (s : State) : Result := csrOp .write rd csr (zext uimm) s

/-- CSRRSI (R188). -/
def execCsrrsi (rd : Reg) (uimm : BitVec 5) (csr : BitVec 12) (s : State) : Result := csrOp .set rd csr (zext uimm) s

/-- CSRRCI (R189). -/
def execCsrrci (rd : Reg) (uimm : BitVec 5) (csr : BitVec 12) (s : State) : Result := csrOp .clear rd csr (zext uimm) s

end Sys2Proof.Machine
end

