-- ==== Sys2Proof/Machine/Dispatch.lean ====
section
/-! DEFINITION. The meaning of every instruction: one arm a constructor, in the order of
spec/opcode_table.json. -/

namespace Sys2Proof.Machine

open Sys2Proof

def exec (i : Instr) (s : State) : Host.Outcome State Fault Refusal :=
  match i with
  | .lui rd imm => Sys2Proof.Machine.execLui rd imm s
  | .auipc rd imm => Sys2Proof.Machine.execAuipc rd imm s
  | .jal rd imm => Sys2Proof.Machine.execJal rd imm s
  | .jalr rd rs1 imm => Sys2Proof.Machine.execJalr rd rs1 imm s
  | .beq rs1 rs2 imm => Sys2Proof.Machine.execBeq rs1 rs2 imm s
  | .bne rs1 rs2 imm => Sys2Proof.Machine.execBne rs1 rs2 imm s
  | .blt rs1 rs2 imm => Sys2Proof.Machine.execBlt rs1 rs2 imm s
  | .bge rs1 rs2 imm => Sys2Proof.Machine.execBge rs1 rs2 imm s
  | .bltu rs1 rs2 imm => Sys2Proof.Machine.execBltu rs1 rs2 imm s
  | .bgeu rs1 rs2 imm => Sys2Proof.Machine.execBgeu rs1 rs2 imm s
  | .lb rd rs1 imm => Sys2Proof.Machine.execLb rd rs1 imm s
  | .lh rd rs1 imm => Sys2Proof.Machine.execLh rd rs1 imm s
  | .lw rd rs1 imm => Sys2Proof.Machine.execLw rd rs1 imm s
  | .lbu rd rs1 imm => Sys2Proof.Machine.execLbu rd rs1 imm s
  | .lhu rd rs1 imm => Sys2Proof.Machine.execLhu rd rs1 imm s
  | .sb rs1 rs2 imm => Sys2Proof.Machine.execSb rs1 rs2 imm s
  | .sh rs1 rs2 imm => Sys2Proof.Machine.execSh rs1 rs2 imm s
  | .sw rs1 rs2 imm => Sys2Proof.Machine.execSw rs1 rs2 imm s
  | .addi rd rs1 imm => Sys2Proof.Machine.execAddi rd rs1 imm s
  | .slti rd rs1 imm => Sys2Proof.Machine.execSlti rd rs1 imm s
  | .sltiu rd rs1 imm => Sys2Proof.Machine.execSltiu rd rs1 imm s
  | .xori rd rs1 imm => Sys2Proof.Machine.execXori rd rs1 imm s
  | .ori rd rs1 imm => Sys2Proof.Machine.execOri rd rs1 imm s
  | .andi rd rs1 imm => Sys2Proof.Machine.execAndi rd rs1 imm s
  | .slli rd rs1 shamt => Sys2Proof.Machine.execSlli rd rs1 shamt s
  | .srli rd rs1 shamt => Sys2Proof.Machine.execSrli rd rs1 shamt s
  | .srai rd rs1 shamt => Sys2Proof.Machine.execSrai rd rs1 shamt s
  | .add rd rs1 rs2 => Sys2Proof.Machine.execAdd rd rs1 rs2 s
  | .sub rd rs1 rs2 => Sys2Proof.Machine.execSub rd rs1 rs2 s
  | .sll rd rs1 rs2 => Sys2Proof.Machine.execSll rd rs1 rs2 s
  | .slt rd rs1 rs2 => Sys2Proof.Machine.execSlt rd rs1 rs2 s
  | .sltu rd rs1 rs2 => Sys2Proof.Machine.execSltu rd rs1 rs2 s
  | .xor rd rs1 rs2 => Sys2Proof.Machine.execXor rd rs1 rs2 s
  | .srl rd rs1 rs2 => Sys2Proof.Machine.execSrl rd rs1 rs2 s
  | .sra rd rs1 rs2 => Sys2Proof.Machine.execSra rd rs1 rs2 s
  | .or rd rs1 rs2 => Sys2Proof.Machine.execOr rd rs1 rs2 s
  | .and rd rs1 rs2 => Sys2Proof.Machine.execAnd rd rs1 rs2 s
  | .fence fm pred succ rs1 rd => Sys2Proof.Machine.execFence fm pred succ rs1 rd s
  | .fenceI imm rs1 rd => Sys2Proof.Machine.execFenceI imm rs1 rd s
  | .mul rd rs1 rs2 => Sys2Proof.Machine.execMul rd rs1 rs2 s
  | .mulh rd rs1 rs2 => Sys2Proof.Machine.execMulh rd rs1 rs2 s
  | .mulhsu rd rs1 rs2 => Sys2Proof.Machine.execMulhsu rd rs1 rs2 s
  | .mulhu rd rs1 rs2 => Sys2Proof.Machine.execMulhu rd rs1 rs2 s
  | .div rd rs1 rs2 => Sys2Proof.Machine.execDiv rd rs1 rs2 s
  | .divu rd rs1 rs2 => Sys2Proof.Machine.execDivu rd rs1 rs2 s
  | .rem rd rs1 rs2 => Sys2Proof.Machine.execRem rd rs1 rs2 s
  | .remu rd rs1 rs2 => Sys2Proof.Machine.execRemu rd rs1 rs2 s
  | .lrW rd rs1 aq rl => Sys2Proof.Machine.execLrW rd rs1 aq rl s
  | .scW rd rs1 rs2 aq rl => Sys2Proof.Machine.execScW rd rs1 rs2 aq rl s
  | .amoswapW rd rs1 rs2 aq rl => Sys2Proof.Machine.execAmoswapW rd rs1 rs2 aq rl s
  | .amoaddW rd rs1 rs2 aq rl => Sys2Proof.Machine.execAmoaddW rd rs1 rs2 aq rl s
  | .amoxorW rd rs1 rs2 aq rl => Sys2Proof.Machine.execAmoxorW rd rs1 rs2 aq rl s
  | .amoandW rd rs1 rs2 aq rl => Sys2Proof.Machine.execAmoandW rd rs1 rs2 aq rl s
  | .amoorW rd rs1 rs2 aq rl => Sys2Proof.Machine.execAmoorW rd rs1 rs2 aq rl s
  | .amominW rd rs1 rs2 aq rl => Sys2Proof.Machine.execAmominW rd rs1 rs2 aq rl s
  | .amomaxW rd rs1 rs2 aq rl => Sys2Proof.Machine.execAmomaxW rd rs1 rs2 aq rl s
  | .amominuW rd rs1 rs2 aq rl => Sys2Proof.Machine.execAmominuW rd rs1 rs2 aq rl s
  | .amomaxuW rd rs1 rs2 aq rl => Sys2Proof.Machine.execAmomaxuW rd rs1 rs2 aq rl s
  | .ecall => Sys2Proof.Machine.execEcall s
  | .ebreak => Sys2Proof.Machine.execEbreak s
  | .mret => Sys2Proof.Machine.execMret s
  | .wfi => Sys2Proof.Machine.execWfi s
  | .csrrw rd rs1 csr => Sys2Proof.Machine.execCsrrw rd rs1 csr s
  | .csrrs rd rs1 csr => Sys2Proof.Machine.execCsrrs rd rs1 csr s
  | .csrrc rd rs1 csr => Sys2Proof.Machine.execCsrrc rd rs1 csr s
  | .csrrwi rd uimm csr => Sys2Proof.Machine.execCsrrwi rd uimm csr s
  | .csrrsi rd uimm csr => Sys2Proof.Machine.execCsrrsi rd uimm csr s
  | .csrrci rd uimm csr => Sys2Proof.Machine.execCsrrci rd uimm csr s
  | .cAddi4spn rd imm => Sys2Proof.Machine.execCAddi4spn rd imm s
  | .cFld rd rs1 imm => Sys2Proof.Machine.execCFld rd rs1 imm s
  | .cLw rd rs1 imm => Sys2Proof.Machine.execCLw rd rs1 imm s
  | .cFlw rd rs1 imm => Sys2Proof.Machine.execCFlw rd rs1 imm s
  | .cFsd rs2 rs1 imm => Sys2Proof.Machine.execCFsd rs2 rs1 imm s
  | .cSw rs2 rs1 imm => Sys2Proof.Machine.execCSw rs2 rs1 imm s
  | .cFsw rs2 rs1 imm => Sys2Proof.Machine.execCFsw rs2 rs1 imm s
  | .cNop imm => Sys2Proof.Machine.execCNop imm s
  | .cAddi rd imm => Sys2Proof.Machine.execCAddi rd imm s
  | .cJal imm => Sys2Proof.Machine.execCJal imm s
  | .cLi rd imm => Sys2Proof.Machine.execCLi rd imm s
  | .cAddi16sp imm => Sys2Proof.Machine.execCAddi16sp imm s
  | .cLui rd imm => Sys2Proof.Machine.execCLui rd imm s
  | .cSrli rd shamt => Sys2Proof.Machine.execCSrli rd shamt s
  | .cSrai rd shamt => Sys2Proof.Machine.execCSrai rd shamt s
  | .cAndi rd imm => Sys2Proof.Machine.execCAndi rd imm s
  | .cSub rd rs2 => Sys2Proof.Machine.execCSub rd rs2 s
  | .cXor rd rs2 => Sys2Proof.Machine.execCXor rd rs2 s
  | .cOr rd rs2 => Sys2Proof.Machine.execCOr rd rs2 s
  | .cAnd rd rs2 => Sys2Proof.Machine.execCAnd rd rs2 s
  | .cJ imm => Sys2Proof.Machine.execCJ imm s
  | .cBeqz rs1 imm => Sys2Proof.Machine.execCBeqz rs1 imm s
  | .cBnez rs1 imm => Sys2Proof.Machine.execCBnez rs1 imm s
  | .cSlli rd shamt => Sys2Proof.Machine.execCSlli rd shamt s
  | .cFldsp rd imm => Sys2Proof.Machine.execCFldsp rd imm s
  | .cLwsp rd imm => Sys2Proof.Machine.execCLwsp rd imm s
  | .cFlwsp rd imm => Sys2Proof.Machine.execCFlwsp rd imm s
  | .cJr rs1 => Sys2Proof.Machine.execCJr rs1 s
  | .cMv rd rs2 => Sys2Proof.Machine.execCMv rd rs2 s
  | .cEbreak => Sys2Proof.Machine.execCEbreak s
  | .cJalr rs1 => Sys2Proof.Machine.execCJalr rs1 s
  | .cAdd rd rs2 => Sys2Proof.Machine.execCAdd rd rs2 s
  | .cFsdsp rs2 imm => Sys2Proof.Machine.execCFsdsp rs2 imm s
  | .cSwsp rs2 imm => Sys2Proof.Machine.execCSwsp rs2 imm s
  | .cFswsp rs2 imm => Sys2Proof.Machine.execCFswsp rs2 imm s

end Sys2Proof.Machine
end

