-- ==== Sys2Proof/WellFormed.lean ====
section
/-! DEFINITION. Which terms of Instr an encoding has: the even offsets of 30_encoding R97, and the scaled,
even, non-zero and register constraints of R100 and of the rows of spec/opcode_table.json. -/

namespace Sys2Proof

/-- The low `n` bits of `v` are zero: an even offset (`n = 1`) or a scaled one. -/
def lowZero (n : Nat) (v : BitVec w) : Bool := v.extractLsb' 0 n == 0#n

/-- The terms that have an encoding. -/
def Instr.wf : Instr → Bool
  | .jal _ imm => lowZero 1 imm
  | .beq _ _ imm | .bne _ _ imm | .blt _ _ imm | .bge _ _ imm | .bltu _ _ imm | .bgeu _ _ imm => lowZero 1 imm
  | .cAddi4spn _ imm => lowZero 2 imm && imm != 0
  | .cFld _ _ imm | .cFsd _ _ imm => lowZero 3 imm
  | .cLw _ _ imm | .cFlw _ _ imm | .cSw _ _ imm | .cFsw _ _ imm => lowZero 2 imm
  | .cAddi rd _ => rd != 0
  | .cJal imm | .cJ imm => lowZero 1 imm
  | .cAddi16sp imm => lowZero 4 imm && imm != 0
  | .cLui rd imm => rd != 2 && (lowZero 12 imm && imm != 0)
  | .cBeqz _ imm | .cBnez _ imm => lowZero 1 imm
  | .cFldsp _ imm | .cFsdsp _ imm => lowZero 3 imm
  | .cLwsp rd imm => rd != 0 && lowZero 2 imm
  | .cFlwsp _ imm | .cSwsp _ imm | .cFswsp _ imm => lowZero 2 imm
  | .cJr rs1 | .cJalr rs1 => rs1 != 0
  | .cMv _ rs2 | .cAdd _ rs2 => rs2 != 0
  | .lui .. | .auipc .. | .jalr .. | .lb .. | .lh .. | .lw .. | .lbu .. | .lhu .. | .sb .. | .sh .. | .sw ..
  | .addi .. | .slti .. | .sltiu .. | .xori .. | .ori .. | .andi .. | .slli .. | .srli .. | .srai ..
  | .add .. | .sub .. | .sll .. | .slt .. | .sltu .. | .xor .. | .srl .. | .sra .. | .or .. | .and ..
  | .fence .. | .fenceI .. | .mul .. | .mulh .. | .mulhsu .. | .mulhu .. | .div .. | .divu .. | .rem .. | .remu ..
  | .lrW .. | .scW .. | .amoswapW .. | .amoaddW .. | .amoxorW .. | .amoandW .. | .amoorW .. | .amominW ..
  | .amomaxW .. | .amominuW .. | .amomaxuW .. | .ecall | .ebreak | .mret | .wfi | .csrrw .. | .csrrs ..
  | .csrrc .. | .csrrwi .. | .csrrsi .. | .csrrci .. | .cNop .. | .cLi .. | .cSrli .. | .cSrai .. | .cAndi ..
  | .cSub .. | .cXor .. | .cOr .. | .cAnd .. | .cSlli .. | .cEbreak => true

end Sys2Proof
end

