-- ==== Sys2Proof/Decode.lean ====
section
/-! DEFINITION. Length decision, decoding and encoding (30_encoding R89, R93 to R108). Decoding is total and
rejects by name; every field position, opcode and function code is the one of R93 to R102 and of the row of
spec/opcode_table.json. A row of a floating-point move is decoded here whatever `FP_MOVES` is; its meaning
tests the switch (log 5). -/

namespace Sys2Proof

/-- Why a word spells no instruction of the hart: the classes of 30_encoding R105 and R106. -/
inductive Reject where
  /-- a major opcode with no row -/
  | majorOpcode
  | jalrFunct3
  | branchFunct3
  | loadFunct3
  | storeFunct3
  | shiftImmFunct7
  | opFunct7
  | miscMemFunct3
  | amoFunct
  /-- LR.W with `rs2` not 0 -/
  | lrRs2
  | systemFunct
  /-- C.ADDI4SPN with a zero immediate, the halfword 0x0000 among them -/
  | addi4spnZero
  | quadrant0Funct4
  | addi16spZero
  | luiZero
  /-- a compressed shift amount of 32 or more -/
  | shamtHigh
  /-- quadrant 1, funct3 4, `h[11:10] = 3` and `h[12] = 1`: RV64 only -/
  | rv64Only
  | lwspRd0
  | jrRs0
  /-- fewer bytes than the instruction has -/
  | tooShort
deriving DecidableEq, Repr

/-- `v` at bit `lo` of a `w`-bit value, every other bit zero: `imm[lo + n - 1 : lo] = …` of R97 and R100. -/
def place (w lo : Nat) (v : BitVec n) : BitVec w := v.setWidth w <<< lo

/-! Immediates of the 32-bit formats (R97), before sign extension. -/

def immS (w : BitVec 32) : BitVec 12 :=
  place 12 5 (w.extractLsb' 25 7) ||| place 12 0 (w.extractLsb' 7 5)

def immB (w : BitVec 32) : BitVec 13 :=
  place 13 12 (w.extractLsb' 31 1) ||| place 13 11 (w.extractLsb' 7 1) |||
    place 13 5 (w.extractLsb' 25 6) ||| place 13 1 (w.extractLsb' 8 4)

def immJ (w : BitVec 32) : BitVec 21 :=
  place 21 20 (w.extractLsb' 31 1) ||| place 21 12 (w.extractLsb' 12 8) |||
    place 21 11 (w.extractLsb' 20 1) ||| place 21 1 (w.extractLsb' 21 10)

/-! Immediates of the compressed forms, row by row of the table of R100. -/

def immAddi4spn (h : BitVec 16) : BitVec 10 :=
  place 10 4 (h.extractLsb' 11 2) ||| place 10 6 (h.extractLsb' 7 4) |||
    place 10 2 (h.extractLsb' 6 1) ||| place 10 3 (h.extractLsb' 5 1)

/-- C.FLD, C.FSD. -/
def immCD (h : BitVec 16) : BitVec 8 :=
  place 8 3 (h.extractLsb' 10 3) ||| place 8 6 (h.extractLsb' 5 2)

/-- C.LW, C.SW, C.FLW, C.FSW. -/
def immCW (h : BitVec 16) : BitVec 7 :=
  place 7 3 (h.extractLsb' 10 3) ||| place 7 2 (h.extractLsb' 6 1) ||| place 7 6 (h.extractLsb' 5 1)

/-- C.NOP, C.ADDI, C.LI, C.ANDI. -/
def immCI (h : BitVec 16) : BitVec 6 :=
  place 6 5 (h.extractLsb' 12 1) ||| place 6 0 (h.extractLsb' 2 5)

/-- C.JAL, C.J. -/
def immCJ (h : BitVec 16) : BitVec 12 :=
  place 12 11 (h.extractLsb' 12 1) ||| place 12 4 (h.extractLsb' 11 1) ||| place 12 8 (h.extractLsb' 9 2) |||
    place 12 10 (h.extractLsb' 8 1) ||| place 12 6 (h.extractLsb' 7 1) ||| place 12 7 (h.extractLsb' 6 1) |||
    place 12 1 (h.extractLsb' 3 3) ||| place 12 5 (h.extractLsb' 2 1)

def immAddi16sp (h : BitVec 16) : BitVec 10 :=
  place 10 9 (h.extractLsb' 12 1) ||| place 10 4 (h.extractLsb' 6 1) ||| place 10 6 (h.extractLsb' 5 1) |||
    place 10 7 (h.extractLsb' 3 2) ||| place 10 5 (h.extractLsb' 2 1)

def immCLui (h : BitVec 16) : BitVec 18 :=
  place 18 17 (h.extractLsb' 12 1) ||| place 18 12 (h.extractLsb' 2 5)

/-- C.BEQZ, C.BNEZ. -/
def immCB (h : BitVec 16) : BitVec 9 :=
  place 9 8 (h.extractLsb' 12 1) ||| place 9 3 (h.extractLsb' 10 2) ||| place 9 6 (h.extractLsb' 5 2) |||
    place 9 1 (h.extractLsb' 3 2) ||| place 9 5 (h.extractLsb' 2 1)

/-- C.LWSP, C.FLWSP. -/
def immLwsp (h : BitVec 16) : BitVec 8 :=
  place 8 5 (h.extractLsb' 12 1) ||| place 8 2 (h.extractLsb' 4 3) ||| place 8 6 (h.extractLsb' 2 2)

def immFldsp (h : BitVec 16) : BitVec 9 :=
  place 9 5 (h.extractLsb' 12 1) ||| place 9 3 (h.extractLsb' 5 2) ||| place 9 6 (h.extractLsb' 2 3)

/-- C.SWSP, C.FSWSP. -/
def immSwsp (h : BitVec 16) : BitVec 8 :=
  place 8 2 (h.extractLsb' 9 4) ||| place 8 6 (h.extractLsb' 7 2)

def immFsdsp (h : BitVec 16) : BitVec 9 :=
  place 9 3 (h.extractLsb' 10 3) ||| place 9 6 (h.extractLsb' 7 3)

/-! Selectors within the major opcodes (R101). -/

def decodeBranch (f3 : BitVec 3) (rs1 rs2 : Reg) (imm : BitVec 13) : Except Reject Instr :=
  if f3 = 0 then .ok (.beq rs1 rs2 imm)
  else if f3 = 1 then .ok (.bne rs1 rs2 imm)
  else if f3 = 4 then .ok (.blt rs1 rs2 imm)
  else if f3 = 5 then .ok (.bge rs1 rs2 imm)
  else if f3 = 6 then .ok (.bltu rs1 rs2 imm)
  else if f3 = 7 then .ok (.bgeu rs1 rs2 imm)
  else .error .branchFunct3

def decodeLoad (f3 : BitVec 3) (rd rs1 : Reg) (imm : BitVec 12) : Except Reject Instr :=
  if f3 = 0 then .ok (.lb rd rs1 imm)
  else if f3 = 1 then .ok (.lh rd rs1 imm)
  else if f3 = 2 then .ok (.lw rd rs1 imm)
  else if f3 = 4 then .ok (.lbu rd rs1 imm)
  else if f3 = 5 then .ok (.lhu rd rs1 imm)
  else .error .loadFunct3

def decodeStore (f3 : BitVec 3) (rs1 rs2 : Reg) (imm : BitVec 12) : Except Reject Instr :=
  if f3 = 0 then .ok (.sb rs1 rs2 imm)
  else if f3 = 1 then .ok (.sh rs1 rs2 imm)
  else if f3 = 2 then .ok (.sw rs1 rs2 imm)
  else .error .storeFunct3

/-- OP-IMM: the shifts take `funct7 = w[31:25]` as well (R94). -/
def decodeOpImm (f7 : BitVec 7) (f3 : BitVec 3) (rd rs1 : Reg) (shamt : BitVec 5) (imm : BitVec 12) :
    Except Reject Instr :=
  if f3 = 0 then .ok (.addi rd rs1 imm)
  else if f3 = 2 then .ok (.slti rd rs1 imm)
  else if f3 = 3 then .ok (.sltiu rd rs1 imm)
  else if f3 = 4 then .ok (.xori rd rs1 imm)
  else if f3 = 6 then .ok (.ori rd rs1 imm)
  else if f3 = 7 then .ok (.andi rd rs1 imm)
  else if f3 = 1 then
    if f7 = 0 then .ok (.slli rd rs1 shamt) else .error .shiftImmFunct7
  else
    if f7 = 0 then .ok (.srli rd rs1 shamt)
    else if f7 = 0x20 then .ok (.srai rd rs1 shamt)
    else .error .shiftImmFunct7

def decodeOp (f7 : BitVec 7) (f3 : BitVec 3) (rd rs1 rs2 : Reg) : Except Reject Instr :=
  if f7 = 0 then
    if f3 = 0 then .ok (.add rd rs1 rs2)
    else if f3 = 1 then .ok (.sll rd rs1 rs2)
    else if f3 = 2 then .ok (.slt rd rs1 rs2)
    else if f3 = 3 then .ok (.sltu rd rs1 rs2)
    else if f3 = 4 then .ok (.xor rd rs1 rs2)
    else if f3 = 5 then .ok (.srl rd rs1 rs2)
    else if f3 = 6 then .ok (.or rd rs1 rs2)
    else .ok (.and rd rs1 rs2)
  else if f7 = 0x20 then
    if f3 = 0 then .ok (.sub rd rs1 rs2)
    else if f3 = 5 then .ok (.sra rd rs1 rs2)
    else .error .opFunct7
  else if f7 = 1 then
    if f3 = 0 then .ok (.mul rd rs1 rs2)
    else if f3 = 1 then .ok (.mulh rd rs1 rs2)
    else if f3 = 2 then .ok (.mulhsu rd rs1 rs2)
    else if f3 = 3 then .ok (.mulhu rd rs1 rs2)
    else if f3 = 4 then .ok (.div rd rs1 rs2)
    else if f3 = 5 then .ok (.divu rd rs1 rs2)
    else if f3 = 6 then .ok (.rem rd rs1 rs2)
    else .ok (.remu rd rs1 rs2)
  else .error .opFunct7

def decodeMiscMem (f3 : BitVec 3) (fm pred succ : BitVec 4) (imm : BitVec 12) (rs1 rd : Reg) : Except Reject Instr :=
  if f3 = 0 then .ok (.fence fm pred succ rs1 rd)
  else if f3 = 1 then .ok (.fenceI imm rs1 rd)
  else .error .miscMemFunct3

/-- AMO: `funct5 = w[31:27]`, `aq = w[26]`, `rl = w[25]`, `funct3 = 2` (R96). -/
def decodeAmo (f5 : BitVec 5) (f3 : BitVec 3) (rd rs1 rs2 : Reg) (aq rl : BitVec 1) : Except Reject Instr :=
  if f3 = 2 then
    if f5 = 0x02 then
      if rs2 = 0 then .ok (.lrW rd rs1 aq rl) else .error .lrRs2
    else if f5 = 0x03 then .ok (.scW rd rs1 rs2 aq rl)
    else if f5 = 0x01 then .ok (.amoswapW rd rs1 rs2 aq rl)
    else if f5 = 0x00 then .ok (.amoaddW rd rs1 rs2 aq rl)
    else if f5 = 0x04 then .ok (.amoxorW rd rs1 rs2 aq rl)
    else if f5 = 0x0C then .ok (.amoandW rd rs1 rs2 aq rl)
    else if f5 = 0x08 then .ok (.amoorW rd rs1 rs2 aq rl)
    else if f5 = 0x10 then .ok (.amominW rd rs1 rs2 aq rl)
    else if f5 = 0x14 then .ok (.amomaxW rd rs1 rs2 aq rl)
    else if f5 = 0x18 then .ok (.amominuW rd rs1 rs2 aq rl)
    else if f5 = 0x1C then .ok (.amomaxuW rd rs1 rs2 aq rl)
    else .error .amoFunct
  else .error .amoFunct

/-- SYSTEM with `funct3 = 0`: four whole words (R101), here by their upper 25 bits, the opcode being known. -/
def decodeSystem (hi : BitVec 25) (f3 : BitVec 3) (rd rs1 : Reg) (csr : BitVec 12) : Except Reject Instr :=
  if f3 = 0 then
    if hi = 0x0000000 then .ok .ecall
    else if hi = 0x0002000 then .ok .ebreak
    else if hi = 0x0604000 then .ok .mret
    else if hi = 0x020A000 then .ok .wfi
    else .error .systemFunct
  else if f3 = 1 then .ok (.csrrw rd rs1 csr)
  else if f3 = 2 then .ok (.csrrs rd rs1 csr)
  else if f3 = 3 then .ok (.csrrc rd rs1 csr)
  else if f3 = 5 then .ok (.csrrwi rd rs1 csr)
  else if f3 = 6 then .ok (.csrrsi rd rs1 csr)
  else if f3 = 7 then .ok (.csrrci rd rs1 csr)
  else .error .systemFunct

/-- A 32-bit word, by its major opcode `w[6:0]` (R101). -/
def decode32 (w : BitVec 32) : Except Reject Instr :=
  let op := w.extractLsb' 0 7
  let rd := w.extractLsb' 7 5
  let f3 := w.extractLsb' 12 3
  let rs1 := w.extractLsb' 15 5
  let rs2 := w.extractLsb' 20 5
  let f7 := w.extractLsb' 25 7
  let immI := w.extractLsb' 20 12
  if op = 0x37 then .ok (.lui rd (w.extractLsb' 12 20))
  else if op = 0x17 then .ok (.auipc rd (w.extractLsb' 12 20))
  else if op = 0x6F then .ok (.jal rd (immJ w))
  else if op = 0x67 then
    if f3 = 0 then .ok (.jalr rd rs1 immI) else .error .jalrFunct3
  else if op = 0x63 then decodeBranch f3 rs1 rs2 (immB w)
  else if op = 0x03 then decodeLoad f3 rd rs1 immI
  else if op = 0x23 then decodeStore f3 rs1 rs2 (immS w)
  else if op = 0x13 then decodeOpImm f7 f3 rd rs1 rs2 immI
  else if op = 0x33 then decodeOp f7 f3 rd rs1 rs2
  else if op = 0x0F then
    decodeMiscMem f3 (w.extractLsb' 28 4) (w.extractLsb' 24 4) (w.extractLsb' 20 4) immI rs1 rd
  else if op = 0x2F then
    decodeAmo (w.extractLsb' 27 5) f3 rd rs1 rs2 (w.extractLsb' 26 1) (w.extractLsb' 25 1)
  else if op = 0x73 then decodeSystem (w.extractLsb' 7 25) f3 rd rs1 immI
  else .error .majorOpcode

/-! The compressed quadrants (R102, R106). `rdC` is `h[4:2]`, `rsC` is `h[9:7]`. -/

def decodeQ0 (h : BitVec 16) : Except Reject Instr :=
  let f3 := h.extractLsb' 13 3
  let lo := h.extractLsb' 2 3
  let hi := h.extractLsb' 7 3
  if f3 = 0 then
    if immAddi4spn h = 0 then .error .addi4spnZero else .ok (.cAddi4spn lo (immAddi4spn h))
  else if f3 = 1 then .ok (.cFld lo hi (immCD h))
  else if f3 = 2 then .ok (.cLw lo hi (immCW h))
  else if f3 = 3 then .ok (.cFlw lo hi (immCW h))
  else if f3 = 4 then .error .quadrant0Funct4
  else if f3 = 5 then .ok (.cFsd lo hi (immCD h))
  else if f3 = 6 then .ok (.cSw lo hi (immCW h))
  else .ok (.cFsw lo hi (immCW h))

/-- Quadrant 1 with funct3 = 4: the shifts, C.ANDI and the CA forms. -/
def decodeQ1Alu (h : BitVec 16) : Except Reject Instr :=
  let sel := h.extractLsb' 10 2
  let b12 := h.extractLsb' 12 1
  let rd := h.extractLsb' 7 3
  let rs2 := h.extractLsb' 2 3
  let shamt := h.extractLsb' 2 5
  let f2 := h.extractLsb' 5 2
  if sel = 0 then
    if b12 = 0 then .ok (.cSrli rd shamt) else .error .shamtHigh
  else if sel = 1 then
    if b12 = 0 then .ok (.cSrai rd shamt) else .error .shamtHigh
  else if sel = 2 then .ok (.cAndi rd (immCI h))
  else if b12 = 0 then
    if f2 = 0 then .ok (.cSub rd rs2)
    else if f2 = 1 then .ok (.cXor rd rs2)
    else if f2 = 2 then .ok (.cOr rd rs2)
    else .ok (.cAnd rd rs2)
  else .error .rv64Only

def decodeQ1 (h : BitVec 16) : Except Reject Instr :=
  let f3 := h.extractLsb' 13 3
  let rd := h.extractLsb' 7 5
  if f3 = 0 then
    if rd = 0 then .ok (.cNop (immCI h)) else .ok (.cAddi rd (immCI h))
  else if f3 = 1 then .ok (.cJal (immCJ h))
  else if f3 = 2 then .ok (.cLi rd (immCI h))
  else if f3 = 3 then
    if rd = 2 then
      if immAddi16sp h = 0 then .error .addi16spZero else .ok (.cAddi16sp (immAddi16sp h))
    else
      if immCLui h = 0 then .error .luiZero else .ok (.cLui rd (immCLui h))
  else if f3 = 4 then decodeQ1Alu h
  else if f3 = 5 then .ok (.cJ (immCJ h))
  else if f3 = 6 then .ok (.cBeqz (h.extractLsb' 7 3) (immCB h))
  else .ok (.cBnez (h.extractLsb' 7 3) (immCB h))

/-- Quadrant 2 with funct3 = 4: C.JR, C.MV, C.EBREAK, C.JALR, C.ADD. -/
def decodeQ2Reg (h : BitVec 16) : Except Reject Instr :=
  let b12 := h.extractLsb' 12 1
  let rd := h.extractLsb' 7 5
  let rs2 := h.extractLsb' 2 5
  if b12 = 0 then
    if rs2 = 0 then
      if rd = 0 then .error .jrRs0 else .ok (.cJr rd)
    else .ok (.cMv rd rs2)
  else
    if rs2 = 0 then
      if rd = 0 then .ok .cEbreak else .ok (.cJalr rd)
    else .ok (.cAdd rd rs2)

def decodeQ2 (h : BitVec 16) : Except Reject Instr :=
  let f3 := h.extractLsb' 13 3
  let rd := h.extractLsb' 7 5
  let rs2 := h.extractLsb' 2 5
  if f3 = 0 then
    if h.extractLsb' 12 1 = 0 then .ok (.cSlli rd rs2) else .error .shamtHigh
  else if f3 = 1 then .ok (.cFldsp rd (immFldsp h))
  else if f3 = 2 then
    if rd = 0 then .error .lwspRd0 else .ok (.cLwsp rd (immLwsp h))
  else if f3 = 3 then .ok (.cFlwsp rd (immLwsp h))
  else if f3 = 4 then decodeQ2Reg h
  else if f3 = 5 then .ok (.cFsdsp rs2 (immFsdsp h))
  else if f3 = 6 then .ok (.cSwsp rs2 (immSwsp h))
  else .ok (.cFswsp rs2 (immSwsp h))

/-- A halfword whose low two bits are not both 1, by its quadrant (R102). -/
def decode16 (h : BitVec 16) : Except Reject Instr :=
  if h.extractLsb' 0 2 = 0 then decodeQ0 h
  else if h.extractLsb' 0 2 = 1 then decodeQ1 h
  else decodeQ2 h

/-- The length decision of R89: 4 bytes where the low two bits of the fetched word are both 1, else 2. -/
def fetchLength (w : BitVec 32) : Nat := if w.extractLsb' 0 2 = 3 then 4 else 2

/-- What a fetched word spells (R89, R103): of a compressed instruction only the low 16 bits are decoded. -/
def decode (w : BitVec 32) : Except Reject Instr :=
  if w.extractLsb' 0 2 = 3 then decode32 w else decode16 (w.extractLsb' 0 16)

/-- Four bytes as a word, the first in bits 7:0 (20_memory R57, R61). -/
def word4 (b0 b1 b2 b3 : BitVec 8) : BitVec 32 :=
  place 32 0 b0 ||| place 32 8 b1 ||| place 32 16 b2 ||| place 32 24 b3

/-- Two bytes as a halfword, the first in bits 7:0. -/
def half2 (b0 b1 : BitVec 8) : BitVec 16 := place 16 0 b0 ||| place 16 8 b1

/-- The instruction at the head of a list of bytes and the bytes after it; total on any bytes. -/
def decodeBytes : List (BitVec 8) → Except Reject (Instr × List (BitVec 8))
  | b0 :: b1 :: rest =>
    if b0.extractLsb' 0 2 = 3 then
      match rest with
      | b2 :: b3 :: rest' =>
        match decode32 (word4 b0 b1 b2 b3) with
        | .ok i => .ok (i, rest')
        | .error e => .error e
      | _ => .error .tooShort
    else
      match decode16 (half2 b0 b1) with
      | .ok i => .ok (i, rest)
      | .error e => .error e
  | _ => .error .tooShort

/-! ## The encoder, from the same tables -/

/-- The words of an instruction: 16 or 32 bits (R13). -/
inductive Encoded where
  | w16 (h : BitVec 16)
  | w32 (w : BitVec 32)
deriving DecidableEq, Repr

/-! The 32-bit formats (R93). -/

def fmtR (f7 : BitVec 7) (rs2 rs1 : Reg) (f3 : BitVec 3) (rd : Reg) (op : BitVec 7) : Encoded :=
  .w32 (place 32 25 f7 ||| place 32 20 rs2 ||| place 32 15 rs1 ||| place 32 12 f3 ||| place 32 7 rd ||| place 32 0 op)

def fmtI (imm : BitVec 12) (rs1 : Reg) (f3 : BitVec 3) (rd : Reg) (op : BitVec 7) : Encoded :=
  .w32 (place 32 20 imm ||| place 32 15 rs1 ||| place 32 12 f3 ||| place 32 7 rd ||| place 32 0 op)

def fmtS (imm : BitVec 12) (rs2 rs1 : Reg) (f3 : BitVec 3) (op : BitVec 7) : Encoded :=
  .w32 (place 32 25 (imm.extractLsb' 5 7) ||| place 32 20 rs2 ||| place 32 15 rs1 ||| place 32 12 f3 |||
    place 32 7 (imm.extractLsb' 0 5) ||| place 32 0 op)

def fmtB (imm : BitVec 13) (rs2 rs1 : Reg) (f3 : BitVec 3) (op : BitVec 7) : Encoded :=
  .w32 (place 32 31 (imm.extractLsb' 12 1) ||| place 32 25 (imm.extractLsb' 5 6) ||| place 32 20 rs2 |||
    place 32 15 rs1 ||| place 32 12 f3 ||| place 32 8 (imm.extractLsb' 1 4) ||| place 32 7 (imm.extractLsb' 11 1) |||
    place 32 0 op)

def fmtU (imm : BitVec 20) (rd : Reg) (op : BitVec 7) : Encoded :=
  .w32 (place 32 12 imm ||| place 32 7 rd ||| place 32 0 op)

def fmtJ (imm : BitVec 21) (rd : Reg) (op : BitVec 7) : Encoded :=
  .w32 (place 32 31 (imm.extractLsb' 20 1) ||| place 32 21 (imm.extractLsb' 1 10) |||
    place 32 20 (imm.extractLsb' 11 1) ||| place 32 12 (imm.extractLsb' 12 8) ||| place 32 7 rd ||| place 32 0 op)

/-- The atomic format (R96). -/
def fmtA (f5 : BitVec 5) (aq rl : BitVec 1) (rs2 rs1 rd : Reg) : Encoded :=
  .w32 (place 32 27 f5 ||| place 32 26 aq ||| place 32 25 rl ||| place 32 20 rs2 ||| place 32 15 rs1 |||
    place 32 12 2#3 ||| place 32 7 rd ||| place 32 0 0x2F#7)

/-! The 16-bit formats (R98), with the immediate scatters of R100. -/

def fmtCIW (imm : BitVec 10) (rd : CReg) : Encoded :=
  .w16 (place 16 11 (imm.extractLsb' 4 2) ||| place 16 7 (imm.extractLsb' 6 4) |||
    place 16 6 (imm.extractLsb' 2 1) ||| place 16 5 (imm.extractLsb' 3 1) ||| place 16 2 rd)

/-- CL and CS with a double's offset. -/
def fmtCLD (f3 : BitVec 3) (imm : BitVec 8) (rs1 rd : CReg) : Encoded :=
  .w16 (place 16 13 f3 ||| place 16 10 (imm.extractLsb' 3 3) ||| place 16 7 rs1 |||
    place 16 5 (imm.extractLsb' 6 2) ||| place 16 2 rd)

/-- CL and CS with a word's offset. -/
def fmtCLW (f3 : BitVec 3) (imm : BitVec 7) (rs1 rd : CReg) : Encoded :=
  .w16 (place 16 13 f3 ||| place 16 10 (imm.extractLsb' 3 3) ||| place 16 7 rs1 |||
    place 16 6 (imm.extractLsb' 2 1) ||| place 16 5 (imm.extractLsb' 6 1) ||| place 16 2 rd)

def fmtCI (f3 : BitVec 3) (imm : BitVec 6) (rd : Reg) (op : BitVec 2) : Encoded :=
  .w16 (place 16 13 f3 ||| place 16 12 (imm.extractLsb' 5 1) ||| place 16 7 rd |||
    place 16 2 (imm.extractLsb' 0 5) ||| place 16 0 op)

def fmtCJ (f3 : BitVec 3) (imm : BitVec 12) : Encoded :=
  .w16 (place 16 13 f3 ||| place 16 12 (imm.extractLsb' 11 1) ||| place 16 11 (imm.extractLsb' 4 1) |||
    place 16 9 (imm.extractLsb' 8 2) ||| place 16 8 (imm.extractLsb' 10 1) ||| place 16 7 (imm.extractLsb' 6 1) |||
    place 16 6 (imm.extractLsb' 7 1) ||| place 16 3 (imm.extractLsb' 1 3) ||| place 16 2 (imm.extractLsb' 5 1) |||
    place 16 0 1#2)

def fmtAddi16sp (imm : BitVec 10) : Encoded :=
  .w16 (place 16 13 3#3 ||| place 16 12 (imm.extractLsb' 9 1) ||| place 16 7 2#5 |||
    place 16 6 (imm.extractLsb' 4 1) ||| place 16 5 (imm.extractLsb' 6 1) ||| place 16 3 (imm.extractLsb' 7 2) |||
    place 16 2 (imm.extractLsb' 5 1) ||| place 16 0 1#2)

def fmtCLui (imm : BitVec 18) (rd : Reg) : Encoded :=
  .w16 (place 16 13 3#3 ||| place 16 12 (imm.extractLsb' 17 1) ||| place 16 7 rd |||
    place 16 2 (imm.extractLsb' 12 5) ||| place 16 0 1#2)

/-- CB with a function field `h[11:10]`: C.SRLI, C.SRAI, C.ANDI. -/
def fmtCBAlu (sel : BitVec 2) (imm : BitVec 6) (rd : CReg) : Encoded :=
  .w16 (place 16 13 4#3 ||| place 16 12 (imm.extractLsb' 5 1) ||| place 16 10 sel ||| place 16 7 rd |||
    place 16 2 (imm.extractLsb' 0 5) ||| place 16 0 1#2)

def fmtCA (f2 : BitVec 2) (rd rs2 : CReg) : Encoded :=
  .w16 (place 16 13 4#3 ||| place 16 10 3#2 ||| place 16 7 rd ||| place 16 5 f2 ||| place 16 2 rs2 ||| place 16 0 1#2)

def fmtCB (f3 : BitVec 3) (imm : BitVec 9) (rs1 : CReg) : Encoded :=
  .w16 (place 16 13 f3 ||| place 16 12 (imm.extractLsb' 8 1) ||| place 16 10 (imm.extractLsb' 3 2) |||
    place 16 7 rs1 ||| place 16 5 (imm.extractLsb' 6 2) ||| place 16 3 (imm.extractLsb' 1 2) |||
    place 16 2 (imm.extractLsb' 5 1) ||| place 16 0 1#2)

def fmtFldsp (imm : BitVec 9) (rd : Reg) : Encoded :=
  .w16 (place 16 13 1#3 ||| place 16 12 (imm.extractLsb' 5 1) ||| place 16 7 rd |||
    place 16 5 (imm.extractLsb' 3 2) ||| place 16 2 (imm.extractLsb' 6 3) ||| place 16 0 2#2)

/-- C.LWSP, C.FLWSP. -/
def fmtLwsp (f3 : BitVec 3) (imm : BitVec 8) (rd : Reg) : Encoded :=
  .w16 (place 16 13 f3 ||| place 16 12 (imm.extractLsb' 5 1) ||| place 16 7 rd |||
    place 16 4 (imm.extractLsb' 2 3) ||| place 16 2 (imm.extractLsb' 6 2) ||| place 16 0 2#2)

def fmtFsdsp (imm : BitVec 9) (rs2 : Reg) : Encoded :=
  .w16 (place 16 13 5#3 ||| place 16 10 (imm.extractLsb' 3 3) ||| place 16 7 (imm.extractLsb' 6 3) |||
    place 16 2 rs2 ||| place 16 0 2#2)

/-- C.SWSP, C.FSWSP. -/
def fmtSwsp (f3 : BitVec 3) (imm : BitVec 8) (rs2 : Reg) : Encoded :=
  .w16 (place 16 13 f3 ||| place 16 9 (imm.extractLsb' 2 4) ||| place 16 7 (imm.extractLsb' 6 2) |||
    place 16 2 rs2 ||| place 16 0 2#2)

def fmtCR (b12 : BitVec 1) (rd rs2 : Reg) : Encoded :=
  .w16 (place 16 13 4#3 ||| place 16 12 b12 ||| place 16 7 rd ||| place 16 2 rs2 ||| place 16 0 2#2)

/-- The words of a well-formed instruction (R93 to R102). -/
def encode : Instr → Encoded
  | .lui rd imm => fmtU imm rd 0x37
  | .auipc rd imm => fmtU imm rd 0x17
  | .jal rd imm => fmtJ imm rd 0x6F
  | .jalr rd rs1 imm => fmtI imm rs1 0 rd 0x67
  | .beq rs1 rs2 imm => fmtB imm rs2 rs1 0 0x63
  | .bne rs1 rs2 imm => fmtB imm rs2 rs1 1 0x63
  | .blt rs1 rs2 imm => fmtB imm rs2 rs1 4 0x63
  | .bge rs1 rs2 imm => fmtB imm rs2 rs1 5 0x63
  | .bltu rs1 rs2 imm => fmtB imm rs2 rs1 6 0x63
  | .bgeu rs1 rs2 imm => fmtB imm rs2 rs1 7 0x63
  | .lb rd rs1 imm => fmtI imm rs1 0 rd 0x03
  | .lh rd rs1 imm => fmtI imm rs1 1 rd 0x03
  | .lw rd rs1 imm => fmtI imm rs1 2 rd 0x03
  | .lbu rd rs1 imm => fmtI imm rs1 4 rd 0x03
  | .lhu rd rs1 imm => fmtI imm rs1 5 rd 0x03
  | .sb rs1 rs2 imm => fmtS imm rs2 rs1 0 0x23
  | .sh rs1 rs2 imm => fmtS imm rs2 rs1 1 0x23
  | .sw rs1 rs2 imm => fmtS imm rs2 rs1 2 0x23
  | .addi rd rs1 imm => fmtI imm rs1 0 rd 0x13
  | .slti rd rs1 imm => fmtI imm rs1 2 rd 0x13
  | .sltiu rd rs1 imm => fmtI imm rs1 3 rd 0x13
  | .xori rd rs1 imm => fmtI imm rs1 4 rd 0x13
  | .ori rd rs1 imm => fmtI imm rs1 6 rd 0x13
  | .andi rd rs1 imm => fmtI imm rs1 7 rd 0x13
  | .slli rd rs1 shamt => fmtR 0 shamt rs1 1 rd 0x13
  | .srli rd rs1 shamt => fmtR 0 shamt rs1 5 rd 0x13
  | .srai rd rs1 shamt => fmtR 0x20 shamt rs1 5 rd 0x13
  | .add rd rs1 rs2 => fmtR 0 rs2 rs1 0 rd 0x33
  | .sub rd rs1 rs2 => fmtR 0x20 rs2 rs1 0 rd 0x33
  | .sll rd rs1 rs2 => fmtR 0 rs2 rs1 1 rd 0x33
  | .slt rd rs1 rs2 => fmtR 0 rs2 rs1 2 rd 0x33
  | .sltu rd rs1 rs2 => fmtR 0 rs2 rs1 3 rd 0x33
  | .xor rd rs1 rs2 => fmtR 0 rs2 rs1 4 rd 0x33
  | .srl rd rs1 rs2 => fmtR 0 rs2 rs1 5 rd 0x33
  | .sra rd rs1 rs2 => fmtR 0x20 rs2 rs1 5 rd 0x33
  | .or rd rs1 rs2 => fmtR 0 rs2 rs1 6 rd 0x33
  | .and rd rs1 rs2 => fmtR 0 rs2 rs1 7 rd 0x33
  | .fence fm pred succ rs1 rd =>
    .w32 (place 32 28 fm ||| place 32 24 pred ||| place 32 20 succ ||| place 32 15 rs1 ||| place 32 7 rd |||
      place 32 0 0x0F#7)
  | .fenceI imm rs1 rd => fmtI imm rs1 1 rd 0x0F
  | .mul rd rs1 rs2 => fmtR 1 rs2 rs1 0 rd 0x33
  | .mulh rd rs1 rs2 => fmtR 1 rs2 rs1 1 rd 0x33
  | .mulhsu rd rs1 rs2 => fmtR 1 rs2 rs1 2 rd 0x33
  | .mulhu rd rs1 rs2 => fmtR 1 rs2 rs1 3 rd 0x33
  | .div rd rs1 rs2 => fmtR 1 rs2 rs1 4 rd 0x33
  | .divu rd rs1 rs2 => fmtR 1 rs2 rs1 5 rd 0x33
  | .rem rd rs1 rs2 => fmtR 1 rs2 rs1 6 rd 0x33
  | .remu rd rs1 rs2 => fmtR 1 rs2 rs1 7 rd 0x33
  | .lrW rd rs1 aq rl => fmtA 0x02 aq rl 0 rs1 rd
  | .scW rd rs1 rs2 aq rl => fmtA 0x03 aq rl rs2 rs1 rd
  | .amoswapW rd rs1 rs2 aq rl => fmtA 0x01 aq rl rs2 rs1 rd
  | .amoaddW rd rs1 rs2 aq rl => fmtA 0x00 aq rl rs2 rs1 rd
  | .amoxorW rd rs1 rs2 aq rl => fmtA 0x04 aq rl rs2 rs1 rd
  | .amoandW rd rs1 rs2 aq rl => fmtA 0x0C aq rl rs2 rs1 rd
  | .amoorW rd rs1 rs2 aq rl => fmtA 0x08 aq rl rs2 rs1 rd
  | .amominW rd rs1 rs2 aq rl => fmtA 0x10 aq rl rs2 rs1 rd
  | .amomaxW rd rs1 rs2 aq rl => fmtA 0x14 aq rl rs2 rs1 rd
  | .amominuW rd rs1 rs2 aq rl => fmtA 0x18 aq rl rs2 rs1 rd
  | .amomaxuW rd rs1 rs2 aq rl => fmtA 0x1C aq rl rs2 rs1 rd
  | .ecall => fmtI 0x000 0 0 0 0x73
  | .ebreak => fmtI 0x001 0 0 0 0x73
  | .mret => fmtI 0x302 0 0 0 0x73
  | .wfi => fmtI 0x105 0 0 0 0x73
  | .csrrw rd rs1 csr => fmtI csr rs1 1 rd 0x73
  | .csrrs rd rs1 csr => fmtI csr rs1 2 rd 0x73
  | .csrrc rd rs1 csr => fmtI csr rs1 3 rd 0x73
  | .csrrwi rd uimm csr => fmtI csr uimm 5 rd 0x73
  | .csrrsi rd uimm csr => fmtI csr uimm 6 rd 0x73
  | .csrrci rd uimm csr => fmtI csr uimm 7 rd 0x73
  | .cAddi4spn rd imm => fmtCIW imm rd
  | .cFld rd rs1 imm => fmtCLD 1 imm rs1 rd
  | .cLw rd rs1 imm => fmtCLW 2 imm rs1 rd
  | .cFlw rd rs1 imm => fmtCLW 3 imm rs1 rd
  | .cFsd rs2 rs1 imm => fmtCLD 5 imm rs1 rs2
  | .cSw rs2 rs1 imm => fmtCLW 6 imm rs1 rs2
  | .cFsw rs2 rs1 imm => fmtCLW 7 imm rs1 rs2
  | .cNop imm => fmtCI 0 imm 0 1
  | .cAddi rd imm => fmtCI 0 imm rd 1
  | .cJal imm => fmtCJ 1 imm
  | .cLi rd imm => fmtCI 2 imm rd 1
  | .cAddi16sp imm => fmtAddi16sp imm
  | .cLui rd imm => fmtCLui imm rd
  | .cSrli rd shamt => fmtCBAlu 0 (shamt.setWidth 6) rd
  | .cSrai rd shamt => fmtCBAlu 1 (shamt.setWidth 6) rd
  | .cAndi rd imm => fmtCBAlu 2 imm rd
  | .cSub rd rs2 => fmtCA 0 rd rs2
  | .cXor rd rs2 => fmtCA 1 rd rs2
  | .cOr rd rs2 => fmtCA 2 rd rs2
  | .cAnd rd rs2 => fmtCA 3 rd rs2
  | .cJ imm => fmtCJ 5 imm
  | .cBeqz rs1 imm => fmtCB 6 imm rs1
  | .cBnez rs1 imm => fmtCB 7 imm rs1
  | .cSlli rd shamt => fmtCI 0 (shamt.setWidth 6) rd 2
  | .cFldsp rd imm => fmtFldsp imm rd
  | .cLwsp rd imm => fmtLwsp 2 imm rd
  | .cFlwsp rd imm => fmtLwsp 3 imm rd
  | .cJr rs1 => fmtCR 0 rs1 0
  | .cMv rd rs2 => fmtCR 0 rd rs2
  | .cEbreak => fmtCR 1 0 0
  | .cJalr rs1 => fmtCR 1 rs1 0
  | .cAdd rd rs2 => fmtCR 1 rd rs2
  | .cFsdsp rs2 imm => fmtFsdsp imm rs2
  | .cSwsp rs2 imm => fmtSwsp 6 imm rs2
  | .cFswsp rs2 imm => fmtSwsp 7 imm rs2

/-- The bytes of an encoding as memory holds them, the low byte first (20_memory R61). -/
def encodedBytes : Encoded → List (BitVec 8)
  | .w16 h => [h.extractLsb' 0 8, h.extractLsb' 8 8]
  | .w32 w => [w.extractLsb' 0 8, w.extractLsb' 8 8, w.extractLsb' 16 8, w.extractLsb' 24 8]

/-- The bytes of an instruction. -/
def encodeBytes (i : Instr) : List (BitVec 8) := encodedBytes (encode i)

/-- The instruction read from an instruction whose bits are `w`, numbered as spec/opcode_table.json numbers
them; bits at and above `nbits` are 0. The bytes are laid out as memory holds them and given to the decoder. -/
def decodeTableWord (nbits w : Nat) : Option Instr :=
  let v := BitVec.ofNat 32 (w % 2 ^ nbits)
  match decodeBytes (encodedBytes (.w32 v)) with
  | .ok (i, _) => some i
  | .error _ => none

end Sys2Proof
end

