-- ==== Sys2Proof/Machine/Schedule.lean ====
section
/-! DEFINITION. Fetch (30_encoding R88), the check point and the frame end of the scheduling loop
(60_exceptions R231, R244 to R246), the count of steps, and the result of a run. Step.lean composes them. -/

namespace Sys2Proof.Machine

open Sys2Proof

/-- The fetched word and the state after the fetch: one 4-byte read at the pc, device window included
(R88, 20_memory R80). -/
def fetch (s : State) : Word × State := memRead .word s.pc s

/-- One step of the sub-batch has run (R244). -/
def countStep (r : Result) : Result :=
  match r with
  | .next s => .next { s with sched := { s.sched with stepsLeft := s.sched.stepsLeft - 1 } }
  | .fault f => .fault f
  | .refused e => .refused e

/-- `TimerCheck()` (R231): `mtimecur` takes a fresh sample, and a due and enabled timer interrupt is taken
(R230). -/
def timerCheck (s : State) : State :=
  let s1 := { afterSample s with mtimecur := sampleClock s }
  if s1.interruptEnabled timerSource && s1.mtimecmp.ule s1.mtimecur then takeInterrupt timerSource s1 else s1

/-- The audio-out registers after the audio pump (20_memory R75): with LOCK = 0 the host may consume `d <= CURR`
bytes, `HEAD <- (HEAD + d) mod SIZE`, `CURR <- CURR - d`. `n` is the number of the draw. -/
def pumpRegs (n : Nat) (v : Vector Word 7) : Vector Word 7 :=
  if v[6] ≠ 0 then v
  else
    match Config.hostPump n with
    | none => v
    | some k =>
      let d := BitVec.ofNat 32 (k % (v[5].toNat + 1))
      (v.set 2 (ringMod n (v[2] + d) v[4])).set 5 (v[5] - d)

/-- The audio pump at a frame end (R245). -/
def audioPump (s : State) : State :=
  { s.drawn with dev := { s.dev with audioOut := pumpRegs s.draws s.dev.audioOut } }

/-- The end-of-frame sleep, in which the capture agent may act: a mutex the hart holds is released before it and taken
again after it (R245, 20_memory R83). -/
def frameSleep (s : State) : State :=
  if s.dev.audioOwner = .hart then
    let s1 := finishCapture (captureInstant { s with dev := { s.dev with audioOwner := .free } })
    { s1 with dev := { s1.dev with audioOwner := .hart } }
  else captureInstant s

/-- The display-close check (R245, R246): a draw; once true the run has ended. -/
def closeCheck (s : State) : State := { s.drawn with sched := { s.sched with closed := Config.hostClose s.draws } }

/-- `FrameEnd()` (R245): the display refresh reads only and the input snapshot is a draw at each read, so neither
is an effect here (log 25). -/
def frameEnd (s : State) : State := closeCheck (frameSleep (audioPump s))

/-- A frame begins: `K` is computed from the frequency as it is now (R244, 20_memory R79). -/
def startFrame (s : State) : State :=
  { s with sched := { s.sched with
      batchSteps := batchLength s.params s.dev.cpuFreq
      stepsLeft := batchLength s.params s.dev.cpuFreq
      lastBatch := false } }

/-- The boundary after a sub-batch: the timer check, and after the second sub-batch the frame end and the start
of the next frame (R244). -/
def checkPoint (s : State) : State :=
  let s1 := timerCheck s
  if s1.sched.lastBatch then startFrame (frameEnd s1)
  else { s1 with sched := { s1.sched with stepsLeft := s1.sched.batchSteps, lastBatch := true } }

/-- The result of the run, where it has ended: `x[10]`, or `CLOSE_EXIT_CODE` (R246). -/
def runResult (s : State) : Option Word :=
  if s.exitFlag then some (s.getReg a0Number)
  else if s.sched.closed then some s.params.closeExitCode
  else none
where
  /-- x10, the exit code's register (43_system R179). -/
  a0Number : Reg := 10#5

/-- The bytes of an instruction word in guest memory from `a` on, the low byte first. -/
def placeWord (s : State) (a : Word) (w : Word) : State :=
  (((s.setByte a (w.extractLsb' 0 8)).setByte (a + 1) (w.extractLsb' 8 8)).setByte (a + 2)
    (w.extractLsb' 16 8)).setByte (a + 3) (w.extractLsb' 24 8)

/-- A sub-batch with at least one step left, so that the next step is the hart's. -/
def withStepLeft (s : State) : State :=
  if s.sched.stepsLeft = 0 then { s with sched := { s.sched with stepsLeft := 1 } } else s

end Sys2Proof.Machine
end

