-- ==== Sys2Proof/Machine/Step.lean ====
section
/-! DEFINITION. One step of the machine: a transition of the scheduling loop (60_exceptions R244), which is
either one step of the hart (30_encoding R90) or, when the sub-batch has run out, the check point (log 7). -/

namespace Sys2Proof.Machine

open Sys2Proof

/-- One step of the hart (R90): fetch, decode, execute, or what an unmatched word does (R104). -/
def hartStep (s : State) : Host.Outcome State Fault Refusal :=
  match decode (fetch s).1 with
  | .ok i => countStep (exec i (fetch s).2)
  | .error _ => countStep (unmatched (BitVec.ofNat 32 (fetchLength (fetch s).1)) (fetch s).2)

/-- One transition of the loop of R244. A run that has ended takes no further one (R246). -/
def step (s : State) : Host.Outcome State Fault Refusal :=
  if s.exitFlag then .fault .exited
  else if s.sched.closed then .fault .displayClosed
  else if s.sched.stepsLeft = 0 then .next (checkPoint s)
  else hartStep s

/-- `s` with the instruction whose bits are `w` at the pc, for the next step to fetch; bits at and above `nbits`
are 0. For a pc in guest memory (log 28). -/
def State.withFetchWord (s : State) (nbits w : Nat) : State :=
  withStepLeft (placeWord s s.pc (BitVec.ofNat 32 (w % 2 ^ nbits)))

end Sys2Proof.Machine
end

