-- ==== Sys2Proof/Machine/Boot.lean ====
section
/-! DEFINITION. A launch (70_reset R249): the ROM image loaded at address 0, the disk image, the parameters. -/

namespace Sys2Proof.Machine

open Sys2Proof

/-- ROM byte `i` at index `a + i` of guest memory (R249). -/
def loadRom (mem : List Host.Cell) : Nat → List Byte → List Host.Cell
  | _, [] => mem
  | a, b :: rest => loadRom (sparseSet mem a b) (a + 1) rest

/-- A disk image as a file, every byte of which is known (20_memory R78). -/
def imageFrom : Nat → List Byte → List Host.Cell
  | _, [] => []
  | a, b :: rest => (a, b) :: imageFrom (a + 1) rest

def diskOfImage (image : List Byte) : DiskFile where
  size := image.length
  cells := imageFrom 0 image

/-- `Reset()` for a ROM image, a disk image and the parameters of a launch (R249). A ROM larger than guest
memory has no meaning (R250 (2), D38). -/
def boot (p : Params) (rom : List Byte) (disk : Option (List Byte)) : Option State :=
  if rom.length ≤ memSize p then
    some { State.reset with
      mem := loadRom [] 0 rom
      dev := { Devices.reset with cpuFreq := p.cpuFreqReset, disk := disk.map diskOfImage }
      sched := { Sched.reset with
        batchSteps := batchLength p p.cpuFreqReset
        stepsLeft := batchLength p p.cpuFreqReset }
      params := p }
  else none

end Sys2Proof.Machine
end

