-- ==== Sys2Proof/Safety.lean ====
section
/-! DEFINITION. The terms in which statements about the machine are made: what guest memory holds, what an
instruction writes, where it stores, the invariant of the machine's states. -/

namespace Sys2Proof

/-- The general register an instruction names as its destination, or writes by its definition (10_state R29,
43_system R179). -/
def Instr.dest : Instr → Option Reg
  | .lui rd _ | .auipc rd _ | .jal rd _ | .jalr rd _ _ => some rd
  | .lb rd _ _ | .lh rd _ _ | .lw rd _ _ | .lbu rd _ _ | .lhu rd _ _ => some rd
  | .addi rd _ _ | .slti rd _ _ | .sltiu rd _ _ | .xori rd _ _ | .ori rd _ _ | .andi rd _ _ => some rd
  | .slli rd _ _ | .srli rd _ _ | .srai rd _ _ => some rd
  | .add rd _ _ | .sub rd _ _ | .sll rd _ _ | .slt rd _ _ | .sltu rd _ _ => some rd
  | .xor rd _ _ | .srl rd _ _ | .sra rd _ _ | .or rd _ _ | .and rd _ _ => some rd
  | .mul rd _ _ | .mulh rd _ _ | .mulhsu rd _ _ | .mulhu rd _ _ => some rd
  | .div rd _ _ | .divu rd _ _ | .rem rd _ _ | .remu rd _ _ => some rd
  | .lrW rd _ _ _ | .scW rd _ _ _ _ => some rd
  | .amoswapW rd _ _ _ _ | .amoaddW rd _ _ _ _ | .amoxorW rd _ _ _ _ | .amoandW rd _ _ _ _ => some rd
  | .amoorW rd _ _ _ _ | .amominW rd _ _ _ _ | .amomaxW rd _ _ _ _ => some rd
  | .amominuW rd _ _ _ _ | .amomaxuW rd _ _ _ _ => some rd
  | .ecall => some 10#5
  | .csrrw rd _ _ | .csrrs rd _ _ | .csrrc rd _ _ | .csrrwi rd _ _ | .csrrsi rd _ _ | .csrrci rd _ _ => some rd
  | .cAddi4spn rd _ | .cLw rd _ _ => some (Machine.cReg rd)
  | .cAddi rd _ | .cLi rd _ | .cLui rd _ | .cSlli rd _ | .cLwsp rd _ | .cMv rd _ | .cAdd rd _ => some rd
  | .cJal _ | .cJalr _ => some 1#5
  | .cAddi16sp _ => some 2#5
  | .cSrli rd _ | .cSrai rd _ | .cAndi rd _ => some (Machine.cReg rd)
  | .cSub rd _ | .cXor rd _ | .cOr rd _ | .cAnd rd _ => some (Machine.cReg rd)
  | .beq .. | .bne .. | .blt .. | .bge .. | .bltu .. | .bgeu .. | .sb .. | .sh .. | .sw .. => none
  | .fence .. | .fenceI .. | .ebreak | .mret | .wfi => none
  | .cFld .. | .cFlw .. | .cFsd .. | .cSw .. | .cFsw .. | .cNop .. | .cJ .. | .cBeqz .. | .cBnez .. => none
  | .cFldsp .. | .cFlwsp .. | .cJr .. | .cEbreak | .cFsdsp .. | .cSwsp .. | .cFswsp .. => none

/-- The floating-point slot an instruction loads (44_rvc R191). -/
def Instr.fdest : Instr → Option Reg
  | .cFld rd _ _ | .cFlw rd _ _ => some (Machine.cReg rd)
  | .cFldsp rd _ | .cFlwsp rd _ => some rd
  | _ => none

/-- The instruction is one of the six CSR instructions (43_system R183). -/
def Instr.isCsr : Instr → Bool
  | .csrrw .. | .csrrs .. | .csrrc .. | .csrrwi .. | .csrrsi .. | .csrrci .. => true
  | _ => false

/-- The instruction is one of the four divisions (41_rv32m R160 to R163). -/
def Instr.isDivision : Instr → Bool
  | .div .. | .divu .. | .rem .. | .remu .. => true
  | _ => false

/-- A floating-point move is implemented where `FP_MOVES` holds it; every other instruction always is
(00_scope R21, 30_encoding R103). -/
def Instr.enabled (p : Params) : Instr → Bool
  | .cFld .. => p.fpMoves.cFld
  | .cFlw .. => p.fpMoves.cFlw
  | .cFsd .. => p.fpMoves.cFsd
  | .cFsw .. => p.fpMoves.cFsw
  | .cFldsp .. => p.fpMoves.cFldsp
  | .cFlwsp .. => p.fpMoves.cFlwsp
  | .cFsdsp .. => p.fpMoves.cFsdsp
  | .cFswsp .. => p.fpMoves.cFswsp
  | _ => true

/-- The 32-bit instruction a compressed one that transfers no control stands for (44_rvc). -/
def Instr.expansion : Instr → Option Instr
  | .cAddi4spn rd imm => some (.addi (Machine.cReg rd) 2#5 (imm.setWidth 12))
  | .cLw rd rs1 imm => some (.lw (Machine.cReg rd) (Machine.cReg rs1) (imm.setWidth 12))
  | .cSw rs2 rs1 imm => some (.sw (Machine.cReg rs1) (Machine.cReg rs2) (imm.setWidth 12))
  | .cNop _ => some (.addi 0#5 0#5 0#12)
  | .cAddi rd imm => some (.addi rd rd (imm.signExtend 12))
  | .cLi rd imm => some (.addi rd 0#5 (imm.signExtend 12))
  | .cAddi16sp imm => some (.addi 2#5 2#5 (imm.signExtend 12))
  | .cLui rd imm => some (.lui rd ((imm.extractLsb' 12 6).signExtend 20))
  | .cSrli rd shamt => some (.srli (Machine.cReg rd) (Machine.cReg rd) shamt)
  | .cSrai rd shamt => some (.srai (Machine.cReg rd) (Machine.cReg rd) shamt)
  | .cAndi rd imm => some (.andi (Machine.cReg rd) (Machine.cReg rd) (imm.signExtend 12))
  | .cSub rd rs2 => some (.sub (Machine.cReg rd) (Machine.cReg rd) (Machine.cReg rs2))
  | .cXor rd rs2 => some (.xor (Machine.cReg rd) (Machine.cReg rd) (Machine.cReg rs2))
  | .cOr rd rs2 => some (.or (Machine.cReg rd) (Machine.cReg rd) (Machine.cReg rs2))
  | .cAnd rd rs2 => some (.and (Machine.cReg rd) (Machine.cReg rd) (Machine.cReg rs2))
  | .cSlli rd shamt => some (.slli rd rd shamt)
  | .cLwsp rd imm => some (.lw rd 2#5 (imm.setWidth 12))
  | .cMv rd rs2 => some (.add rd 0#5 rs2)
  | .cEbreak => some .ebreak
  | .cAdd rd rs2 => some (.add rd rd rs2)
  | .cSwsp rs2 imm => some (.sw 2#5 rs2 (imm.setWidth 12))
  | _ => none

namespace Machine

/-- Address `a` names a byte of the audio-in ring: one of the bytes at `AUDIO_IN_ADDR + [0, AUDIO_IN_SIZE)`
(20_memory R83). -/
def InRing (s : State) (a : Word) : Prop :=
  ∃ x : Nat, x < s.dev.audioIn[4].toNat ∧
    backingIndex s.params (s.dev.audioIn[1] + BitVec.ofNat 32 x) = backingIndex s.params a

/-- Address `a` names a byte that the capture step in progress has still to write (R83). -/
def Owed (s : State) (a : Word) : Prop :=
  ∃ e ∈ s.dev.capturePending, ∃ b, e.target = some b ∧ backingIndex s.params b = backingIndex s.params a

/-- The capture agent cannot write the byte at `a` before the hart's own next write of an audio-in register: the hart
owns the mutex, or the byte is neither in the ring nor owed by the step in progress (R83). -/
def Undisturbed (s : State) (a : Word) : Prop := s.dev.audioOwner = .hart ∨ (¬ InRing s a ∧ ¬ Owed s a)

/-- An address below the device window, written as a number (00_scope R12, 20_memory R55). -/
def InGuest (a : Word) : Prop := a.toNat < 0xFF000000

/-- The byte of guest memory at address `a` after the low `n` bytes of `v` are written from `ea` on, the first
first (20_memory R59): where two of them fall on one byte of `backing`, the later one stands. -/
def byteAfter {w : Nat} (s : State) (ea : Word) (v : BitVec w) : Nat → Word → Byte
  | 0, a => s.byteAt a
  | n + 1, a =>
    if backingIndex s.params (ea + BitVec.ofNat 32 n) = backingIndex s.params a then v.extractLsb' (8 * n) 8
    else byteAfter s ea v n a

/-- What the capture agent leaves as it was (20_memory R83): everything but the bytes it may write, the ring registers
HEAD, TAIL and CURR, its own hold of the mutex, its pending effects and the count of draws. It neither takes the mutex
from the hart nor gives it to it, and does nothing while the hart owns it. -/
structure CaptureFrame (s t : State) : Prop where
  rest : t = { s with
    mem := t.mem
    draws := t.draws
    dev := { s.dev with
      audioIn := t.dev.audioIn
      audioOwner := t.dev.audioOwner
      capturePending := t.dev.capturePending } }
  regs : ∀ (i : Nat) (h : i < 7), i ≠ 2 → i ≠ 3 → i ≠ 5 → t.dev.audioIn[i] = s.dev.audioIn[i]
  hart : t.dev.audioOwner = .hart ↔ s.dev.audioOwner = .hart
  held : s.dev.audioOwner = .hart → t = s
  bytes : ∀ a, Undisturbed s a → t.byteAt a = s.byteAt a
  undisturbed : ∀ a, Undisturbed s a → Undisturbed t a

/-- A value that a read of `n` bytes of guest memory at `ea` may give (20_memory R57, R58): little-endian, zero-extended,
and each byte the one in memory, unless the capture agent can write it (R83). -/
def MayRead (s : State) (ea : Word) (n : Nat) (v : Word) : Prop :=
  v.toNat < 2 ^ (8 * n) ∧
    ∀ k : Nat, k < n → Undisturbed s (ea + BitVec.ofNat 32 k) →
      v.extractLsb' (8 * k) 8 = s.byteAt (ea + BitVec.ofNat 32 k)

/-- `mreserved` after a write of `n` bytes at `ea` (42_rv32a R166). -/
def reservationAfter (s : State) (ea : Word) (n : Nat) : Option Word :=
  match s.mreserved with
  | none => none
  | some r =>
    if s.params.storeBreaksReservation = true ∧ (List.range n).any (fun i => (List.range 4).any (fun j =>
        ea + BitVec.ofNat 32 i == r + BitVec.ofNat 32 j)) = true
    then none else some r

/-- `t` is `s` with `v` in `x[rd]` (nothing, if `rd` is x0), x0 forced to 0, and the pc at `target`; nothing else
differs. -/
def WritesReg (s t : State) (rd : Reg) (v target : Word) : Prop :=
  (∀ r : Reg, t.getReg r = if r = 0 then 0 else if r = rd then v else s.getReg r) ∧
    t.regs[0] = 0 ∧ t.pc = target ∧ t = { s with regs := t.regs, pc := t.pc }

/-- The instruction completes and its whole effect is `x[rd] <- v` and the pc at `target`. -/
def Gives (i : Instr) (s : State) (rd : Reg) (v target : Word) : Prop :=
  ∃ t, exec i s = .next t ∧ WritesReg s t rd v target

/-- The instruction completes and its whole effect is the pc at `target`. -/
def Goes (i : Instr) (s : State) (target : Word) : Prop := Gives i s 0 0 target

/-- The instruction completes, and but for what the capture agent does meanwhile its whole effect is `x[rd] <- v` and
the pc at `target`. -/
def Loads (i : Instr) (s : State) (rd : Reg) (v target : Word) : Prop :=
  ∃ u, CaptureFrame s u ∧ ∃ t, exec i s = .next t ∧ WritesReg u t rd v target

/-- The instruction completes, writes the low `n` bytes of `v` to guest memory from `ea` on, `x[rd] <- d` (nothing,
if `rd` is x0), leaves the reservation `res`, and but for what the capture agent does meanwhile nothing else differs but
the pc, which is at `target`. Every byte that the agent cannot disturb is known. -/
def Stores {w : Nat} (i : Instr) (s : State) (ea : Word) (v : BitVec w) (n : Nat) (rd : Reg) (d : Word)
    (res : Option Word) (target : Word) : Prop :=
  ∃ u, CaptureFrame s u ∧ ∃ t, exec i s = .next t ∧
    (∀ a, Undisturbed s a → t.byteAt a = byteAfter s ea v n a) ∧
    (∀ r : Reg, t.getReg r = if r = 0 then 0 else if r = rd then d else s.getReg r) ∧
    t.regs[0] = 0 ∧ t.mreserved = res ∧ t.pc = target ∧
    t = { u with mem := t.mem, regs := t.regs, mreserved := t.mreserved, pc := t.pc }

/-- Where an instruction stores in a state, and how many bytes, with the address its meaning computes
(40_rv32i R128, 42_rv32a R164, 44_rvc). -/
def storeAt (s : State) : Instr → Option (Word × Nat)
  | .sb rs1 _ imm => some (eaSigned s rs1 imm, 1)
  | .sh rs1 _ imm => some (eaSigned s rs1 imm, 2)
  | .sw rs1 _ imm => some (eaSigned s rs1 imm, 4)
  | .scW _ rs1 _ _ _ => if s.mreserved = some (s.getReg rs1) then some (s.getReg rs1, 4) else none
  | .amoswapW _ rs1 _ _ _ | .amoaddW _ rs1 _ _ _ | .amoxorW _ rs1 _ _ _ | .amoandW _ rs1 _ _ _
  | .amoorW _ rs1 _ _ _ | .amominW _ rs1 _ _ _ | .amomaxW _ rs1 _ _ _ | .amominuW _ rs1 _ _ _
  | .amomaxuW _ rs1 _ _ _ => some (s.getReg rs1, 4)
  | .cSw _ rs1 imm => some (eaUnsigned s (cReg rs1) imm, 4)
  | .cSwsp _ imm => some (eaUnsigned s spReg imm, 4)
  | .cFsd _ rs1 imm => if s.params.fpMoves.cFsd then some (eaUnsigned s (cReg rs1) imm, 8) else none
  | .cFsw _ rs1 imm => if s.params.fpMoves.cFsw then some (eaUnsigned s (cReg rs1) imm, 4) else none
  | .cFsdsp _ imm => if s.params.fpMoves.cFsdsp then some (eaUnsigned s spReg imm, 8) else none
  | .cFswsp _ imm => if s.params.fpMoves.cFswsp then some (eaUnsigned s spReg imm, 4) else none
  | _ => none

/-- The accesses a store of `n` bytes is made of: a 64-bit store is two 4-byte ones (20_memory R60). -/
def storeParts (ea : Word) (n : Nat) : List (Word × Nat) := if n = 8 then [(ea, 4), (ea + 4, 4)] else [(ea, n)]

/-- A store that starts no bit-blt (20_memory R74) and, where it is made of two accesses, does not move the ring or
release the mutex between them (R76). -/
def StoreCalm (s : State) (ea : Word) (n : Nat) : Prop :=
  (∀ p ∈ storeParts ea n, s.selects p.1 ≠ some (.display 7)) ∧
    (n = 8 → ∀ i, s.selects ea ≠ some (.audioIn i))

/-- Address `a` names a byte of guest memory that a store of `n` bytes at `ea` writes. -/
def Stored (s : State) (ea : Word) (n : Nat) (a : Word) : Prop :=
  ∃ p ∈ storeParts ea n, InGuest p.1 ∧ ∃ k, k < p.2 ∧
    backingIndex s.params (p.1 + BitVec.ofNat 32 k) = backingIndex s.params a

/-- The start addresses of the data accesses of an instruction (20_memory R63); a disabled floating-point move makes
none. -/
def accessStarts (s : State) : Instr → List Word
  | .lb _ rs1 imm | .lh _ rs1 imm | .lw _ rs1 imm | .lbu _ rs1 imm | .lhu _ rs1 imm => [eaSigned s rs1 imm]
  | .sb rs1 _ imm | .sh rs1 _ imm | .sw rs1 _ imm => [eaSigned s rs1 imm]
  | .lrW _ rs1 _ _ | .scW _ rs1 _ _ _ | .amoswapW _ rs1 _ _ _ | .amoaddW _ rs1 _ _ _ | .amoxorW _ rs1 _ _ _
  | .amoandW _ rs1 _ _ _ | .amoorW _ rs1 _ _ _ | .amominW _ rs1 _ _ _ | .amomaxW _ rs1 _ _ _
  | .amominuW _ rs1 _ _ _ | .amomaxuW _ rs1 _ _ _ => [s.getReg rs1]
  | .cLw _ rs1 imm | .cSw _ rs1 imm | .cFlw _ rs1 imm | .cFsw _ rs1 imm => [eaUnsigned s (cReg rs1) imm]
  | .cLwsp _ imm | .cSwsp _ imm | .cFlwsp _ imm | .cFswsp _ imm => [eaUnsigned s spReg imm]
  | .cFld _ rs1 imm | .cFsd _ rs1 imm => [eaUnsigned s (cReg rs1) imm, eaUnsigned s (cReg rs1) imm + 4]
  | .cFldsp _ imm | .cFsdsp _ imm => [eaUnsigned s spReg imm, eaUnsigned s spReg imm + 4]
  | _ => []

/-- The instruction completes: its accesses leave the state `after`, and then `f[fd] <- v` and the pc is at `target`. -/
def LoadsFregFrom (i : Instr) (s after : State) (fd : Reg) (v : DWord) (target : Word) : Prop :=
  ∃ t, exec i s = .next t ∧
    (∀ r : Reg, t.getFreg r = if r = fd then v else s.getFreg r) ∧
    (∀ r : Reg, t.getReg r = s.getReg r) ∧ t.regs[0] = 0 ∧ t.pc = target ∧
    t = { after with fregs := t.fregs, regs := t.regs, pc := t.pc }

/-- The instruction completes, and but for what the capture agent does meanwhile it sets `f[fd] <- v` and the pc to
`target`, and does nothing else. -/
def LoadsFreg (i : Instr) (s : State) (fd : Reg) (v : DWord) (target : Word) : Prop :=
  ∃ u, CaptureFrame s u ∧ LoadsFregFrom i s u fd v target

/-- The instruction completes: its accesses leave the state `after`, and then `x[rd] <- v` and the pc is at `target`. -/
def LoadsFrom (i : Instr) (s after : State) (rd : Reg) (v target : Word) : Prop :=
  ∃ t, exec i s = .next t ∧ WritesReg after t rd v target ∧ (∀ r : Reg, after.getReg r = s.getReg r)

/-- The instruction completes: its accesses leave the state `after`, and then no register changes but x0, which is
forced to 0, and the pc is at `target`. -/
def StoresFrom (i : Instr) (s after : State) (target : Word) : Prop :=
  ∃ t, exec i s = .next t ∧ (∀ r : Reg, t.getReg r = s.getReg r) ∧ t.regs[0] = 0 ∧
    t = { after with regs := t.regs, pc := target }

/-- The instruction completes: its store of `n` bytes at `ea` does `f` to the state and leaves the reservation that
R166 says, but for what the capture agent does meanwhile, and then the pc is at `target`. -/
def StoresTo (i : Instr) (s : State) (ea : Word) (n : Nat) (f : State → State) (target : Word) : Prop :=
  ∃ u, CaptureFrame s u ∧ StoresFrom i s { f u with mreserved := reservationAfter s ea n } target

/-- A load instruction of RV32I, with what it takes from the 32-bit value it reads of a device register (20_memory R67). -/
structure LoadForm where
  instr : Instr
  ext : Word → Word

/-- The five loads (40_rv32i R123 to R127). -/
def loadForms (rd rs1 : Reg) (imm : BitVec 12) : List LoadForm :=
  [⟨.lb rd rs1 imm, fun x => (x.extractLsb' 0 8).signExtend 32⟩,
   ⟨.lh rd rs1 imm, fun x => (x.extractLsb' 0 16).signExtend 32⟩,
   ⟨.lw rd rs1 imm, id⟩,
   ⟨.lbu rd rs1 imm, fun x => (x.extractLsb' 0 8).setWidth 32⟩,
   ⟨.lhu rd rs1 imm, fun x => (x.extractLsb' 0 16).setWidth 32⟩]

/-- A store instruction of RV32I, with its number of bytes and the value it hands a device register: the bits written,
zero-extended (20_memory R67). -/
structure StoreForm where
  instr : Instr
  bytes : Nat
  value : Word

/-- The three stores (40_rv32i R129 to R131). -/
def storeForms (s : State) (rs1 rs2 : Reg) (imm : BitVec 12) : List StoreForm :=
  [⟨.sb rs1 rs2 imm, 1, ((s.getReg rs2).extractLsb' 0 8).setWidth 32⟩,
   ⟨.sh rs1 rs2 imm, 2, ((s.getReg rs2).extractLsb' 0 16).setWidth 32⟩,
   ⟨.sw rs1 rs2 imm, 4, s.getReg rs2⟩]

/-- The load completes and reads a host draw (00_scope R27): it counts the draw, `x[rd]` receives a value of which nothing
is known, the pc is at `target`, and but for what the capture agent does meanwhile nothing else changes. -/
def LoadsDraw (f : LoadForm) (s : State) (rd : Reg) (target : Word) : Prop :=
  ∃ u v, CaptureFrame s u ∧ LoadsFrom f.instr s { u with draws := u.draws + 1 } rd (f.ext v) target

/-- A write of a word to the device register that `ea` selects (20_memory R67): what the register does after the capture
agent has acted, the reservation as R166 says, and then the copy, if the register is DISP_BITBLT_WH (R74). -/
def deviceStore (s : State) (ea v : Word) : Except Refusal State :=
  match devStore (select s.params.devAddr ea) v (captureInstant s) with
  | .ok u =>
    let t := { u with mreserved := reservationAfter s ea 4 }
    if select s.params.devAddr ea = some (.display 7) then bitBlt t else .ok t
  | .error e => .error e

/-- A 4-byte read at `ea` may give `v` and leave the state `t` (20_memory R55, R58): in guest memory the bytes, with what
the capture agent does meanwhile; in the device window the read of the selected register, after the agent has acted. -/
def ReadsWord (s : State) (ea v : Word) (t : State) : Prop :=
  (InGuest ea → MayRead s ea 4 v ∧ CaptureFrame s t) ∧
  (¬ InGuest ea → (v, t) = devRead (select s.params.devAddr ea) (captureInstant s))

/-- A 4-byte write of `v` at `ea` may leave the state `t` (20_memory R55, R59): in guest memory the bytes and the
reservation, with what the capture agent does meanwhile; in the device window what `deviceStore` says. -/
def WritesWord (s : State) (ea v : Word) (t : State) : Prop :=
  (InGuest ea → (∀ a, Undisturbed s a → t.byteAt a = byteAfter s ea v 4 a ∧ Undisturbed t a) ∧
    ∃ u, CaptureFrame s u ∧ t = { u with mem := t.mem, mreserved := reservationAfter s ea 4 }) ∧
  (¬ InGuest ea → deviceStore s ea v = .ok t)

/-- A CSR instruction completes: `x[rd]` receives the old value of `csr[c]`, which then holds `new`, unless `skip` holds
or the number is in the read-only range (43_system R183, 10_state R40); nothing else changes but the pc. -/
def CsrAccess (i : Instr) (s : State) (rd : Reg) (c : BitVec 12) (new : Word) (skip : Prop) : Prop :=
  ∃ t, exec i s = .next t ∧
    (∀ r : Reg, t.getReg r = if r = 0 then 0 else if r = rd then s.csr c else s.getReg r) ∧
    t.regs[0] = 0 ∧ t.pc = s.pc + 4 ∧
    (c.toNat < 0xC00 ∧ ¬ skip → t.csr c = new) ∧ (¬ (c.toNat < 0xC00 ∧ ¬ skip) → t.csr c = s.csr c) ∧
    (∀ n : BitVec 12, n ≠ c → t.csr n = s.csr n) ∧
    t = { s with regs := t.regs, csrs := t.csrs, pc := t.pc }

/-- The hart takes the next transition: the run has not ended and the sub-batch has a step left
(60_exceptions R244). -/
def HartNext (s : State) : Prop := s.exitFlag = false ∧ s.sched.closed = false ∧ 0 < s.sched.stepsLeft

/-- The next transition is a check point (60_exceptions R244). -/
def CheckNext (s : State) : Prop := s.exitFlag = false ∧ s.sched.closed = false ∧ s.sched.stepsLeft = 0

/-- What a memory access leaves as it was: the registers, the pc, the mode, the exit flag, the CSRs, the last clock
sample, the schedule and the parameters; the clock's bound only grows. -/
structure AccessFrame (s t : State) : Prop where
  regs : t.regs = s.regs
  fregs : t.fregs = s.fregs
  pc : t.pc = s.pc
  mode : t.mode = s.mode
  exitFlag : t.exitFlag = s.exitFlag
  csrs : t.csrs = s.csrs
  mtimecur : t.mtimecur = s.mtimecur
  sched : t.sched = s.sched
  params : t.params = s.params
  clock : s.clockSeen ≤ t.clockSeen

/-- What holds of the machine at reset and after every step. -/
structure Inv (s : State) : Prop where
  /-- guest memory in canonical form, every index below `MEM_SIZE` (20_memory R56) -/
  memCanonical : Memory.wf s.mem = true
  memBounded : sparseBelow (memSize s.params) s.mem = true
  /-- the CSR file in canonical form; no CSR of the read-only range holds a value other than 0 (10_state R40) -/
  csrsCanonical : sparseWf s.csrs = true
  csrsReadOnlyZero : sparseBelow 0xC00 s.csrs = true
  /-- x0 holds 0 (10_state R30) -/
  zero : s.regs[0] = 0
  /-- the clock was sampled no later than the last sample or read (60_exceptions R231) -/
  clock : s.mtimecur ≤ s.clockSeen
  /-- CPU_FREQ is at most its maximum (20_memory R79) -/
  freq : s.dev.cpuFreq ≤ s.params.cpuFreqMax
  /-- the hart owns the audio-in mutex exactly while AUDIO_IN_LOCK holds a value other than 0 (20_memory R76) -/
  lock : s.dev.audioOwner = .hart ↔ s.dev.audioIn[6] ≠ 0
  /-- only the owner of the mutex has effects of a capture step pending (20_memory R83) -/
  pending : s.dev.audioOwner ≠ .capture → s.dev.capturePending = []
  /-- as long as AUDIO_IN_SIZE has always been 0 there is no ring and no byte is owed to one (R83) -/
  ring : s.dev.ringMade = false → s.dev.audioIn[4] = 0 ∧ ∀ e ∈ s.dev.capturePending, e.target = none
  /-- no byte of the disk file lies at or past its end (20_memory R78) -/
  disk : ∀ d, s.dev.disk = some d → sparseBelow d.size d.cells = true
  /-- no more steps are left than the sub-batch has (60_exceptions R244) -/
  steps : s.sched.stepsLeft ≤ s.sched.batchSteps
  /-- the parameters meet the constraints of 00_scope R15, R16, R18 -/
  params : paramsWf s.params = true

end Machine

end Sys2Proof
end

