-- ==== Sys2Proof/Certificates/Slice0/Obligations.lean ====
section
/-! DEFINITION. The statements about the machine, each after the rules of spec/ that its docstring names. -/

open Sys2Proof Sys2Proof.Machine

/-! ## Encoding and decoding -/

/-- Encoding a well-formed instruction and decoding its words gives it back, whatever follows a 16-bit form in memory
(R89, R93 to R103). -/
def Obligations.DecodeOfEncode : Prop :=
  ∀ i : Instr, i.wf = true →
    match encode i with
    | .w32 w => decode w = .ok i
    | .w16 h => ∀ next : BitVec 16, decode (next ++ h) = .ok i

/-- What the decoder accepts is well formed, and its encoding is the word that was read: of a 16-bit form, its low half
(R89, R103: every bit the encoding fixes is compared). -/
def Obligations.EncodeOfDecode : Prop :=
  ∀ (w : BitVec 32) (i : Instr), decode w = .ok i →
    i.wf = true ∧
      match encode i with
      | .w32 v => v = w
      | .w16 h => h = w.extractLsb' 0 16

/-- Words written out from the tables of R93 to R102 decode to the instructions they stand for. -/
def Obligations.DecodeSpecWords : Prop :=
  decode 0x123452B7#32 = .ok (.lui 5#5 0x12345#20) ∧
  decode 0xFE629CE3#32 = .ok (.bne 5#5 6#5 0x1FF8#13) ∧
  decode 0xFE732E23#32 = .ok (.sw 6#5 7#5 0xFFC#12) ∧
  decode 0x41F35293#32 = .ok (.srai 5#5 6#5 31#5) ∧
  decode 0x027342B3#32 = .ok (.div 5#5 6#5 7#5) ∧
  decode 0x1873242F#32 = .ok (.scW 8#5 6#5 7#5 0#1 0#1) ∧
  decode 0x30200073#32 = .ok .mret ∧
  decode 0x304062F3#32 = .ok (.csrrsi 5#5 0#5 0x304#12) ∧
  decode 0xFFFFBFE5#32 = .ok (.cJ 0xFF8#12) ∧
  decode 0x00007139#32 = .ok (.cAddi16sp 0x3C0#10) ∧
  decode 0x0000FC75#32 = .ok (.cBnez 0#3 0x1FC#9) ∧
  decode 0x0000A422#32 = .ok (.cFsdsp 8#5 8#9) ∧
  decode 0xFFFFFFFF#32 = .error .majorOpcode ∧
  decode 0x00000000#32 = .error .addi4spnZero

/-- R89: the low two bits of the fetched word alone decide the length; with both 1 the word is a 32-bit instruction
whatever its other bits are, and otherwise only its low 16 bits are decoded. -/
def Obligations.LengthFromLowTwoBits : Prop :=
  (∀ w : BitVec 32, fetchLength w = if w.extractLsb' 0 2 = 3#2 then 4 else 2) ∧
  (∀ (w : BitVec 32) (i : Instr), decode w = .ok i → (encodeBytes i).length = fetchLength w) ∧
  (∀ w v : BitVec 32, w.extractLsb' 0 2 ≠ 3#2 → w.extractLsb' 0 16 = v.extractLsb' 0 16 → decode w = decode v)

/-! ## The step -/

/-- A step of the hart is exec of the decoded instruction on the state after the fetch, and counts one step of the
sub-batch (R88, R90, R244); a fetch in guest memory reads the four bytes at the pc and changes nothing but what the
capture agent changes meanwhile (R83, logs 3 and 12); a fetch in the device window is a read of the register that the pc
selects, with what that read does (R80). -/
def Obligations.StepRunsDecodedInstruction : Prop :=
  ∀ (s : State) (i : Instr), HartNext s → decode (fetch s).1 = .ok i →
    (∀ t, exec i (fetch s).2 = .next t →
      step s = .next { t with sched := { t.sched with stepsLeft := t.sched.stepsLeft - 1 } }) ∧
    (∀ r, exec i (fetch s).2 = .refused r → step s = .refused r) ∧
    (InGuest s.pc → MayRead s s.pc 4 (fetch s).1 ∧ CaptureFrame s (fetch s).2) ∧
    (¬ InGuest s.pc → CaptureFrame s (captureInstant s) ∧
      fetch s = devRead (select s.params.devAddr s.pc) (captureInstant s))

/-- R104: a word that spells no implemented instruction advances the pc by its length, forces x0 to 0 and, after its
fetch, changes nothing else, or is refused under DECODE_RESERVED = refuse. The disabled floating-point moves are such words (R103). -/
def Obligations.UnmatchedWordIsNoop : Prop :=
  ∀ s : State, HartNext s →
    (∀ i, decode (fetch s).1 = .ok i → i.enabled s.params = false) →
    match s.params.decodeReserved with
    | .noop => ∃ t, step s = .next t ∧ (∀ r : Reg, t.getReg r = s.getReg r) ∧ t.regs[0] = 0 ∧
        t.pc = s.pc + BitVec.ofNat 32 (fetchLength (fetch s).1) ∧
        t = { (fetch s).2 with
          regs := t.regs
          pc := t.pc
          sched := { s.sched with stepsLeft := s.sched.stepsLeft - 1 } }
    | .refuse => step s = .refused .reservedEncoding

/-- R92: after every step of the hart, one that decoded to no instruction among them, x0 holds 0; a check point
changes no register. -/
def Obligations.ZeroAfterEveryStep : Prop :=
  ∀ s t : State, step s = .next t →
    (HartNext s → t.regs[0] = 0) ∧ (CheckNext s → t.regs = s.regs)

/-- A step ends in a fault exactly when the run has ended: by the exit flag (R37), or by the display close (R246). The
two faults are the model's way to say so (log 6). -/
def Obligations.StepFaultsOnlyAfterTheRun : Prop :=
  ∀ (s : State) (f : Fault), step s = .fault f ↔
    (f = .exited ∧ s.exitFlag = true) ∨ (f = .displayClosed ∧ s.exitFlag = false ∧ s.sched.closed = true)

/-! ## The timer interrupt -/

/-- R230, R231, R232: at a check point the clock is sampled, no earlier than every earlier sample; the timer interrupt is
taken exactly if it is due and both enables are set: then the CSRs and the pc are those of trap entry (MPIE and MIE, the
pending bit, the cause, `mepc`), and otherwise none changes; no register, slot or reservation changes. -/
def Obligations.TimerCheckAtCheckPoint : Prop :=
  ∀ s : State, CheckNext s → ∃ t, step s = .next t ∧
    s.clockSeen ≤ t.mtimecur ∧ t.clockSeen = t.mtimecur ∧ t.mtimecmp = s.mtimecmp ∧
    t.regs = s.regs ∧ t.fregs = s.fregs ∧ t.mreserved = s.mreserved ∧ t.exitFlag = false ∧
    (if (s.csr 0x300#12).getLsbD 3 = true ∧ (s.csr 0x304#12).getLsbD 7 = true ∧ s.mtimecmp ≤ t.mtimecur then
      t.csrs = (takeInterrupt 7 s).csrs ∧
        t.pc = trapTarget (s.csr 0x305#12) 7 ∧ t.csr 0x341#12 = s.pc ∧ t.csr 0x342#12 = 0x80000007#32 ∧
        (∀ k < 32, (t.csr 0x300#12).getLsbD k =
          if k = 7 then true else if k = 3 then false else (s.csr 0x300#12).getLsbD k) ∧
        (∀ k < 32, (t.csr 0x344#12).getLsbD k = (decide (k = 7) || (s.csr 0x344#12).getLsbD k))
    else t.pc = s.pc ∧ t.csrs = s.csrs) ∧
    (s.sched.lastBatch = false →
      t.mem = s.mem ∧ t.dev = s.dev ∧
        t.sched = { s.sched with stepsLeft := s.sched.batchSteps, lastBatch := true })

/-- R232: trap entry saves the enable and the pc, sets the pending bit and the cause, and goes to the target; without
both enables nothing changes. -/
def Obligations.TrapEntry : Prop :=
  ∀ (s : State) (src : Nat), src < 32 →
    let t := takeInterrupt src s
    if (s.csr 0x300#12).getLsbD 3 = true ∧ (s.csr 0x304#12).getLsbD src = true then
      (∀ k < 32, (t.csr 0x300#12).getLsbD k =
        if k = 7 then (s.csr 0x300#12).getLsbD 3 else if k = 3 then false else (s.csr 0x300#12).getLsbD k) ∧
      (∀ k < 32, (t.csr 0x344#12).getLsbD k = (decide (k = src) || (s.csr 0x344#12).getLsbD k)) ∧
      t.csr 0x342#12 = 0x80000000#32 ||| BitVec.ofNat 32 src ∧
      t.csr 0x341#12 = s.pc ∧
      t.pc = trapTarget (s.csr 0x305#12) src ∧
      (∀ n : BitVec 12, n ≠ 0x300#12 → n ≠ 0x344#12 → n ≠ 0x342#12 → n ≠ 0x341#12 → t.csr n = s.csr n) ∧
      t = { s with csrs := t.csrs, pc := t.pc }
    else t = s

/-- R233: the base is `mtvec` with its low two bits cleared; mode 1 adds four times the source (0x1C for the timer),
every other mode nothing; the target is a multiple of 4. -/
def Obligations.TrapTargets : Prop :=
  ∀ (mtvec : Word) (src : Nat),
    (mtvec.extractLsb' 0 2 = 1#2 →
      trapTarget mtvec src = (mtvec.extractLsb' 2 30 ++ 0#2) + BitVec.ofNat 32 (4 * src)) ∧
    (mtvec.extractLsb' 0 2 = 1#2 → trapTarget mtvec 7 = (mtvec.extractLsb' 2 30 ++ 0#2) + 0x1C#32) ∧
    (mtvec.extractLsb' 0 2 ≠ 1#2 → trapTarget mtvec src = mtvec.extractLsb' 2 30 ++ 0#2) ∧
    (trapTarget mtvec src).extractLsb' 0 2 = 0#2

/-- R181: MRET sets the pc from `mepc` (bit 0 cleared under MRET_CLEARS_BIT0), MIE from MPIE and MPIE to 1; every other
bit of `mstatus`, every other CSR, the reservation and every register are unchanged. -/
def Obligations.MretReturns : Prop :=
  decode 0x30200073#32 = .ok .mret ∧
  ∀ s : State, ∃ t, exec .mret s = .next t ∧
    (s.params.mretClearsBit0 = false → t.pc = s.csr 0x341#12) ∧
    (s.params.mretClearsBit0 = true → t.pc = (s.csr 0x341#12).extractLsb' 1 31 ++ 0#1) ∧
    (∀ k < 32, (t.csr 0x300#12).getLsbD k =
      if k = 3 then (s.csr 0x300#12).getLsbD 7 else if k = 7 then true else (s.csr 0x300#12).getLsbD k) ∧
    (∀ n : BitVec 12, n ≠ 0x300#12 → t.csr n = s.csr n) ∧
    (∀ r : Reg, t.getReg r = s.getReg r) ∧ t.regs[0] = 0 ∧
    t = { s with csrs := t.csrs, regs := t.regs, pc := t.pc }

/-- R236: after a trap, MRET in a state that holds the trap's `mepc` and `mstatus` restores the pc before the trap and
MIE, which was 1. -/
def Obligations.TrapThenMretRestores : Prop :=
  ∀ s u : State,
    (s.csr 0x300#12).getLsbD 3 = true → (s.csr 0x304#12).getLsbD 7 = true →
    u.csr 0x341#12 = (takeInterrupt 7 s).csr 0x341#12 → u.csr 0x300#12 = (takeInterrupt 7 s).csr 0x300#12 →
    (u.params.mretClearsBit0 = true → s.pc.getLsbD 0 = false) →
    ∃ v, exec .mret u = .next v ∧ v.pc = s.pc ∧ (v.csr 0x300#12).getLsbD 3 = true

/-! ## CSRs and the exit flag -/

/-- R183: the six CSR instructions, with the CSR number in bits 31:20 and the operand in bits 19:15, return the old
value; the write is skipped in the read-only range, and by the set and clear forms on a zero operand. -/
def Obligations.CsrInstructions : Prop :=
  ∀ (s : State) (rd rs1 uimm : Reg) (c : BitVec 12),
    decode (c ++ rs1 ++ 1#3 ++ rd ++ 0x73#7) = .ok (.csrrw rd rs1 c) ∧
    decode (c ++ rs1 ++ 2#3 ++ rd ++ 0x73#7) = .ok (.csrrs rd rs1 c) ∧
    decode (c ++ rs1 ++ 3#3 ++ rd ++ 0x73#7) = .ok (.csrrc rd rs1 c) ∧
    decode (c ++ uimm ++ 5#3 ++ rd ++ 0x73#7) = .ok (.csrrwi rd uimm c) ∧
    decode (c ++ uimm ++ 6#3 ++ rd ++ 0x73#7) = .ok (.csrrsi rd uimm c) ∧
    decode (c ++ uimm ++ 7#3 ++ rd ++ 0x73#7) = .ok (.csrrci rd uimm c) ∧
    CsrAccess (.csrrw rd rs1 c) s rd c (s.getReg rs1) False ∧
    CsrAccess (.csrrs rd rs1 c) s rd c (s.csr c ||| s.getReg rs1) (s.getReg rs1 = 0) ∧
    CsrAccess (.csrrc rd rs1 c) s rd c (s.csr c &&& ~~~(s.getReg rs1)) (s.getReg rs1 = 0) ∧
    CsrAccess (.csrrwi rd uimm c) s rd c (uimm.setWidth 32) False ∧
    CsrAccess (.csrrsi rd uimm c) s rd c (s.csr c ||| uimm.setWidth 32) (uimm = 0) ∧
    CsrAccess (.csrrci rd uimm c) s rd c (s.csr c &&& ~~~(uimm.setWidth 32)) (uimm = 0)

/-- R40: no step changes a CSR of the read-only range 0xC00 to 0xFFF. -/
def Obligations.ReadOnlyCsrsNeverChange : Prop :=
  ∀ (s t : State) (n : BitVec 12), step s = .next t → 0xC00 ≤ n.toNat → t.csr n = s.csr n

/-- R39, R227: an instruction that is neither a CSR instruction nor MRET changes no CSR; MRET changes `mstatus` alone. -/
def Obligations.OnlyCsrInstructionsAndMretChangeCsrs : Prop :=
  ∀ (i : Instr) (s t : State), exec i s = .next t → i.isCsr = false →
    (i ≠ .mret → t.csrs = s.csrs) ∧ (∀ n : BitVec 12, n ≠ 0x300#12 → t.csr n = s.csr n)

/-- R179: ECALL, the word 0x73, with 93 in x17 sets the exit flag and leaves x10, and no step follows (the capture agent
may act until then: R83, R246, logs 3 and 12); with any other number it returns 0 in x10 and has no other effect. It does not trap. -/
def Obligations.EcallExitsOrReturnsZero : Prop :=
  decode 0x00000073#32 = .ok .ecall ∧
  (∀ s t : State, s.exitFlag = true → step s ≠ .next t) ∧
  ∀ s : State,
    (s.getReg 17#5 = 93#32 → ∃ u, CaptureFrame s u ∧ ∃ t, exec .ecall s = .next t ∧ t.exitFlag = true ∧
      (∀ r : Reg, t.getReg r = s.getReg r) ∧ t.regs[0] = 0 ∧ t.pc = s.pc + 4 ∧
      t = { u with exitFlag := true, regs := t.regs, pc := t.pc }) ∧
    (s.getReg 17#5 ≠ 93#32 → Gives .ecall s 10#5 0 (s.pc + 4))

/-- R37: the exit flag is set only by ECALL with 93 in x17, and never cleared. -/
def Obligations.ExitOnlyByEcall93 : Prop :=
  (∀ (i : Instr) (s t : State), exec i s = .next t →
    (t.exitFlag = true ↔ s.exitFlag = true ∨ (i = .ecall ∧ s.getReg 17#5 = 93#32))) ∧
  (∀ s t : State, step s = .next t → t.exitFlag = true →
    decode (fetch s).1 = .ok .ecall ∧ s.getReg 17#5 = 93#32)

/-! ## Loads and stores -/

/-- R122 to R127, R194, R217: a load from guest memory writes the bytes it reads, sign- or zero-extended, to the
destination, and changes nothing else but what the capture agent changes meanwhile; every byte that the agent cannot
write (R83, logs 3 and 12) is the one in memory. -/
def Obligations.LoadsFromGuestMemory : Prop :=
  ∀ (s : State),
    (∀ (rd rs1 : Reg) (imm : BitVec 12), InGuest (eaSigned s rs1 imm) →
      let ea := eaSigned s rs1 imm
      (∃ v, MayRead s ea 1 v ∧ Loads (.lb rd rs1 imm) s rd ((v.extractLsb' 0 8).signExtend 32) (s.pc + 4)) ∧
      (∃ v, MayRead s ea 2 v ∧ Loads (.lh rd rs1 imm) s rd ((v.extractLsb' 0 16).signExtend 32) (s.pc + 4)) ∧
      (∃ v, MayRead s ea 4 v ∧ Loads (.lw rd rs1 imm) s rd v (s.pc + 4)) ∧
      (∃ v, MayRead s ea 1 v ∧ Loads (.lbu rd rs1 imm) s rd v (s.pc + 4)) ∧
      (∃ v, MayRead s ea 2 v ∧ Loads (.lhu rd rs1 imm) s rd v (s.pc + 4))) ∧
    (∀ (rd rs1 : CReg) (imm : BitVec 7), InGuest (eaUnsigned s (8#5 + rs1.setWidth 5) imm) →
      ∃ v, MayRead s (eaUnsigned s (8#5 + rs1.setWidth 5) imm) 4 v ∧
        Loads (.cLw rd rs1 imm) s (8#5 + rd.setWidth 5) v (s.pc + 2)) ∧
    (∀ (rd : Reg) (imm : BitVec 8), InGuest (eaUnsigned s 2#5 imm) →
      ∃ v, MayRead s (eaUnsigned s 2#5 imm) 4 v ∧ Loads (.cLwsp rd imm) s rd v (s.pc + 2))

/-- R67, R122: a load from the device window reads the selected register once, whatever the destination is, and takes
the low bits of its value; the capture agent may act just before the read (R83, logs 3 and 12). A load of a register whose
read is a draw (log 29), or of an address of the window that selects none, changes nothing but its destination and the
count of draws (R68, R70 to R72, R77). -/
def Obligations.LoadsFromTheDeviceWindow : Prop :=
  ∀ (s : State) (rd rs1 : Reg) (imm : BitVec 12), ¬ InGuest (eaSigned s rs1 imm) →
    let got := devRead (select s.params.devAddr (eaSigned s rs1 imm)) (captureInstant s)
    LoadsFrom (.lb rd rs1 imm) s got.2 rd ((got.1.extractLsb' 0 8).signExtend 32) (s.pc + 4) ∧
    LoadsFrom (.lh rd rs1 imm) s got.2 rd ((got.1.extractLsb' 0 16).signExtend 32) (s.pc + 4) ∧
    LoadsFrom (.lw rd rs1 imm) s got.2 rd got.1 (s.pc + 4) ∧
    LoadsFrom (.lbu rd rs1 imm) s got.2 rd ((got.1.extractLsb' 0 8).setWidth 32) (s.pc + 4) ∧
    LoadsFrom (.lhu rd rs1 imm) s got.2 rd ((got.1.extractLsb' 0 16).setWidth 32) (s.pc + 4) ∧
    (let m := s.params.devAddr
      let ea := eaSigned s rs1 imm
      select m ea = none ∨ (devMapWf m = true ∧
          (ea = m.stdio ∨ ea = m.stderr ∨ ea = m.getch ∨ ea = m.kbhit ∨ ea = m.consoleClear ∨ ea = m.consoleGoto ∨
            ea = m.sleep ∨ ea = m.mouseXy ∨ ea = m.mouseBtn ∨ ea = m.realtime ∨
            (m.keybdBase.toNat ≤ ea.toNat ∧ ea.toNat < m.keybdBase.toNat + 16))) →
        ∀ g ∈ loadForms rd rs1 imm, LoadsDraw g s rd (s.pc + 4))

/-- R128 to R131, R197, R225, R166: a store to guest memory writes the low bytes of its register, little-endian and
wrapping at `MEM_SIZE`, changes no register, leaves the reservation as R166 says (log 23), and changes nothing else but what
the capture agent changes meanwhile; the bytes written are known where the agent cannot write them (R83, logs 3 and 12). -/
def Obligations.StoresToGuestMemory : Prop :=
  ∀ (s : State),
    (∀ (rs1 rs2 : Reg) (imm : BitVec 12), InGuest (eaSigned s rs1 imm) →
      let ea := eaSigned s rs1 imm
      Stores (.sb rs1 rs2 imm) s ea (s.getReg rs2) 1 0 0 (reservationAfter s ea 1) (s.pc + 4) ∧
      Stores (.sh rs1 rs2 imm) s ea (s.getReg rs2) 2 0 0 (reservationAfter s ea 2) (s.pc + 4) ∧
      Stores (.sw rs1 rs2 imm) s ea (s.getReg rs2) 4 0 0 (reservationAfter s ea 4) (s.pc + 4)) ∧
    (∀ (rs2 rs1 : CReg) (imm : BitVec 7), InGuest (eaUnsigned s (8#5 + rs1.setWidth 5) imm) →
      let ea := eaUnsigned s (8#5 + rs1.setWidth 5) imm
      Stores (.cSw rs2 rs1 imm) s ea (s.getReg (8#5 + rs2.setWidth 5)) 4 0 0 (reservationAfter s ea 4) (s.pc + 2)) ∧
    (∀ (rs2 : Reg) (imm : BitVec 8), InGuest (eaUnsigned s 2#5 imm) →
      let ea := eaUnsigned s 2#5 imm
      Stores (.cSwsp rs2 imm) s ea (s.getReg rs2) 4 0 0 (reservationAfter s ea 4) (s.pc + 2))

/-- R62: a word stored at any guest address, aligned or not, is what a load from the same address then reads (with at
least four bytes of guest memory, so that its bytes do not fall on each other, and of bytes that the capture agent cannot
write, R83, logs 3 and 12). -/
def Obligations.StoreThenLoadAtAnyAlignment : Prop :=
  ∀ (s : State) (rd rs1 rs2 : Reg) (imm : BitVec 12), InGuest (eaSigned s rs1 imm) → 2 ≤ s.params.memLog2.val →
    (∀ k : Nat, k < 4 → Undisturbed s (eaSigned s rs1 imm + BitVec.ofNat 32 k)) →
    ∃ t u, exec (.sw rs1 rs2 imm) s = .next t ∧ exec (.lw rd rs1 imm) t = .next u ∧
      (rd ≠ 0 → u.getReg rd = s.getReg rs2) ∧ (∀ a, Undisturbed s a → u.byteAt a = t.byteAt a)

/-- R56: two addresses below the device window that differ by a multiple of `MEM_SIZE` name the same bytes, for reads and
for writes. -/
def Obligations.GuestMemoryWraps : Prop :=
  ∀ (s : State) (a b : Word) (w : Width), InGuest a → InGuest b →
    a.toNat % memSize s.params = b.toNat % memSize s.params →
    memRead w a s = memRead w b s ∧
    ∀ v : Word, ∃ t u, memWrite w a v s = .ok t ∧ memWrite w b v s = .ok u ∧ ∀ x, t.byteAt x = u.byteAt x

/-! ## Atomic instructions -/

/-- R167: LR.W loads the word and reserves its address; nothing else changes but what the capture agent changes meanwhile,
and every byte of guest memory that the agent cannot write (R83, logs 3 and 12) is the one in memory. In the device window
the word is one read of the selected register (R67), after the agent has acted. -/
def Obligations.LoadReserved : Prop :=
  ∀ (s : State) (rd rs1 : Reg) (aq rl : BitVec 1),
    (InGuest (s.getReg rs1) → ∃ v, MayRead s (s.getReg rs1) 4 v ∧ ∃ u, CaptureFrame s u ∧
      ∃ t, exec (.lrW rd rs1 aq rl) s = .next t ∧
        WritesReg { u with mreserved := some (s.getReg rs1) } t rd v (s.pc + 4)) ∧
    (¬ InGuest (s.getReg rs1) →
      let got := devRead (select s.params.devAddr (s.getReg rs1)) (captureInstant s)
      ∃ t, exec (.lrW rd rs1 aq rl) s = .next t ∧
        WritesReg { got.2 with mreserved := some (s.getReg rs1) } t rd got.1 (s.pc + 4))

/-- R168: SC.W stores and returns 0 where the reservation is for its address, stores nothing and returns 1 otherwise; the
reservation is consumed either way. A store changes nothing else but what the capture agent changes meanwhile, and the bytes
written are known where the agent cannot write them (R83, logs 3 and 12). A store in the device window is the write of the
selected register (R67), after the agent has acted, and may be refused. The reservation is consumed whatever the store
overlaps. -/
def Obligations.StoreConditional : Prop :=
  ∀ (s : State) (rd rs1 rs2 : Reg) (aq rl : BitVec 1),
    (s.mreserved = some (s.getReg rs1) → InGuest (s.getReg rs1) →
      Stores (.scW rd rs1 rs2 aq rl) s (s.getReg rs1) (s.getReg rs2) 4 rd 0 none (s.pc + 4)) ∧
    (s.mreserved = some (s.getReg rs1) → ¬ InGuest (s.getReg rs1) →
      match deviceStore s (s.getReg rs1) (s.getReg rs2) with
      | .ok u => LoadsFrom (.scW rd rs1 rs2 aq rl) s { u with mreserved := none } rd 0 (s.pc + 4)
      | .error e => exec (.scW rd rs1 rs2 aq rl) s = .refused e) ∧
    (s.mreserved ≠ some (s.getReg rs1) →
      ∃ t, exec (.scW rd rs1 rs2 aq rl) s = .next t ∧ WritesReg { s with mreserved := none } t rd 1 (s.pc + 4))

/-- R169 to R178: an AMO writes back its operation on the old word, which it reads, and the register, and returns the old
word; every byte of it that the capture agent cannot write (R83, logs 3 and 12) is the one in memory, and the reservation is
left as R166 says (log 23). In the device window it is
one read and then one write of the selected register (R67), each after the agent has acted, and may be refused. -/
def Obligations.AtomicMemoryOperations : Prop :=
  ∀ (s : State) (rd rs1 rs2 : Reg) (aq rl : BitVec 1),
    let ea := s.getReg rs1
    let b := s.getReg rs2
    let got := devRead (select s.params.devAddr ea) (captureInstant s)
    let does (i : Instr) (f : Word → Word) : Prop :=
      (InGuest ea → ∃ old, MayRead s ea 4 old ∧
        Stores i s ea (f old) 4 rd old (reservationAfter s ea 4) (s.pc + 4)) ∧
      (¬ InGuest ea → match deviceStore got.2 ea (f got.1) with
        | .ok u => LoadsFrom i s u rd got.1 (s.pc + 4)
        | .error e => exec i s = .refused e)
    does (.amoswapW rd rs1 rs2 aq rl) (fun _ => b) ∧
    does (.amoaddW rd rs1 rs2 aq rl) (fun old => old + b) ∧
    does (.amoxorW rd rs1 rs2 aq rl) (fun old => old ^^^ b) ∧
    does (.amoandW rd rs1 rs2 aq rl) (fun old => old &&& b) ∧
    does (.amoorW rd rs1 rs2 aq rl) (fun old => old ||| b) ∧
    does (.amominW rd rs1 rs2 aq rl) (fun old => if old.toInt < b.toInt then old else b) ∧
    does (.amomaxW rd rs1 rs2 aq rl) (fun old => if b.toInt < old.toInt then old else b) ∧
    does (.amominuW rd rs1 rs2 aq rl) (fun old => if old.toNat < b.toNat then old else b) ∧
    does (.amomaxuW rd rs1 rs2 aq rl) (fun old => if b.toNat < old.toNat then old else b)

/-- R49, R166: LR.W sets the reservation to its address and SC.W clears it. Of the other instructions one that stores
nothing leaves it, and one that stores leaves it unless, under STORE_BREAKS_RESERVATION, its bytes overlap the reserved word
(`reservationAfter`, log 23); only a store that starts a bit-blt may clear it besides, under the same switch, by the copy's
own writes (R74). A check point leaves it. -/
def Obligations.OnlyLrAndScChangeTheReservation : Prop :=
  (∀ (i : Instr) (s t : State), exec i s = .next t →
    match i with
    | .lrW _ rs1 _ _ => t.mreserved = some (s.getReg rs1)
    | .scW _ _ _ _ _ => t.mreserved = none
    | _ =>
      match storeAt s i with
      | none => t.mreserved = s.mreserved
      | some (ea, n) => t.mreserved = reservationAfter s ea n ∨
          (t.mreserved = none ∧ s.params.storeBreaksReservation = true ∧
            ∃ p ∈ storeParts ea n, s.selects p.1 = some (.display 7))) ∧
  (∀ s t : State, CheckNext s → step s = .next t → t.mreserved = s.mreserved)

/-! ## Register instructions -/

/-- R132, R142 to R151: the register-register operations. -/
def Obligations.RegisterArithmetic : Prop :=
  ∀ (s : State) (rd rs1 rs2 : Reg),
    let a := s.getReg rs1
    let b := s.getReg rs2
    Gives (.add rd rs1 rs2) s rd (BitVec.ofNat 32 (a.toNat + b.toNat)) (s.pc + 4) ∧
    Gives (.sub rd rs1 rs2) s rd (BitVec.ofInt 32 (a.toInt - b.toInt)) (s.pc + 4) ∧
    Gives (.sll rd rs1 rs2) s rd (BitVec.ofNat 32 (a.toNat * 2 ^ (b.toNat % 32))) (s.pc + 4) ∧
    Gives (.slt rd rs1 rs2) s rd (if a.toInt < b.toInt then 1 else 0) (s.pc + 4) ∧
    Gives (.sltu rd rs1 rs2) s rd (if a.toNat < b.toNat then 1 else 0) (s.pc + 4) ∧
    Gives (.xor rd rs1 rs2) s rd (a ^^^ b) (s.pc + 4) ∧
    Gives (.srl rd rs1 rs2) s rd (BitVec.ofNat 32 (a.toNat / 2 ^ (b.toNat % 32))) (s.pc + 4) ∧
    Gives (.sra rd rs1 rs2) s rd (BitVec.ofInt 32 (a.toInt / 2 ^ (b.toNat % 32))) (s.pc + 4) ∧
    Gives (.or rd rs1 rs2) s rd (a ||| b) (s.pc + 4) ∧
    Gives (.and rd rs1 rs2) s rd (a &&& b) (s.pc + 4)

/-- R111, R112, R132 to R141: the upper immediates, and the register-immediate operations with their immediate
sign-extended from 12 bits. -/
def Obligations.ImmediateArithmetic : Prop :=
  ∀ (s : State) (rd rs1 : Reg) (imm : BitVec 12) (shamt : BitVec 5) (upper : BitVec 20),
    let a := s.getReg rs1
    let k : Word := imm.signExtend 32
    Gives (.lui rd upper) s rd (BitVec.ofNat 32 (upper.toNat * 4096)) (s.pc + 4) ∧
    Gives (.auipc rd upper) s rd (s.pc + BitVec.ofNat 32 (upper.toNat * 4096)) (s.pc + 4) ∧
    Gives (.addi rd rs1 imm) s rd (BitVec.ofInt 32 (a.toInt + imm.toInt)) (s.pc + 4) ∧
    Gives (.slti rd rs1 imm) s rd (if a.toInt < imm.toInt then 1 else 0) (s.pc + 4) ∧
    Gives (.sltiu rd rs1 imm) s rd (if a.toNat < k.toNat then 1 else 0) (s.pc + 4) ∧
    Gives (.xori rd rs1 imm) s rd (a ^^^ k) (s.pc + 4) ∧
    Gives (.ori rd rs1 imm) s rd (a ||| k) (s.pc + 4) ∧
    Gives (.andi rd rs1 imm) s rd (a &&& k) (s.pc + 4) ∧
    Gives (.slli rd rs1 shamt) s rd (BitVec.ofNat 32 (a.toNat * 2 ^ shamt.toNat)) (s.pc + 4) ∧
    Gives (.srli rd rs1 shamt) s rd (BitVec.ofNat 32 (a.toNat / 2 ^ shamt.toNat)) (s.pc + 4) ∧
    Gives (.srai rd rs1 shamt) s rd (BitVec.ofInt 32 (a.toInt / 2 ^ shamt.toNat)) (s.pc + 4)

/-- R152, R153, R180, R182, R199, R221: FENCE, FENCE.I, EBREAK, WFI, C.NOP and C.EBREAK advance the pc and change nothing
else, whatever their fields are. -/
def Obligations.NoOperations : Prop :=
  ∀ (s : State) (fm pred succ : BitVec 4) (rs1 rd : Reg) (imm : BitVec 12) (imm6 : BitVec 6),
    Goes (.fence fm pred succ rs1 rd) s (s.pc + 4) ∧ Goes (.fenceI imm rs1 rd) s (s.pc + 4) ∧
    Goes .ebreak s (s.pc + 4) ∧ Goes .wfi s (s.pc + 4) ∧
    Goes (.cNop imm6) s (s.pc + 2) ∧ Goes .cEbreak s (s.pc + 2)

/-- R113, R114: JAL and JALR write the address of the next instruction and jump; JALR's target is computed from the old
base and has bit 0 cleared. -/
def Obligations.Jumps : Prop :=
  ∀ (s : State) (rd rs1 : Reg) (off : BitVec 21) (imm : BitVec 12),
    Gives (.jal rd off) s rd (s.pc + 4) (BitVec.ofInt 32 (s.pc.toInt + off.toInt)) ∧
    Gives (.jalr rd rs1 imm) s rd (s.pc + 4) (((s.getReg rs1 + imm.signExtend 32).extractLsb' 1 31) ++ 0#1)

/-- R115 to R121: each branch goes to `pc + offset` exactly if its comparison holds, else to the next instruction, and
writes no register. -/
def Obligations.Branches : Prop :=
  ∀ (s : State) (rs1 rs2 : Reg) (off : BitVec 13),
    let a := s.getReg rs1
    let b := s.getReg rs2
    let target : Word := s.pc + off.signExtend 32
    Goes (.beq rs1 rs2 off) s (if a = b then target else s.pc + 4) ∧
    Goes (.bne rs1 rs2 off) s (if a ≠ b then target else s.pc + 4) ∧
    Goes (.blt rs1 rs2 off) s (if a.toInt < b.toInt then target else s.pc + 4) ∧
    Goes (.bge rs1 rs2 off) s (if a.toInt < b.toInt then s.pc + 4 else target) ∧
    Goes (.bltu rs1 rs2 off) s (if a.toNat < b.toNat then target else s.pc + 4) ∧
    Goes (.bgeu rs1 rs2 off) s (if a.toNat < b.toNat then s.pc + 4 else target)

/-- R155 to R159: the low and the high words of the exact products. -/
def Obligations.Multiplications : Prop :=
  ∀ (s : State) (rd rs1 rs2 : Reg),
    let a := s.getReg rs1
    let b := s.getReg rs2
    Gives (.mul rd rs1 rs2) s rd (BitVec.ofInt 32 (a.toInt * b.toInt)) (s.pc + 4) ∧
    Gives (.mulh rd rs1 rs2) s rd (BitVec.ofInt 32 (a.toInt * b.toInt / 2 ^ 32)) (s.pc + 4) ∧
    Gives (.mulhsu rd rs1 rs2) s rd (BitVec.ofInt 32 (a.toInt * (b.toNat : Int) / 2 ^ 32)) (s.pc + 4) ∧
    Gives (.mulhu rd rs1 rs2) s rd (BitVec.ofNat 32 (a.toNat * b.toNat / 2 ^ 32)) (s.pc + 4)

/-- R155, R160 to R163: outside the corner cases the quotient is rounded toward zero and the remainder is what is left,
under either value of DIV_CORNER. -/
def Obligations.Divisions : Prop :=
  ∀ (s : State) (rd rs1 rs2 : Reg), s.getReg rs2 ≠ 0 →
    let a := s.getReg rs1
    let b := s.getReg rs2
    (¬ (a = 0x80000000#32 ∧ b = 0xFFFFFFFF#32) →
      Gives (.div rd rs1 rs2) s rd (BitVec.ofInt 32 (a.toInt.tdiv b.toInt)) (s.pc + 4) ∧
      Gives (.rem rd rs1 rs2) s rd (BitVec.ofInt 32 (a.toInt.tmod b.toInt)) (s.pc + 4)) ∧
    Gives (.divu rd rs1 rs2) s rd (BitVec.ofNat 32 (a.toNat / b.toNat)) (s.pc + 4) ∧
    Gives (.remu rd rs1 rs2) s rd (BitVec.ofNat 32 (a.toNat % b.toNat)) (s.pc + 4)

/-- R155: division by zero and the signed overflow, under both values of DIV_CORNER. -/
def Obligations.DivisionCorners : Prop :=
  ∀ (s : State) (rd rs1 rs2 : Reg),
    let a := s.getReg rs1
    let b := s.getReg rs2
    (s.params.divCorner = .riscv → b = 0 →
      Gives (.div rd rs1 rs2) s rd 0xFFFFFFFF#32 (s.pc + 4) ∧ Gives (.divu rd rs1 rs2) s rd 0xFFFFFFFF#32 (s.pc + 4) ∧
      Gives (.rem rd rs1 rs2) s rd a (s.pc + 4) ∧ Gives (.remu rd rs1 rs2) s rd a (s.pc + 4)) ∧
    (s.params.divCorner = .riscv → a = 0x80000000#32 → b = 0xFFFFFFFF#32 →
      Gives (.div rd rs1 rs2) s rd 0x80000000#32 (s.pc + 4) ∧ Gives (.rem rd rs1 rs2) s rd 0 (s.pc + 4) ∧
      Gives (.divu rd rs1 rs2) s rd 0 (s.pc + 4) ∧ Gives (.remu rd rs1 rs2) s rd 0x80000000#32 (s.pc + 4)) ∧
    (s.params.divCorner = .refuse → b = 0 →
      exec (.div rd rs1 rs2) s = .refused .divisionCorner ∧ exec (.divu rd rs1 rs2) s = .refused .divisionCorner ∧
      exec (.rem rd rs1 rs2) s = .refused .divisionCorner ∧ exec (.remu rd rs1 rs2) s = .refused .divisionCorner) ∧
    (s.params.divCorner = .refuse → a = 0x80000000#32 → b = 0xFFFFFFFF#32 →
      exec (.div rd rs1 rs2) s = .refused .divisionCorner ∧ exec (.rem rd rs1 rs2) s = .refused .divisionCorner)

/-- R155: the dividend is quotient times divisor plus remainder, the remainder is smaller than the divisor and has the
sign of the dividend. -/
def Obligations.DivisionIdentity : Prop :=
  ∀ (s : State) (rd rs1 rs2 : Reg), s.getReg rs2 ≠ 0 →
    let a := s.getReg rs1
    let b := s.getReg rs2
    (¬ (a = 0x80000000#32 ∧ b = 0xFFFFFFFF#32) →
      ∃ q r : Word, Gives (.div rd rs1 rs2) s rd q (s.pc + 4) ∧ Gives (.rem rd rs1 rs2) s rd r (s.pc + 4) ∧
        a.toInt = q.toInt * b.toInt + r.toInt ∧ r.toInt.natAbs < b.toInt.natAbs ∧
        (0 ≤ a.toInt → 0 ≤ r.toInt) ∧ (a.toInt ≤ 0 → r.toInt ≤ 0)) ∧
    ∃ q r : Word, Gives (.divu rd rs1 rs2) s rd q (s.pc + 4) ∧ Gives (.remu rd rs1 rs2) s rd r (s.pc + 4) ∧
      a.toNat = q.toNat * b.toNat + r.toNat ∧ r.toNat < b.toNat

/-! ## Compressed instructions -/

/-- R192, R200, R202 to R211, R215, R220, R223: the compressed register instructions; the pc advances by 2. -/
def Obligations.CompressedArithmetic : Prop :=
  ∀ (s : State) (rd rs2 : Reg) (cd cs : CReg) (imm6 : BitVec 6) (imm10 : BitVec 10) (imm18 : BitVec 18)
    (shamt : BitVec 5),
    let d : Reg := 8#5 + cd.setWidth 5
    let x := s.getReg d
    let y := s.getReg (8#5 + cs.setWidth 5)
    Gives (.cAddi4spn cd imm10) s d (s.getReg 2#5 + imm10.setWidth 32) (s.pc + 2) ∧
    Gives (.cAddi rd imm6) s rd (BitVec.ofInt 32 ((s.getReg rd).toInt + imm6.toInt)) (s.pc + 2) ∧
    Gives (.cLi rd imm6) s rd (BitVec.ofInt 32 imm6.toInt) (s.pc + 2) ∧
    Gives (.cAddi16sp imm10) s 2#5 (BitVec.ofInt 32 ((s.getReg 2#5).toInt + imm10.toInt)) (s.pc + 2) ∧
    Gives (.cLui rd imm18) s rd (BitVec.ofInt 32 imm18.toInt) (s.pc + 2) ∧
    Gives (.cSrli cd shamt) s d (BitVec.ofNat 32 (x.toNat / 2 ^ shamt.toNat)) (s.pc + 2) ∧
    Gives (.cSrai cd shamt) s d (BitVec.ofInt 32 (x.toInt / 2 ^ shamt.toNat)) (s.pc + 2) ∧
    Gives (.cAndi cd imm6) s d (x &&& imm6.signExtend 32) (s.pc + 2) ∧
    Gives (.cSub cd cs) s d (x - y) (s.pc + 2) ∧
    Gives (.cXor cd cs) s d (x ^^^ y) (s.pc + 2) ∧
    Gives (.cOr cd cs) s d (x ||| y) (s.pc + 2) ∧
    Gives (.cAnd cd cs) s d (x &&& y) (s.pc + 2) ∧
    Gives (.cSlli rd shamt) s rd (BitVec.ofNat 32 ((s.getReg rd).toNat * 2 ^ shamt.toNat)) (s.pc + 2) ∧
    Gives (.cMv rd rs2) s rd (s.getReg rs2) (s.pc + 2) ∧
    Gives (.cAdd rd rs2) s rd (s.getReg rd + s.getReg rs2) (s.pc + 2)

/-- R190, R201, R212 to R214, R219, R222: the compressed jumps and branches; the link is `pc + 2`. -/
def Obligations.CompressedJumpsAndBranches : Prop :=
  ∀ (s : State) (rs1 : Reg) (cs : CReg) (off12 : BitVec 12) (off9 : BitVec 9),
    let y := s.getReg (8#5 + cs.setWidth 5)
    Gives (.cJal off12) s 1#5 (s.pc + 2) (s.pc + off12.signExtend 32) ∧
    Goes (.cJ off12) s (s.pc + off12.signExtend 32) ∧
    Goes (.cBeqz cs off9) s (if y = 0 then s.pc + off9.signExtend 32 else s.pc + 2) ∧
    Goes (.cBnez cs off9) s (if y ≠ 0 then s.pc + off9.signExtend 32 else s.pc + 2) ∧
    Goes (.cJr rs1) s ((s.getReg rs1).extractLsb' 1 31 ++ 0#1) ∧
    Gives (.cJalr rs1) s 1#5 (s.pc + 2) ((s.getReg rs1).extractLsb' 1 31 ++ 0#1)

/-- R191, R193, R195, R216, R218, R60: an implemented floating-point load moves 64 bits, the low word first, or 32
zero-extended, into its slot, and changes nothing else but what the capture agent changes meanwhile; every byte in guest
memory that the agent cannot write (R83, logs 3 and 12) is the one in memory, and an access that starts in the device window
reads the selected register (R67), after the agent has acted, each of the two of a 64-bit load by its own address. -/
def Obligations.FloatingLoads : Prop :=
  ∀ (s : State),
    let wide (i : Instr) (fd : Reg) (ea : Word) : Prop :=
      (InGuest ea → InGuest (ea + 4) → ∃ lo hi, MayRead s ea 4 lo ∧ MayRead s (ea + 4) 4 hi ∧
        LoadsFreg i s fd (hi ++ lo) (s.pc + 2)) ∧
      ∃ lo hi u v, ReadsWord s ea lo u ∧ ReadsWord u (ea + 4) hi v ∧ LoadsFregFrom i s v fd (hi ++ lo) (s.pc + 2)
    let narrow (i : Instr) (fd : Reg) (ea : Word) : Prop :=
      ∃ v u, ReadsWord s ea v u ∧ LoadsFregFrom i s u fd (0#32 ++ v) (s.pc + 2)
    (∀ (rd rs1 : CReg) (imm : BitVec 8), s.params.fpMoves.cFld = true →
      wide (.cFld rd rs1 imm) (8#5 + rd.setWidth 5) (eaUnsigned s (8#5 + rs1.setWidth 5) imm)) ∧
    (∀ (rd rs1 : CReg) (imm : BitVec 7), s.params.fpMoves.cFlw = true →
      narrow (.cFlw rd rs1 imm) (8#5 + rd.setWidth 5) (eaUnsigned s (8#5 + rs1.setWidth 5) imm)) ∧
    (∀ (rd : Reg) (imm : BitVec 9), s.params.fpMoves.cFldsp = true →
      wide (.cFldsp rd imm) rd (eaUnsigned s 2#5 imm)) ∧
    (∀ (rd : Reg) (imm : BitVec 8), s.params.fpMoves.cFlwsp = true →
      narrow (.cFlwsp rd imm) rd (eaUnsigned s 2#5 imm))

/-- R191, R196, R198, R224, R226, R60: an implemented floating-point store writes the eight bytes of its slot, or the low
four, to guest memory, and changes nothing else but what the capture agent changes meanwhile; the bytes written are known
where the agent cannot write them (R83, logs 3 and 12), and the reservation is left as R166 says (log 23). An access that
starts in the device window writes the selected register (R67), after the agent has acted, each of the two of a 64-bit store
by its own address, and the store is refused where that write is. -/
def Obligations.FloatingStores : Prop :=
  ∀ (s : State),
    let wide (i : Instr) (v : DWord) (ea : Word) : Prop :=
      (InGuest ea → InGuest (ea + 4) → Stores i s ea v 8 0 0 (reservationAfter s ea 8) (s.pc + 2)) ∧
      ((∃ u t, WritesWord s ea (v.extractLsb' 0 32) u ∧ WritesWord u (ea + 4) (v.extractLsb' 32 32) t ∧
          StoresFrom i s t (s.pc + 2)) ∨
        (∃ e, ¬ InGuest ea ∧ deviceStore s ea (v.extractLsb' 0 32) = .error e ∧ exec i s = .refused e) ∨
        ∃ u e, WritesWord s ea (v.extractLsb' 0 32) u ∧ ¬ InGuest (ea + 4) ∧
          deviceStore u (ea + 4) (v.extractLsb' 32 32) = .error e ∧ exec i s = .refused e)
    let narrow (i : Instr) (v : DWord) (ea : Word) : Prop :=
      (InGuest ea → Stores i s ea v 4 0 0 (reservationAfter s ea 4) (s.pc + 2)) ∧
      (¬ InGuest ea → match deviceStore s ea (v.extractLsb' 0 32) with
        | .ok u => StoresFrom i s u (s.pc + 2)
        | .error e => exec i s = .refused e)
    (∀ (rs2 rs1 : CReg) (imm : BitVec 8), s.params.fpMoves.cFsd = true →
      wide (.cFsd rs2 rs1 imm) (s.getFreg (8#5 + rs2.setWidth 5)) (eaUnsigned s (8#5 + rs1.setWidth 5) imm)) ∧
    (∀ (rs2 rs1 : CReg) (imm : BitVec 7), s.params.fpMoves.cFsw = true →
      narrow (.cFsw rs2 rs1 imm) (s.getFreg (8#5 + rs2.setWidth 5)) (eaUnsigned s (8#5 + rs1.setWidth 5) imm)) ∧
    (∀ (rs2 : Reg) (imm : BitVec 9), s.params.fpMoves.cFsdsp = true →
      wide (.cFsdsp rs2 imm) (s.getFreg rs2) (eaUnsigned s 2#5 imm)) ∧
    (∀ (rs2 : Reg) (imm : BitVec 8), s.params.fpMoves.cFswsp = true →
      narrow (.cFswsp rs2 imm) (s.getFreg rs2) (eaUnsigned s 2#5 imm))

/-- R190: a compressed instruction that transfers no control does what its 32-bit expansion does, but that the pc
advances by 2, not 4; where the one is refused, the other is, for the same reason. -/
def Obligations.CompressedExpansions : Prop :=
  ∀ (c e : Instr) (s : State), c.wf = true → c.expansion = some e →
    (∃ t, exec c s = .next t ∧ exec e s = .next { t with pc := t.pc + 2 }) ∨
    (∃ r, exec c s = .refused r ∧ exec e s = .refused r)

/-! ## Frames -/

/-- R29, R30: no instruction changes a register other than its destination, and x0 holds 0 after every one. -/
def Obligations.RegisterFrame : Prop :=
  ∀ (i : Instr) (s t : State), exec i s = .next t →
    (∀ r : Reg, i.dest ≠ some r → t.getReg r = s.getReg r) ∧ t.regs[0] = 0

/-- R56, R59, R63: of the bytes of guest memory that the capture agent cannot write (R83, logs 3 and 12), an instruction that stores
nothing leaves every one, and one that stores leaves every one but those of its store at the address its meaning computes;
a store to a device register that starts no bit-blt leaves them all. -/
def Obligations.GuestMemoryFrame : Prop :=
  ∀ (i : Instr) (s t : State), exec i s = .next t →
    match storeAt s i with
    | none => ∀ a, Undisturbed s a → t.byteAt a = s.byteAt a
    | some (ea, n) => StoreCalm s ea n → ∀ a, Undisturbed s a → ¬ Stored s ea n a → t.byteAt a = s.byteAt a

/-- R32: no instruction changes a floating-point slot but the one that a floating-point load of the set FP_MOVES loads;
no check point changes one. -/
def Obligations.FloatingSlotFrame : Prop :=
  (∀ (i : Instr) (s t : State) (r : Reg), exec i s = .next t →
    (i.fdest ≠ some r ∨ i.enabled s.params = false) → t.getFreg r = s.getFreg r) ∧
  (∀ s t : State, CheckNext s → step s = .next t → t.fregs = s.fregs)

/-- R50 to R53, R238, R250: no instruction changes the mode, the last clock sample, the schedule or the parameters, and
one whose accesses all lie in guest memory changes no device register, no half of `mtimecmp`, makes no draw and hands the
host nothing, but for what the capture agent changes meanwhile (R83, logs 3 and 12). -/
def Obligations.DeviceAndScheduleFrame : Prop :=
  ∀ (i : Instr) (s t : State), exec i s = .next t →
    t.mode = s.mode ∧ t.mtimecur = s.mtimecur ∧ t.sched = s.sched ∧ t.params = s.params ∧
    ((∀ a ∈ accessStarts s i, InGuest a) →
      t.mtimecmp = s.mtimecmp ∧ t.clockSeen = s.clockSeen ∧ t.sent = s.sent ∧
      ∃ u, CaptureFrame s u ∧ t.dev = u.dev ∧ t.draws = u.draws)

/-- R227: no instruction faults, and each refusal is one that the spec names: of a division corner or an unimplemented
encoding under its switch (R155, R104), of the audio-in mutex by a store to AUDIO_IN_LOCK, its own or that of the copy which
its store to DISP_BITBLT_WH starts (R76, R74), of a copy by a store to DISP_BITBLT_WH without fixed parameters (R74). -/
def Obligations.OnlyNamedRefusals : Prop :=
  ∀ (i : Instr) (s : State),
    (∀ f, exec i s ≠ .fault f) ∧
    ∀ r, exec i s = .refused r →
      (r = .divisionCorner ∧ i.isDivision = true ∧ s.params.divCorner = .refuse) ∨
      (r = .reservedEncoding ∧ i.enabled s.params = false ∧ s.params.decodeReserved = .refuse) ∨
      ∃ ea n, storeAt s i = some (ea, n) ∧ ∃ p ∈ storeParts ea n,
        ((r = .audioLockRetaken ∨ r = .audioLockNotOwned) ∧
          (s.selects p.1 = some (.audioIn 6) ∨ s.selects p.1 = some (.display 7))) ∨
        (r = .bitBltNotFixed ∧ s.params.blt = none ∧ s.selects p.1 = some (.display 7))

/-! ## Device registers

Of every register, for each of the three stores and the five loads of RV32I: a store hands it the bits written,
zero-extended, and a load takes the low bits of its value (R67). -/

/-- R77: a store to MTIMECMPL or MTIMECMPH replaces one half of `mtimecmp` and takes no interrupt; a load returns the
half; a load of MTIMECURL or MTIMECURH returns a half of a clock value no smaller than every earlier one; a store there
has no effect. All but for what the capture agent changes meanwhile (R83, logs 3 and 12), and for the reservation, which a
store leaves as R166 says (log 23). -/
def Obligations.TimerRegisters : Prop :=
  ∀ (s : State) (rd rs1 rs2 : Reg) (imm : BitVec 12), devMapWf s.params.devAddr = true →
    ∀ f ∈ storeForms s rs1 rs2 imm, ∀ g ∈ loadForms rd rs1 imm,
    let m := s.params.devAddr
    let ea := eaSigned s rs1 imm
    (ea = m.mtimecmpL →
      StoresTo f.instr s ea f.bytes
        (fun u => { u with mtimecmp := s.mtimecmp.extractLsb' 32 32 ++ f.value }) (s.pc + 4) ∧
      Loads g.instr s rd (g.ext (s.mtimecmp.extractLsb' 0 32)) (s.pc + 4)) ∧
    (ea = m.mtimecmpH →
      StoresTo f.instr s ea f.bytes
        (fun u => { u with mtimecmp := f.value ++ s.mtimecmp.extractLsb' 0 32 }) (s.pc + 4) ∧
      Loads g.instr s rd (g.ext (s.mtimecmp.extractLsb' 32 32)) (s.pc + 4)) ∧
    (ea = m.mtimecurL ∨ ea = m.mtimecurH →
      StoresTo f.instr s ea f.bytes id (s.pc + 4) ∧
      ∃ (u : State) (c : DWord), CaptureFrame s u ∧ s.clockSeen ≤ c ∧
        LoadsFrom g.instr s { u with clockSeen := c, draws := u.draws + 1 } rd
          (g.ext (c.extractLsb' (if ea = m.mtimecurL then 0 else 32) 32)) (s.pc + 4))

/-- R67, R73, R75: the display and audio-out registers store the zero-extended value written and read it back, each at the
four addresses of its word; writing DISP_WH or AUDIO_OUT_FMT changes besides it only what the host makes of its device
(a free descriptor and the event list: logs 17 and 21), and nothing where the value does not change. All but for what the
capture agent changes meanwhile (R83, logs 3 and 12), and for the reservation, which a store leaves as R166 says
(log 23). -/
def Obligations.DisplayAndAudioOutRegisters : Prop :=
  ∀ (s : State) (rd rs1 rs2 : Reg) (imm : BitVec 12) (k : Nat), devMapWf s.params.devAddr = true → k < 4 →
    ∀ f ∈ storeForms s rs1 rs2 imm, ∀ g ∈ loadForms rd rs1 imm,
    let ea := eaSigned s rs1 imm
    let v := f.value
    (∀ i : Fin 8, ea.toNat = s.params.devAddr.displayBase.toNat + 4 * i.val + k →
      Loads g.instr s rd (g.ext s.dev.display[i]) (s.pc + 4) ∧
      (i ≠ 0 → i ≠ 7 →
        StoresTo f.instr s ea f.bytes
          (fun u => { u with dev := { u.dev with display := s.dev.display.set i.val v i.isLt } }) (s.pc + 4)) ∧
      (i = 0 → ∃ (st : DeviceStatus) (n : Nat) (ev : List HostEvent),
        (v = s.dev.display[0] → st = s.dev.displayDev ∧ n = 0 ∧ ev = []) ∧
        StoresTo f.instr s ea f.bytes (fun u => { u with
          dev := { u.dev with display := s.dev.display.set 0 v, displayDev := st }
          draws := u.draws + n
          sent := ev ++ u.sent }) (s.pc + 4))) ∧
    (∀ i : Fin 7, ea.toNat = s.params.devAddr.audioOutBase.toNat + 4 * i.val + k →
      Loads g.instr s rd (g.ext s.dev.audioOut[i]) (s.pc + 4) ∧
      (i ≠ 0 →
        StoresTo f.instr s ea f.bytes
          (fun u => { u with dev := { u.dev with audioOut := s.dev.audioOut.set i.val v i.isLt } }) (s.pc + 4)) ∧
      (i = 0 → ∃ (st : DeviceStatus) (n : Nat) (ev : List HostEvent),
        (v = s.dev.audioOut[0] → st = s.dev.audioOutDev ∧ n = 0 ∧ ev = []) ∧
        StoresTo f.instr s ea f.bytes (fun u => { u with
          dev := { u.dev with audioOut := s.dev.audioOut.set 0 v, audioOutDev := st }
          draws := u.draws + n
          sent := ev ++ u.sent }) (s.pc + 4)))

/-- R79: CPU_FREQ holds the smaller of the value written and CPU_FREQ_MAX, and reads back; the current frame's sub-batches
do not move. Nothing else changes but what the capture agent changes meanwhile (R83, logs 3 and 12), and the reservation,
which a store leaves as R166 says (log 23). -/
def Obligations.CpuFrequencyIsClamped : Prop :=
  ∀ (s : State) (rd rs1 rs2 : Reg) (imm : BitVec 12), devMapWf s.params.devAddr = true →
    eaSigned s rs1 imm = s.params.devAddr.cpuFreq →
    ∀ f ∈ storeForms s rs1 rs2 imm, ∀ g ∈ loadForms rd rs1 imm,
    Loads g.instr s rd (g.ext s.dev.cpuFreq) (s.pc + 4) ∧
    StoresTo f.instr s (eaSigned s rs1 imm) f.bytes
      (fun u => { u with dev := { u.dev with
          cpuFreq := BitVec.ofNat 32 (min f.value.toNat s.params.cpuFreqMax.toNat) } }) (s.pc + 4)

/-- R67, R68, R70, R71: a store to a console register, SLEEP or REALTIME hands the host its value and changes nothing
else; one to a register without storage, or to an address of the window that selects none, has no effect. All but for what
the capture agent changes meanwhile (R83, logs 3 and 12), and for the reservation, which is left as R166 says (log 23). -/
def Obligations.ConsoleAndInertWrites : Prop :=
  ∀ (s : State) (rs1 rs2 : Reg) (imm : BitVec 12), devMapWf s.params.devAddr = true →
    ∀ f ∈ storeForms s rs1 rs2 imm,
    let m := s.params.devAddr
    let ea := eaSigned s rs1 imm
    let v := f.value
    let sends (e : HostEvent) : Prop :=
      StoresTo f.instr s ea f.bytes (fun u => { u with sent := e :: s.sent }) (s.pc + 4)
    (ea = m.stdio → sends (if v = 0xFFFFFFFF#32 then .stdoutFlush else .stdoutByte (v.extractLsb' 0 8))) ∧
    (ea = m.stderr → sends (if v = 0xFFFFFFFF#32 then .stderrFlush else .stderrByte (v.extractLsb' 0 8))) ∧
    (ea = m.consoleClear → sends (.consoleClear v)) ∧ (ea = m.consoleGoto → sends (.consoleGoto v)) ∧
    (ea = m.sleep → sends (.sleep v)) ∧ (ea = m.realtime → sends (.realtimeAdjust v)) ∧
    (ea = m.getch ∨ ea = m.kbhit ∨ ea = m.mouseXy ∨ ea = m.mouseBtn ∨ ea = m.diskSectorNum ∨ ea = m.diskSectorSize ∨
        (m.keybdBase.toNat ≤ ea.toNat ∧ ea.toNat < m.keybdBase.toNat + 16) →
      StoresTo f.instr s ea f.bytes id (s.pc + 4)) ∧
    (¬ InGuest ea → select m ea = none → StoresTo f.instr s ea f.bytes id (s.pc + 4))

/-- R78: DISK_SECTOR_NUM and DISK_SECTOR_SIZE read as the two geometry values of the run (log 16); DISK_SECTOR_IDX, written,
moves the cursor to 512 times its value, and read is a draw (log 27); DISK_SECTOR_DAT reads the byte at the cursor, or the
end-of-file value past the end, and writes it, moving the cursor by 1 and leaving every other byte of the file; without a
disk reads give 0 or the end-of-file value and writes are dropped. All but for what the capture agent changes meanwhile
(R83, logs 3 and 12), and for the reservation, which a store leaves as R166 says (log 23). -/
def Obligations.DiskRegisters : Prop :=
  ∀ (s : State) (rd rs1 rs2 : Reg) (imm : BitVec 12), devMapWf s.params.devAddr = true →
    ∀ f ∈ storeForms s rs1 rs2 imm, ∀ g ∈ loadForms rd rs1 imm,
    let m := s.params.devAddr
    let ea := eaSigned s rs1 imm
    (∀ d, s.dev.disk = some d →
      (ea = m.diskSectorIdx → StoresTo f.instr s ea f.bytes
        (fun u => { u with dev := { u.dev with diskPos := 512 * f.value.toNat, diskIndex := f.value } })
        (s.pc + 4)) ∧
      (ea = m.diskSectorNum → Loads g.instr s rd (g.ext s.params.diskSectorNum) (s.pc + 4)) ∧
      (ea = m.diskSectorSize → Loads g.instr s rd (g.ext s.params.diskSectorSize) (s.pc + 4)) ∧
      (ea = m.diskSectorIdx → LoadsDraw g s rd (s.pc + 4)) ∧
      (ea = m.diskSectorDat → s.dev.diskPos < d.size → ∃ u, CaptureFrame s u ∧
        LoadsFrom g.instr s { u with dev := { u.dev with diskPos := s.dev.diskPos + 1 } } rd
          (g.ext ((diskByte d s.dev.diskPos).setWidth 32)) (s.pc + 4)) ∧
      (ea = m.diskSectorDat → d.size ≤ s.dev.diskPos → Loads g.instr s rd (g.ext s.params.diskEof) (s.pc + 4)) ∧
      (ea = m.diskSectorDat → ∃ d' : DiskFile,
        d'.size = max d.size (s.dev.diskPos + 1) ∧
        (∀ p, diskByte d' p = if p = s.dev.diskPos then f.value.extractLsb' 0 8 else diskByte d p) ∧
        StoresTo f.instr s ea f.bytes
          (fun u => { u with dev := { u.dev with disk := some d', diskPos := s.dev.diskPos + 1 } }) (s.pc + 4))) ∧
    (s.dev.disk = none →
      (ea = m.diskSectorDat → Loads g.instr s rd (g.ext s.params.diskEof) (s.pc + 4)) ∧
      (ea = m.diskSectorNum ∨ ea = m.diskSectorSize ∨ ea = m.diskSectorIdx →
        Loads g.instr s rd (g.ext 0) (s.pc + 4)) ∧
      (ea = m.diskSectorIdx ∨ ea = m.diskSectorDat → StoresTo f.instr s ea f.bytes id (s.pc + 4)))

/-- R76, R83: a load of an audio-in register returns what the register holds after the capture agent has acted, which it
changes in HEAD, TAIL and CURR alone, and not at all while the hart owns the mutex. A store to a register other than LOCK
stores the value; the step in progress may read it or what it read before (log 9), and AUDIO_IN_FMT changes besides it
only what the host makes of its device (log 21). A non-zero store to LOCK by a hart that does not own the mutex ends with
the hart owning it and no capture effect pending (the wait ends in the store's step: log 13); a zero store by its owner
frees it; retaking it, and freeing it without owning it, are refused. The agent acts at the instants of log 3, on the bytes
of log 12, and a store leaves the reservation as R166 says (log 23). -/
def Obligations.AudioInRegisters : Prop :=
  ∀ (s : State) (rd rs1 rs2 : Reg) (imm : BitVec 12) (i : Fin 7) (k : Nat), devMapWf s.params.devAddr = true → k < 4 →
    (eaSigned s rs1 imm).toNat = s.params.devAddr.audioInBase.toNat + 4 * i.val + k →
    ∀ f ∈ storeForms s rs1 rs2 imm, ∀ g ∈ loadForms rd rs1 imm,
    let ea := eaSigned s rs1 imm
    let v := f.value
    (∃ u, CaptureFrame s u ∧ LoadsFrom g.instr s u rd (g.ext u.dev.audioIn[i]) (s.pc + 4)) ∧
    (i ≠ 6 → ∃ u, CaptureFrame s u ∧ ∃ t, exec f.instr s = .next t ∧
      t.dev.audioIn = u.dev.audioIn.set i.val v i.isLt ∧
      t.dev.capturePending.length = u.dev.capturePending.length ∧
      (∀ (j : Nat) (h : j < t.dev.capturePending.length) (h' : j < u.dev.capturePending.length),
        t.dev.capturePending[j] = u.dev.capturePending[j] ∨
        u.dev.audioOwner = .capture ∧ ∃ again : Nat → Bool, t.dev.capturePending[j] =
          { u.dev.capturePending[j] with
            seen := u.dev.capturePending[j].seen.reread again (isDue .tail u.dev.capturePending)
              (isDue .curr u.dev.capturePending) i v }) ∧
      (i ≠ 0 ∨ v = s.dev.audioIn[0] → t.dev.audioInDev = s.dev.audioInDev ∧ t.sent = s.sent) ∧
      (u.dev.audioOwner ≠ .capture → i ≠ 0 ∨ v = s.dev.audioIn[0] → t.draws = u.draws) ∧
      (∀ r : Reg, t.getReg r = s.getReg r) ∧ t.regs[0] = 0 ∧
      t = { u with
        dev := { u.dev with
          audioIn := t.dev.audioIn
          capturePending := t.dev.capturePending
          ringMade := t.dev.ringMade
          audioInDev := t.dev.audioInDev }
        regs := t.regs
        pc := s.pc + 4
        mreserved := reservationAfter s ea f.bytes
        draws := t.draws
        sent := t.sent }) ∧
    (i = 6 → (s.dev.audioOwner ≠ .capture → s.dev.capturePending = []) →
      (v ≠ 0 → s.dev.audioOwner ≠ .hart → StoresTo f.instr s ea f.bytes
        (fun u => { u with dev := { u.dev with
          audioIn := u.dev.audioIn.set 6 v
          audioOwner := .hart
          capturePending := [] } })
        (s.pc + 4)) ∧
      (v = 0 → s.dev.audioOwner = .hart → StoresTo f.instr s ea f.bytes
        (fun u => { u with dev := { u.dev with audioIn := s.dev.audioIn.set 6 0, audioOwner := .free } })
        (s.pc + 4)) ∧
      (v ≠ 0 → s.dev.audioOwner = .hart → exec f.instr s = .refused .audioLockRetaken) ∧
      (v = 0 → s.dev.audioOwner ≠ .hart → exec f.instr s = .refused .audioLockNotOwned))

/-- R74: writing DISP_BITBLT_WH stores the register and then, before the store ends, copies the rectangle: byte `j` of row
`r` of the source goes to the place that the formula of R74 gives it, for every byte that BLT_CLIP does not skip (log 14), and
every other byte of memory and every register is as before. For bytes in guest memory that the capture agent cannot write
(R83, logs 3 and 12), where no two fall on one byte of the destination and none of the source lies in it. Where the
parameters are not fixed, a rectangle that is not empty is refused and an empty one only stored, with the reservation left
as R166 says (log 23). -/
def Obligations.BitBltOnDisplayWrite : Prop :=
  ∀ (s : State) (rs1 rs2 : Reg) (imm : BitVec 12) (k : Nat), devMapWf s.params.devAddr = true → k < 4 →
    (eaSigned s rs1 imm).toNat = s.params.devAddr.displayBase.toNat + 28 + k →
    ∀ f ∈ storeForms s rs1 rs2 imm,
    let ea := eaSigned s rs1 imm
    let v := f.value
    let display := s.dev.display.set 7 v
    (∀ q, s.params.blt = some q →
      let b := bltOf q display
      let source (r j : Nat) : Word := b.source + BitVec.ofNat 32 (r * b.w.toNat * q.bpp + j)
      let dest (r j : Nat) : Word := s.dev.display[1] +
        BitVec.ofNat 32 (((b.dy.toNat + r) * b.width.toNat + b.dx.toNat) * q.bpp + j)
      let copied (r j : Nat) : Prop := r < b.h.toNat ∧ j < b.w.toNat * q.bpp ∧
        ¬ (q.clip = true ∧ (b.width.toNat ≤ b.dx.toNat + j / q.bpp ∨ b.height.toNat ≤ b.dy.toNat + r))
      (∀ r j, copied r j → InGuest (source r j) ∧ InGuest (dest r j) ∧
        Undisturbed s (source r j) ∧ Undisturbed s (dest r j)) →
      (∀ r j r' j', copied r j → copied r' j' →
        backingIndex s.params (source r j) ≠ backingIndex s.params (dest r' j') ∧
        (backingIndex s.params (dest r j) = backingIndex s.params (dest r' j') → r = r' ∧ j = j')) →
      ∃ u, CaptureFrame s u ∧ ∃ t, exec f.instr s = .next t ∧
        (∀ r j, copied r j → t.byteAt (dest r j) = s.byteAt (source r j)) ∧
        (∀ a, Undisturbed s a →
          (∀ r j, copied r j → backingIndex s.params (dest r j) ≠ backingIndex s.params a) →
          t.byteAt a = s.byteAt a) ∧
        t.dev = { u.dev with display := display } ∧
        (∀ r : Reg, t.getReg r = s.getReg r) ∧ t.regs[0] = 0 ∧ t.pc = s.pc + 4 ∧
        t = { u with
          mem := t.mem
          dev := t.dev
          regs := t.regs
          pc := t.pc
          mreserved := t.mreserved }) ∧
    (s.params.blt = none → v.extractLsb' 0 16 ≠ 0 → v.extractLsb' 16 16 ≠ 0 →
      exec f.instr s = .refused .bitBltNotFixed) ∧
    (s.params.blt = none → (v.extractLsb' 0 16 = 0 ∨ v.extractLsb' 16 16 = 0) →
      StoresTo f.instr s ea f.bytes (fun u => { u with dev := { u.dev with display := display } }) (s.pc + 4))

/-- R83: a capture step that starts while the mutex is free, with `k` samples, and completes before the hart writes an
audio-in register, leaves the mutex free; TAIL has advanced by `k` modulo SIZE, CURR by `k`, and on overflow CURR is SIZE
and HEAD the new TAIL; sample `j` stands at `ADDR + (TAIL + j) mod SIZE`, if it is one of the last SIZE; no byte outside
the ring has changed. The step uses the registers as they are at its start and writes the last SIZE samples alone
(log 9), its sums are of 32 bits (log 11), and its bytes go to guest memory alone (log 12). -/
def Obligations.CaptureStepAppends : Prop :=
  ∀ (s : State) (samples : List Byte), s.dev.audioOwner = .free →
    let addr := s.dev.audioIn[1]
    let tail := s.dev.audioIn[3]
    let size := s.dev.audioIn[4]
    let sum := s.dev.audioIn[5] + BitVec.ofNat 32 samples.length
    let t := finishCapture (s.withRing (captureMove s s.ring (.start samples)))
    size ≠ 0 →
    t.dev.audioOwner = .free ∧ t.dev.capturePending = [] ∧
    t.dev.audioIn[3] = (tail + BitVec.ofNat 32 samples.length) % size ∧
    (size < sum → t.dev.audioIn[5] = size ∧ t.dev.audioIn[2] = t.dev.audioIn[3]) ∧
    (sum ≤ size → t.dev.audioIn[5] = sum ∧ t.dev.audioIn[2] = s.dev.audioIn[2]) ∧
    (size.toNat ≤ memSize s.params → tail.toNat + samples.length ≤ 2 ^ 32 →
      ∀ (j : Nat) (h : j < samples.length), samples.length ≤ j + size.toNat →
        t.byteAt (addr + BitVec.ofNat 32 ((tail.toNat + j) % size.toNat)) = samples[j]) ∧
    (∀ a, ¬ InRing s a → t.byteAt a = s.byteAt a) ∧
    CaptureFrame s t

/-! ## Invariants, reset, the schedule -/

/-- Every step keeps the invariant: canonical bounded memory (R56), the read-only CSRs at 0 (R40), x0 at 0 (R30), the
clock monotone (R231), CPU_FREQ at most its maximum (R79), the audio-in lock and its owner in step (R76), no byte owed
to a ring that has never been (R83), the disk bytes within the file (R78), the parameters within their constraints (R15, R16, R18). -/
def Obligations.InvariantKept : Prop := ∀ s t : State, Inv s → step s = .next t → Inv t

/-- The invariant holds after reset, in `State.reset`: the launch without a ROM image and without a disk (log 18) at the
parameters of log 1. -/
def Obligations.InvariantAtReset : Prop := Inv State.reset

/-- R248, R249: what reset leaves, of the values the spec gives: every register, slot, CSR and display and audio register
0, CPU_FREQ at CPU_FREQ_RESET, the pc at address 0, the exit flag clear, no reservation, the mutex free, `mtimecmp` 0, the
first sub-batch. `State.reset` is the model's choice of a launch, the one whose ROM image is missing and which has no disk (log 18), so that every byte of memory
is 0; the bytes of a ROM, which R248 places from address 0 on, are `BootLoadsTheRom`'s. -/
def Obligations.ResetValues : Prop :=
  let s := State.reset
  s.pc = 0 ∧ (∀ r : Reg, s.getReg r = 0 ∧ s.getFreg r = 0) ∧ (∀ n : BitVec 12, s.csr n = 0) ∧
  (∀ a, s.byteAt a = 0) ∧ s.mreserved = none ∧ s.mtimecmp = 0 ∧ s.exitFlag = false ∧ s.mode = .machine ∧
  (∀ i : Fin 8, s.dev.display[i] = 0) ∧ (∀ i : Fin 7, s.dev.audioOut[i] = 0 ∧ s.dev.audioIn[i] = 0) ∧
  s.dev.audioOwner = .free ∧ s.dev.cpuFreq = s.params.cpuFreqReset ∧ s.dev.diskPos = 0 ∧ s.dev.diskIndex = 0 ∧
  s.dev.displayDev = .absent ∧ s.dev.audioOutDev = .absent ∧ s.dev.audioInDev = .absent ∧
  s.sched.lastBatch = false ∧ s.sched.batchSteps = s.params.cpuFreqReset.toNat / s.params.frameRate / 2 ∧
  s.sched.stepsLeft = s.sched.batchSteps

/-- R249: a launch loads ROM byte `i` at address `i`, leaves every other byte 0, and starts at address 0 with the
launch's parameters and disk; a ROM larger than guest memory has no launch (R250). -/
def Obligations.BootLoadsTheRom : Prop :=
  ∀ (p : Params) (rom : List Byte) (disk : Option (List Byte)),
    (rom.length ≤ memSize p → ∃ s, boot p rom disk = some s ∧
      (∀ a : Word, s.byteAt a = rom.getD (a.toNat % memSize p) 0) ∧ Memory.wf s.mem = true ∧
      s.pc = 0 ∧ s.params = p ∧ s.exitFlag = false ∧ (∀ r : Reg, s.getReg r = 0) ∧ (∀ n : BitVec 12, s.csr n = 0) ∧
      s.dev.cpuFreq = p.cpuFreqReset ∧ (disk = none → s.dev.disk = none) ∧
      (∀ img, disk = some img → ∃ d, s.dev.disk = some d ∧ d.size = img.length ∧
        ∀ i (h : i < img.length), diskByte d i = img[i])) ∧
    (memSize p < rom.length → boot p rom disk = none)

/-- R35: from an even pc every step leads to an even pc, but that MRET copies an odd `mepc` where MRET_CLEARS_BIT0 is
not set. -/
def Obligations.PcStaysEven : Prop :=
  ∀ s t : State, s.pc.getLsbD 0 = false → step s = .next t →
    (HartNext s → decode (fetch s).1 = .ok .mret →
      s.params.mretClearsBit0 = true ∨ (s.csr 0x341#12).getLsbD 0 = false) →
    t.pc.getLsbD 0 = false

/-- R244, R245, R75: a step of the hart uses up one step of the sub-batch; at the check point after the second sub-batch
the frame ends, the audio pump has consumed at most CURR bytes and only while AUDIO_OUT_LOCK is 0, no byte of memory has
changed but those that the capture agent can write in the sleep (R83), and the next frame starts with `K` computed from
CPU_FREQ. -/
def Obligations.FrameSchedule : Prop :=
  ∀ s t : State, step s = .next t →
    (HartNext s → t.sched = { s.sched with stepsLeft := s.sched.stepsLeft - 1 }) ∧
    (CheckNext s → s.sched.lastBatch = true →
      t.sched.batchSteps = s.dev.cpuFreq.toNat / s.params.frameRate / 2 ∧
      t.sched.stepsLeft = t.sched.batchSteps ∧ t.sched.lastBatch = false ∧
      t.regs = s.regs ∧ t.fregs = s.fregs ∧ t.mreserved = s.mreserved ∧ t.dev.cpuFreq = s.dev.cpuFreq ∧
      t.dev.display = s.dev.display ∧ t.dev.disk = s.dev.disk ∧
      (∀ a, ¬ InRing s a → ¬ Owed s a → t.byteAt a = s.byteAt a) ∧
      (s.dev.audioOut[6] ≠ 0 → t.dev.audioOut = s.dev.audioOut) ∧
      (t.dev.audioOut = s.dev.audioOut ∨ ∃ d : Nat, d ≤ s.dev.audioOut[5].toNat ∧
        t.dev.audioOut[5] = s.dev.audioOut[5] - BitVec.ofNat 32 d ∧
        (s.dev.audioOut[4] ≠ 0 →
          t.dev.audioOut[2] = (s.dev.audioOut[2] + BitVec.ofNat 32 d) % s.dev.audioOut[4]) ∧
        ∀ (i : Nat) (h : i < 7), i ≠ 2 → i ≠ 5 → t.dev.audioOut[i] = s.dev.audioOut[i]))
end

