-- ==== Sys2Proof/Laws/Sparse.lean ====
section
/-! SUPPORT. Sparse storage: a read after a write, and that every write keeps the canonical form (20_memory R56,
10_state R38, R39). -/

namespace Sys2Proof.Machine

open Sys2Proof

variable {w : Nat} (m : List (Nat × BitVec w)) (k j : Nat) (v : BitVec w)

theorem sparseGet_filter :
    sparseGet (m.filter (fun c => c.1 != k)) j = if j = k then 0 else sparseGet m j := by
  induction m with
  | nil => simp [sparseGet]
  | cons c rest ih =>
    by_cases hc : c.1 = k
    · by_cases hj : j = k
      · simpa [hc, hj] using ih
      · have : ¬ k = j := fun h => hj h.symm
        simp [sparseGet, hc, hj, this, ih]
    · by_cases hj : c.1 = j
      · have : ¬ j = k := fun h => hc (hj.trans h)
        simp [sparseGet, hj, this]
      · simp [sparseGet, hc, hj, ih]

theorem sparseGet_insert : sparseGet (sparseInsert m k v) j = if j = k then v else sparseGet m j := by
  induction m with
  | nil => simp [sparseInsert, sparseGet, eq_comm]
  | cons c rest ih =>
    by_cases h1 : k < c.1
    · simp [sparseInsert, h1, sparseGet, eq_comm]
    · by_cases h2 : k = c.1
      · by_cases hj : j = k
        · simp [sparseInsert, ← h2, sparseGet, hj]
        · have : ¬ k = j := fun h => hj h.symm
          simp [sparseInsert, ← h2, sparseGet, hj, this]
      · by_cases hj : c.1 = j
        · have : ¬ j = k := fun h => h2 (by rw [hj, h])
          rw [sparseInsert, if_neg h1, if_neg h2]
          simp [sparseGet, hj, this]
        · simp [sparseInsert, h1, h2, sparseGet, hj, ih]

/-- A read after a write: the value written at the same index, the old value elsewhere. -/
theorem sparseGet_set : sparseGet (sparseSet m k v) j = if j = k then v else sparseGet m j := by
  by_cases h : v = 0
  · subst h; simp [sparseSet, sparseGet_filter]
  · simp only [sparseSet, if_neg h]; exact sparseGet_insert m k j v

variable {m k v}

theorem mem_sparseInsert {c : Nat × BitVec w} (h : c ∈ sparseInsert m k v) : c = (k, v) ∨ c ∈ m := by
  induction m with
  | nil => simpa [sparseInsert] using h
  | cons d rest ih =>
    by_cases h1 : k < d.1
    · simpa [sparseInsert, h1] using h
    · by_cases h2 : k = d.1
      · rw [sparseInsert, if_neg h1, if_pos h2] at h
        rcases List.mem_cons.1 h with h | h
        · exact .inl h
        · exact .inr (List.mem_cons_of_mem _ h)
      · rw [sparseInsert, if_neg h1, if_neg h2] at h
        rcases List.mem_cons.1 h with h | h
        · exact .inr (by simp [h])
        · exact (ih h).imp id (List.mem_cons_of_mem _)

theorem mem_sparseSet {c : Nat × BitVec w} (h : c ∈ sparseSet m k v) : c = (k, v) ∨ c ∈ m := by
  by_cases hv : v = 0
  · simp only [sparseSet, if_pos hv, List.mem_filter] at h; exact .inr h.1
  · simp only [sparseSet, if_neg hv] at h; exact mem_sparseInsert h

theorem sparseWf_cons {c : Nat × BitVec w} {rest : List (Nat × BitVec w)} :
    sparseWf (c :: rest) = true ↔ c.2 ≠ 0 ∧ (∀ d ∈ rest, c.1 < d.1) ∧ sparseWf rest = true := by
  simp [sparseWf, and_assoc]

theorem sparseWf_filter (p : Nat × BitVec w → Bool) (h : sparseWf m = true) : sparseWf (m.filter p) = true := by
  induction m with
  | nil => rfl
  | cons c rest ih =>
    rw [sparseWf_cons] at h
    by_cases hp : p c
    · rw [List.filter_cons_of_pos hp, sparseWf_cons]
      exact ⟨h.1, fun d hd => h.2.1 d (List.mem_filter.1 hd).1, ih h.2.2⟩
    · rw [List.filter_cons_of_neg hp]; exact ih h.2.2

theorem sparseWf_insert (hv : v ≠ 0) (h : sparseWf m = true) : sparseWf (sparseInsert m k v) = true := by
  induction m with
  | nil => simpa [sparseInsert, sparseWf] using hv
  | cons c rest ih =>
    have h' := sparseWf_cons.1 h
    by_cases h1 : k < c.1
    · rw [sparseInsert, if_pos h1, sparseWf_cons]
      refine ⟨hv, fun d hd => ?_, h⟩
      rcases List.mem_cons.1 hd with rfl | hd
      · exact h1
      · exact Nat.lt_trans h1 (h'.2.1 d hd)
    · by_cases h2 : k = c.1
      · rw [sparseInsert, if_neg h1, if_pos h2, sparseWf_cons]
        exact ⟨hv, fun d hd => h2 ▸ h'.2.1 d hd, h'.2.2⟩
      · rw [sparseInsert, if_neg h1, if_neg h2, sparseWf_cons]
        refine ⟨h'.1, fun d hd => ?_, ih h'.2.2⟩
        rcases mem_sparseInsert hd with rfl | hd
        · exact Nat.lt_of_le_of_ne (Nat.not_lt.1 h1) (Ne.symm h2)
        · exact h'.2.1 d hd

/-- A write keeps the canonical form. -/
theorem sparseWf_set (h : sparseWf m = true) : sparseWf (sparseSet m k v) = true := by
  by_cases hv : v = 0
  · simp only [sparseSet, if_pos hv]; exact sparseWf_filter _ h
  · simp only [sparseSet, if_neg hv]; exact sparseWf_insert hv h

theorem sparseBelow_iff {n : Nat} : sparseBelow n m = true ↔ ∀ c ∈ m, c.1 < n := by
  simp [sparseBelow]

theorem sparseBelow_insert {n : Nat} (hk : k < n) (h : sparseBelow n m = true) :
    sparseBelow n (sparseInsert m k v) = true := by
  rw [sparseBelow_iff] at h ⊢
  intro c hc
  rcases mem_sparseInsert hc with rfl | hc
  · exact hk
  · exact h c hc

/-- A write at an index below `n` keeps every index below `n`. -/
theorem sparseBelow_set {n : Nat} (hk : k < n) (h : sparseBelow n m = true) :
    sparseBelow n (sparseSet m k v) = true := by
  rw [sparseBelow_iff] at h ⊢
  intro c hc
  rcases mem_sparseSet hc with rfl | hc
  · exact hk
  · exact h c hc

theorem sparseBelow_mono {n n' : Nat} (hn : n ≤ n') (h : sparseBelow n m = true) : sparseBelow n' m = true := by
  rw [sparseBelow_iff] at h ⊢
  exact fun c hc => Nat.lt_of_lt_of_le (h c hc) hn

/-- An index that no entry has reads as 0. -/
theorem sparseGet_of_not_mem (h : ∀ c ∈ m, c.1 ≠ k) : sparseGet m k = 0 := by
  induction m with
  | nil => rfl
  | cons c rest ih =>
    have hc : c.1 ≠ k := h c (by simp)
    rw [sparseGet, if_neg hc]
    exact ih fun d hd => h d (List.mem_cons_of_mem _ hd)

/-- An index at or past a bound of the list reads as 0. -/
theorem sparseGet_of_below {n : Nat} (h : sparseBelow n m = true) (hk : n ≤ k) : sparseGet m k = 0 :=
  sparseGet_of_not_mem fun c hc => Nat.ne_of_lt (Nat.lt_of_lt_of_le (sparseBelow_iff.1 h c hc) hk)

/-- Equal contents in canonical form are equal data. -/
theorem sparse_ext {a b : List (Nat × BitVec w)} (ha : sparseWf a = true) (hb : sparseWf b = true)
    (h : ∀ k, sparseGet a k = sparseGet b k) : a = b := by
  induction a generalizing b with
  | nil =>
    cases b with
    | nil => rfl
    | cons d _ =>
      have := h d.1
      rw [sparseGet, sparseGet, if_pos rfl] at this
      exact absurd this.symm (sparseWf_cons.1 hb).1
  | cons c ar ih =>
    have hc := sparseWf_cons.1 ha
    cases b with
    | nil =>
      have : c.2 = 0 := by simpa [sparseGet] using h c.1
      exact absurd this hc.1
    | cons d br =>
      have hd := sparseWf_cons.1 hb
      have below : ∀ {e : Nat} {r : List (Nat × BitVec w)}, (∀ x ∈ r, e < x.1) → sparseGet r e = 0 :=
        fun hr => sparseGet_of_not_mem fun x hx => Nat.ne_of_gt (hr x hx)
      have low : ∀ {e : Nat} {x : Nat × BitVec w} {r : List (Nat × BitVec w)}, e < x.1 → (∀ y ∈ r, x.1 < y.1) →
          sparseGet (x :: r) e = 0 := fun {e x r} he hr => by
        rw [sparseGet, if_neg (Nat.ne_of_gt he)]
        exact sparseGet_of_not_mem fun y hy => Nat.ne_of_gt (Nat.lt_trans he (hr y hy))
      have hk : c.1 = d.1 := by
        rcases Nat.lt_trichotomy c.1 d.1 with hlt | heq | hgt
        · have := h c.1
          rw [low hlt hd.2.1, sparseGet, if_pos rfl] at this
          exact absurd this hc.1
        · exact heq
        · have := h d.1
          rw [low hgt hc.2.1, sparseGet, if_pos rfl] at this
          exact absurd this.symm hd.1
      have hv : c.2 = d.2 := by
        have := h c.1
        rwa [sparseGet, if_pos rfl, sparseGet, if_pos hk.symm] at this
      have hr : ∀ k, sparseGet ar k = sparseGet br k := fun k => by
        by_cases hck : c.1 = k
        · subst hck
          rw [below hc.2.1, hk, below hd.2.1]
        · have := h k
          rwa [sparseGet, if_neg hck, sparseGet, if_neg (hk ▸ hck)] at this
      rw [ih hc.2.2 hd.2.2 hr, Prod.ext hk hv]

end Sys2Proof.Machine
end

