-- ==== Sys2Proof/Laws/State.lean ====
section
/-! SUPPORT. One lemma per field per update of the state: what each named update leaves as it was, and what it
writes. -/

namespace Sys2Proof.Machine

open Sys2Proof

variable (s : State)

/-! ## setReg -/

@[simp] theorem State.setReg_fregs (r : Reg) (v : Word) : (s.setReg r v).fregs = s.fregs := rfl
@[simp] theorem State.setReg_pc (r : Reg) (v : Word) : (s.setReg r v).pc = s.pc := rfl
@[simp] theorem State.setReg_mode (r : Reg) (v : Word) : (s.setReg r v).mode = s.mode := rfl
@[simp] theorem State.setReg_exitFlag (r : Reg) (v : Word) : (s.setReg r v).exitFlag = s.exitFlag := rfl
@[simp] theorem State.setReg_csrs (r : Reg) (v : Word) : (s.setReg r v).csrs = s.csrs := rfl
@[simp] theorem State.setReg_mreserved (r : Reg) (v : Word) : (s.setReg r v).mreserved = s.mreserved := rfl
@[simp] theorem State.setReg_mem (r : Reg) (v : Word) : (s.setReg r v).mem = s.mem := rfl
@[simp] theorem State.setReg_mtimecur (r : Reg) (v : Word) : (s.setReg r v).mtimecur = s.mtimecur := rfl
@[simp] theorem State.setReg_mtimecmp (r : Reg) (v : Word) : (s.setReg r v).mtimecmp = s.mtimecmp := rfl
@[simp] theorem State.setReg_clockSeen (r : Reg) (v : Word) : (s.setReg r v).clockSeen = s.clockSeen := rfl
@[simp] theorem State.setReg_dev (r : Reg) (v : Word) : (s.setReg r v).dev = s.dev := rfl
@[simp] theorem State.setReg_sched (r : Reg) (v : Word) : (s.setReg r v).sched = s.sched := rfl
@[simp] theorem State.setReg_params (r : Reg) (v : Word) : (s.setReg r v).params = s.params := rfl
@[simp] theorem State.setReg_draws (r : Reg) (v : Word) : (s.setReg r v).draws = s.draws := rfl
@[simp] theorem State.setReg_sent (r : Reg) (v : Word) : (s.setReg r v).sent = s.sent := rfl

/-! ## setFreg -/

@[simp] theorem State.setFreg_regs (r : Reg) (v : DWord) : (s.setFreg r v).regs = s.regs := rfl
@[simp] theorem State.setFreg_pc (r : Reg) (v : DWord) : (s.setFreg r v).pc = s.pc := rfl
@[simp] theorem State.setFreg_mode (r : Reg) (v : DWord) : (s.setFreg r v).mode = s.mode := rfl
@[simp] theorem State.setFreg_exitFlag (r : Reg) (v : DWord) : (s.setFreg r v).exitFlag = s.exitFlag := rfl
@[simp] theorem State.setFreg_csrs (r : Reg) (v : DWord) : (s.setFreg r v).csrs = s.csrs := rfl
@[simp] theorem State.setFreg_mreserved (r : Reg) (v : DWord) : (s.setFreg r v).mreserved = s.mreserved := rfl
@[simp] theorem State.setFreg_mem (r : Reg) (v : DWord) : (s.setFreg r v).mem = s.mem := rfl
@[simp] theorem State.setFreg_mtimecur (r : Reg) (v : DWord) : (s.setFreg r v).mtimecur = s.mtimecur := rfl
@[simp] theorem State.setFreg_mtimecmp (r : Reg) (v : DWord) : (s.setFreg r v).mtimecmp = s.mtimecmp := rfl
@[simp] theorem State.setFreg_clockSeen (r : Reg) (v : DWord) : (s.setFreg r v).clockSeen = s.clockSeen := rfl
@[simp] theorem State.setFreg_dev (r : Reg) (v : DWord) : (s.setFreg r v).dev = s.dev := rfl
@[simp] theorem State.setFreg_sched (r : Reg) (v : DWord) : (s.setFreg r v).sched = s.sched := rfl
@[simp] theorem State.setFreg_params (r : Reg) (v : DWord) : (s.setFreg r v).params = s.params := rfl
@[simp] theorem State.setFreg_draws (r : Reg) (v : DWord) : (s.setFreg r v).draws = s.draws := rfl
@[simp] theorem State.setFreg_sent (r : Reg) (v : DWord) : (s.setFreg r v).sent = s.sent := rfl

/-! ## jumpTo -/

@[simp] theorem State.jumpTo_fregs (t : Word) : (s.jumpTo t).fregs = s.fregs := rfl
@[simp] theorem State.jumpTo_mode (t : Word) : (s.jumpTo t).mode = s.mode := rfl
@[simp] theorem State.jumpTo_exitFlag (t : Word) : (s.jumpTo t).exitFlag = s.exitFlag := rfl
@[simp] theorem State.jumpTo_csrs (t : Word) : (s.jumpTo t).csrs = s.csrs := rfl
@[simp] theorem State.jumpTo_mreserved (t : Word) : (s.jumpTo t).mreserved = s.mreserved := rfl
@[simp] theorem State.jumpTo_mem (t : Word) : (s.jumpTo t).mem = s.mem := rfl
@[simp] theorem State.jumpTo_mtimecur (t : Word) : (s.jumpTo t).mtimecur = s.mtimecur := rfl
@[simp] theorem State.jumpTo_mtimecmp (t : Word) : (s.jumpTo t).mtimecmp = s.mtimecmp := rfl
@[simp] theorem State.jumpTo_clockSeen (t : Word) : (s.jumpTo t).clockSeen = s.clockSeen := rfl
@[simp] theorem State.jumpTo_dev (t : Word) : (s.jumpTo t).dev = s.dev := rfl
@[simp] theorem State.jumpTo_sched (t : Word) : (s.jumpTo t).sched = s.sched := rfl
@[simp] theorem State.jumpTo_params (t : Word) : (s.jumpTo t).params = s.params := rfl
@[simp] theorem State.jumpTo_draws (t : Word) : (s.jumpTo t).draws = s.draws := rfl
@[simp] theorem State.jumpTo_sent (t : Word) : (s.jumpTo t).sent = s.sent := rfl

/-! ## retire -/

@[simp] theorem State.retire_fregs (n : Word) : (s.retire n).fregs = s.fregs := rfl
@[simp] theorem State.retire_mode (n : Word) : (s.retire n).mode = s.mode := rfl
@[simp] theorem State.retire_exitFlag (n : Word) : (s.retire n).exitFlag = s.exitFlag := rfl
@[simp] theorem State.retire_csrs (n : Word) : (s.retire n).csrs = s.csrs := rfl
@[simp] theorem State.retire_mreserved (n : Word) : (s.retire n).mreserved = s.mreserved := rfl
@[simp] theorem State.retire_mem (n : Word) : (s.retire n).mem = s.mem := rfl
@[simp] theorem State.retire_mtimecur (n : Word) : (s.retire n).mtimecur = s.mtimecur := rfl
@[simp] theorem State.retire_mtimecmp (n : Word) : (s.retire n).mtimecmp = s.mtimecmp := rfl
@[simp] theorem State.retire_clockSeen (n : Word) : (s.retire n).clockSeen = s.clockSeen := rfl
@[simp] theorem State.retire_dev (n : Word) : (s.retire n).dev = s.dev := rfl
@[simp] theorem State.retire_sched (n : Word) : (s.retire n).sched = s.sched := rfl
@[simp] theorem State.retire_params (n : Word) : (s.retire n).params = s.params := rfl
@[simp] theorem State.retire_draws (n : Word) : (s.retire n).draws = s.draws := rfl
@[simp] theorem State.retire_sent (n : Word) : (s.retire n).sent = s.sent := rfl

/-! ## setByte -/

@[simp] theorem State.setByte_regs (a : Word) (v : Byte) : (s.setByte a v).regs = s.regs := rfl
@[simp] theorem State.setByte_fregs (a : Word) (v : Byte) : (s.setByte a v).fregs = s.fregs := rfl
@[simp] theorem State.setByte_pc (a : Word) (v : Byte) : (s.setByte a v).pc = s.pc := rfl
@[simp] theorem State.setByte_mode (a : Word) (v : Byte) : (s.setByte a v).mode = s.mode := rfl
@[simp] theorem State.setByte_exitFlag (a : Word) (v : Byte) : (s.setByte a v).exitFlag = s.exitFlag := rfl
@[simp] theorem State.setByte_csrs (a : Word) (v : Byte) : (s.setByte a v).csrs = s.csrs := rfl
@[simp] theorem State.setByte_mreserved (a : Word) (v : Byte) : (s.setByte a v).mreserved = s.mreserved := rfl
@[simp] theorem State.setByte_mtimecur (a : Word) (v : Byte) : (s.setByte a v).mtimecur = s.mtimecur := rfl
@[simp] theorem State.setByte_mtimecmp (a : Word) (v : Byte) : (s.setByte a v).mtimecmp = s.mtimecmp := rfl
@[simp] theorem State.setByte_clockSeen (a : Word) (v : Byte) : (s.setByte a v).clockSeen = s.clockSeen := rfl
@[simp] theorem State.setByte_dev (a : Word) (v : Byte) : (s.setByte a v).dev = s.dev := rfl
@[simp] theorem State.setByte_sched (a : Word) (v : Byte) : (s.setByte a v).sched = s.sched := rfl
@[simp] theorem State.setByte_params (a : Word) (v : Byte) : (s.setByte a v).params = s.params := rfl
@[simp] theorem State.setByte_draws (a : Word) (v : Byte) : (s.setByte a v).draws = s.draws := rfl
@[simp] theorem State.setByte_sent (a : Word) (v : Byte) : (s.setByte a v).sent = s.sent := rfl

/-! ## setCsr -/

@[simp] theorem State.setCsr_regs (n : BitVec 12) (v : Word) : (s.setCsr n v).regs = s.regs := rfl
@[simp] theorem State.setCsr_fregs (n : BitVec 12) (v : Word) : (s.setCsr n v).fregs = s.fregs := rfl
@[simp] theorem State.setCsr_pc (n : BitVec 12) (v : Word) : (s.setCsr n v).pc = s.pc := rfl
@[simp] theorem State.setCsr_mode (n : BitVec 12) (v : Word) : (s.setCsr n v).mode = s.mode := rfl
@[simp] theorem State.setCsr_exitFlag (n : BitVec 12) (v : Word) : (s.setCsr n v).exitFlag = s.exitFlag := rfl
@[simp] theorem State.setCsr_mreserved (n : BitVec 12) (v : Word) : (s.setCsr n v).mreserved = s.mreserved := rfl
@[simp] theorem State.setCsr_mem (n : BitVec 12) (v : Word) : (s.setCsr n v).mem = s.mem := rfl
@[simp] theorem State.setCsr_mtimecur (n : BitVec 12) (v : Word) : (s.setCsr n v).mtimecur = s.mtimecur := rfl
@[simp] theorem State.setCsr_mtimecmp (n : BitVec 12) (v : Word) : (s.setCsr n v).mtimecmp = s.mtimecmp := rfl
@[simp] theorem State.setCsr_clockSeen (n : BitVec 12) (v : Word) : (s.setCsr n v).clockSeen = s.clockSeen := rfl
@[simp] theorem State.setCsr_dev (n : BitVec 12) (v : Word) : (s.setCsr n v).dev = s.dev := rfl
@[simp] theorem State.setCsr_sched (n : BitVec 12) (v : Word) : (s.setCsr n v).sched = s.sched := rfl
@[simp] theorem State.setCsr_params (n : BitVec 12) (v : Word) : (s.setCsr n v).params = s.params := rfl
@[simp] theorem State.setCsr_draws (n : BitVec 12) (v : Word) : (s.setCsr n v).draws = s.draws := rfl
@[simp] theorem State.setCsr_sent (n : BitVec 12) (v : Word) : (s.setCsr n v).sent = s.sent := rfl

/-! ## drawn -/

@[simp] theorem State.drawn_regs : (s.drawn).regs = s.regs := rfl
@[simp] theorem State.drawn_fregs : (s.drawn).fregs = s.fregs := rfl
@[simp] theorem State.drawn_pc : (s.drawn).pc = s.pc := rfl
@[simp] theorem State.drawn_mode : (s.drawn).mode = s.mode := rfl
@[simp] theorem State.drawn_exitFlag : (s.drawn).exitFlag = s.exitFlag := rfl
@[simp] theorem State.drawn_csrs : (s.drawn).csrs = s.csrs := rfl
@[simp] theorem State.drawn_mreserved : (s.drawn).mreserved = s.mreserved := rfl
@[simp] theorem State.drawn_mem : (s.drawn).mem = s.mem := rfl
@[simp] theorem State.drawn_mtimecur : (s.drawn).mtimecur = s.mtimecur := rfl
@[simp] theorem State.drawn_mtimecmp : (s.drawn).mtimecmp = s.mtimecmp := rfl
@[simp] theorem State.drawn_clockSeen : (s.drawn).clockSeen = s.clockSeen := rfl
@[simp] theorem State.drawn_dev : (s.drawn).dev = s.dev := rfl
@[simp] theorem State.drawn_sched : (s.drawn).sched = s.sched := rfl
@[simp] theorem State.drawn_params : (s.drawn).params = s.params := rfl
@[simp] theorem State.drawn_sent : (s.drawn).sent = s.sent := rfl

/-! ## send -/

@[simp] theorem State.send_regs (e : HostEvent) : (s.send e).regs = s.regs := rfl
@[simp] theorem State.send_fregs (e : HostEvent) : (s.send e).fregs = s.fregs := rfl
@[simp] theorem State.send_pc (e : HostEvent) : (s.send e).pc = s.pc := rfl
@[simp] theorem State.send_mode (e : HostEvent) : (s.send e).mode = s.mode := rfl
@[simp] theorem State.send_exitFlag (e : HostEvent) : (s.send e).exitFlag = s.exitFlag := rfl
@[simp] theorem State.send_csrs (e : HostEvent) : (s.send e).csrs = s.csrs := rfl
@[simp] theorem State.send_mreserved (e : HostEvent) : (s.send e).mreserved = s.mreserved := rfl
@[simp] theorem State.send_mem (e : HostEvent) : (s.send e).mem = s.mem := rfl
@[simp] theorem State.send_mtimecur (e : HostEvent) : (s.send e).mtimecur = s.mtimecur := rfl
@[simp] theorem State.send_mtimecmp (e : HostEvent) : (s.send e).mtimecmp = s.mtimecmp := rfl
@[simp] theorem State.send_clockSeen (e : HostEvent) : (s.send e).clockSeen = s.clockSeen := rfl
@[simp] theorem State.send_dev (e : HostEvent) : (s.send e).dev = s.dev := rfl
@[simp] theorem State.send_sched (e : HostEvent) : (s.send e).sched = s.sched := rfl
@[simp] theorem State.send_params (e : HostEvent) : (s.send e).params = s.params := rfl
@[simp] theorem State.send_draws (e : HostEvent) : (s.send e).draws = s.draws := rfl

/-! ## The written fields -/

@[simp] theorem State.jumpTo_pc (t : Word) : (s.jumpTo t).pc = t := rfl
@[simp] theorem State.retire_pc (n : Word) : (s.retire n).pc = s.pc + n := rfl
@[simp] theorem State.setByte_mem (a : Word) (v : Byte) :
    (s.setByte a v).mem = sparseSet s.mem (backingIndex s.params a) v := rfl
@[simp] theorem State.setCsr_csrs (n : BitVec 12) (v : Word) : (s.setCsr n v).csrs = sparseSet s.csrs n.toNat v := rfl
@[simp] theorem State.drawn_draws : s.drawn.draws = s.draws + 1 := rfl
@[simp] theorem State.send_sent (e : HostEvent) : (s.send e).sent = e :: s.sent := rfl
@[simp] theorem State.setReg_regs (r : Reg) (v : Word) : (s.setReg r v).regs = s.regs.set r.toNat v r.isLt := rfl
@[simp] theorem State.setFreg_fregs (r : Reg) (v : DWord) : (s.setFreg r v).fregs = s.fregs.set r.toNat v r.isLt := rfl
@[simp] theorem State.jumpTo_regs (t : Word) : (s.jumpTo t).regs = s.regs.set 0 0 := rfl
@[simp] theorem State.retire_regs (n : Word) : (s.retire n).regs = s.regs.set 0 0 := rfl

/-! ## withRing -/

@[simp] theorem State.withRing_regs (r : CaptureRing) : (s.withRing r).regs = s.regs := rfl
@[simp] theorem State.withRing_fregs (r : CaptureRing) : (s.withRing r).fregs = s.fregs := rfl
@[simp] theorem State.withRing_pc (r : CaptureRing) : (s.withRing r).pc = s.pc := rfl
@[simp] theorem State.withRing_mode (r : CaptureRing) : (s.withRing r).mode = s.mode := rfl
@[simp] theorem State.withRing_exitFlag (r : CaptureRing) : (s.withRing r).exitFlag = s.exitFlag := rfl
@[simp] theorem State.withRing_csrs (r : CaptureRing) : (s.withRing r).csrs = s.csrs := rfl
@[simp] theorem State.withRing_mreserved (r : CaptureRing) : (s.withRing r).mreserved = s.mreserved := rfl
@[simp] theorem State.withRing_mtimecur (r : CaptureRing) : (s.withRing r).mtimecur = s.mtimecur := rfl
@[simp] theorem State.withRing_mtimecmp (r : CaptureRing) : (s.withRing r).mtimecmp = s.mtimecmp := rfl
@[simp] theorem State.withRing_clockSeen (r : CaptureRing) : (s.withRing r).clockSeen = s.clockSeen := rfl
@[simp] theorem State.withRing_sched (r : CaptureRing) : (s.withRing r).sched = s.sched := rfl
@[simp] theorem State.withRing_params (r : CaptureRing) : (s.withRing r).params = s.params := rfl
@[simp] theorem State.withRing_draws (r : CaptureRing) : (s.withRing r).draws = s.draws := rfl
@[simp] theorem State.withRing_sent (r : CaptureRing) : (s.withRing r).sent = s.sent := rfl

end Sys2Proof.Machine
end

