-- ==== Sys2Proof/Laws/Memory.lean ====
section
/-! SUPPORT. Guest memory: a byte read after a byte written, the bytes of a wider access
(20_memory R56 to R59), the canonical form. -/

namespace Sys2Proof.Machine

open Sys2Proof

variable (s : State)

theorem memSize_pos (p : Params) : 0 < memSize p := Nat.two_pow_pos _

theorem backingIndex_lt (p : Params) (a : Word) : backingIndex p a < memSize p := Nat.mod_lt _ (memSize_pos p)

/-- A byte read after a byte written. -/
theorem State.byteAt_setByte (a b : Word) (v : Byte) :
    (s.setByte a v).byteAt b = if backingIndex s.params a = backingIndex s.params b then v else s.byteAt b := by
  rw [State.byteAt, State.setByte_mem, sparseGet_set, State.setByte_params]
  simp only [eq_comm (a := backingIndex s.params b)]
  rfl

/-- The bytes of guest memory depend on `mem` and the parameters alone. -/
theorem State.byteAt_congr {s t : State} (hm : t.mem = s.mem) (hp : t.params = s.params) (a : Word) :
    t.byteAt a = s.byteAt a := by
  rw [State.byteAt, State.byteAt, hm, hp]

/-- The byte at `a` after a write depends on the byte there before it, the parameters and what is written. -/
theorem byteAfter_congr {w : Nat} {s t : State} (hp : t.params = s.params) (ea : Word) (v : BitVec w) (n : Nat) {a : Word}
    (h : t.byteAt a = s.byteAt a) : byteAfter t ea v n a = byteAfter s ea v n a := by
  induction n with
  | zero => exact h
  | succ n ih => rw [byteAfter, byteAfter, ih, hp]

/-- A byte written keeps the canonical form, and every index below `MEM_SIZE`. -/
theorem State.setByte_wf (a : Word) (v : Byte) (h : Memory.wf s.mem = true) :
    Memory.wf (s.setByte a v).mem = true := sparseWf_set h

theorem State.setByte_below (a : Word) (v : Byte) (h : sparseBelow (memSize s.params) s.mem = true) :
    sparseBelow (memSize s.params) (s.setByte a v).mem = true := sparseBelow_set (backingIndex_lt _ a) h

/-! ## Accesses of several bytes -/

variable {s}

/-- The sum of the lowest byte of a value and the others. -/
theorem toNat_byte_or (b : Byte) {v : Word} {n : Nat} (hn : n < 4) (hv : v.toNat < 2 ^ (8 * n)) :
    (b.setWidth 32 ||| v <<< 8).toNat = b.toNat + 2 ^ 8 * v.toNat := by
  have hb := b.isLt
  have h24 : v.toNat < 2 ^ 24 :=
    Nat.lt_of_lt_of_le hv (Nat.pow_le_pow_right (by decide) (by omega))
  rw [BitVec.toNat_or, BitVec.toNat_setWidth, BitVec.toNat_shiftLeft, Nat.shiftLeft_eq,
    Nat.mod_eq_of_lt (a := b.toNat) (by omega), Nat.mod_eq_of_lt (a := v.toNat * 2 ^ 8) (by omega), Nat.or_comm,
    Nat.mul_comm, ← Nat.two_pow_add_eq_or_of_lt hb, Nat.add_comm]

/-- The address of a byte of an access, from the second byte on. -/
theorem add_one_add (a : Word) (k : Nat) : a + 1 + BitVec.ofNat 32 k = a + BitVec.ofNat 32 (k + 1) := by
  rw [BitVec.add_assoc]; congr 1; rw [Nat.add_comm, BitVec.ofNat_add]; rfl

/-- A value read of `n + 1` bytes, from its lowest byte and the value of the others. -/
theorem MayRead.succ {a v : Word} {b : Byte} {n : Nat} (hn : n < 4) (hb : Undisturbed s a → b = s.byteAt a)
    (hv : MayRead s (a + 1) n v) : MayRead s a (n + 1) (b.setWidth 32 ||| v <<< 8) := by
  have ht := toNat_byte_or b hn hv.1
  have hb8 := b.isLt
  have hpow : 2 ^ (8 * (n + 1)) = 2 ^ (8 * n) * 2 ^ 8 := by rw [← Nat.pow_add]; rfl
  refine ⟨?_, fun k hk hu => ?_⟩
  · have h1 := hv.1
    rw [ht, hpow]
    omega
  · cases k with
    | zero =>
      have h0 : a + BitVec.ofNat 32 0 = a := by simp
      rw [h0] at hu ⊢
      rw [← hb hu]
      apply BitVec.eq_of_toNat_eq
      rw [BitVec.extractLsb'_toNat, ht]
      simp only [Nat.mul_zero, Nat.shiftRight_zero]
      omega
    | succ k =>
      have hr := hv.2 k (Nat.lt_of_succ_lt_succ hk)
      rw [add_one_add] at hr
      rw [← hr hu]
      apply BitVec.eq_of_toNat_eq
      rw [BitVec.extractLsb'_toNat, BitVec.extractLsb'_toNat, ht, Nat.mul_succ, Nat.add_comm (8 * k) 8,
        Nat.shiftRight_add, Nat.shiftRight_eq_div_pow _ 8]
      congr 2
      omega

theorem byteAfter_succ (ea v : Word) (n : Nat) (a : Word) :
    byteAfter (s.setByte ea (v.setWidth 8)) (ea + 1) (v >>> 8) n a = byteAfter s ea v (n + 1) a := by
  induction n with
  | zero =>
    have h0 : ea + BitVec.ofNat 32 0 = ea := by simp
    rw [byteAfter, byteAfter, byteAfter, State.byteAt_setByte, h0]
    have h1 : v.extractLsb' (8 * 0) 8 = v.setWidth 8 := by ext i hi; simp
    rw [h1]
  | succ n ih =>
    have h1 := add_one_add ea n
    have h2 : (v >>> 8).extractLsb' (8 * n) 8 = v.extractLsb' (8 * (n + 1)) 8 := by
      ext i hi
      simp only [BitVec.getElem_extractLsb', BitVec.getLsbD_ushiftRight]
      congr 1; omega
    rw [byteAfter, ih, State.setByte_params, h1, h2]
    rfl

/-- A byte outside the bytes written reads as before. -/
theorem byteAfter_of_outside {ea v a : Word} {n : Nat}
    (h : ∀ i, i < n → backingIndex s.params (ea + BitVec.ofNat 32 i) ≠ backingIndex s.params a) :
    byteAfter s ea v n a = s.byteAt a := by
  induction n with
  | zero => rfl
  | succ n ih => rw [byteAfter, if_neg (h n (Nat.lt_succ_self n)), ih fun i hi => h i (Nat.lt_succ_of_lt hi)]

end Sys2Proof.Machine
end

