-- ==== Sys2Proof/Laws/Capture.lean ====
section
/-! SUPPORT. What the audio-capture agent can do (20_memory R83): one frame for its effects, its moves, an instant
and the completion of a step; and the parts of the invariant it keeps. -/

namespace Sys2Proof.Machine

open Sys2Proof

/-! ## The invariant's part -/

/-- Guest memory is canonical and bounded. -/
def MemInv (s : State) : Prop := Memory.wf s.mem = true ∧ sparseBelow (memSize s.params) s.mem = true

/-- Only the agent has effects pending, and only while it owns the mutex. -/
def PendingInv (s : State) : Prop := s.dev.audioOwner ≠ .capture → s.dev.capturePending = []

/-- While there has been no ring, no byte is owed to one. -/
def RingInv (s : State) : Prop :=
  s.dev.ringMade = false → s.dev.audioIn[4] = 0 ∧ ∀ e ∈ s.dev.capturePending, e.target = none

theorem MemInv.setByte {s : State} (h : MemInv s) (a : Word) (v : Byte) : MemInv (s.setByte a v) :=
  ⟨State.setByte_wf s a v h.1, State.setByte_below s a v h.2⟩

theorem MemInv.congr {s t : State} (h : MemInv s) (hm : t.mem = s.mem) (hp : t.params = s.params) : MemInv t := by
  unfold MemInv at *; rwa [hm, hp]

/-! ## Frames of the whole state -/

namespace CaptureFrame

variable {s t u : State}

theorem refl (s : State) : CaptureFrame s s :=
  ⟨rfl, fun _ _ _ _ _ => rfl, Iff.rfl, fun _ => rfl, fun _ _ => rfl, fun _ h => h⟩

theorem trans (h : CaptureFrame s t) (h' : CaptureFrame t u) : CaptureFrame s u where
  rest := by
    have h1 := h'.rest
    rw [h.rest] at h1
    exact h1
  regs i hi h2 h3 h5 := (h'.regs i hi h2 h3 h5).trans (h.regs i hi h2 h3 h5)
  hart := h'.hart.trans h.hart
  held ho := (h'.held (h.hart.2 ho)).trans (h.held ho)
  bytes a ha := (h'.bytes a (h.undisturbed a ha)).trans (h.bytes a ha)
  undisturbed a ha := h'.undisturbed a (h.undisturbed a ha)

theorem params (h : CaptureFrame s t) : t.params = s.params := by rw [h.rest]

theorem getReg (h : CaptureFrame s t) (r : Reg) : t.getReg r = s.getReg r := by rw [h.rest]; rfl

/-- What a later read may give, an earlier one may. -/
theorem mayRead (h : CaptureFrame s t) {ea v : Word} {n : Nat} (hv : MayRead t ea n v) : MayRead s ea n v :=
  ⟨hv.1, fun k hk hu => (hv.2 k hk (h.undisturbed _ hu)).trans (h.bytes _ hu)⟩

end CaptureFrame

/-! ## Frames of the agent's part

`s` is the state at the start of the instant: its ring's place and size do not change in it. -/

/-- The byte at `a` is neither in the ring nor owed. -/
def CaptureRing.Clear (s : State) (r : CaptureRing) (a : Word) : Prop :=
  ¬ InRing s a ∧ ¬ ∃ e ∈ r.pending, ∃ b, e.target = some b ∧ backingIndex s.params b = backingIndex s.params a

/-- What a move of the agent leaves as it was. -/
structure RingFrame (s : State) (r r' : CaptureRing) : Prop where
  hart : r'.owner = .hart ↔ r.owner = .hart
  bytes : ∀ a, r.Clear s a →
    sparseGet r'.mem (backingIndex s.params a) = sparseGet r.mem (backingIndex s.params a) ∧ r'.Clear s a
  wf : sparseWf r.mem = true → sparseWf r'.mem = true
  below : sparseBelow (memSize s.params) r.mem = true → sparseBelow (memSize s.params) r'.mem = true
  targets : s.dev.audioIn[4] = 0 → (∀ e ∈ r.pending, e.target = none) → ∀ e ∈ r'.pending, e.target = none

namespace RingFrame

variable {s : State} {r r' r'' : CaptureRing}

/-- A move that writes no byte and takes on no effect. -/
theorem of_pending (hm : r'.mem = r.mem) (ho : r'.owner = .hart ↔ r.owner = .hart)
    (hp : ∀ e ∈ r'.pending, e ∈ r.pending) : RingFrame s r r' where
  hart := ho
  bytes a ha := ⟨by rw [hm], ha.1, fun ⟨e, he, hb⟩ => ha.2 ⟨e, hp e he, hb⟩⟩
  wf h := by rwa [hm]
  below h := by rwa [hm]
  targets _ h e he := h e (hp e he)

theorem refl (r : CaptureRing) : RingFrame s r r := .of_pending rfl Iff.rfl fun _ h => h

theorem trans (h : RingFrame s r r') (h' : RingFrame s r' r'') : RingFrame s r r'' where
  hart := h'.hart.trans h.hart
  bytes a ha := ⟨(h'.bytes a (h.bytes a ha).2).1.trans (h.bytes a ha).1, (h'.bytes a (h.bytes a ha).2).2⟩
  wf := h'.wf ∘ h.wf
  below := h'.below ∘ h.below
  targets h0 hr := h'.targets h0 (h.targets h0 hr)

theorem foldl {α : Type} {f : CaptureRing → α → CaptureRing} (hf : ∀ r a, RingFrame s r (f r a)) (l : List α)
    (r : CaptureRing) : RingFrame s r (l.foldl f r) := by
  induction l generalizing r with
  | nil => exact refl r
  | cons a l ih => exact (hf r a).trans (ih (f r a))

end RingFrame

variable {s : State} {r : CaptureRing}

/-- An effect changes neither the hold of the mutex nor what is pending. -/
theorem applyEffect_mutex (p : Params) (r : CaptureRing) (e : CaptureEffect) :
    (applyEffect p r e).owner = r.owner ∧ (applyEffect p r e).pending = r.pending := by
  unfold applyEffect
  split
  · split <;> exact ⟨rfl, rfl⟩
  · exact ⟨rfl, rfl⟩
  · exact ⟨rfl, rfl⟩
  · split <;> exact ⟨rfl, rfl⟩
  · split <;> exact ⟨rfl, rfl⟩

/-- An effect writes no byte but its target. -/
theorem applyEffect_byte {p : Params} {e : CaptureEffect} {k : Nat}
    (h : ∀ b, e.target = some b → backingIndex p b ≠ k) :
    sparseGet (applyEffect p r e).mem k = sparseGet r.mem k := by
  unfold applyEffect
  split
  · next j v hp =>
    split
    · next a ha =>
      have ht : e.target = some a := by rw [CaptureEffect.target, hp]; exact ha
      exact (sparseGet_set _ _ _ _).trans (if_neg fun hk => h a ht hk.symm)
    · rfl
  · rfl
  · rfl
  · split <;> rfl
  · split <;> rfl

theorem applyEffect_wf (p : Params) (e : CaptureEffect) (h : sparseWf r.mem = true) :
    sparseWf (applyEffect p r e).mem = true := by
  unfold applyEffect
  split
  · split
    · exact sparseWf_set h
    · exact h
  · exact h
  · exact h
  · split <;> exact h
  · split <;> exact h

theorem applyEffect_below (p : Params) (e : CaptureEffect) (h : sparseBelow (memSize p) r.mem = true) :
    sparseBelow (memSize p) (applyEffect p r e).mem = true := by
  unfold applyEffect
  split
  · split
    · exact sparseBelow_set (backingIndex_lt _ _) h
    · exact h
  · exact h
  · exact h
  · split <;> exact h
  · split <;> exact h

/-- An effect that was pending. -/
theorem applyEffect_frame {e : CaptureEffect} {l : List CaptureEffect} (he : e ∈ r.pending)
    (hl : ∀ x ∈ l, x ∈ r.pending) : RingFrame s r (applyEffect s.params { r with pending := l } e) where
  hart := by rw [(applyEffect_mutex _ _ _).1]
  bytes a ha := by
    refine ⟨applyEffect_byte (r := { r with pending := l }) fun b hb hk => ha.2 ⟨e, he, b, hb, hk⟩, ha.1, ?_⟩
    rw [(applyEffect_mutex _ _ _).2]
    exact fun ⟨x, hx, hb⟩ => ha.2 ⟨x, hl x hx, hb⟩
  wf h := applyEffect_wf (r := { r with pending := l }) _ _ h
  below h := applyEffect_below (r := { r with pending := l }) _ _ h
  targets _ h := by
    rw [(applyEffect_mutex _ _ _).2]
    exact fun x hx => h x (hl x hx)

/-- A new step owes bytes of the ring alone. -/
theorem captureEffects_target {c : CaptureSeen} {samples : List Byte} (hc : c.count = samples.length)
    {e : CaptureEffect} (he : e ∈ captureEffects c samples) {b : Word} (hb : e.target = some b) :
    ∃ x : Nat, x < c.size.toNat ∧ b = c.addr + BitVec.ofNat 32 x := by
  unfold captureEffects at he
  rcases List.mem_append.1 he with he | he
  · obtain ⟨j, hj, rfl⟩ := List.mem_mapIdx.1 he
    simp only [CaptureEffect.target, CaptureSeen.byteAddr] at hb
    split at hb
    · next hs =>
      cases hb
      have h0 : 0 < c.size.toNat := by omega
      refine ⟨((c.tail + BitVec.ofNat 32 j) % c.size).toNat, ?_, by rw [BitVec.ofNat_toNat, BitVec.setWidth_eq]⟩
      rw [BitVec.toNat_umod]
      exact Nat.mod_lt _ h0
    · cases hb
  · simp only [List.mem_cons, List.not_mem_nil, or_false] at he
    rcases he with rfl | rfl | rfl | rfl <;> cases hb

theorem captureMove_frame (s : State) (r : CaptureRing) (m : CaptureMove) : RingFrame s r (captureMove s r m) := by
  cases m with
  | start samples =>
    simp only [captureMove]
    split
    · next ho =>
      refine ⟨by simp [ho], fun a ha => ⟨rfl, ha.1, ?_⟩, id, id, fun h0 _ e he => ?_⟩
      · rintro ⟨e, he, b, hb, hk⟩
        obtain ⟨x, hx, rfl⟩ := captureEffects_target rfl he hb
        exact ha.1 ⟨x, hx, hk⟩
      · cases hb : e.target with
        | none => rfl
        | some b =>
          obtain ⟨x, hx, _⟩ := captureEffects_target rfl he hb
          simp [State.captureSeen, h0] at hx
    · exact .refl r
  | act i =>
    simp only [captureMove]
    split
    · split
      · next e he =>
        split
        · exact applyEffect_frame (List.mem_of_getElem? he) fun x hx => List.mem_of_mem_eraseIdx hx
        · exact .refl r
      · exact .refl r
    · exact .refl r
  | release =>
    simp only [captureMove]
    split
    · next h => exact .of_pending rfl (by simp [h.1]) fun _ hx => hx
    · exact .refl r

/-- Nothing is pending but while the agent owns the mutex. -/
theorem captureMove_pending {m : CaptureMove} (h : r.owner ≠ .capture → r.pending = []) :
    (captureMove s r m).owner ≠ .capture → (captureMove s r m).pending = [] := by
  cases m with
  | start samples =>
    simp only [captureMove]
    split
    · intro hne; exact absurd rfl hne
    · exact h
  | act i =>
    simp only [captureMove]
    split
    · next hc =>
      split
      · split
        · intro hne
          rw [(applyEffect_mutex _ _ _).1] at hne
          exact absurd hc hne
        · exact h
      · exact h
    · exact h
  | release =>
    simp only [captureMove]
    split
    · next hc => exact fun _ => hc.2
    · exact h

theorem instantRing_frame (s : State) : RingFrame s s.ring (instantRing s) := by
  unfold instantRing
  split
  · exact .refl _
  · exact RingFrame.foldl (captureMove_frame s) _ _

theorem instantRing_pending (h : PendingInv s) :
    (instantRing s).owner ≠ .capture → (instantRing s).pending = [] := by
  unfold instantRing
  split
  · exact h
  · exact List.foldlRecOn _ (captureMove s) (motive := fun r : CaptureRing => r.owner ≠ .capture → r.pending = [])
      (b := s.ring) h fun r hr m _ => captureMove_pending hr

/-! ## From the agent's part to the state -/

theorem State.withRing_ring (s : State) : s.withRing s.ring = s := by
  have h : #v[s.dev.audioIn[0], s.dev.audioIn[1], s.dev.audioIn[2], s.dev.audioIn[3], s.dev.audioIn[4],
      s.dev.audioIn[5], s.dev.audioIn[6]] = s.dev.audioIn := by
    ext i hi
    have : i = 0 ∨ i = 1 ∨ i = 2 ∨ i = 3 ∨ i = 4 ∨ i = 5 ∨ i = 6 := by omega
    rcases this with rfl | rfl | rfl | rfl | rfl | rfl | rfl <;> rfl
  simp only [State.withRing, State.ring, h, ite_self]

theorem State.withRing_audioIn (s : State) (r : CaptureRing) (i : Nat) (hi : i < 7) (h2 : i ≠ 2) (h3 : i ≠ 3) (h5 : i ≠ 5) :
    (s.withRing r).dev.audioIn[i] = s.dev.audioIn[i] := by
  have : i = 0 ∨ i = 1 ∨ i = 4 ∨ i = 6 := by omega
  rcases this with rfl | rfl | rfl | rfl <;> rfl

/-- What the state keeps where the agent's part keeps its frame, whatever the count of draws is. -/
theorem CaptureFrame.of_ring {t : State} (hf : RingFrame s s.ring r) (n : Nat) (ht : t = { s.withRing r with draws := n })
    (hh : s.dev.audioOwner = .hart → t = s) : CaptureFrame s t := by
  have hu : ∀ a, Undisturbed s a → s.dev.audioOwner = .hart ∨ s.ring.Clear s a := fun a ha => ha
  subst ht
  refine ⟨rfl, fun i hi h2 h3 h5 => State.withRing_audioIn s r i hi h2 h3 h5, hf.hart, hh, fun a ha => ?_, fun a ha => ?_⟩
  · rcases hu a ha with ho | hc
    · rw [hh ho]
    · show sparseGet (if s.hasRing then r.mem else s.mem) (backingIndex s.params a) = _
      split
      · exact (hf.bytes a hc).1
      · rfl
  · rcases hu a ha with ho | hc
    · rw [hh ho]; exact .inl ho
    · exact .inr (hf.bytes a hc).2

theorem MemInv.withRing (h : MemInv s) (hf : RingFrame s s.ring r) : MemInv (s.withRing r) := by
  have h1 : Memory.wf (if s.hasRing then r.mem else s.mem) = true := by split <;> [exact hf.wf h.1; exact h.1]
  have h2 : sparseBelow (memSize s.params) (if s.hasRing then r.mem else s.mem) = true := by
    split <;> [exact hf.below h.2; exact h.2]
  exact ⟨h1, h2⟩

theorem RingInv.withRing (h : RingInv s) (hf : RingFrame s s.ring r) : RingInv (s.withRing r) :=
  fun hm => ⟨(h hm).1, hf.targets (h hm).1 (h hm).2⟩

/-! ## An instant of the agent -/

theorem captureInstant_of_hart (h : s.dev.audioOwner = .hart) : captureInstant s = s := by
  simp only [captureInstant, instantRing, if_pos h, State.withRing_ring]

theorem captureInstant_frame (s : State) : CaptureFrame s (captureInstant s) :=
  .of_ring (instantRing_frame s) _ rfl captureInstant_of_hart

theorem captureInstant_memInv (h : MemInv s) : MemInv (captureInstant s) := h.withRing (instantRing_frame s)

theorem captureInstant_pendingInv (h : PendingInv s) : PendingInv (captureInstant s) := instantRing_pending h

theorem captureInstant_ringInv (h : RingInv s) : RingInv (captureInstant s) := h.withRing (instantRing_frame s)

/-! ## The completion of the step in progress -/

/-- Performing pending effects, without taking them off the list. -/
theorem applyEffects_frame (l : List CaptureEffect) (hl : ∀ e ∈ l, e ∈ r.pending) :
    RingFrame s r (l.foldl (applyEffect s.params) r) := by
  induction l generalizing r with
  | nil => exact .refl r
  | cons e l ih =>
    have h1 : RingFrame s r (applyEffect s.params r e) :=
      applyEffect_frame (l := r.pending) (hl e (List.mem_cons_self ..)) fun _ hx => hx
    refine h1.trans (ih fun x hx => ?_)
    rw [(applyEffect_mutex _ _ _).2]
    exact hl x (List.mem_cons_of_mem _ hx)

theorem finishRing_frame (h : s.dev.audioOwner = .capture) : RingFrame s s.ring
    { s.dev.capturePending.foldl (applyEffect s.params) s.ring with owner := .free, pending := [] } := by
  have h1 : RingFrame s s.ring (s.dev.capturePending.foldl (applyEffect s.params) s.ring) :=
    applyEffects_frame _ fun _ hx => hx
  refine ⟨?_, fun a ha => ⟨(h1.bytes a ha).1, ha.1, by simp⟩, h1.wf, h1.below, by simp⟩
  have : s.ring.owner = .capture := h
  simp [this]

theorem finishCapture_frame (s : State) : CaptureFrame s (finishCapture s) := by
  unfold finishCapture
  split
  · next hc => exact .of_ring (finishRing_frame hc) s.draws rfl fun ho => by rw [hc] at ho; cases ho
  · exact .refl s

theorem finishCapture_memInv (h : MemInv s) : MemInv (finishCapture s) := by
  unfold finishCapture
  split
  · next hc => exact h.withRing (finishRing_frame hc)
  · exact h

theorem finishCapture_ringInv (h : RingInv s) : RingInv (finishCapture s) := by
  unfold finishCapture
  split
  · next hc => exact h.withRing (finishRing_frame hc)
  · exact h

/-- After the completion the agent does not own the mutex, and has nothing pending. -/
theorem finishCapture_done (h : PendingInv s) :
    (finishCapture s).dev.audioOwner ≠ .capture ∧ (finishCapture s).dev.capturePending = [] := by
  unfold finishCapture
  split
  · exact ⟨by simp [State.withRing], rfl⟩
  · next hc => exact ⟨hc, h hc⟩

end Sys2Proof.Machine
end

