-- ==== Sys2Proof/Laws/Registers.lean ====
section
/-! SUPPORT. Reading a register after a write (10_state R29, R30, R32) and the end of an instruction
(30_encoding R90, R92). -/

namespace Sys2Proof.Machine

open Sys2Proof

variable (s : State)

@[simp] theorem State.getReg_zero : s.getReg 0#5 = 0#32 := rfl

theorem State.getReg_of_ne {r : Reg} (h : r ≠ 0#5) : s.getReg r = s.regs[r.toNat]'(r.isLt) := if_neg h

/-- `x[q]` depends on the register file alone. -/
theorem State.getReg_congr {s t : State} (h : t.regs = s.regs) (r : Reg) : t.getReg r = s.getReg r := by
  simp [State.getReg, h]

theorem State.getReg_setReg (r q : Reg) (v : Word) :
    (s.setReg r v).getReg q = if q = 0#5 then 0#32 else if q = r then v else s.getReg q := by
  by_cases h0 : q = 0#5
  · subst h0; rfl
  · have : r.toNat = q.toNat ↔ q = r := by rw [eq_comm, BitVec.toNat_inj]
    rw [State.getReg_of_ne _ h0, State.getReg_of_ne _ h0, if_neg h0]
    simp [Vector.getElem_set, this]

@[simp] theorem State.getReg_jumpTo (t : Word) (q : Reg) : (s.jumpTo t).getReg q = s.getReg q := by
  by_cases h0 : q = 0#5
  · subst h0; rfl
  · have : ¬ (0 : Nat) = q.toNat := fun h => h0 (BitVec.eq_of_toNat_eq (by simpa using h.symm))
    rw [State.getReg_of_ne _ h0, State.getReg_of_ne _ h0]
    simp [this]

@[simp] theorem State.getReg_retire (n : Word) (q : Reg) : (s.retire n).getReg q = s.getReg q :=
  State.getReg_jumpTo s _ q

theorem State.jumpTo_zero (t : Word) : (s.jumpTo t).regs[0] = 0#32 := by simp

theorem State.retire_zero (n : Word) : (s.retire n).regs[0] = 0#32 := by simp

theorem State.getFreg_setFreg (r q : Reg) (v : DWord) :
    (s.setFreg r v).getFreg q = if q = r then v else s.getFreg q := by
  have : r.toNat = q.toNat ↔ q = r := by rw [eq_comm, BitVec.toNat_inj]
  simp [State.getFreg, Vector.getElem_set, this]

/-- The end of an instruction that wrote `x[rd]` and jumps. -/
theorem writesReg_jumpTo (rd : Reg) (v target : Word) :
    WritesReg s ((s.setReg rd v).jumpTo target) rd v target :=
  ⟨fun r => by simp [State.getReg_setReg], by simp, rfl, rfl⟩

/-- The end of an instruction that wrote no register and jumps. -/
theorem writesReg_jumpTo_none (target : Word) : WritesReg s (s.jumpTo target) 0 0 target :=
  ⟨fun r => by by_cases h : r = 0#5 <;> simp [h], by simp, rfl, rfl⟩

/-- What `retireWith` answers. -/
theorem retireWith_gives {i : Instr} {len : Word} {rd : Reg} {v : Word} {s : State}
    (h : exec i s = retireWith len rd v s) : Gives i s rd v (s.pc + len) :=
  ⟨_, h, writesReg_jumpTo s rd v _⟩

/-- What a jump without a link answers. -/
theorem jumpTo_goes {i : Instr} {target : Word} {s : State} (h : exec i s = .next (s.jumpTo target)) :
    Goes i s target :=
  ⟨_, h, writesReg_jumpTo_none s target⟩

end Sys2Proof.Machine
end

