-- ==== Sys2Proof/Laws/Access.lean ====
section
/-! SUPPORT. What an access to memory or to a device register can do (20_memory R58, R59, R67 to R79), said once for
each shared operation: its frame (AccessFrame), and the part of the invariant it keeps (AccessInv). -/

namespace Sys2Proof.Machine

open Sys2Proof

/-- The part of the invariant that an access could touch. -/
structure AccessInv (s : State) : Prop where
  mem : MemInv s
  freq : s.dev.cpuFreq ≤ s.params.cpuFreqMax
  lock : s.dev.audioOwner = .hart ↔ s.dev.audioIn[6] ≠ 0
  pending : PendingInv s
  disk : ∀ d, s.dev.disk = some d → sparseBelow d.size d.cells = true
  ring : RingInv s

theorem AccessFrame.refl (s : State) : AccessFrame s s :=
  ⟨rfl, rfl, rfl, rfl, rfl, rfl, rfl, rfl, rfl, BitVec.le_refl _⟩

theorem AccessFrame.trans {s t u : State} (h : AccessFrame s t) (h' : AccessFrame t u) : AccessFrame s u :=
  ⟨h'.regs.trans h.regs, h'.fregs.trans h.fregs, h'.pc.trans h.pc, h'.mode.trans h.mode,
    h'.exitFlag.trans h.exitFlag, h'.csrs.trans h.csrs, h'.mtimecur.trans h.mtimecur, h'.sched.trans h.sched,
    h'.params.trans h.params, BitVec.le_trans h.clock h'.clock⟩

theorem CaptureFrame.access {s t : State} (h : CaptureFrame s t) : AccessFrame s t := by
  rw [h.rest]
  exact ⟨rfl, rfl, rfl, rfl, rfl, rfl, rfl, rfl, rfl, BitVec.le_refl _⟩

theorem AccessFrame.getReg {s t : State} (h : AccessFrame s t) (r : Reg) : t.getReg r = s.getReg r :=
  State.getReg_congr h.regs r

/-! ## The capture agent -/

theorem AccessInv.capture {s t : State} (h : AccessInv s) (hf : CaptureFrame s t) (hm : MemInv t)
    (hp : PendingInv t) (hr : RingInv t) : AccessInv t := by
  have hd : t.dev.cpuFreq = s.dev.cpuFreq ∧ t.dev.disk = s.dev.disk := by rw [hf.rest]; exact ⟨rfl, rfl⟩
  refine ⟨hm, ?_, ?_, hp, ?_, hr⟩
  · rw [hd.1, hf.params]; exact h.freq
  · rw [hf.hart, hf.regs 6 (by decide) (by decide) (by decide) (by decide)]; exact h.lock
  · rw [hd.2]; exact h.disk

theorem captureInstant_inv {s : State} (h : AccessInv s) : AccessInv (captureInstant s) :=
  h.capture (captureInstant_frame s) (captureInstant_memInv h.mem) (captureInstant_pendingInv h.pending)
    (captureInstant_ringInv h.ring)

theorem finishCapture_inv {s : State} (h : AccessInv s) : AccessInv (finishCapture s) :=
  h.capture (finishCapture_frame s) (finishCapture_memInv h.mem) (fun _ => (finishCapture_done h.pending).2)
    (finishCapture_ringInv h.ring)

/-! ## Guest memory -/

theorem setByte_access (s : State) (a : Word) (v : Byte) : AccessFrame s (s.setByte a v) :=
  ⟨rfl, rfl, rfl, rfl, rfl, rfl, rfl, rfl, rfl, BitVec.le_refl _⟩

theorem AccessInv.setByte {s : State} (h : AccessInv s) (a : Word) (v : Byte) : AccessInv (s.setByte a v) :=
  ⟨h.mem.setByte a v, h.freq, h.lock, h.pending, h.disk, h.ring⟩

theorem readBytes_access (n : Nat) (a : Word) (s : State) : AccessFrame s (readBytes n a s).2 := by
  induction n generalizing a s with
  | zero => exact .refl s
  | succ n ih => exact (captureInstant_frame s).access.trans (ih _ _)

theorem readBytes_inv (n : Nat) (a : Word) {s : State} (h : AccessInv s) : AccessInv (readBytes n a s).2 := by
  induction n generalizing a s with
  | zero => exact h
  | succ n ih => exact ih _ (captureInstant_inv h)

theorem writeBytes_access (n : Nat) (a v : Word) (s : State) : AccessFrame s (writeBytes n a v s) := by
  induction n generalizing a v s with
  | zero => exact .refl s
  | succ n ih => exact ((captureInstant_frame s).access.trans (setByte_access _ _ _)).trans (ih _ _ _)

theorem writeBytes_inv (n : Nat) (a v : Word) {s : State} (h : AccessInv s) : AccessInv (writeBytes n a v s) := by
  induction n generalizing a v s with
  | zero => exact h
  | succ n ih => exact ih _ _ ((captureInstant_inv h).setByte _ _)

/-! ## Device registers -/

theorem le_sampleClock (s : State) : s.clockSeen ≤ sampleClock s := by
  unfold sampleClock
  split
  · next h => simpa [BitVec.ule_iff_le] using h
  · exact BitVec.le_refl _

theorem devRead_access (r : Option DevReg) (s : State) : AccessFrame s (devRead r s).2 := by
  have sampled : AccessFrame s (afterSample s) :=
    ⟨rfl, rfl, rfl, rfl, rfl, rfl, rfl, rfl, rfl, le_sampleClock s⟩
  have drawn : AccessFrame s s.drawn := ⟨rfl, rfl, rfl, rfl, rfl, rfl, rfl, rfl, rfl, BitVec.le_refl _⟩
  rcases r with _ | r
  · exact drawn
  · cases r with
    | mtimecurL | mtimecurH => exact sampled
    | display _ | audioOut _ | audioIn _ | mtimecmpL | mtimecmpH | diskSectorNum | diskSectorSize | cpuFreq =>
      exact .refl s
    | diskSectorIdx => simp only [devRead]; split <;> [exact drawn; exact .refl s]
    | diskSectorDat =>
      simp only [devRead, readDiskData]
      split
      · exact .refl s
      · split
        · exact ⟨rfl, rfl, rfl, rfl, rfl, rfl, rfl, rfl, rfl, BitVec.le_refl _⟩
        · exact .refl s
    | _ => exact drawn

/-- A device read changes of the devices the disk cursor alone, and no byte of memory. -/
theorem devRead_dev (r : Option DevReg) (s : State) :
    (devRead r s).2.mem = s.mem ∧ (devRead r s).2.mreserved = s.mreserved ∧ (devRead r s).2.sent = s.sent ∧
      (devRead r s).2.mtimecmp = s.mtimecmp ∧
      (devRead r s).2.dev = { s.dev with diskPos := (devRead r s).2.dev.diskPos } := by
  rcases r with _ | r
  · exact ⟨rfl, rfl, rfl, rfl, rfl⟩
  · cases r with
    | diskSectorIdx => simp only [devRead]; split <;> exact ⟨rfl, rfl, rfl, rfl, rfl⟩
    | diskSectorDat =>
      simp only [devRead, readDiskData]
      split
      · exact ⟨rfl, rfl, rfl, rfl, rfl⟩
      · split <;> exact ⟨rfl, rfl, rfl, rfl, rfl⟩
    | _ => exact ⟨rfl, rfl, rfl, rfl, rfl⟩

theorem devRead_inv (r : Option DevReg) {s : State} (h : AccessInv s) : AccessInv (devRead r s).2 := by
  obtain ⟨hm, _, _, _, hd⟩ := devRead_dev r s
  have hp := (devRead_access r s).params
  refine ⟨h.mem.congr hm hp, ?_, ?_, ?_, ?_, ?_⟩
  · rw [hd, hp]; exact h.freq
  · rw [hd]; exact h.lock
  · unfold PendingInv; rw [hd]; exact h.pending
  · rw [hd]; exact h.disk
  · unfold RingInv; rw [hd]; exact h.ring

theorem storeDisplay_access (i : Fin 8) (v : Word) (s : State) : AccessFrame s (storeDisplay i v s) := by
  unfold storeDisplay
  split <;> exact ⟨rfl, rfl, rfl, rfl, rfl, rfl, rfl, rfl, rfl, BitVec.le_refl _⟩

theorem storeAudioOut_access (i : Fin 7) (v : Word) (s : State) : AccessFrame s (storeAudioOut i v s) := by
  unfold storeAudioOut
  split <;> exact ⟨rfl, rfl, rfl, rfl, rfl, rfl, rfl, rfl, rfl, BitVec.le_refl _⟩

theorem storeAudioIn_access {i : Fin 7} {v : Word} {s t : State} (h : storeAudioIn i v s = .ok t) :
    AccessFrame s t := by
  unfold storeAudioIn at h
  split at h
  · unfold storeAudioLock at h
    split at h
    · split at h
      · cases h; exact ⟨rfl, rfl, rfl, rfl, rfl, rfl, rfl, rfl, rfl, BitVec.le_refl _⟩
      · cases h
    · split at h
      · cases h
      · cases h
        exact (finishCapture_frame s).access.trans
          ⟨rfl, rfl, rfl, rfl, rfl, rfl, rfl, rfl, rfl, BitVec.le_refl _⟩
  · split at h <;> cases h <;> exact ⟨rfl, rfl, rfl, rfl, rfl, rfl, rfl, rfl, rfl, BitVec.le_refl _⟩

theorem devStore_access {r : Option DevReg} {v : Word} {s t : State} (h : devStore r v s = .ok t) :
    AccessFrame s t := by
  rcases r with _ | r
  · cases h; exact .refl s
  · cases r with
    | display i => cases h; exact storeDisplay_access i v s
    | audioOut i => cases h; exact storeAudioOut_access i v s
    | audioIn i => exact storeAudioIn_access h
    | diskSectorIdx =>
      cases h
      unfold storeDiskIndex
      split <;> exact ⟨rfl, rfl, rfl, rfl, rfl, rfl, rfl, rfl, rfl, BitVec.le_refl _⟩
    | diskSectorDat =>
      cases h
      unfold storeDiskData
      split <;> exact ⟨rfl, rfl, rfl, rfl, rfl, rfl, rfl, rfl, rfl, BitVec.le_refl _⟩
    | _ => cases h; exact ⟨rfl, rfl, rfl, rfl, rfl, rfl, rfl, rfl, rfl, BitVec.le_refl _⟩

/-- Reading a register again makes no byte owed where there has been no ring. -/
theorem reread_target {e : CaptureEffect} {again : Nat → Bool} {tailDue currDue : Bool} {i : Fin 7} {v : Word}
    (hv : i = 4 → v = 0) (he : e.target = none) :
    ({ e with seen := e.seen.reread again tailDue currDue i v } : CaptureEffect).target = none := by
  obtain ⟨part, c⟩ := e
  cases part with
  | byte j b =>
    simp only [CaptureEffect.target, CaptureSeen.byteAddr, CaptureSeen.reread] at *
    split at he
    · cases he
    · next hn =>
      refine if_neg ?_
      split
      · next h4 => rw [hv h4.1]; simp only [BitVec.ofNat_eq_ofNat, BitVec.toNat_ofNat, Nat.zero_mod]; omega
      · exact hn
  | tail | curr | head | full => rfl

theorem storeAudioReg_inv {i : Fin 7} {v : Word} {s : State} (hi : i ≠ 6) (h : AccessInv s) :
    AccessInv (storeAudioReg i v s) := by
  have h6 : i.val ≠ 6 := fun hh => hi (Fin.ext hh)
  refine ⟨h.mem, h.freq, by simpa [storeAudioReg, h6] using h.lock, fun ho => ?_, h.disk, fun hm => ?_⟩
  · exact (if_neg ho).trans (h.pending ho)
  · have hm' : s.dev.ringMade = false ∧ (i = 4 → v = 0) := by simpa [storeAudioReg] using hm
    obtain ⟨h0, ht⟩ := h.ring hm'.1
    constructor
    · show (s.dev.audioIn.set i.val v i.isLt)[4] = 0
      rw [Vector.getElem_set]
      split
      · next h4 => exact hm'.2 (Fin.ext h4)
      · exact h0
    · intro e he
      have he : e ∈ (if s.dev.audioOwner = .capture then rereadPending s.draws i v s.dev.capturePending
          else s.dev.capturePending) := he
      split at he
      · obtain ⟨k, hk, rfl⟩ := List.mem_mapIdx.1 he
        exact reread_target hm'.2 (ht _ (List.getElem_mem hk))
      · exact ht e he

theorem storeAudioIn_inv {i : Fin 7} {v : Word} {s t : State} (h : AccessInv s) (ht : storeAudioIn i v s = .ok t) :
    AccessInv t := by
  unfold storeAudioIn at ht
  split at ht
  · unfold storeAudioLock at ht
    split at ht
    · next hv =>
      split at ht
      · next ho =>
        cases ht
        exact ⟨h.mem, h.freq, by simp [hv], fun _ => h.pending (by simp [ho]), h.disk,
          fun hm => ⟨by simpa using (h.ring hm).1, (h.ring hm).2⟩⟩
      · cases ht
    · next hv =>
      split at ht
      · cases ht
      · cases ht
        have hf := finishCapture_inv h
        exact ⟨hf.mem, hf.freq, by simpa using hv, fun _ => (finishCapture_done h.pending).2, hf.disk,
          fun hm => ⟨by simpa using (hf.ring hm).1, (hf.ring hm).2⟩⟩
  · next hi =>
    have hs := storeAudioReg_inv (v := v) hi h
    split at ht <;> cases ht
    · exact ⟨hs.mem, hs.freq, hs.lock, hs.pending, hs.disk, hs.ring⟩
    · exact hs

theorem devStore_inv {r : Option DevReg} {v : Word} {s t : State} (h : AccessInv s) (ht : devStore r v s = .ok t) :
    AccessInv t := by
  rcases r with _ | r
  · cases ht; exact h
  · cases r with
    | display i =>
      cases ht
      unfold storeDisplay
      split <;> exact ⟨h.mem, h.freq, h.lock, h.pending, h.disk, h.ring⟩
    | audioOut i =>
      cases ht
      unfold storeAudioOut
      split <;> exact ⟨h.mem, h.freq, h.lock, h.pending, h.disk, h.ring⟩
    | audioIn i => exact storeAudioIn_inv h ht
    | diskSectorIdx =>
      cases ht
      unfold storeDiskIndex
      split
      · exact ⟨h.mem, h.freq, h.lock, h.pending, h.disk, h.ring⟩
      · exact h
    | diskSectorDat =>
      cases ht
      unfold storeDiskData
      split
      · exact h
      · next d hd =>
        refine ⟨h.mem, h.freq, h.lock, h.pending, fun d' hd' => ?_, h.ring⟩
        cases hd'
        exact sparseBelow_insert (by simp [diskWrite]) (sparseBelow_mono (by simp [diskWrite]) (h.disk d hd))
    | cpuFreq =>
      cases ht
      refine ⟨h.mem, ?_, h.lock, h.pending, h.disk, h.ring⟩
      simp only
      split
      · next hv => exact BitVec.le_of_lt (by simpa [BitVec.ult_iff_lt] using hv)
      · exact BitVec.le_refl _
    | _ => cases ht; exact ⟨h.mem, h.freq, h.lock, h.pending, h.disk, h.ring⟩

/-! ## The access paths -/

theorem memRead_access (w : Width) (a : Word) (s : State) : AccessFrame s (memRead w a s).2 := by
  unfold memRead
  split
  · exact (captureInstant_frame s).access.trans (devRead_access _ _)
  · exact readBytes_access _ _ _

theorem memRead_inv (w : Width) (a : Word) {s : State} (h : AccessInv s) : AccessInv (memRead w a s).2 := by
  unfold memRead
  split
  · exact devRead_inv _ (captureInstant_inv h)
  · exact readBytes_inv _ _ h

theorem breakReservation_access (n : Nat) (a : Word) (s : State) : AccessFrame s (breakReservation n a s) := by
  unfold breakReservation
  split
  · split
    · split <;> exact ⟨rfl, rfl, rfl, rfl, rfl, rfl, rfl, rfl, rfl, BitVec.le_refl _⟩
    · exact .refl s
  · exact .refl s

theorem breakReservation_inv (n : Nat) (a : Word) {s : State} (h : AccessInv s) :
    AccessInv (breakReservation n a s) := by
  unfold breakReservation
  split
  · split
    · split
      · exact ⟨h.mem, h.freq, h.lock, h.pending, h.disk, h.ring⟩
      · exact h
    · exact h
  · exact h

/-- What a write that is not refused did, before the reservation is looked at. -/
theorem memStore_cases {w : Width} {a v : Word} {s t : State} (h : memStore w a v s = .ok t) :
    (isDevice a = true ∧ ∃ u, devStore (s.selects a) (w.low v) (captureInstant s) = .ok u ∧
        t = breakReservation w.bytes a u) ∨
      (isDevice a = false ∧ t = breakReservation w.bytes a (writeBytes w.bytes a v s)) := by
  unfold memStore at h
  by_cases hd : isDevice a = true
  · rw [if_pos hd] at h
    cases hu : devStore (s.selects a) (w.low v) (captureInstant s) with
    | ok u => rw [hu] at h; cases h; exact .inl ⟨hd, u, rfl, rfl⟩
    | error e => rw [hu] at h; cases h
  · rw [if_neg hd] at h
    cases h
    exact .inr ⟨by simpa using hd, rfl⟩

theorem memStore_access {w : Width} {a v : Word} {s t : State} (h : memStore w a v s = .ok t) : AccessFrame s t := by
  rcases memStore_cases h with ⟨_, u, hu, rfl⟩ | ⟨_, rfl⟩
  · exact ((captureInstant_frame s).access.trans (devStore_access hu)).trans (breakReservation_access _ _ _)
  · exact (writeBytes_access _ _ _ _).trans (breakReservation_access _ _ _)

theorem memStore_inv {w : Width} {a v : Word} {s t : State} (h : AccessInv s) (ht : memStore w a v s = .ok t) :
    AccessInv t := by
  rcases memStore_cases ht with ⟨_, u, hu, rfl⟩ | ⟨_, rfl⟩
  · exact breakReservation_inv _ _ (devStore_inv (captureInstant_inv h) hu)
  · exact breakReservation_inv _ _ (writeBytes_inv _ _ _ h)

/-- A property that every step of a fold keeps holds at its end. -/
theorem foldlM_ok {α ε σ : Type} {f : σ → α → Except ε σ} {P : σ → Prop}
    (hf : ∀ s a t, P s → f s a = .ok t → P t) (l : List α) {s t : σ} (hs : P s) (h : l.foldlM f s = .ok t) : P t := by
  induction l generalizing s with
  | nil => cases h; exact hs
  | cons a l ih =>
    rw [List.foldlM_cons] at h
    cases hu : f s a with
    | ok u => rw [hu] at h; exact ih (hf s a u hs hu) h
    | error e => rw [hu] at h; cases h

/-- Every property that reads and stores keep is kept by a bit-blt (R74). -/
theorem bitBlt_ok {P : State → Prop} (hr : ∀ w a s, P s → P (memRead w a s).2)
    (hw : ∀ w a v s t, P s → memStore w a v s = .ok t → P t) {s t : State} (hs : P s) (h : bitBlt s = .ok t) : P t := by
  unfold bitBlt at h
  split at h
  · refine foldlM_ok (fun u r u' hu hu' => ?_) _ hs h
    refine foldlM_ok (fun x j x' hx hx' => ?_) _ hu hu'
    unfold bltByte at hx'
    split at hx'
    · cases hx'; exact hx
    · exact hw _ _ _ _ _ (hr _ _ _ hx) hx'
  · split at h
    · cases h
    · cases h; exact hs

theorem bitBlt_access {s t : State} (h : bitBlt s = .ok t) : AccessFrame s t :=
  bitBlt_ok (P := AccessFrame s) (fun w a _ hu => hu.trans (memRead_access w a _))
    (fun _ _ _ _ _ hu hv => hu.trans (memStore_access hv)) (.refl s) h

theorem bitBlt_inv {s t : State} (hs : AccessInv s) (h : bitBlt s = .ok t) : AccessInv t :=
  bitBlt_ok (P := AccessInv) (fun w a _ hu => memRead_inv w a hu) (fun _ _ _ _ _ hu hv => memStore_inv hu hv) hs h

/-- A write that is not refused is a store, after which a write of DISP_BITBLT_WH copies. -/
theorem memWrite_cases {w : Width} {a v : Word} {s t : State} (h : memWrite w a v s = .ok t) :
    (s.selects a ≠ some (.display 7) ∧ memStore w a v s = .ok t) ∨
      (s.selects a = some (.display 7) ∧ ∃ u, memStore w a v s = .ok u ∧ bitBlt u = .ok t) := by
  unfold memWrite at h
  split at h
  · next u hu =>
    split at h
    · next hs => exact .inr ⟨hs, u, hu, h⟩
    · next hs => cases h; exact .inl ⟨hs, hu⟩
  · cases h

theorem memWrite_access {w : Width} {a v : Word} {s t : State} (h : memWrite w a v s = .ok t) : AccessFrame s t := by
  rcases memWrite_cases h with ⟨_, h⟩ | ⟨_, u, hu, h⟩
  · exact memStore_access h
  · exact (memStore_access hu).trans (bitBlt_access h)

theorem memWrite_inv {w : Width} {a v : Word} {s t : State} (hs : AccessInv s) (h : memWrite w a v s = .ok t) :
    AccessInv t := by
  rcases memWrite_cases h with ⟨_, h⟩ | ⟨_, u, hu, h⟩
  · exact memStore_inv hs h
  · exact bitBlt_inv (memStore_inv hs hu) h

theorem memRead64_access (a : Word) (s : State) : AccessFrame s (memRead64 a s).2 :=
  (memRead_access .word a s).trans (memRead_access .word (a + 4) _)

theorem memRead64_inv (a : Word) {s : State} (h : AccessInv s) : AccessInv (memRead64 a s).2 :=
  memRead_inv _ _ (memRead_inv _ _ h)

theorem memWrite64_cases {a : Word} {v : DWord} {s t : State} (h : memWrite64 a v s = .ok t) :
    ∃ u, memWrite .word a (v.extractLsb' 0 32) s = .ok u ∧ memWrite .word (a + 4) (v.extractLsb' 32 32) u = .ok t := by
  unfold memWrite64 at h
  split at h
  · next u hu => exact ⟨u, hu, h⟩
  · cases h

theorem memWrite64_access {a : Word} {v : DWord} {s t : State} (h : memWrite64 a v s = .ok t) : AccessFrame s t := by
  obtain ⟨u, hu, h⟩ := memWrite64_cases h
  exact (memWrite_access hu).trans (memWrite_access h)

theorem memWrite64_inv {a : Word} {v : DWord} {s t : State} (hs : AccessInv s) (h : memWrite64 a v s = .ok t) :
    AccessInv t := by
  obtain ⟨u, hu, h⟩ := memWrite64_cases h
  exact memWrite_inv (memWrite_inv hs hu) h

/-! ## Reads of guest memory -/

theorem isDevice_of_inGuest {a : Word} (h : InGuest a) : isDevice a = false := by
  have : a < deviceBase := h
  simpa [isDevice, BitVec.ult_iff_lt] using this

/-- A read of guest memory changes what the capture agent changes meanwhile. -/
theorem readBytes_frame (n : Nat) (a : Word) (s : State) : CaptureFrame s (readBytes n a s).2 := by
  induction n generalizing a s with
  | zero => exact .refl s
  | succ n ih => exact (captureInstant_frame s).trans (ih _ _)

/-- What a read of guest memory yields. -/
theorem readBytes_mayRead (n : Nat) (hn : n ≤ 4) (a : Word) (s : State) : MayRead s a n (readBytes n a s).1 := by
  induction n generalizing a s with
  | zero => exact ⟨Nat.one_pos, fun k hk => absurd hk (Nat.not_lt_zero k)⟩
  | succ n ih =>
    have hc := captureInstant_frame s
    exact (hc.mayRead (ih (Nat.le_of_succ_le hn) (a + 1) (captureInstant s))).succ hn (hc.bytes a)

/-- A read of guest memory: what it yields, and no change of state but what the capture agent does meanwhile. -/
theorem memRead_guest {a : Word} (ha : InGuest a) (w : Width) (s : State) :
    CaptureFrame s (memRead w a s).2 ∧ MayRead s a w.bytes (memRead w a s).1 := by
  rw [memRead, isDevice_of_inGuest ha]
  exact ⟨readBytes_frame _ _ _, readBytes_mayRead _ (by cases w <;> decide) _ _⟩

/-! ## Writes of guest memory -/

/-- An address lies in the four bytes at `r` exactly if it is one of them. -/
theorem sub_ult_four (x r : Word) : (x - r).ult 4#32 = (List.range 4).any (fun j => x == r + BitVec.ofNat 32 j) := by
  have h : ∀ j : Nat, (x == r + BitVec.ofNat 32 j) = (x - r == BitVec.ofNat 32 j) := fun j => by
    rw [Bool.eq_iff_iff, beq_iff_eq, beq_iff_eq]
    constructor
    · rintro rfl; simp
    · intro hj; rw [← hj, BitVec.add_comm, BitVec.sub_add_cancel]
  simp only [h]
  generalize x - r = y
  rw [Bool.eq_iff_iff]
  simp only [BitVec.ult_iff_lt, BitVec.lt_def, List.any_eq_true, List.mem_range, beq_iff_eq]
  constructor
  · intro hy
    exact ⟨y.toNat, by simpa using hy, by simp⟩
  · rintro ⟨j, hj, rfl⟩
    simp only [BitVec.toNat_ofNat]
    omega

theorem breakReservation_mreserved (n : Nat) (a : Word) (s : State) :
    (breakReservation n a s).mreserved = reservationAfter s a n := by
  have ho : ∀ r, overlaps n a r = (List.range n).any (fun i => (List.range 4).any (fun j =>
      a + BitVec.ofNat 32 i == r + BitVec.ofNat 32 j)) := fun r => by
    simp only [overlaps, sub_ult_four]
  unfold breakReservation reservationAfter
  cases hr : s.mreserved with
  | none => by_cases hb : s.params.storeBreaksReservation = true <;> simp [hb, hr]
  | some r =>
    simp only [ho r]
    by_cases hb : s.params.storeBreaksReservation = true
    · by_cases hc : (List.range n).any (fun i => (List.range 4).any (fun j =>
          a + BitVec.ofNat 32 i == r + BitVec.ofNat 32 j)) = true
      · rw [if_pos hb, if_pos hc, if_pos ⟨hb, hc⟩]
      · rw [if_pos hb, if_neg hc, if_neg fun h => hc h.2, hr]
    · rw [if_neg hb, if_neg fun h => hb h.1, hr]

theorem breakReservation_eq (n : Nat) (a : Word) (s : State) :
    breakReservation n a s = { s with mreserved := reservationAfter s a n } := by
  rw [← breakReservation_mreserved]
  unfold breakReservation
  split
  · split
    · split <;> rfl
    · rfl
  · rfl

/-- A write of guest memory changes, but for what the capture agent does meanwhile, memory alone, and the bytes that the
agent cannot disturb are known. -/
theorem writeBytes_guest (n : Nat) (ea v : Word) (s : State) :
    ∃ u, CaptureFrame s u ∧ writeBytes n ea v s = { u with mem := (writeBytes n ea v s).mem } ∧
      ∀ a, Undisturbed s a → (writeBytes n ea v s).byteAt a = byteAfter s ea v n a ∧
        Undisturbed (writeBytes n ea v s) a := by
  induction n generalizing ea v s with
  | zero => exact ⟨s, .refl s, rfl, fun a ha => ⟨rfl, ha⟩⟩
  | succ n ih =>
    have hc := captureInstant_frame s
    obtain ⟨u, hu, ht, hb⟩ := ih (ea + 1) (v >>> 8) ((captureInstant s).setByte ea (v.setWidth 8))
    have hf : CaptureFrame (captureInstant s) { u with mem := (captureInstant s).mem } := by
      refine ⟨?_, hu.regs, hu.hart, fun ho => ?_, fun a _ => ?_, fun a ha => ?_⟩
      · rw [hu.rest]; rfl
      · rw [hu.held ho]; rfl
      · exact State.byteAt_congr (s := captureInstant s) (t := { u with mem := (captureInstant s).mem }) rfl hu.params a
      · exact hu.undisturbed a ha
    refine ⟨_, hc.trans hf, ?_, fun a ha => ?_⟩
    · simp only [writeBytes]
      exact ht.trans rfl
    · simp only [writeBytes]
      obtain ⟨h1, h2⟩ := hb a (hc.undisturbed a ha)
      exact ⟨h1.trans ((byteAfter_succ ea v n a).trans (byteAfter_congr hc.params ea v (n + 1) (hc.bytes a ha))), h2⟩

theorem reservationAfter_congr {s t : State} (hm : t.mreserved = s.mreserved) (hp : t.params = s.params) (a : Word)
    (n : Nat) : reservationAfter t a n = reservationAfter s a n := by
  unfold reservationAfter; rw [hm, hp]

theorem CaptureFrame.mreserved {s t : State} (h : CaptureFrame s t) : t.mreserved = s.mreserved := by rw [h.rest]

/-- A store to guest memory is not refused: it writes the bytes, leaves the reservation that R166 says, and changes
nothing else but what the capture agent does meanwhile. -/
theorem memStore_guest {s : State} {a : Word} (ha : InGuest a) (w : Width) (v : Word) :
    ∃ u, CaptureFrame s u ∧ ∃ t, memStore w a v s = .ok t ∧
      (∀ b, Undisturbed s b → t.byteAt b = byteAfter s a v w.bytes b ∧ Undisturbed t b) ∧
      t.mreserved = reservationAfter s a w.bytes ∧ t = { u with mem := t.mem, mreserved := t.mreserved } := by
  obtain ⟨u, hu, ht, hb⟩ := writeBytes_guest w.bytes a v s
  refine ⟨u, hu, breakReservation w.bytes a (writeBytes w.bytes a v s), ?_, fun b h => ?_, ?_, ?_⟩
  · rw [memStore, isDevice_of_inGuest ha]; rfl
  · rw [breakReservation_eq]; exact hb b h
  · rw [breakReservation_mreserved]
    refine reservationAfter_congr ?_ ?_ a _
    · rw [ht]; exact hu.mreserved
    · rw [ht]; exact hu.params
  · rw [breakReservation_eq]
    exact congrArg (fun x : State => { x with mreserved := reservationAfter (writeBytes w.bytes a v s) a w.bytes }) ht

theorem selects_of_inGuest {a : Word} (ha : InGuest a) (s : State) : s.selects a = none := by
  simp [State.selects, isDevice_of_inGuest ha]

/-- The same of a write. -/
theorem memWrite_guest {s : State} {a : Word} (ha : InGuest a) (w : Width) (v : Word) :
    ∃ u, CaptureFrame s u ∧ ∃ t, memWrite w a v s = .ok t ∧
      (∀ b, Undisturbed s b → t.byteAt b = byteAfter s a v w.bytes b ∧ Undisturbed t b) ∧
      t.mreserved = reservationAfter s a w.bytes ∧ t = { u with mem := t.mem, mreserved := t.mreserved } := by
  obtain ⟨u, hu, t, ht, h⟩ := memStore_guest (s := s) ha w v
  exact ⟨u, hu, t, by simp [memWrite, ht, selects_of_inGuest ha], h⟩

/-! ## Accesses of the device window -/

theorem not_inGuest_iff {a : Word} : ¬ InGuest a ↔ isDevice a = true := by
  unfold InGuest isDevice deviceBase; simp [BitVec.ult]

theorem selects_of_not_inGuest {a : Word} (ha : ¬ InGuest a) (s : State) : s.selects a = select s.params.devAddr a :=
  if_pos (not_inGuest_iff.1 ha)

/-- A read of the device window is the read of the selected register, after the capture agent has acted. -/
theorem memRead_device {a : Word} (ha : ¬ InGuest a) (w : Width) (s : State) :
    memRead w a s = (w.low (devRead (select s.params.devAddr a) (captureInstant s)).1,
      (devRead (select s.params.devAddr a) (captureInstant s)).2) := by
  rw [memRead, if_pos (not_inGuest_iff.1 ha), selects_of_not_inGuest ha]

/-- No device register holds the reservation. -/
theorem devStore_mreserved {r : Option DevReg} {v : Word} {s t : State} (h : devStore r v s = .ok t) :
    t.mreserved = s.mreserved := by
  rcases r with _ | r
  · cases h; rfl
  · cases r with
    | audioIn i =>
      simp only [devStore, storeAudioIn, storeAudioLock] at h
      split at h
      · split at h
        · split at h <;> cases h; rfl
        · split at h <;> cases h; exact (finishCapture_frame s).mreserved
      · split at h <;> cases h <;> rfl
    | display i => cases h; unfold storeDisplay; split <;> rfl
    | audioOut i => cases h; unfold storeAudioOut; split <;> rfl
    | diskSectorIdx => cases h; unfold storeDiskIndex; split <;> rfl
    | diskSectorDat => cases h; unfold storeDiskData; split <;> rfl
    | _ => cases h; rfl

/-- A write of a word to the device window. -/
theorem memWrite_device {a : Word} (ha : ¬ InGuest a) (v : Word) (s : State) :
    memWrite .word a v s = deviceStore s a v := by
  have hs := selects_of_not_inGuest ha s
  simp only [memWrite, memStore, deviceStore, if_pos (not_inGuest_iff.1 ha), hs, Width.low]
  cases hd : devStore (select s.params.devAddr a) v (captureInstant s) with
  | ok u =>
    have hr := reservationAfter_congr ((devStore_mreserved hd).trans (captureInstant_frame s).mreserved)
      ((devStore_access hd).params.trans (captureInstant_frame s).params) a 4
    simp only [Except.map, breakReservation_eq, Width.bytes, hr]
  | error e => rfl

/-- What a read of a word does, wherever it starts. -/
theorem memRead_readsWord (s : State) (a : Word) : ReadsWord s a (memRead .word a s).1 (memRead .word a s).2 :=
  ⟨fun ha => (memRead_guest ha .word s).symm, fun ha => by rw [memRead_device ha]; rfl⟩

/-- What a write of a word that is not refused does, wherever it starts. -/
theorem memWrite_writesWord {s t : State} {a v : Word} (h : memWrite .word a v s = .ok t) : WritesWord s a v t := by
  refine ⟨fun ha => ?_, fun ha => by rw [← memWrite_device ha, h]⟩
  obtain ⟨u, hu, t', ht, hb, hm, he⟩ := memWrite_guest (s := s) ha .word v
  cases h.symm.trans ht
  refine ⟨hb, u, hu, ?_⟩
  rw [← (show t.mreserved = reservationAfter s a 4 from hm)]
  exact he

/-! ## The reservation (42_rv32a R166) -/

/-- No read touches the reservation. -/
theorem memRead_mreserved (w : Width) (a : Word) (s : State) : (memRead w a s).2.mreserved = s.mreserved := by
  by_cases ha : InGuest a
  · exact (memRead_guest ha w s).1.mreserved
  · rw [memRead_device ha]
    exact (devRead_dev _ _).2.1.trans (captureInstant_frame s).mreserved

/-- A write, but for the copy it may start, leaves the reservation that R166 says. -/
theorem memStore_mreserved {w : Width} {a v : Word} {s t : State} (h : memStore w a v s = .ok t) :
    t.mreserved = reservationAfter s a w.bytes := by
  rcases memStore_cases h with ⟨_, u, hu, rfl⟩ | ⟨_, rfl⟩
  · rw [breakReservation_mreserved]
    exact reservationAfter_congr ((devStore_mreserved hu).trans (captureInstant_frame s).mreserved)
      ((devStore_access hu).params.trans (captureInstant_frame s).params) a _
  · obtain ⟨u, hu, ht, _⟩ := writeBytes_guest w.bytes a v s
    rw [breakReservation_mreserved, ht]
    exact reservationAfter_congr hu.mreserved hu.params a _

/-- What R166 leaves is the reservation as it was, or, under the switch, none. -/
theorem reservationAfter_cases (s : State) (a : Word) (n : Nat) : reservationAfter s a n = s.mreserved ∨
    (reservationAfter s a n = none ∧ s.params.storeBreaksReservation = true) := by
  unfold reservationAfter
  split
  · next h => exact .inl h.symm
  · next r h =>
    split
    · next hc => exact .inr ⟨rfl, hc.1⟩
    · exact .inl h.symm

/-- A bit-blt keeps the reservation, or, under the switch, clears it. -/
theorem bitBlt_mreserved {s t : State} (h : bitBlt s = .ok t) :
    t.mreserved = s.mreserved ∨ (t.mreserved = none ∧ s.params.storeBreaksReservation = true) := by
  refine (bitBlt_ok (P := fun u => u.params = s.params ∧
      (u.mreserved = s.mreserved ∨ (u.mreserved = none ∧ s.params.storeBreaksReservation = true)))
    (fun w a u hu => ?_) (fun w a v u u' hu hs => ?_) ⟨rfl, .inl rfl⟩ h).2
  · exact ⟨(memRead_access w a u).params.trans hu.1, by rw [memRead_mreserved]; exact hu.2⟩
  · refine ⟨(memStore_access hs).params.trans hu.1, ?_⟩
    rw [memStore_mreserved hs]
    rcases reservationAfter_cases u a w.bytes with he | ⟨he, hp⟩
    · rw [he]; exact hu.2
    · exact .inr ⟨he, by rw [← hu.1]; exact hp⟩

/-- A write leaves the reservation that R166 says; only one that starts a copy may clear it besides, under the switch. -/
theorem memWrite_mreserved {w : Width} {a v : Word} {s t : State} (h : memWrite w a v s = .ok t) :
    t.mreserved = reservationAfter s a w.bytes ∨
      (t.mreserved = none ∧ s.params.storeBreaksReservation = true ∧ s.selects a = some (.display 7)) := by
  rcases memWrite_cases h with ⟨_, hs⟩ | ⟨hd, u, hu, hb⟩
  · exact .inl (memStore_mreserved hs)
  · rw [← memStore_mreserved hu]
    rcases bitBlt_mreserved hb with he | ⟨he, hp⟩
    · exact .inl he
    · exact .inr ⟨he, (memStore_access hu).params ▸ hp, hd⟩

/-- Two adjacent words are eight bytes. -/
theorem reservationAfter_two {s u : State} {a : Word} (hm : u.mreserved = reservationAfter s a 4)
    (hp : u.params = s.params) : reservationAfter u (a + 4) 4 = reservationAfter s a 8 := by
  have h4 : ∀ f : Word → Bool, (List.range 8).any (fun i => f (a + BitVec.ofNat 32 i)) =
      ((List.range 4).any (fun i => f (a + BitVec.ofNat 32 i)) ||
        (List.range 4).any (fun i => f (a + 4 + BitVec.ofNat 32 i))) := fun f => by
    have h (x y : Word) : a + x + y = a + (x + y) := BitVec.add_assoc a x y
    have e4 : List.range 4 = [0, 1, 2, 3] := by decide
    have e8 : List.range 8 = [0, 1, 2, 3, 4, 5, 6, 7] := by decide
    rw [e4, e8]
    simp [h, Bool.or_assoc]
  unfold reservationAfter at *
  rw [hp]
  cases hr : s.mreserved with
  | none => rw [hr] at hm; rw [hm]
  | some r =>
    rw [hr] at hm
    simp only [h4 (fun x => (List.range 4).any fun j => x == r + BitVec.ofNat 32 j), Bool.or_eq_true]
    simp only at hm
    split at hm
    · next hc => rw [hm, if_pos ⟨hc.1, .inl hc.2⟩]
    · next hc =>
      rw [hm]
      refine if_congr ⟨fun h => ⟨h.1, .inr h.2⟩, fun h => ⟨h.1, ?_⟩⟩ rfl rfl
      exact h.2.resolve_left fun hx => hc ⟨h.1, hx⟩

/-! ## The bytes that no access changes -/

theorem inGuest_iff {a : Word} : InGuest a ↔ isDevice a = false := by
  unfold InGuest isDevice deviceBase; simp [BitVec.ult]

/-- What an access that writes no byte leaves as it was, of the bytes that the capture agent cannot disturb. -/
structure ByteFrame (s t : State) : Prop where
  bytes : ∀ a, Undisturbed s a → t.byteAt a = s.byteAt a
  undisturbed : ∀ a, Undisturbed s a → Undisturbed t a
  params : t.params = s.params

namespace ByteFrame

variable {s t u : State}

theorem refl (s : State) : ByteFrame s s := ⟨fun _ _ => rfl, fun _ h => h, rfl⟩

theorem trans (h : ByteFrame s t) (h' : ByteFrame t u) : ByteFrame s u :=
  ⟨fun a ha => (h'.bytes a (h.undisturbed a ha)).trans (h.bytes a ha),
    fun a ha => h'.undisturbed a (h.undisturbed a ha), h'.params.trans h.params⟩

/-- An update that touches neither memory nor the agent. -/
theorem of_eq (hm : t.mem = s.mem) (hp : t.params = s.params) (hi : t.dev.audioIn = s.dev.audioIn)
    (ho : t.dev.audioOwner = s.dev.audioOwner) (hq : t.dev.capturePending = s.dev.capturePending) : ByteFrame s t := by
  refine ⟨fun a _ => State.byteAt_congr hm hp a, fun a ha => ?_, hp⟩
  unfold Undisturbed InRing Owed at *
  rwa [hp, hi, ho, hq]

end ByteFrame

theorem CaptureFrame.byteFrame {s t : State} (h : CaptureFrame s t) : ByteFrame s t := ⟨h.bytes, h.undisturbed, h.params⟩

/-- A read changes no byte of memory but what the capture agent changes. -/
theorem memRead_byteFrame (w : Width) (a : Word) (s : State) : ByteFrame s (memRead w a s).2 := by
  unfold memRead
  split
  · have h := devRead_dev (s.selects a) (captureInstant s)
    refine (captureInstant_frame s).byteFrame.trans (.of_eq h.1 (devRead_access _ _).params ?_ ?_ ?_) <;>
      rw [h.2.2.2.2]
  · exact (readBytes_frame _ _ _).byteFrame

/-- A device store changes no byte of memory that the agent cannot disturb, and none becomes disturbed where it does not
select an audio-in register (20_memory R76). -/
theorem devStore_bytes {r : Option DevReg} {v : Word} {s t : State} (h : devStore r v s = .ok t) :
    (∀ a, Undisturbed s a → t.byteAt a = s.byteAt a) ∧ t.params = s.params ∧
      ((∀ i, r ≠ some (.audioIn i)) → ByteFrame s t) := by
  have of_frame (hf : ByteFrame s t) : (∀ a, Undisturbed s a → t.byteAt a = s.byteAt a) ∧ t.params = s.params ∧
      ((∀ i, r ≠ some (.audioIn i)) → ByteFrame s t) := ⟨hf.bytes, hf.params, fun _ => hf⟩
  rcases r with _ | r
  · cases h; exact of_frame (.refl s)
  · cases r with
    | audioIn i =>
      refine ⟨?_, (storeAudioIn_access h).params, fun hi => absurd rfl (hi i)⟩
      simp only [devStore, storeAudioIn, storeAudioLock] at h
      split at h
      · split at h
        · split at h <;> cases h; exact fun _ _ => rfl
        · split at h <;> cases h; exact fun a ha => (finishCapture_frame s).bytes a ha
      · split at h <;> cases h <;> exact fun _ _ => rfl
    | display i => cases h; refine of_frame ?_; unfold storeDisplay; split <;> exact .of_eq rfl rfl rfl rfl rfl
    | audioOut i => cases h; refine of_frame ?_; unfold storeAudioOut; split <;> exact .of_eq rfl rfl rfl rfl rfl
    | diskSectorIdx => cases h; refine of_frame ?_; unfold storeDiskIndex; split <;> exact .of_eq rfl rfl rfl rfl rfl
    | diskSectorDat => cases h; refine of_frame ?_; unfold storeDiskData; split <;> exact .of_eq rfl rfl rfl rfl rfl
    | _ => cases h; exact of_frame (.of_eq rfl rfl rfl rfl rfl)

/-- A write that starts no bit-blt changes, of the bytes that the agent cannot disturb, those that it names alone. -/
theorem memWrite_bytes {w : Width} {a v : Word} {s t : State} (hc : s.selects a ≠ some (.display 7))
    (h : memWrite w a v s = .ok t) :
    (∀ b, Undisturbed s b → ¬ (InGuest a ∧ ∃ k, k < w.bytes ∧
        backingIndex s.params (a + BitVec.ofNat 32 k) = backingIndex s.params b) → t.byteAt b = s.byteAt b) ∧
      t.params = s.params ∧
      ((∀ i, s.selects a ≠ some (.audioIn i)) → ∀ b, Undisturbed s b → Undisturbed t b) := by
  rcases memWrite_cases h with ⟨_, h⟩ | ⟨hx, _⟩
  · rcases memStore_cases h with ⟨_, u, hu, rfl⟩ | ⟨hd, rfl⟩
    · have hf := captureInstant_frame s
      have hu := devStore_bytes hu
      rw [breakReservation_eq]
      exact ⟨fun b hb _ => (hu.1 b (hf.undisturbed b hb)).trans (hf.bytes b hb), hu.2.1.trans hf.params,
        fun hi b hb => (hu.2.2 hi).undisturbed b (hf.undisturbed b hb)⟩
    · obtain ⟨u, hf, ht, hb⟩ := writeBytes_guest w.bytes a v s
      rw [breakReservation_eq]
      refine ⟨fun b hu hs => ?_, ?_, fun _ b hu => (hb b hu).2⟩
      · exact (hb b hu).1.trans (byteAfter_of_outside fun i hi he => hs ⟨inGuest_iff.2 hd, i, hi, he⟩)
      · rw [ht]; exact hf.params
  · exact absurd hx hc

/-! ## Why an access is refused -/

theorem devStore_error {r : Option DevReg} {v : Word} {s : State} {e : Refusal} (h : devStore r v s = .error e) :
    (e = .audioLockRetaken ∨ e = .audioLockNotOwned) ∧ r = some (.audioIn 6) := by
  rcases r with _ | r
  · cases h
  · cases r with
    | audioIn i =>
      simp only [devStore, storeAudioIn, storeAudioLock] at h
      split at h
      · next hi =>
        rw [hi]
        split at h
        · split at h <;> cases h; exact ⟨.inr rfl, rfl⟩
        · split at h <;> cases h; exact ⟨.inl rfl, rfl⟩
      · split at h <;> cases h
    | _ => cases h

theorem memStore_error {w : Width} {a v : Word} {s : State} {e : Refusal} (h : memStore w a v s = .error e) :
    (e = .audioLockRetaken ∨ e = .audioLockNotOwned) ∧ s.selects a = some (.audioIn 6) := by
  unfold memStore at h
  by_cases hd : isDevice a = true
  · rw [if_pos hd] at h
    cases hu : devStore (s.selects a) (w.low v) (captureInstant s) with
    | ok u => rw [hu] at h; cases h
    | error e' => rw [hu] at h; cases h; exact devStore_error hu
  · rw [if_neg hd] at h; cases h

/-- What is true of every error of a step of a fold is true of the fold's. -/
theorem foldlM_error {α ε σ : Type} {f : σ → α → Except ε σ} {Q : ε → Prop}
    (hf : ∀ s a e, f s a = .error e → Q e) (l : List α) {s : σ} {e : ε} (h : l.foldlM f s = .error e) : Q e := by
  induction l generalizing s with
  | nil => cases h
  | cons a l ih =>
    rw [List.foldlM_cons] at h
    cases hu : f s a with
    | ok u => rw [hu] at h; exact ih h
    | error e' => rw [hu] at h; cases h; exact hf _ _ _ hu

theorem bitBlt_error {s : State} {e : Refusal} (h : bitBlt s = .error e) :
    (e = .audioLockRetaken ∨ e = .audioLockNotOwned) ∨ (e = .bitBltNotFixed ∧ s.params.blt = none) := by
  unfold bitBlt at h
  split at h
  · refine .inl (foldlM_error (Q := fun e => e = .audioLockRetaken ∨ e = .audioLockNotOwned) (fun u r e' hu => ?_) _ h)
    refine foldlM_error (Q := fun e => e = .audioLockRetaken ∨ e = .audioLockNotOwned) (fun x j e'' hx => ?_) _ hu
    unfold bltByte at hx
    split at hx
    · cases hx
    · exact (memStore_error hx).1
  · next hb =>
    split at h
    · cases h; exact .inr ⟨rfl, hb⟩
    · cases h

/-- Every refusal of a write is one of a store to AUDIO_IN_LOCK, made by the write itself or by the copy that a write of
DISP_BITBLT_WH starts, or of such a copy (60_exceptions R227, 20_memory R74, R76). -/
theorem memWrite_error {w : Width} {a v : Word} {s : State} {e : Refusal} (h : memWrite w a v s = .error e) :
    ((e = .audioLockRetaken ∨ e = .audioLockNotOwned) ∧
        (s.selects a = some (.audioIn 6) ∨ s.selects a = some (.display 7))) ∨
      (e = .bitBltNotFixed ∧ s.params.blt = none ∧ s.selects a = some (.display 7)) := by
  unfold memWrite at h
  split at h
  · next u hu =>
    split at h
    · next hs =>
      rcases bitBlt_error h with he | ⟨he, hb⟩
      · exact .inl ⟨he, .inr hs⟩
      · exact .inr ⟨he, (memStore_access hu).params ▸ hb, hs⟩
    · cases h
  · next e' he => cases h; exact .inl ⟨(memStore_error he).1, .inl (memStore_error he).2⟩

end Sys2Proof.Machine
end

