-- ==== Sys2Proof/Laws/Encoding.lean ====
section
/-! SUPPORT. Reading a field back out of a word put together from fields (30_encoding R93, R98), and putting an
immediate together again from its scattered pieces (R97, R100). -/

namespace Sys2Proof

variable {w n : Nat}

theorem getLsbD_place (lo : Nat) (v : BitVec n) (k : Nat) :
    (place w lo v).getLsbD k = (decide (k < w) && decide (lo ≤ k) && v.getLsbD (k - lo)) := by
  by_cases hk : k < w
  · by_cases hl : lo ≤ k
    · have hn : ¬ k < lo := by omega
      simp [place, hk, hl, hn]
    · have : k < lo := by omega
      simp [place, hl, this]
  · simp [place, hk]

/-- A field read where it stands, or any part of it. -/
theorem extract_place (lo lo' k : Nat) (v : BitVec n) (h : lo ≤ lo') (_ : lo' + k ≤ lo + n)
    (hk : lo' + k ≤ w) : (place w lo v).extractLsb' lo' k = v.extractLsb' (lo' - lo) k := by
  apply BitVec.eq_of_getLsbD_eq
  intro i hi
  have h1 : lo' + i < w := by omega
  have h2 : lo ≤ lo' + i := by omega
  have h3 : lo' + i - lo = lo' - lo + i := by omega
  simp only [BitVec.getLsbD_extractLsb', getLsbD_place, hi, h1, h2, h3, decide_true, Bool.true_and]

/-- A field read below where another stands. -/
theorem extract_place_below (lo lo' k : Nat) (v : BitVec n) (h : lo' + k ≤ lo) :
    (place w lo v).extractLsb' lo' k = 0 := by
  apply BitVec.eq_of_getLsbD_eq
  intro i hi
  have h2 : ¬ lo ≤ lo' + i := by omega
  simp [getLsbD_place, h2]

/-- A field read above where another stands. -/
theorem extract_place_above (lo lo' k : Nat) (v : BitVec n) (h : lo + n ≤ lo') :
    (place w lo v).extractLsb' lo' k = 0 := by
  apply BitVec.eq_of_getLsbD_eq
  intro i hi
  have h2 : v.getLsbD (lo' + i - lo) = false := BitVec.getLsbD_of_ge _ _ (by omega)
  simp [getLsbD_place, h2]

theorem extract_full (v : BitVec n) : v.extractLsb' 0 n = v := by
  apply BitVec.eq_of_getLsbD_eq
  intro i hi
  simp [hi]

/-- Of a fetched word, a compressed instruction is the low half. -/
theorem extract_append_low (hi h : BitVec 16) (lo k : Nat) (hk : lo + k ≤ 16) :
    (hi ++ h : BitVec 32).extractLsb' lo k = h.extractLsb' lo k := by
  apply BitVec.eq_of_getLsbD_eq
  intro i hi
  have h1 : lo + i < 16 := by omega
  simp only [BitVec.getLsbD_extractLsb', BitVec.getLsbD_append, hi, h1, decide_true, Bool.true_and, if_true]

/-! ## Immediates put together again, row by row of R97 and R100 -/

/-- The low bits that `lowZero` says are zero. -/
theorem lowZero_getLsbD {v : BitVec w} (h : lowZero n v = true) {k : Nat} (hk : k < n) : v.getLsbD k = false := by
  have h0 : v.extractLsb' 0 n = 0#n := by simpa [lowZero] using h
  have := congrArg (fun x => x.getLsbD k) h0
  simpa [hk] using this

theorem join_immS (v : BitVec 12) :
    place 12 5 (v.extractLsb' 5 7) ||| place 12 0 (v.extractLsb' 0 5) = v := by
  apply BitVec.eq_of_getLsbD_eq
  intro k hk
  simp only [BitVec.getLsbD_or, getLsbD_place, BitVec.getLsbD_extractLsb']
  interval_cases k <;> simp

theorem join_immB (v : BitVec 13) (h : lowZero 1 v = true) :
    place 13 12 (v.extractLsb' 12 1) ||| place 13 11 (v.extractLsb' 11 1) |||
      place 13 5 (v.extractLsb' 5 6) ||| place 13 1 (v.extractLsb' 1 4) = v := by
  apply BitVec.eq_of_getLsbD_eq
  intro k hk
  simp only [BitVec.getLsbD_or, getLsbD_place, BitVec.getLsbD_extractLsb']
  rcases Nat.lt_or_ge k 1 with hz | hz
  · have h0 := lowZero_getLsbD h hz
    interval_cases k <;> simpa using h0
  · interval_cases k <;> simp

theorem join_immJ (v : BitVec 21) (h : lowZero 1 v = true) :
    place 21 20 (v.extractLsb' 20 1) ||| place 21 12 (v.extractLsb' 12 8) |||
      place 21 11 (v.extractLsb' 11 1) ||| place 21 1 (v.extractLsb' 1 10) = v := by
  apply BitVec.eq_of_getLsbD_eq
  intro k hk
  simp only [BitVec.getLsbD_or, getLsbD_place, BitVec.getLsbD_extractLsb']
  rcases Nat.lt_or_ge k 1 with hz | hz
  · have h0 := lowZero_getLsbD h hz
    interval_cases k <;> simpa using h0
  · interval_cases k <;> simp

theorem join_immAddi4spn (v : BitVec 10) (h : lowZero 2 v = true) :
    place 10 4 (v.extractLsb' 4 2) ||| place 10 6 (v.extractLsb' 6 4) |||
      place 10 2 (v.extractLsb' 2 1) ||| place 10 3 (v.extractLsb' 3 1) = v := by
  apply BitVec.eq_of_getLsbD_eq
  intro k hk
  simp only [BitVec.getLsbD_or, getLsbD_place, BitVec.getLsbD_extractLsb']
  rcases Nat.lt_or_ge k 2 with hz | hz
  · have h0 := lowZero_getLsbD h hz
    interval_cases k <;> simpa using h0
  · interval_cases k <;> simp

theorem join_immCD (v : BitVec 8) (h : lowZero 3 v = true) :
    place 8 3 (v.extractLsb' 3 3) ||| place 8 6 (v.extractLsb' 6 2) = v := by
  apply BitVec.eq_of_getLsbD_eq
  intro k hk
  simp only [BitVec.getLsbD_or, getLsbD_place, BitVec.getLsbD_extractLsb']
  rcases Nat.lt_or_ge k 3 with hz | hz
  · have h0 := lowZero_getLsbD h hz
    interval_cases k <;> simpa using h0
  · interval_cases k <;> simp

theorem join_immCW (v : BitVec 7) (h : lowZero 2 v = true) :
    place 7 3 (v.extractLsb' 3 3) ||| place 7 2 (v.extractLsb' 2 1) ||| place 7 6 (v.extractLsb' 6 1) = v := by
  apply BitVec.eq_of_getLsbD_eq
  intro k hk
  simp only [BitVec.getLsbD_or, getLsbD_place, BitVec.getLsbD_extractLsb']
  rcases Nat.lt_or_ge k 2 with hz | hz
  · have h0 := lowZero_getLsbD h hz
    interval_cases k <;> simpa using h0
  · interval_cases k <;> simp

theorem join_immCI (v : BitVec 6) :
    place 6 5 (v.extractLsb' 5 1) ||| place 6 0 (v.extractLsb' 0 5) = v := by
  apply BitVec.eq_of_getLsbD_eq
  intro k hk
  simp only [BitVec.getLsbD_or, getLsbD_place, BitVec.getLsbD_extractLsb']
  interval_cases k <;> simp

theorem join_immCJ (v : BitVec 12) (h : lowZero 1 v = true) :
    place 12 11 (v.extractLsb' 11 1) ||| place 12 4 (v.extractLsb' 4 1) ||| place 12 8 (v.extractLsb' 8 2) |||
      place 12 10 (v.extractLsb' 10 1) ||| place 12 6 (v.extractLsb' 6 1) ||| place 12 7 (v.extractLsb' 7 1) |||
      place 12 1 (v.extractLsb' 1 3) ||| place 12 5 (v.extractLsb' 5 1) = v := by
  apply BitVec.eq_of_getLsbD_eq
  intro k hk
  simp only [BitVec.getLsbD_or, getLsbD_place, BitVec.getLsbD_extractLsb']
  rcases Nat.lt_or_ge k 1 with hz | hz
  · have h0 := lowZero_getLsbD h hz
    interval_cases k <;> simpa using h0
  · interval_cases k <;> simp

theorem join_immAddi16sp (v : BitVec 10) (h : lowZero 4 v = true) :
    place 10 9 (v.extractLsb' 9 1) ||| place 10 4 (v.extractLsb' 4 1) ||| place 10 6 (v.extractLsb' 6 1) |||
      place 10 7 (v.extractLsb' 7 2) ||| place 10 5 (v.extractLsb' 5 1) = v := by
  apply BitVec.eq_of_getLsbD_eq
  intro k hk
  simp only [BitVec.getLsbD_or, getLsbD_place, BitVec.getLsbD_extractLsb']
  rcases Nat.lt_or_ge k 4 with hz | hz
  · have h0 := lowZero_getLsbD h hz
    interval_cases k <;> simpa using h0
  · interval_cases k <;> simp

theorem join_immCLui (v : BitVec 18) (h : lowZero 12 v = true) :
    place 18 17 (v.extractLsb' 17 1) ||| place 18 12 (v.extractLsb' 12 5) = v := by
  apply BitVec.eq_of_getLsbD_eq
  intro k hk
  simp only [BitVec.getLsbD_or, getLsbD_place, BitVec.getLsbD_extractLsb']
  rcases Nat.lt_or_ge k 12 with hz | hz
  · have h0 := lowZero_getLsbD h hz
    interval_cases k <;> simpa using h0
  · interval_cases k <;> simp

theorem join_immCB (v : BitVec 9) (h : lowZero 1 v = true) :
    place 9 8 (v.extractLsb' 8 1) ||| place 9 3 (v.extractLsb' 3 2) ||| place 9 6 (v.extractLsb' 6 2) |||
      place 9 1 (v.extractLsb' 1 2) ||| place 9 5 (v.extractLsb' 5 1) = v := by
  apply BitVec.eq_of_getLsbD_eq
  intro k hk
  simp only [BitVec.getLsbD_or, getLsbD_place, BitVec.getLsbD_extractLsb']
  rcases Nat.lt_or_ge k 1 with hz | hz
  · have h0 := lowZero_getLsbD h hz
    interval_cases k <;> simpa using h0
  · interval_cases k <;> simp

theorem join_immLwsp (v : BitVec 8) (h : lowZero 2 v = true) :
    place 8 5 (v.extractLsb' 5 1) ||| place 8 2 (v.extractLsb' 2 3) ||| place 8 6 (v.extractLsb' 6 2) = v := by
  apply BitVec.eq_of_getLsbD_eq
  intro k hk
  simp only [BitVec.getLsbD_or, getLsbD_place, BitVec.getLsbD_extractLsb']
  rcases Nat.lt_or_ge k 2 with hz | hz
  · have h0 := lowZero_getLsbD h hz
    interval_cases k <;> simpa using h0
  · interval_cases k <;> simp

theorem join_immFldsp (v : BitVec 9) (h : lowZero 3 v = true) :
    place 9 5 (v.extractLsb' 5 1) ||| place 9 3 (v.extractLsb' 3 2) ||| place 9 6 (v.extractLsb' 6 3) = v := by
  apply BitVec.eq_of_getLsbD_eq
  intro k hk
  simp only [BitVec.getLsbD_or, getLsbD_place, BitVec.getLsbD_extractLsb']
  rcases Nat.lt_or_ge k 3 with hz | hz
  · have h0 := lowZero_getLsbD h hz
    interval_cases k <;> simpa using h0
  · interval_cases k <;> simp

theorem join_immSwsp (v : BitVec 8) (h : lowZero 2 v = true) :
    place 8 2 (v.extractLsb' 2 4) ||| place 8 6 (v.extractLsb' 6 2) = v := by
  apply BitVec.eq_of_getLsbD_eq
  intro k hk
  simp only [BitVec.getLsbD_or, getLsbD_place, BitVec.getLsbD_extractLsb']
  rcases Nat.lt_or_ge k 2 with hz | hz
  · have h0 := lowZero_getLsbD h hz
    interval_cases k <;> simpa using h0
  · interval_cases k <;> simp

theorem join_immFsdsp (v : BitVec 9) (h : lowZero 3 v = true) :
    place 9 3 (v.extractLsb' 3 3) ||| place 9 6 (v.extractLsb' 6 3) = v := by
  apply BitVec.eq_of_getLsbD_eq
  intro k hk
  simp only [BitVec.getLsbD_or, getLsbD_place, BitVec.getLsbD_extractLsb']
  rcases Nat.lt_or_ge k 3 with hz | hz
  · have h0 := lowZero_getLsbD h hz
    interval_cases k <;> simpa using h0
  · interval_cases k <;> simp

end Sys2Proof
end

