-- ==== Sys2Proof/Laws/Trap.lean ====
section
/-! SUPPORT. CSR reads after CSR writes (10_state R39), the bits of mstatus on trap entry and return, and what taking
the interrupt changes (60_exceptions R232, 43_system R181). -/

namespace Sys2Proof.Machine

open Sys2Proof

variable (s : State)

theorem State.csr_setCsr (n k : BitVec 12) (v : Word) : (s.setCsr n v).csr k = if k = n then v else s.csr k := by
  have : k.toNat = n.toNat ↔ k = n := BitVec.toNat_inj
  simp only [State.csr, State.setCsr_csrs, sparseGet_set, this]

theorem State.csr_congr {s t : State} (h : t.csrs = s.csrs) (n : BitVec 12) : t.csr n = s.csr n := by
  rw [State.csr, State.csr, h]

/-- The bits of a word with one bit replaced. -/
theorem setBit_getLsbD (v : Word) {i : Nat} (hi : i < 32) (b : Bool) (k : Nat) :
    (setBit v i b).getLsbD k = if k = i then b else v.getLsbD k := by
  unfold setBit
  by_cases hk : k = i
  · subst hk
    cases b <;> simp [hi]
  · by_cases h32 : k < 32
    · have h1 : ¬ (k - i = 0 ∧ ¬ k < i) := by omega
      cases b <;> by_cases hlt : k < i <;> simp_all
    · have h0 : v.getLsbD k = false := BitVec.getLsbD_of_ge _ _ (by omega)
      cases b <;> simp [hk, h32, h0]

/-- A word is fixed by its bits. -/
theorem word_ext {a b : Word} (h : ∀ k < 32, a.getLsbD k = b.getLsbD k) : a = b :=
  BitVec.eq_of_getLsbD_eq h

theorem takeInterrupt_of_disabled {src : Nat} (h : s.interruptEnabled src = false) : takeInterrupt src s = s := by
  simp [takeInterrupt, h]

/-- Taking the interrupt changes the CSRs and the pc alone. -/
theorem takeInterrupt_frame (src : Nat) :
    takeInterrupt src s = { s with csrs := (takeInterrupt src s).csrs, pc := (takeInterrupt src s).pc } := by
  unfold takeInterrupt
  split <;> rfl

/-- What taking the interrupt writes. -/
theorem takeInterrupt_csr {src : Nat} (h : s.interruptEnabled src = true) (n : BitVec 12) :
    (takeInterrupt src s).csr n =
      if n = mepcNo then s.pc
      else if n = mcauseNo then 0x80000000#32 ||| BitVec.ofNat 32 src
      else if n = mipNo then s.csr mipNo ||| 1#32 <<< src
      else if n = mstatusNo then mstatusOnTrap (s.csr mstatusNo)
      else s.csr n := by
  have he : (takeInterrupt src s).csr n =
      ((((s.setCsr mstatusNo (mstatusOnTrap (s.csr mstatusNo))).setCsr mipNo
        (s.csr mipNo ||| 1#32 <<< src)).setCsr mcauseNo (0x80000000#32 ||| BitVec.ofNat 32 src)).setCsr
          mepcNo s.pc).csr n := by
    rw [takeInterrupt, if_pos h]; rfl
  rw [he]
  simp only [State.csr_setCsr]

theorem takeInterrupt_pc {src : Nat} (h : s.interruptEnabled src = true) :
    (takeInterrupt src s).pc = trapTarget (s.csr mtvecNo) src := by rw [takeInterrupt, if_pos h]

/-- A CSR write keeps the canonical form, and writes to a CSR below the read-only range keep that range zero. -/
theorem State.setCsr_wf (n : BitVec 12) (v : Word) (h : sparseWf s.csrs = true) : sparseWf (s.setCsr n v).csrs = true :=
  sparseWf_set h

theorem State.setCsr_below {n : BitVec 12} (v : Word) (hn : n.toNat < 0xC00) (h : sparseBelow 0xC00 s.csrs = true) :
    sparseBelow 0xC00 (s.setCsr n v).csrs = true := sparseBelow_set hn h

/-- Taking the interrupt keeps the form of the CSR file. -/
theorem takeInterrupt_csrs (src : Nat) (h : sparseWf s.csrs = true ∧ sparseBelow 0xC00 s.csrs = true) :
    sparseWf (takeInterrupt src s).csrs = true ∧ sparseBelow 0xC00 (takeInterrupt src s).csrs = true := by
  unfold takeInterrupt
  split
  · exact ⟨sparseWf_set (sparseWf_set (sparseWf_set (sparseWf_set h.1))),
      sparseBelow_set (by decide) (sparseBelow_set (by decide) (sparseBelow_set (by decide)
        (sparseBelow_set (by decide) h.2)))⟩
  · exact h

/-- The target is a multiple of 4 (R233). -/
theorem trapTarget_aligned (v : Word) (src : Nat) : (trapTarget v src).extractLsb' 0 2 = 0#2 := by
  have base : ∀ x : Word, (x &&& 0xFFFFFFFC#32).toNat % 4 = 0 := fun x => by
    have h : (x &&& 0xFFFFFFFC#32).extractLsb' 0 2 = 0#2 := by
      ext i hi
      have : i = 0 ∨ i = 1 := by omega
      rcases this with rfl | rfl <;> simp
    have := congrArg BitVec.toNat h
    simpa [BitVec.extractLsb'_toNat] using this
  apply BitVec.eq_of_toNat_eq
  simp only [BitVec.extractLsb'_toNat, Nat.shiftRight_zero]
  unfold trapTarget
  have hb := base v
  generalize v &&& 0xFFFFFFFC#32 = b at hb ⊢
  split
  · simp only [BitVec.toNat_add, BitVec.toNat_mul, BitVec.toNat_ofNat]
    omega
  · exact hb

end Sys2Proof.Machine
end

