-- ==== Sys2Proof/Laws/Meanings.lean ====
section
/-! SUPPORT. What each shared operation of the meanings answers, and one inversion of exec: what an instruction that
answers a next state leaves as it was. -/

namespace Sys2Proof.Machine

open Sys2Proof

variable {s t : State} {len ea v target : Word} {rd r : Reg} {w : Width}

/-! ## The shared operations -/

theorem retireWith_next (h : retireWith len rd v s = .next t) : t = (s.setReg rd v).retire len := by
  cases h; rfl

theorem retireAfter_next {e : Except Refusal State} (h : retireAfter len e = .next t) :
    ∃ u, e = .ok u ∧ t = u.retire len := by
  cases e with
  | ok u => cases h; exact ⟨u, rfl, rfl⟩
  | error e => cases h

theorem unmatched_next (h : unmatched len s = .next t) : t = s.retire len := by
  unfold unmatched at h
  split at h <;> cases h
  rfl

theorem storeReg_next (h : storeReg len w ea v s = .next t) : ∃ u, memWrite w ea v s = .ok u ∧ t = u.retire len :=
  retireAfter_next h

theorem divReg_next {f : DivCorner → Word → Word → Except Refusal Word} {rs1 rs2 : Reg}
    (h : divReg f rd rs1 rs2 s = .next t) :
    ∃ q, f s.params.divCorner (s.getReg rs1) (s.getReg rs2) = .ok q ∧ t = (s.setReg rd q).retire len4 := by
  unfold divReg at h
  split at h
  · next q hq => exact ⟨q, hq, retireWith_next h⟩
  · cases h

theorem amo_next {f : Word → Word → Word} {rs1 rs2 : Reg} (h : amo f rd rs1 rs2 s = .next t) :
    ∃ u, memWrite .word (s.getReg rs1) (f (memRead .word (s.getReg rs1) s).1 (s.getReg rs2))
        (memRead .word (s.getReg rs1) s).2 = .ok u ∧
      t = (u.setReg rd (memRead .word (s.getReg rs1) s).1).retire len4 := by
  obtain ⟨u, hu, rfl⟩ := retireAfter_next h
  cases hw : memWrite .word (s.getReg rs1) (f (memRead .word (s.getReg rs1) s).1 (s.getReg rs2))
      (memRead .word (s.getReg rs1) s).2 with
  | ok x => rw [hw] at hu; cases hu; exact ⟨x, rfl, rfl⟩
  | error e => rw [hw] at hu; cases hu

theorem execScW_next {rs1 rs2 : Reg} {aq rl : BitVec 1} (h : execScW rd rs1 rs2 aq rl s = .next t) :
    (s.mreserved = some (s.getReg rs1) ∧ ∃ u, memWrite .word (s.getReg rs1) (s.getReg rs2) s = .ok u ∧
        t = ({ u.setReg rd 0 with mreserved := none }).retire len4) ∨
      (s.mreserved ≠ some (s.getReg rs1) ∧ t = ({ s.setReg rd 1 with mreserved := none }).retire len4) := by
  simp only [execScW] at h
  split at h
  · next hr =>
    obtain ⟨u, hu, rfl⟩ := retireAfter_next h
    cases hw : memWrite .word (s.getReg rs1) (s.getReg rs2) s with
    | ok x => rw [hw] at hu; cases hu; exact .inl ⟨hr, x, rfl, rfl⟩
    | error e => rw [hw] at hu; cases hu
  · next hr => cases h; exact .inr ⟨hr, rfl⟩

theorem branch_next {taken : Bool} {offset : Word} (h : branch len taken offset s = .next t) :
    t = s.jumpTo (if taken then s.pc + offset else s.pc + len) := by
  unfold branch at h
  split at h <;> next hb => cases h; simp [hb, State.retire]

theorem csrOp_next {kind : CsrKind} {c : BitVec 12} {x : Word} (h : csrOp kind rd c x s = .next t) :
    t = (State.setReg (if csrDoesWrite kind c x then s.setCsr c (csrNew kind (s.csr c) x) else s) rd
      (s.csr c)).retire len4 := by
  cases h; rfl

theorem fpMove_next {b : Bool} {res : Result} (h : fpMove b s res = .next t) :
    (b = true ∧ res = .next t) ∨ (b = false ∧ t = s.retire len2) := by
  cases b with
  | true => exact .inl ⟨rfl, h⟩
  | false => exact .inr ⟨rfl, unmatched_next h⟩

/-! ## Loads and stores, but for what the capture agent does meanwhile -/

/-- A load from guest memory. -/
theorem loadReg_guest {i : Instr} {ext : Word → Word} (h : exec i s = loadReg len w ext rd ea s) (ha : InGuest ea) :
    ∃ x, MayRead s ea w.bytes x ∧ Loads i s rd (ext x) (s.pc + len) := by
  obtain ⟨hf, hr⟩ := memRead_guest ha w s
  refine ⟨_, hr, _, hf, _, h, ?_⟩
  have hw := writesReg_jumpTo (s := (memRead w ea s).2) rd (ext (memRead w ea s).1) ((memRead w ea s).2.pc + len)
  rw [hf.access.pc] at hw
  simpa only [State.retire, hf.access.pc, State.setReg_pc] using hw

/-- A store to guest memory. -/
theorem storeReg_guest {i : Instr} (h : exec i s = storeReg len w ea v s) (ha : InGuest ea) :
    Stores i s ea v w.bytes 0 0 (reservationAfter s ea w.bytes) (s.pc + len) := by
  obtain ⟨u, hu, t, ht, hb, hm, he⟩ := memWrite_guest (s := s) ha w v
  have hp : t.pc = s.pc := by rw [he]; exact hu.access.pc
  refine ⟨u, hu, t.retire len, by rw [h, storeReg, ht]; rfl, fun a h => ((hb a h).1), fun r => ?_, by simp, hm, ?_, ?_⟩
  · rw [State.getReg_retire, show t.getReg r = u.getReg r by rw [he]; rfl, hu.getReg]
    by_cases h0 : r = 0#5 <;> simp [h0]
  · show t.pc + len = _; rw [hp]
  · exact congrArg (fun x : State => { x with regs := (t.retire len).regs, pc := (t.retire len).pc }) he

/-- A load from the device window. -/
theorem loadReg_device {i : Instr} {ext : Word → Word} (h : exec i s = loadReg len w ext rd ea s)
    (hd : isDevice ea = true) :
    LoadsFrom i s (devRead (s.selects ea) (captureInstant s)).2 rd
      (ext (w.low (devRead (s.selects ea) (captureInstant s)).1)) (s.pc + len) := by
  have hf := (captureInstant_frame s).access.trans (devRead_access (s.selects ea) (captureInstant s))
  refine ⟨_, h, ?_, hf.getReg⟩
  simp only [memRead, hd, if_true]
  rw [← hf.pc]
  exact writesReg_jumpTo _ _ _ _

/-- A load from a device register that a read does not change. -/
theorem loadReg_device_stored {i : Instr} {ext : Word → Word} {x : Word} (h : exec i s = loadReg len w ext rd ea s)
    (hd : isDevice ea = true) (hx : devRead (s.selects ea) (captureInstant s) = (x, captureInstant s)) :
    Loads i s rd (ext (w.low x)) (s.pc + len) := by
  obtain ⟨t, ht, hw, _⟩ := loadReg_device h hd
  rw [hx] at hw
  exact ⟨_, captureInstant_frame s, t, ht, hw⟩

/-- A store to a device register that is not refused and starts no bit-blt. -/
theorem storeReg_device {i : Instr} {f : State → State} (h : exec i s = storeReg len w ea v s)
    (hd : isDevice ea = true) (hs : s.selects ea ≠ some (.display 7))
    (hf : devStore (s.selects ea) (w.low v) (captureInstant s) = .ok (f (captureInstant s)))
    (hm : (f (captureInstant s)).mreserved = s.mreserved) : StoresTo i s ea w.bytes f (s.pc + len) := by
  have ha := (captureInstant_frame s).access.trans (devStore_access hf)
  have hw : memWrite w ea v s = .ok (breakReservation w.bytes ea (f (captureInstant s))) := by
    simp only [memWrite, memStore, hd, if_true, hf, Except.map, if_neg hs]
  refine ⟨_, captureInstant_frame s, _, by rw [h, storeReg, hw]; rfl, fun r => ?_, by simp, ?_⟩
  · rw [breakReservation_eq, State.getReg_retire]; exact ha.getReg r
  · rw [breakReservation_eq, reservationAfter_congr hm ha.params]
    simp only [State.retire, State.jumpTo, ha.pc]

/-! ## The forms of a load and of a store -/

theorem loadForms_exec {g : LoadForm} {rs1 : Reg} {imm : BitVec 12} (h : g ∈ loadForms rd rs1 imm) (s : State) :
    ∃ w ext, exec g.instr s = loadReg len4 w ext rd (eaSigned s rs1 imm) s ∧ ∀ x, ext (w.low x) = g.ext x := by
  have hb (x : Word) : (Width.byte.low x).extractLsb' 0 8 = x.extractLsb' 0 8 := by
    ext i hi; simp [Width.low, hi]; omega
  have hh (x : Word) : (Width.half.low x).extractLsb' 0 16 = x.extractLsb' 0 16 := by
    ext i hi; simp [Width.low, hi]; omega
  simp only [loadForms, List.mem_cons, List.not_mem_nil, or_false] at h
  rcases h with rfl | rfl | rfl | rfl | rfl
  · exact ⟨.byte, sextByte, rfl, fun x => by simp only [sextByte, hb]; rfl⟩
  · exact ⟨.half, sextHalf, rfl, fun x => by simp only [sextHalf, hh]; rfl⟩
  · exact ⟨.word, id, rfl, fun _ => rfl⟩
  · exact ⟨.byte, id, rfl, fun _ => rfl⟩
  · exact ⟨.half, id, rfl, fun _ => rfl⟩

theorem storeForms_exec {f : StoreForm} {rs1 rs2 : Reg} {imm : BitVec 12} (h : f ∈ storeForms s rs1 rs2 imm) :
    ∃ w : Width, exec f.instr s = storeReg len4 w (eaSigned s rs1 imm) (s.getReg rs2) s ∧ w.bytes = f.bytes ∧
      w.low (s.getReg rs2) = f.value := by
  simp only [storeForms, List.mem_cons, List.not_mem_nil, or_false] at h
  rcases h with rfl | rfl | rfl
  · exact ⟨.byte, rfl, rfl, rfl⟩
  · exact ⟨.half, rfl, rfl, rfl⟩
  · exact ⟨.word, rfl, rfl, rfl⟩

/-- A load of a device register whose read is a draw (00_scope R27). -/
theorem loadForm_draw {g : LoadForm} {rs1 : Reg} {imm : BitVec 12} (h : g ∈ loadForms rd rs1 imm)
    (hd : ¬ InGuest (eaSigned s rs1 imm))
    (hr : ∀ u, devRead (select s.params.devAddr (eaSigned s rs1 imm)) u = drawWord u) :
    LoadsDraw g s rd (s.pc + 4) := by
  obtain ⟨w, ext, hx, he⟩ := loadForms_exec h s
  have hl := loadReg_device hx (not_inGuest_iff.1 hd)
  rw [selects_of_not_inGuest hd, hr, he] at hl
  exact ⟨_, _, captureInstant_frame s, hl⟩

/-- A load of a device register that a read does not change. -/
theorem loadForm_stored {g : LoadForm} {rs1 : Reg} {imm : BitVec 12} {x : Word} (h : g ∈ loadForms rd rs1 imm)
    (hd : ¬ InGuest (eaSigned s rs1 imm))
    (hr : devRead (select s.params.devAddr (eaSigned s rs1 imm)) (captureInstant s) = (x, captureInstant s)) :
    Loads g.instr s rd (g.ext x) (s.pc + 4) := by
  obtain ⟨w, ext, hx, he⟩ := loadForms_exec h s
  rw [← he]
  exact loadReg_device_stored hx (not_inGuest_iff.1 hd) (by rw [selects_of_not_inGuest hd]; exact hr)

/-- A store of any width to a device register that is not refused and starts no bit-blt. -/
theorem storeForm_device {f : StoreForm} {rs1 rs2 : Reg} {imm : BitVec 12} {k : State → State}
    (h : f ∈ storeForms s rs1 rs2 imm) (hd : ¬ InGuest (eaSigned s rs1 imm))
    (hs : select s.params.devAddr (eaSigned s rs1 imm) ≠ some (.display 7))
    (hf : devStore (select s.params.devAddr (eaSigned s rs1 imm)) f.value (captureInstant s) =
      .ok (k (captureInstant s))) : StoresTo f.instr s (eaSigned s rs1 imm) f.bytes k (s.pc + 4) := by
  obtain ⟨w, hx, hw, hv⟩ := storeForms_exec h
  rw [← hw]
  refine storeReg_device hx (not_inGuest_iff.1 hd) (by rwa [selects_of_not_inGuest hd]) ?_
    ((devStore_mreserved hf).trans (captureInstant_frame s).mreserved)
  rw [selects_of_not_inGuest hd, hv]
  exact hf

/-! ## One inversion of exec -/

/-- What an instruction that answers a next state leaves as it was, and what it keeps. -/
structure ExecFrame (i : Instr) (s t : State) : Prop where
  regs : ∀ r : Reg, i.dest ≠ some r → t.getReg r = s.getReg r
  zero : t.regs[0] = 0#32
  fregs : ∀ r : Reg, i.fdest ≠ some r → t.getFreg r = s.getFreg r
  exitFlag : i ≠ .ecall → t.exitFlag = s.exitFlag
  csrs : i.isCsr = false → i ≠ .mret → t.csrs = s.csrs
  mode : t.mode = s.mode
  mtimecur : t.mtimecur = s.mtimecur
  sched : t.sched = s.sched
  params : t.params = s.params
  clock : s.clockSeen ≤ t.clockSeen
  inv : AccessInv s → AccessInv t

theorem AccessInv.congr {s t : State} (h : AccessInv s) (hm : t.mem = s.mem) (hd : t.dev = s.dev)
    (hp : t.params = s.params) : AccessInv t :=
  ⟨h.mem.congr hm hp, by rw [hd, hp]; exact h.freq, by rw [hd]; exact h.lock,
    by unfold PendingInv; rw [hd]; exact h.pending, by rw [hd]; exact h.disk,
    by unfold RingInv; rw [hd]; exact h.ring⟩

/-- The end of an instruction whose memory accesses led to `u` and whose one register write is to `rd`. -/
theorem ExecFrame.of_access {i : Instr} {u : State} (hf : AccessFrame s u) (hi : AccessInv s → AccessInv u)
    (hd : i.dest = some rd) : ExecFrame i s ((u.setReg rd v).jumpTo target) where
  regs q hq := by
    have hne : ¬ q = rd := fun he => hq (by rw [hd, he])
    by_cases h0 : q = 0#5
    · simp [h0]
    · rw [State.getReg_jumpTo, State.getReg_setReg, if_neg h0, if_neg hne, hf.getReg]
  zero := State.jumpTo_zero _ _
  fregs q _ := by simp [State.getFreg, hf.fregs]
  exitFlag _ := hf.exitFlag
  csrs _ _ := hf.csrs
  mode := hf.mode
  mtimecur := hf.mtimecur
  sched := hf.sched
  params := hf.params
  clock := hf.clock
  inv h := (hi h).congr rfl rfl rfl

/-- The same where no register is written. -/
theorem ExecFrame.of_access_none {i : Instr} {u : State} (hf : AccessFrame s u) (hi : AccessInv s → AccessInv u) :
    ExecFrame i s (u.jumpTo target) where
  regs q _ := by rw [State.getReg_jumpTo, hf.getReg]
  zero := State.jumpTo_zero _ _
  fregs q _ := by simp [State.getFreg, hf.fregs]
  exitFlag _ := hf.exitFlag
  csrs _ _ := hf.csrs
  mode := hf.mode
  mtimecur := hf.mtimecur
  sched := hf.sched
  params := hf.params
  clock := hf.clock
  inv h := (hi h).congr rfl rfl rfl

/-- The same where a floating-point slot is written. -/
theorem ExecFrame.of_access_freg {i : Instr} {u : State} {x : DWord} (hf : AccessFrame s u)
    (hi : AccessInv s → AccessInv u) (hd : i.fdest = some rd) :
    ExecFrame i s ((u.setFreg rd x).jumpTo target) where
  regs q _ := by
    rw [State.getReg_jumpTo]
    exact (State.getReg_congr (s := u) (t := u.setFreg rd x) rfl q).trans (hf.getReg q)
  zero := State.jumpTo_zero _ _
  fregs q hq := by
    have hne : ¬ q = rd := fun he => hq (by rw [hd, he])
    have : ((u.setFreg rd x).jumpTo target).getFreg q = (u.setFreg rd x).getFreg q := rfl
    rw [this, State.getFreg_setFreg, if_neg hne]
    simp [State.getFreg, hf.fregs]
  exitFlag _ := hf.exitFlag
  csrs _ _ := hf.csrs
  mode := hf.mode
  mtimecur := hf.mtimecur
  sched := hf.sched
  params := hf.params
  clock := hf.clock
  inv h := (hi h).congr rfl rfl rfl

/-- The reservation may be set or cleared on the way. -/
theorem ExecFrame.of_access_reserved {i : Instr} {u : State} {m : Option Word} (hf : AccessFrame s u)
    (hi : AccessInv s → AccessInv u) (hd : i.dest = some rd) :
    ExecFrame i s (({ u.setReg rd v with mreserved := m }).jumpTo target) := by
  have h := ExecFrame.of_access (i := i) (v := v) (target := target) (rd := rd) hf hi hd
  exact ⟨h.regs, h.zero, h.fregs, h.exitFlag, h.csrs, h.mode, h.mtimecur, h.sched, h.params, h.clock,
    fun ha => (h.inv ha).congr rfl rfl rfl⟩

theorem ExecFrame.of_csrOp {i : Instr} {kind : CsrKind} {c : BitVec 12} {x : Word} (hc : i.isCsr = true)
    (hd : i.dest = some rd) (h : csrOp kind rd c x s = .next t) : ExecFrame i s t := by
  rw [csrOp_next h]
  split
  · have hb := ExecFrame.of_access (i := i) (v := s.csr c) (target := s.pc + len4) (rd := rd) (AccessFrame.refl s) id hd
    exact ⟨hb.regs, hb.zero, hb.fregs, hb.exitFlag, fun hn => (by rw [hc] at hn; cases hn), hb.mode, hb.mtimecur,
      hb.sched, hb.params, hb.clock, fun ha => ha.congr rfl rfl rfl⟩
  · exact .of_access (.refl s) id hd

theorem loadFreg64_frame {i : Instr} (hd : i.fdest = some rd) (h : loadFreg64 rd ea s = .next t) : ExecFrame i s t := by
  cases h; exact .of_access_freg (memRead64_access _ _) (memRead64_inv _) hd

theorem loadFreg32_frame {i : Instr} (hd : i.fdest = some rd) (h : loadFreg32 rd ea s = .next t) : ExecFrame i s t := by
  cases h; exact .of_access_freg (memRead_access _ _ _) (memRead_inv _ _) hd

theorem storeReg_frame {i : Instr} (h : storeReg len w ea v s = .next t) : ExecFrame i s t := by
  obtain ⟨u, hu, rfl⟩ := storeReg_next h
  exact .of_access_none (memWrite_access hu) fun hi => memWrite_inv hi hu

theorem storeFreg64_frame {i : Instr} (h : storeFreg64 rd ea s = .next t) : ExecFrame i s t := by
  obtain ⟨u, hu, rfl⟩ := retireAfter_next h
  exact .of_access_none (memWrite64_access hu) fun hi => memWrite64_inv hi hu

theorem storeFreg32_frame {i : Instr} (h : storeFreg32 rd ea s = .next t) : ExecFrame i s t := by
  obtain ⟨u, hu, rfl⟩ := retireAfter_next h
  exact .of_access_none (memWrite_access hu) fun hi => memWrite_inv hi hu

theorem amo_frame {i : Instr} {f : Word → Word → Word} {rs1 rs2 : Reg} (hd : i.dest = some rd)
    (h : amo f rd rs1 rs2 s = .next t) : ExecFrame i s t := by
  obtain ⟨u, hu, rfl⟩ := amo_next h
  exact .of_access ((memRead_access _ _ _).trans (memWrite_access hu))
    (fun hi => memWrite_inv (memRead_inv _ _ hi) hu) hd

theorem divReg_frame {i : Instr} {f : DivCorner → Word → Word → Except Refusal Word} {rs1 rs2 : Reg}
    (hd : i.dest = some rd) (h : divReg f rd rs1 rs2 s = .next t) : ExecFrame i s t := by
  obtain ⟨q, _, rfl⟩ := divReg_next h
  exact .of_access (.refl s) id hd

theorem retireWith_frame {i : Instr} (hd : i.dest = some rd) (h : retireWith len rd v s = .next t) :
    ExecFrame i s t := by
  cases h; exact .of_access (.refl s) id hd

theorem jumpLink_frame {i : Instr} (hd : i.dest = some rd) (h : jumpLink len rd target s = .next t) :
    ExecFrame i s t := by
  cases h; exact .of_access (.refl s) id hd

theorem loadReg_frame {i : Instr} {ext : Word → Word} (hd : i.dest = some rd)
    (h : loadReg len w ext rd ea s = .next t) : ExecFrame i s t := by
  cases h; exact .of_access (memRead_access _ _ _) (memRead_inv _ _) hd

theorem jumpTo_frame {i : Instr} : ExecFrame i s (s.jumpTo target) := .of_access_none (.refl s) id

theorem branch_frame {i : Instr} {taken : Bool} {offset : Word} (h : branch len taken offset s = .next t) :
    ExecFrame i s t := by
  rw [branch_next h]; exact jumpTo_frame

theorem fpMove_frame {i : Instr} {b : Bool} {res : Result} (hr : res = .next t → ExecFrame i s t)
    (h : fpMove b s res = .next t) : ExecFrame i s t := by
  rcases fpMove_next h with ⟨_, h⟩ | ⟨_, rfl⟩
  · exact hr h
  · exact jumpTo_frame

theorem execEcall_frame (h : execEcall s = .next t) : ExecFrame .ecall s t := by
  unfold execEcall at h
  split at h
  · cases h
    have hb : ExecFrame .ecall s ((captureInstant s).jumpTo ((captureInstant s).pc + len4)) :=
      .of_access_none (captureInstant_frame s).access captureInstant_inv
    exact ⟨hb.regs, hb.zero, hb.fregs, fun hn => absurd rfl hn, hb.csrs, hb.mode, hb.mtimecur, hb.sched, hb.params,
      hb.clock, fun ha => (hb.inv ha).congr rfl rfl rfl⟩
  · exact retireWith_frame rfl h

theorem execMret_frame (h : execMret s = .next t) : ExecFrame .mret s t := by
  cases h
  have hb : ExecFrame .mret s (s.jumpTo (returnTarget s)) := jumpTo_frame
  exact ⟨hb.regs, hb.zero, hb.fregs, hb.exitFlag, fun _ hn => absurd rfl hn, rfl, rfl, rfl, rfl, hb.clock,
    fun ha => ha.congr rfl rfl rfl⟩

theorem execLrW_frame {rs1 : Reg} {aq rl : BitVec 1} (h : execLrW rd rs1 aq rl s = .next t) :
    ExecFrame (.lrW rd rs1 aq rl) s t := by
  cases h; exact .of_access_reserved (memRead_access _ _ _) (memRead_inv _ _) rfl

theorem execScW_frame {rs1 rs2 : Reg} {aq rl : BitVec 1} (h : execScW rd rs1 rs2 aq rl s = .next t) :
    ExecFrame (.scW rd rs1 rs2 aq rl) s t := by
  rcases execScW_next h with ⟨_, u, hu, rfl⟩ | ⟨_, rfl⟩
  · exact .of_access_reserved (memWrite_access hu) (fun hi => memWrite_inv hi hu) rfl
  · exact .of_access_reserved (.refl s) id rfl

/-- What an instruction can do: it changes no register but its destination, no slot but the one it loads, and none of
the other state but as its kind allows. -/
theorem exec_frame {i : Instr} (h : exec i s = .next t) : ExecFrame i s t := by
  cases i with
  | lui | auipc | addi | slti | sltiu | xori | ori | andi | slli | srli | srai
    | add | sub | sll | slt | sltu | xor | srl | sra | or | and | mul | mulh
    | mulhsu | mulhu | cAddi4spn | cAddi | cLi | cAddi16sp | cLui | cSrli | cSrai
    | cAndi | cSub | cXor | cOr | cAnd | cSlli | cMv | cAdd => exact retireWith_frame rfl h
  | jal | jalr | cJal | cJalr => exact jumpLink_frame rfl h
  | beq | bne | blt | bge | bltu | bgeu | cBeqz | cBnez => exact branch_frame h
  | lb | lh | lw | lbu | lhu | cLw | cLwsp => exact loadReg_frame rfl h
  | sb | sh | sw | cSw | cSwsp => exact storeReg_frame h
  | fence | fenceI | ebreak | wfi | cNop | cJ | cJr | cEbreak => cases h; exact jumpTo_frame
  | div | divu | rem | remu => exact divReg_frame rfl h
  | lrW => exact execLrW_frame h
  | scW => exact execScW_frame h
  | amoswapW rd rs1 rs2 => exact amo_frame (f := fun _ b => b) (rs1 := rs1) (rs2 := rs2) rfl h
  | amoaddW rd rs1 rs2 => exact amo_frame (f := (· + ·)) (rs1 := rs1) (rs2 := rs2) rfl h
  | amoxorW rd rs1 rs2 => exact amo_frame (f := (· ^^^ ·)) (rs1 := rs1) (rs2 := rs2) rfl h
  | amoandW rd rs1 rs2 => exact amo_frame (f := (· &&& ·)) (rs1 := rs1) (rs2 := rs2) rfl h
  | amoorW rd rs1 rs2 => exact amo_frame (f := (· ||| ·)) (rs1 := rs1) (rs2 := rs2) rfl h
  | amominW rd rs1 rs2 => exact amo_frame (f := minS) (rs1 := rs1) (rs2 := rs2) rfl h
  | amomaxW rd rs1 rs2 => exact amo_frame (f := maxS) (rs1 := rs1) (rs2 := rs2) rfl h
  | amominuW rd rs1 rs2 => exact amo_frame (f := minU) (rs1 := rs1) (rs2 := rs2) rfl h
  | amomaxuW rd rs1 rs2 => exact amo_frame (f := maxU) (rs1 := rs1) (rs2 := rs2) rfl h
  | ecall => exact execEcall_frame h
  | mret => exact execMret_frame h
  | csrrw | csrrs | csrrc | csrrwi | csrrsi | csrrci => exact .of_csrOp rfl rfl h
  | cFld | cFldsp => exact fpMove_frame (loadFreg64_frame rfl) h
  | cFlw | cFlwsp => exact fpMove_frame (loadFreg32_frame rfl) h
  | cFsd | cFsdsp => exact fpMove_frame storeFreg64_frame h
  | cFsw | cFswsp => exact fpMove_frame storeFreg32_frame h

end Sys2Proof.Machine
end

