-- ==== Sys2Proof/Laws/PerInstr.lean ====
section
/-! SUPPORT. The family EncodedLength: the low two bits of an instruction's words say its length (30_encoding R89):
both 1 in a 32-bit word, not both 1 in a 16-bit one. One lemma a format, one a constructor. -/

namespace Sys2Proof.Laws.EncodedLength

open Sys2Proof

/-- The low two bits of an encoding agree with its length. -/
def Agrees : Encoded → Prop
  | .w32 w => w.extractLsb' 0 2 = 3#2
  | .w16 h => h.extractLsb' 0 2 ≠ 3#2

/-- The statement of the family. -/
def Statement (i : Instr) : Prop := Agrees (encode i)

theorem fmtR_agrees (f7 : BitVec 7) (rs2 rs1 : Reg) (f3 : BitVec 3) (rd : Reg) (op : BitVec 7)
    (h : op.extractLsb' 0 2 = 3#2) : Agrees (fmtR f7 rs2 rs1 f3 rd op) := by
  simp (disch := decide) [Agrees, fmtR, BitVec.extractLsb'_or, extract_place, extract_place_below, h]

theorem fmtI_agrees (imm : BitVec 12) (rs1 : Reg) (f3 : BitVec 3) (rd : Reg) (op : BitVec 7)
    (h : op.extractLsb' 0 2 = 3#2) : Agrees (fmtI imm rs1 f3 rd op) := by
  simp (disch := decide) [Agrees, fmtI, BitVec.extractLsb'_or, extract_place, extract_place_below, h]

theorem fmtS_agrees (imm : BitVec 12) (rs2 rs1 : Reg) (f3 : BitVec 3) (op : BitVec 7)
    (h : op.extractLsb' 0 2 = 3#2) : Agrees (fmtS imm rs2 rs1 f3 op) := by
  simp (disch := decide) [Agrees, fmtS, BitVec.extractLsb'_or, extract_place, extract_place_below, h]

theorem fmtB_agrees (imm : BitVec 13) (rs2 rs1 : Reg) (f3 : BitVec 3) (op : BitVec 7)
    (h : op.extractLsb' 0 2 = 3#2) : Agrees (fmtB imm rs2 rs1 f3 op) := by
  simp (disch := decide) [Agrees, fmtB, BitVec.extractLsb'_or, extract_place, extract_place_below, h]

theorem fmtU_agrees (imm : BitVec 20) (rd : Reg) (op : BitVec 7)
    (h : op.extractLsb' 0 2 = 3#2) : Agrees (fmtU imm rd op) := by
  simp (disch := decide) [Agrees, fmtU, BitVec.extractLsb'_or, extract_place, extract_place_below, h]

theorem fmtJ_agrees (imm : BitVec 21) (rd : Reg) (op : BitVec 7)
    (h : op.extractLsb' 0 2 = 3#2) : Agrees (fmtJ imm rd op) := by
  simp (disch := decide) [Agrees, fmtJ, BitVec.extractLsb'_or, extract_place, extract_place_below, h]

theorem fmtA_agrees (f5 : BitVec 5) (aq rl : BitVec 1) (rs2 rs1 rd : Reg) : Agrees (fmtA f5 aq rl rs2 rs1 rd) := by
  simp (disch := decide) [Agrees, fmtA, BitVec.extractLsb'_or, extract_place, extract_place_below]

theorem fmtCIW_agrees (imm : BitVec 10) (rd : CReg) : Agrees (fmtCIW imm rd) := by
  simp (disch := decide) [Agrees, fmtCIW, BitVec.extractLsb'_or, extract_place_below]

theorem fmtCLD_agrees (f3 : BitVec 3) (imm : BitVec 8) (rs1 rd : CReg) : Agrees (fmtCLD f3 imm rs1 rd) := by
  simp (disch := decide) [Agrees, fmtCLD, BitVec.extractLsb'_or, extract_place_below]

theorem fmtCLW_agrees (f3 : BitVec 3) (imm : BitVec 7) (rs1 rd : CReg) : Agrees (fmtCLW f3 imm rs1 rd) := by
  simp (disch := decide) [Agrees, fmtCLW, BitVec.extractLsb'_or, extract_place_below]

theorem fmtCI_agrees (f3 : BitVec 3) (imm : BitVec 6) (rd : Reg) (op : BitVec 2) (h : op ≠ 3#2) :
    Agrees (fmtCI f3 imm rd op) := by
  simp (disch := decide) [Agrees, fmtCI, BitVec.extractLsb'_or, extract_place, extract_place_below, h]

theorem fmtCJ_agrees (f3 : BitVec 3) (imm : BitVec 12) : Agrees (fmtCJ f3 imm) := by
  simp (disch := decide) [Agrees, fmtCJ, BitVec.extractLsb'_or, extract_place, extract_place_below]

theorem fmtAddi16sp_agrees (imm : BitVec 10) : Agrees (fmtAddi16sp imm) := by
  simp (disch := decide) [Agrees, fmtAddi16sp, BitVec.extractLsb'_or, extract_place, extract_place_below]

theorem fmtCLui_agrees (imm : BitVec 18) (rd : Reg) : Agrees (fmtCLui imm rd) := by
  simp (disch := decide) [Agrees, fmtCLui, BitVec.extractLsb'_or, extract_place, extract_place_below]

theorem fmtCBAlu_agrees (sel : BitVec 2) (imm : BitVec 6) (rd : CReg) : Agrees (fmtCBAlu sel imm rd) := by
  simp (disch := decide) [Agrees, fmtCBAlu, BitVec.extractLsb'_or, extract_place, extract_place_below]

theorem fmtCA_agrees (f2 : BitVec 2) (rd rs2 : CReg) : Agrees (fmtCA f2 rd rs2) := by
  simp (disch := decide) [Agrees, fmtCA, BitVec.extractLsb'_or, extract_place, extract_place_below]

theorem fmtCB_agrees (f3 : BitVec 3) (imm : BitVec 9) (rs1 : CReg) : Agrees (fmtCB f3 imm rs1) := by
  simp (disch := decide) [Agrees, fmtCB, BitVec.extractLsb'_or, extract_place, extract_place_below]

theorem fmtFldsp_agrees (imm : BitVec 9) (rd : Reg) : Agrees (fmtFldsp imm rd) := by
  simp (disch := decide) [Agrees, fmtFldsp, BitVec.extractLsb'_or, extract_place, extract_place_below]

theorem fmtLwsp_agrees (f3 : BitVec 3) (imm : BitVec 8) (rd : Reg) : Agrees (fmtLwsp f3 imm rd) := by
  simp (disch := decide) [Agrees, fmtLwsp, BitVec.extractLsb'_or, extract_place, extract_place_below]

theorem fmtFsdsp_agrees (imm : BitVec 9) (rs2 : Reg) : Agrees (fmtFsdsp imm rs2) := by
  simp (disch := decide) [Agrees, fmtFsdsp, BitVec.extractLsb'_or, extract_place, extract_place_below]

theorem fmtSwsp_agrees (f3 : BitVec 3) (imm : BitVec 8) (rs2 : Reg) : Agrees (fmtSwsp f3 imm rs2) := by
  simp (disch := decide) [Agrees, fmtSwsp, BitVec.extractLsb'_or, extract_place, extract_place_below]

theorem fmtCR_agrees (b12 : BitVec 1) (rd rs2 : Reg) : Agrees (fmtCR b12 rd rs2) := by
  simp (disch := decide) [Agrees, fmtCR, BitVec.extractLsb'_or, extract_place, extract_place_below]

theorem lui (rd : Reg) (imm : BitVec 20) : Statement (.lui rd imm) := fmtU_agrees _ _ _ (by decide)
theorem auipc (rd : Reg) (imm : BitVec 20) : Statement (.auipc rd imm) := fmtU_agrees _ _ _ (by decide)
theorem jal (rd : Reg) (imm : BitVec 21) : Statement (.jal rd imm) := fmtJ_agrees _ _ _ (by decide)
theorem jalr (rd rs1 : Reg) (imm : BitVec 12) : Statement (.jalr rd rs1 imm) := fmtI_agrees _ _ _ _ _ (by decide)
theorem beq (rs1 rs2 : Reg) (imm : BitVec 13) : Statement (.beq rs1 rs2 imm) := fmtB_agrees _ _ _ _ _ (by decide)
theorem bne (rs1 rs2 : Reg) (imm : BitVec 13) : Statement (.bne rs1 rs2 imm) := fmtB_agrees _ _ _ _ _ (by decide)
theorem blt (rs1 rs2 : Reg) (imm : BitVec 13) : Statement (.blt rs1 rs2 imm) := fmtB_agrees _ _ _ _ _ (by decide)
theorem bge (rs1 rs2 : Reg) (imm : BitVec 13) : Statement (.bge rs1 rs2 imm) := fmtB_agrees _ _ _ _ _ (by decide)
theorem bltu (rs1 rs2 : Reg) (imm : BitVec 13) : Statement (.bltu rs1 rs2 imm) := fmtB_agrees _ _ _ _ _ (by decide)
theorem bgeu (rs1 rs2 : Reg) (imm : BitVec 13) : Statement (.bgeu rs1 rs2 imm) := fmtB_agrees _ _ _ _ _ (by decide)
theorem lb (rd rs1 : Reg) (imm : BitVec 12) : Statement (.lb rd rs1 imm) := fmtI_agrees _ _ _ _ _ (by decide)
theorem lh (rd rs1 : Reg) (imm : BitVec 12) : Statement (.lh rd rs1 imm) := fmtI_agrees _ _ _ _ _ (by decide)
theorem lw (rd rs1 : Reg) (imm : BitVec 12) : Statement (.lw rd rs1 imm) := fmtI_agrees _ _ _ _ _ (by decide)
theorem lbu (rd rs1 : Reg) (imm : BitVec 12) : Statement (.lbu rd rs1 imm) := fmtI_agrees _ _ _ _ _ (by decide)
theorem lhu (rd rs1 : Reg) (imm : BitVec 12) : Statement (.lhu rd rs1 imm) := fmtI_agrees _ _ _ _ _ (by decide)
theorem sb (rs1 rs2 : Reg) (imm : BitVec 12) : Statement (.sb rs1 rs2 imm) := fmtS_agrees _ _ _ _ _ (by decide)
theorem sh (rs1 rs2 : Reg) (imm : BitVec 12) : Statement (.sh rs1 rs2 imm) := fmtS_agrees _ _ _ _ _ (by decide)
theorem sw (rs1 rs2 : Reg) (imm : BitVec 12) : Statement (.sw rs1 rs2 imm) := fmtS_agrees _ _ _ _ _ (by decide)
theorem addi (rd rs1 : Reg) (imm : BitVec 12) : Statement (.addi rd rs1 imm) := fmtI_agrees _ _ _ _ _ (by decide)
theorem slti (rd rs1 : Reg) (imm : BitVec 12) : Statement (.slti rd rs1 imm) := fmtI_agrees _ _ _ _ _ (by decide)
theorem sltiu (rd rs1 : Reg) (imm : BitVec 12) : Statement (.sltiu rd rs1 imm) := fmtI_agrees _ _ _ _ _ (by decide)
theorem xori (rd rs1 : Reg) (imm : BitVec 12) : Statement (.xori rd rs1 imm) := fmtI_agrees _ _ _ _ _ (by decide)
theorem ori (rd rs1 : Reg) (imm : BitVec 12) : Statement (.ori rd rs1 imm) := fmtI_agrees _ _ _ _ _ (by decide)
theorem andi (rd rs1 : Reg) (imm : BitVec 12) : Statement (.andi rd rs1 imm) := fmtI_agrees _ _ _ _ _ (by decide)
theorem slli (rd rs1 : Reg) (shamt : BitVec 5) : Statement (.slli rd rs1 shamt) := fmtR_agrees _ _ _ _ _ _ (by decide)
theorem srli (rd rs1 : Reg) (shamt : BitVec 5) : Statement (.srli rd rs1 shamt) := fmtR_agrees _ _ _ _ _ _ (by decide)
theorem srai (rd rs1 : Reg) (shamt : BitVec 5) : Statement (.srai rd rs1 shamt) := fmtR_agrees _ _ _ _ _ _ (by decide)
theorem add (rd rs1 rs2 : Reg) : Statement (.add rd rs1 rs2) := fmtR_agrees _ _ _ _ _ _ (by decide)
theorem sub (rd rs1 rs2 : Reg) : Statement (.sub rd rs1 rs2) := fmtR_agrees _ _ _ _ _ _ (by decide)
theorem sll (rd rs1 rs2 : Reg) : Statement (.sll rd rs1 rs2) := fmtR_agrees _ _ _ _ _ _ (by decide)
theorem slt (rd rs1 rs2 : Reg) : Statement (.slt rd rs1 rs2) := fmtR_agrees _ _ _ _ _ _ (by decide)
theorem sltu (rd rs1 rs2 : Reg) : Statement (.sltu rd rs1 rs2) := fmtR_agrees _ _ _ _ _ _ (by decide)
theorem xor (rd rs1 rs2 : Reg) : Statement (.xor rd rs1 rs2) := fmtR_agrees _ _ _ _ _ _ (by decide)
theorem srl (rd rs1 rs2 : Reg) : Statement (.srl rd rs1 rs2) := fmtR_agrees _ _ _ _ _ _ (by decide)
theorem sra (rd rs1 rs2 : Reg) : Statement (.sra rd rs1 rs2) := fmtR_agrees _ _ _ _ _ _ (by decide)
theorem or (rd rs1 rs2 : Reg) : Statement (.or rd rs1 rs2) := fmtR_agrees _ _ _ _ _ _ (by decide)
theorem and (rd rs1 rs2 : Reg) : Statement (.and rd rs1 rs2) := fmtR_agrees _ _ _ _ _ _ (by decide)
theorem fence (fm pred succ : BitVec 4) (rs1 rd : Reg) : Statement (.fence fm pred succ rs1 rd) := by
  simp (disch := decide) [Statement, encode, Agrees, BitVec.extractLsb'_or, extract_place, extract_place_below]
theorem fenceI (imm : BitVec 12) (rs1 rd : Reg) : Statement (.fenceI imm rs1 rd) := fmtI_agrees _ _ _ _ _ (by decide)
theorem mul (rd rs1 rs2 : Reg) : Statement (.mul rd rs1 rs2) := fmtR_agrees _ _ _ _ _ _ (by decide)
theorem mulh (rd rs1 rs2 : Reg) : Statement (.mulh rd rs1 rs2) := fmtR_agrees _ _ _ _ _ _ (by decide)
theorem mulhsu (rd rs1 rs2 : Reg) : Statement (.mulhsu rd rs1 rs2) := fmtR_agrees _ _ _ _ _ _ (by decide)
theorem mulhu (rd rs1 rs2 : Reg) : Statement (.mulhu rd rs1 rs2) := fmtR_agrees _ _ _ _ _ _ (by decide)
theorem div (rd rs1 rs2 : Reg) : Statement (.div rd rs1 rs2) := fmtR_agrees _ _ _ _ _ _ (by decide)
theorem divu (rd rs1 rs2 : Reg) : Statement (.divu rd rs1 rs2) := fmtR_agrees _ _ _ _ _ _ (by decide)
theorem rem (rd rs1 rs2 : Reg) : Statement (.rem rd rs1 rs2) := fmtR_agrees _ _ _ _ _ _ (by decide)
theorem remu (rd rs1 rs2 : Reg) : Statement (.remu rd rs1 rs2) := fmtR_agrees _ _ _ _ _ _ (by decide)
theorem lrW (rd rs1 : Reg) (aq rl : BitVec 1) : Statement (.lrW rd rs1 aq rl) := fmtA_agrees _ _ _ _ _ _
theorem scW (rd rs1 rs2 : Reg) (aq rl : BitVec 1) : Statement (.scW rd rs1 rs2 aq rl) := fmtA_agrees _ _ _ _ _ _
theorem amoswapW (rd rs1 rs2 : Reg) (aq rl : BitVec 1) : Statement (.amoswapW rd rs1 rs2 aq rl) :=
  fmtA_agrees _ _ _ _ _ _
theorem amoaddW (rd rs1 rs2 : Reg) (aq rl : BitVec 1) : Statement (.amoaddW rd rs1 rs2 aq rl) :=
  fmtA_agrees _ _ _ _ _ _
theorem amoxorW (rd rs1 rs2 : Reg) (aq rl : BitVec 1) : Statement (.amoxorW rd rs1 rs2 aq rl) :=
  fmtA_agrees _ _ _ _ _ _
theorem amoandW (rd rs1 rs2 : Reg) (aq rl : BitVec 1) : Statement (.amoandW rd rs1 rs2 aq rl) :=
  fmtA_agrees _ _ _ _ _ _
theorem amoorW (rd rs1 rs2 : Reg) (aq rl : BitVec 1) : Statement (.amoorW rd rs1 rs2 aq rl) := fmtA_agrees _ _ _ _ _ _
theorem amominW (rd rs1 rs2 : Reg) (aq rl : BitVec 1) : Statement (.amominW rd rs1 rs2 aq rl) :=
  fmtA_agrees _ _ _ _ _ _
theorem amomaxW (rd rs1 rs2 : Reg) (aq rl : BitVec 1) : Statement (.amomaxW rd rs1 rs2 aq rl) :=
  fmtA_agrees _ _ _ _ _ _
theorem amominuW (rd rs1 rs2 : Reg) (aq rl : BitVec 1) : Statement (.amominuW rd rs1 rs2 aq rl) :=
  fmtA_agrees _ _ _ _ _ _
theorem amomaxuW (rd rs1 rs2 : Reg) (aq rl : BitVec 1) : Statement (.amomaxuW rd rs1 rs2 aq rl) :=
  fmtA_agrees _ _ _ _ _ _
theorem ecall : Statement .ecall := fmtI_agrees _ _ _ _ _ (by decide)
theorem ebreak : Statement .ebreak := fmtI_agrees _ _ _ _ _ (by decide)
theorem mret : Statement .mret := fmtI_agrees _ _ _ _ _ (by decide)
theorem wfi : Statement .wfi := fmtI_agrees _ _ _ _ _ (by decide)
theorem csrrw (rd rs1 : Reg) (csr : BitVec 12) : Statement (.csrrw rd rs1 csr) := fmtI_agrees _ _ _ _ _ (by decide)
theorem csrrs (rd rs1 : Reg) (csr : BitVec 12) : Statement (.csrrs rd rs1 csr) := fmtI_agrees _ _ _ _ _ (by decide)
theorem csrrc (rd rs1 : Reg) (csr : BitVec 12) : Statement (.csrrc rd rs1 csr) := fmtI_agrees _ _ _ _ _ (by decide)
theorem csrrwi (rd : Reg) (uimm : BitVec 5) (csr : BitVec 12) : Statement (.csrrwi rd uimm csr) :=
  fmtI_agrees _ _ _ _ _ (by decide)
theorem csrrsi (rd : Reg) (uimm : BitVec 5) (csr : BitVec 12) : Statement (.csrrsi rd uimm csr) :=
  fmtI_agrees _ _ _ _ _ (by decide)
theorem csrrci (rd : Reg) (uimm : BitVec 5) (csr : BitVec 12) : Statement (.csrrci rd uimm csr) :=
  fmtI_agrees _ _ _ _ _ (by decide)
theorem cAddi4spn (rd : CReg) (imm : BitVec 10) : Statement (.cAddi4spn rd imm) := fmtCIW_agrees _ _
theorem cFld (rd rs1 : CReg) (imm : BitVec 8) : Statement (.cFld rd rs1 imm) := fmtCLD_agrees _ _ _ _
theorem cLw (rd rs1 : CReg) (imm : BitVec 7) : Statement (.cLw rd rs1 imm) := fmtCLW_agrees _ _ _ _
theorem cFlw (rd rs1 : CReg) (imm : BitVec 7) : Statement (.cFlw rd rs1 imm) := fmtCLW_agrees _ _ _ _
theorem cFsd (rs2 rs1 : CReg) (imm : BitVec 8) : Statement (.cFsd rs2 rs1 imm) := fmtCLD_agrees _ _ _ _
theorem cSw (rs2 rs1 : CReg) (imm : BitVec 7) : Statement (.cSw rs2 rs1 imm) := fmtCLW_agrees _ _ _ _
theorem cFsw (rs2 rs1 : CReg) (imm : BitVec 7) : Statement (.cFsw rs2 rs1 imm) := fmtCLW_agrees _ _ _ _
theorem cNop (imm : BitVec 6) : Statement (.cNop imm) := fmtCI_agrees _ _ _ _ (by decide)
theorem cAddi (rd : Reg) (imm : BitVec 6) : Statement (.cAddi rd imm) := fmtCI_agrees _ _ _ _ (by decide)
theorem cJal (imm : BitVec 12) : Statement (.cJal imm) := fmtCJ_agrees _ _
theorem cLi (rd : Reg) (imm : BitVec 6) : Statement (.cLi rd imm) := fmtCI_agrees _ _ _ _ (by decide)
theorem cAddi16sp (imm : BitVec 10) : Statement (.cAddi16sp imm) := fmtAddi16sp_agrees _
theorem cLui (rd : Reg) (imm : BitVec 18) : Statement (.cLui rd imm) := fmtCLui_agrees _ _
theorem cSrli (rd : CReg) (shamt : BitVec 5) : Statement (.cSrli rd shamt) := fmtCBAlu_agrees _ _ _
theorem cSrai (rd : CReg) (shamt : BitVec 5) : Statement (.cSrai rd shamt) := fmtCBAlu_agrees _ _ _
theorem cAndi (rd : CReg) (imm : BitVec 6) : Statement (.cAndi rd imm) := fmtCBAlu_agrees _ _ _
theorem cSub (rd rs2 : CReg) : Statement (.cSub rd rs2) := fmtCA_agrees _ _ _
theorem cXor (rd rs2 : CReg) : Statement (.cXor rd rs2) := fmtCA_agrees _ _ _
theorem cOr (rd rs2 : CReg) : Statement (.cOr rd rs2) := fmtCA_agrees _ _ _
theorem cAnd (rd rs2 : CReg) : Statement (.cAnd rd rs2) := fmtCA_agrees _ _ _
theorem cJ (imm : BitVec 12) : Statement (.cJ imm) := fmtCJ_agrees _ _
theorem cBeqz (rs1 : CReg) (imm : BitVec 9) : Statement (.cBeqz rs1 imm) := fmtCB_agrees _ _ _
theorem cBnez (rs1 : CReg) (imm : BitVec 9) : Statement (.cBnez rs1 imm) := fmtCB_agrees _ _ _
theorem cSlli (rd : Reg) (shamt : BitVec 5) : Statement (.cSlli rd shamt) := fmtCI_agrees _ _ _ _ (by decide)
theorem cFldsp (rd : Reg) (imm : BitVec 9) : Statement (.cFldsp rd imm) := fmtFldsp_agrees _ _
theorem cLwsp (rd : Reg) (imm : BitVec 8) : Statement (.cLwsp rd imm) := fmtLwsp_agrees _ _ _
theorem cFlwsp (rd : Reg) (imm : BitVec 8) : Statement (.cFlwsp rd imm) := fmtLwsp_agrees _ _ _
theorem cJr (rs1 : Reg) : Statement (.cJr rs1) := fmtCR_agrees _ _ _
theorem cMv (rd rs2 : Reg) : Statement (.cMv rd rs2) := fmtCR_agrees _ _ _
theorem cEbreak : Statement .cEbreak := fmtCR_agrees _ _ _
theorem cJalr (rs1 : Reg) : Statement (.cJalr rs1) := fmtCR_agrees _ _ _
theorem cAdd (rd rs2 : Reg) : Statement (.cAdd rd rs2) := fmtCR_agrees _ _ _
theorem cFsdsp (rs2 : Reg) (imm : BitVec 9) : Statement (.cFsdsp rs2 imm) := fmtFsdsp_agrees _ _
theorem cSwsp (rs2 : Reg) (imm : BitVec 8) : Statement (.cSwsp rs2 imm) := fmtSwsp_agrees _ _ _
theorem cFswsp (rs2 : Reg) (imm : BitVec 8) : Statement (.cFswsp rs2 imm) := fmtSwsp_agrees _ _ _

end Sys2Proof.Laws.EncodedLength
end

