-- ==== Sys2Proof/Laws/Schedule.lean ====
section
/-! SUPPORT. One inversion of step (60_exceptions R244), and what a fetch, a check point and a frame end change. -/

namespace Sys2Proof.Machine

open Sys2Proof

variable {s t : State}

theorem fetch_access (s : State) : AccessFrame s (fetch s).2 := memRead_access _ _ _

theorem fetch_inv (h : AccessInv s) : AccessInv (fetch s).2 := memRead_inv _ _ h

/-- A fetch in guest memory: the four bytes at the pc, and no change of state but what the capture agent does
meanwhile. -/
theorem fetch_guest (h : InGuest s.pc) : CaptureFrame s (fetch s).2 ∧ MayRead s s.pc 4 (fetch s).1 :=
  memRead_guest h .word s

theorem countStep_next {r : Result} (h : countStep r = .next t) :
    ∃ u, r = .next u ∧ t = { u with sched := { u.sched with stepsLeft := u.sched.stepsLeft - 1 } } := by
  cases r with
  | next u => cases h; exact ⟨u, rfl, rfl⟩
  | fault f => cases h
  | refused e => cases h

/-- A step of the hart runs the decoded instruction, or does what an unmatched word does. -/
theorem hartStep_next (h : hartStep s = .next t) :
    ∃ u, ((∃ i, decode (fetch s).1 = .ok i ∧ exec i (fetch s).2 = .next u) ∨
        ((∃ e, decode (fetch s).1 = .error e) ∧
          u = (fetch s).2.retire (BitVec.ofNat 32 (fetchLength (fetch s).1)))) ∧
      t = { u with sched := { u.sched with stepsLeft := u.sched.stepsLeft - 1 } } := by
  unfold hartStep at h
  cases hd : decode (fetch s).1 with
  | ok i =>
    rw [hd] at h
    obtain ⟨u, hu, rfl⟩ := countStep_next h
    exact ⟨u, .inl ⟨i, rfl, hu⟩, rfl⟩
  | error e =>
    rw [hd] at h
    obtain ⟨u, hu, rfl⟩ := countStep_next h
    exact ⟨u, .inr ⟨⟨e, rfl⟩, unmatched_next hu⟩, rfl⟩

/-- A step that answers a next state is a step of the hart or a check point. -/
theorem step_next (h : step s = .next t) :
    (HartNext s ∧ hartStep s = .next t) ∨ (CheckNext s ∧ t = checkPoint s) := by
  unfold step at h
  split at h
  · cases h
  · next he =>
    split at h
    · cases h
    · next hc =>
      split at h
      · next h0 => cases h; exact .inr ⟨⟨by simpa using he, by simpa using hc, h0⟩, rfl⟩
      · next h0 => exact .inl ⟨⟨by simpa using he, by simpa using hc, Nat.pos_of_ne_zero h0⟩, h⟩

theorem step_of_hartNext (h : HartNext s) : step s = hartStep s := by
  simp [step, h.1, h.2.1, Nat.pos_iff_ne_zero.1 h.2.2]

theorem step_of_checkNext (h : CheckNext s) : step s = .next (checkPoint s) := by
  simp [step, h.1, h.2.1, h.2.2]

/-! ## The check point -/

/-- What the check of the timer leaves as it was. -/
structure TimerFrame (s t : State) : Prop where
  regs : t.regs = s.regs
  fregs : t.fregs = s.fregs
  mode : t.mode = s.mode
  exitFlag : t.exitFlag = s.exitFlag
  mreserved : t.mreserved = s.mreserved
  mem : t.mem = s.mem
  mtimecmp : t.mtimecmp = s.mtimecmp
  dev : t.dev = s.dev
  sched : t.sched = s.sched
  params : t.params = s.params
  sent : t.sent = s.sent

theorem timerCheck_frame (s : State) : TimerFrame s (timerCheck s) := by
  simp only [timerCheck]
  split
  · rw [takeInterrupt_frame]; exact ⟨rfl, rfl, rfl, rfl, rfl, rfl, rfl, rfl, rfl, rfl, rfl⟩
  · exact ⟨rfl, rfl, rfl, rfl, rfl, rfl, rfl, rfl, rfl, rfl, rfl⟩

/-- The sample of the check. -/
theorem timerCheck_clock (s : State) :
    (timerCheck s).mtimecur = sampleClock s ∧ (timerCheck s).clockSeen = sampleClock s := by
  simp only [timerCheck]
  split
  · rw [takeInterrupt_frame]; exact ⟨rfl, rfl⟩
  · exact ⟨rfl, rfl⟩

/-- The CSRs and the pc after the check: those of the interrupt, where it is enabled and due. -/
theorem timerCheck_trap (s : State) :
    ((s.interruptEnabled timerSource && s.mtimecmp.ule (sampleClock s)) = true →
      (timerCheck s).csrs = (takeInterrupt timerSource s).csrs ∧ (timerCheck s).pc = (takeInterrupt timerSource s).pc) ∧
    ((s.interruptEnabled timerSource && s.mtimecmp.ule (sampleClock s)) = false →
      (timerCheck s).csrs = s.csrs ∧ (timerCheck s).pc = s.pc) := by
  have he : ({ afterSample s with mtimecur := sampleClock s } : State).interruptEnabled timerSource =
      s.interruptEnabled timerSource := rfl
  simp only [timerCheck, he]
  constructor
  · intro h
    have hen : s.interruptEnabled timerSource = true := (Bool.and_eq_true_iff.1 h).1
    have h' : (s.interruptEnabled timerSource && (afterSample s).mtimecmp.ule (sampleClock s)) = true := h
    rw [if_pos h']
    simp only [takeInterrupt, he, hen, if_true]
    exact ⟨rfl, rfl⟩
  · intro h
    have h' : ¬ (s.interruptEnabled timerSource && (afterSample s).mtimecmp.ule (sampleClock s)) = true :=
      fun hh => Bool.false_ne_true (h.symm.trans hh)
    rw [if_neg h']
    exact ⟨rfl, rfl⟩

/-! ## The frame end -/

/-- What the frame end leaves as it was (60_exceptions R245). -/
structure FrameEndFrame (s t : State) : Prop where
  regs : t.regs = s.regs
  fregs : t.fregs = s.fregs
  pc : t.pc = s.pc
  mode : t.mode = s.mode
  exitFlag : t.exitFlag = s.exitFlag
  csrs : t.csrs = s.csrs
  mreserved : t.mreserved = s.mreserved
  mtimecur : t.mtimecur = s.mtimecur
  mtimecmp : t.mtimecmp = s.mtimecmp
  clockSeen : t.clockSeen = s.clockSeen
  params : t.params = s.params
  sent : t.sent = s.sent
  display : t.dev.display = s.dev.display
  cpuFreq : t.dev.cpuFreq = s.dev.cpuFreq
  disk : t.dev.disk = s.dev.disk
  diskPos : t.dev.diskPos = s.dev.diskPos

theorem FrameEndFrame.refl (s : State) : FrameEndFrame s s :=
  ⟨rfl, rfl, rfl, rfl, rfl, rfl, rfl, rfl, rfl, rfl, rfl, rfl, rfl, rfl, rfl, rfl⟩

theorem FrameEndFrame.trans {u : State} (h : FrameEndFrame s t) (h' : FrameEndFrame t u) : FrameEndFrame s u :=
  ⟨h'.regs.trans h.regs, h'.fregs.trans h.fregs, h'.pc.trans h.pc, h'.mode.trans h.mode,
    h'.exitFlag.trans h.exitFlag, h'.csrs.trans h.csrs, h'.mreserved.trans h.mreserved,
    h'.mtimecur.trans h.mtimecur, h'.mtimecmp.trans h.mtimecmp, h'.clockSeen.trans h.clockSeen,
    h'.params.trans h.params, h'.sent.trans h.sent, h'.display.trans h.display, h'.cpuFreq.trans h.cpuFreq,
    h'.disk.trans h.disk, h'.diskPos.trans h.diskPos⟩

theorem CaptureFrame.frameEnd (h : CaptureFrame s t) : FrameEndFrame s t := by
  rw [h.rest]
  exact ⟨rfl, rfl, rfl, rfl, rfl, rfl, rfl, rfl, rfl, rfl, rfl, rfl, rfl, rfl, rfl, rfl⟩

theorem frameSleep_frame (s : State) : FrameEndFrame s (frameSleep s) := by
  unfold frameSleep
  split
  · have h1 : FrameEndFrame s { s with dev := { s.dev with audioOwner := .free } } :=
      ⟨rfl, rfl, rfl, rfl, rfl, rfl, rfl, rfl, rfl, rfl, rfl, rfl, rfl, rfl, rfl, rfl⟩
    have h2 := (h1.trans (captureInstant_frame _).frameEnd).trans (finishCapture_frame _).frameEnd
    exact h2.trans ⟨rfl, rfl, rfl, rfl, rfl, rfl, rfl, rfl, rfl, rfl, rfl, rfl, rfl, rfl, rfl, rfl⟩
  · exact (captureInstant_frame s).frameEnd

/-- Nothing of the frame end changes a register, a CSR, the pc or the reservation (R245). -/
theorem frameEnd_frame (s : State) : FrameEndFrame s (frameEnd s) := by
  have h1 : FrameEndFrame s (audioPump s) :=
    ⟨rfl, rfl, rfl, rfl, rfl, rfl, rfl, rfl, rfl, rfl, rfl, rfl, rfl, rfl, rfl, rfl⟩
  exact (h1.trans (frameSleep_frame _)).trans
    ⟨rfl, rfl, rfl, rfl, rfl, rfl, rfl, rfl, rfl, rfl, rfl, rfl, rfl, rfl, rfl, rfl⟩

/-- The release and the retaking of the mutex around the sleep keep what an access keeps. -/
theorem frameSleep_inv (h : AccessInv s) : AccessInv (frameSleep s) := by
  unfold frameSleep
  split
  · next ho =>
    have hp : PendingInv { s with dev := { s.dev with audioOwner := .free } } := fun _ => h.pending (by simp [ho])
    have hr : RingInv { s with dev := { s.dev with audioOwner := .free } } := h.ring
    have hm : MemInv { s with dev := { s.dev with audioOwner := .free } } := h.mem
    have hf : CaptureFrame { s with dev := { s.dev with audioOwner := .free } }
        (finishCapture (captureInstant { s with dev := { s.dev with audioOwner := .free } })) :=
      (captureInstant_frame _).trans (finishCapture_frame _)
    have hd := finishCapture_done (captureInstant_pendingInv hp)
    have hm' := finishCapture_memInv (captureInstant_memInv hm)
    have hr' := finishCapture_ringInv (captureInstant_ringInv hr)
    generalize finishCapture (captureInstant { s with dev := { s.dev with audioOwner := .free } }) = u at hf hd hm' hr'
    have hc : u.dev.cpuFreq = s.dev.cpuFreq ∧ u.dev.disk = s.dev.disk ∧ u.params = s.params := by
      rw [hf.rest]; exact ⟨rfl, rfl, rfl⟩
    have h6 : u.dev.audioIn[6] = s.dev.audioIn[6] :=
      hf.regs 6 (by decide) (by decide) (by decide) (by decide)
    refine ⟨hm', ?_, ?_, fun _ => hd.2, ?_, hr'⟩
    · simp only [hc.1, hc.2.2]; exact h.freq
    · simp only [h6]; exact ⟨fun _ => h.lock.1 ho, fun _ => trivial⟩
    · simp only [hc.2.1]; exact h.disk
  · exact captureInstant_inv h

theorem frameEnd_inv (h : AccessInv s) : AccessInv (frameEnd s) := by
  have h1 : AccessInv (audioPump s) := ⟨h.mem, h.freq, h.lock, h.pending, h.disk, h.ring⟩
  exact (frameSleep_inv h1).congr rfl rfl rfl

end Sys2Proof.Machine
end

