-- ==== Sys2Proof/Laws/Select.lean ====
section
/-! SUPPORT. Which device register an address selects under a map that meets the constraints of 20_memory R69: each
scalar at its own address, each block register at the four addresses of its word (R67). -/

namespace Sys2Proof.Machine

open Sys2Proof

/-- The first register of a table at an address: the chain of selectScalar, as a list. -/
def pick (a : Word) : List (Word × DevReg) → Option DevReg
  | [] => none
  | c :: rest => if a = c.1 then some c.2 else pick a rest

/-- The scalar registers with their addresses, in the order of R69. -/
def scalarTable (m : DevMap) : List (Word × DevReg) :=
  (scalarAddresses m).zip [.stdio, .stderr, .getch, .kbhit, .consoleClear, .consoleGoto, .sleep, .mouseXy, .mouseBtn,
    .mtimecurL, .mtimecurH, .mtimecmpL, .mtimecmpH, .realtime, .diskSectorNum, .diskSectorSize, .diskSectorIdx,
    .diskSectorDat, .cpuFreq]

variable {m : DevMap} {a : Word}

theorem selectScalar_eq_pick (m : DevMap) (a : Word) : selectScalar m a = pick a (scalarTable m) := rfl

theorem pick_of_mem {l : List (Word × DevReg)} {r : DevReg}
    (hd : pairwiseB (fun x y => x != y) (l.map Prod.fst) = true) (hm : (a, r) ∈ l) : pick a l = some r := by
  induction l with
  | nil => cases hm
  | cons c rest ih =>
    simp only [List.map_cons, pairwiseB, Bool.and_eq_true, List.all_eq_true, bne_iff_ne] at hd
    rcases List.mem_cons.1 hm with rfl | hm
    · exact if_pos rfl
    · have hne : ¬ a = c.1 := fun he => hd.1 a (List.mem_map.2 ⟨(a, r), hm, rfl⟩) he.symm
      rw [pick, if_neg hne, ih hd.2 hm]

theorem pick_of_not_mem {l : List (Word × DevReg)} (h : a ∉ l.map Prod.fst) : pick a l = none := by
  induction l with
  | nil => rfl
  | cons c rest ih =>
    rw [List.map_cons, List.mem_cons, not_or] at h
    rw [pick, if_neg h.1, ih h.2]

/-- The constraints of R69, taken apart. -/
theorem devMapWf_parts (h : devMapWf m = true) :
    ((∀ a ∈ scalarAddresses m, deviceBase.toNat ≤ a.toNat) ∧
      (∀ b ∈ blocks m, deviceBase.toNat ≤ b.1.toNat ∧ b.1.toNat + 4 * b.2 ≤ 2 ^ 32)) ∧
    pairwiseB (fun a b => a != b) (scalarAddresses m) = true ∧
    (∀ a ∈ scalarAddresses m, ∀ b ∈ blocks m, inBlock b.1 b.2 a = false) ∧
    pairwiseB blocksApart (blocks m) = true := by
  simp only [devMapWf, Bool.and_eq_true, List.all_eq_true, decide_eq_true_eq, Bool.not_eq_true'] at h
  exact ⟨⟨h.1.1.1.1, h.1.1.1.2⟩, h.1.1.2, h.1.2, h.2⟩

/-- Every scalar register is selected at its address. -/
theorem select_scalar (h : devMapWf m = true) {r : DevReg} (hr : (a, r) ∈ scalarTable m) : select m a = some r := by
  rw [select, selectScalar_eq_pick, pick_of_mem (l := scalarTable m) (devMapWf_parts h).2.1 hr]

/-- An address in a block is no scalar's. -/
theorem selectScalar_of_inBlock (h : devMapWf m = true) {b : Word × Nat} (hb : b ∈ blocks m)
    (ha : inBlock b.1 b.2 a = true) : selectScalar m a = none := by
  refine (selectScalar_eq_pick m a).trans (pick_of_not_mem fun hm => ?_)
  have := (devMapWf_parts h).2.2.1 a hm b hb
  rw [ha] at this
  cases this

theorem inBlock_iff {base : Word} {k : Nat} :
    inBlock base k a = true ↔ base.toNat ≤ a.toNat ∧ a.toNat < base.toNat + 4 * k := by simp [inBlock]

theorem blockIndex_of_in {base : Word} {k : Nat} (i : Fin k) (h1 : base.toNat + 4 * i.val ≤ a.toNat)
    (h2 : a.toNat < base.toNat + 4 * i.val + 4) : blockIndex base k a = some i := by
  have hi := i.isLt
  have hin : base.toNat ≤ a.toNat ∧ a.toNat < base.toNat + 4 * k := by omega
  rw [blockIndex, dif_pos hin]
  congr 1
  exact Fin.ext (by simp only; omega)

theorem blockIndex_of_out {base : Word} {k : Nat} (h : inBlock base k a = false) : blockIndex base k a = none := by
  refine dif_neg fun hin => ?_
  rw [inBlock_iff.2 hin] at h
  cases h

/-- No address lies in two blocks. -/
theorem blocks_apart (h : devMapWf m = true) :
    ∀ a : Word,
      (inBlock m.displayBase 8 a = true → inBlock m.keybdBase 4 a = false) ∧
      (inBlock m.audioOutBase 7 a = true → inBlock m.keybdBase 4 a = false ∧ inBlock m.displayBase 8 a = false) ∧
      (inBlock m.audioInBase 7 a = true →
        inBlock m.keybdBase 4 a = false ∧ inBlock m.displayBase 8 a = false ∧ inBlock m.audioOutBase 7 a = false) := by
  intro a
  have hp := (devMapWf_parts h).2.2.2
  simp only [blocks, pairwiseB, List.all_cons, List.all_nil, Bool.and_true, Bool.and_eq_true, blocksApart,
    Bool.or_eq_true, decide_eq_true_eq] at hp
  simp only [inBlock, Bool.and_eq_true, decide_eq_true_eq, Bool.and_eq_false_iff, decide_eq_false_iff_not]
  omega

/-- The four addresses of register `i` of a block select it. -/
theorem select_keybd (h : devMapWf m = true) (i : Fin 4) (h1 : m.keybdBase.toNat + 4 * i.val ≤ a.toNat)
    (h2 : a.toNat < m.keybdBase.toNat + 4 * i.val + 4) : select m a = some (.keybd i) := by
  have hi := i.isLt
  have hin : inBlock m.keybdBase 4 a = true := inBlock_iff.2 (by omega)
  rw [select, selectScalar_of_inBlock h (b := (m.keybdBase, 4)) (by simp [blocks]) hin, blockIndex_of_in i h1 h2]

theorem select_display (h : devMapWf m = true) (i : Fin 8) (h1 : m.displayBase.toNat + 4 * i.val ≤ a.toNat)
    (h2 : a.toNat < m.displayBase.toNat + 4 * i.val + 4) : select m a = some (.display i) := by
  have hi := i.isLt
  have hin : inBlock m.displayBase 8 a = true := inBlock_iff.2 (by omega)
  rw [select, selectScalar_of_inBlock h (b := (m.displayBase, 8)) (by simp [blocks]) hin,
    blockIndex_of_out ((blocks_apart h a).1 hin), blockIndex_of_in i h1 h2]

theorem select_audioOut (h : devMapWf m = true) (i : Fin 7) (h1 : m.audioOutBase.toNat + 4 * i.val ≤ a.toNat)
    (h2 : a.toNat < m.audioOutBase.toNat + 4 * i.val + 4) : select m a = some (.audioOut i) := by
  have hi := i.isLt
  have hin : inBlock m.audioOutBase 7 a = true := inBlock_iff.2 (by omega)
  have ho := (blocks_apart h a).2.1 hin
  rw [select, selectScalar_of_inBlock h (b := (m.audioOutBase, 7)) (by simp [blocks]) hin,
    blockIndex_of_out ho.1, blockIndex_of_out ho.2, blockIndex_of_in i h1 h2]

theorem select_audioIn (h : devMapWf m = true) (i : Fin 7) (h1 : m.audioInBase.toNat + 4 * i.val ≤ a.toNat)
    (h2 : a.toNat < m.audioInBase.toNat + 4 * i.val + 4) : select m a = some (.audioIn i) := by
  have hi := i.isLt
  have hin : inBlock m.audioInBase 7 a = true := inBlock_iff.2 (by omega)
  have ho := (blocks_apart h a).2.2 hin
  rw [select, selectScalar_of_inBlock h (b := (m.audioInBase, 7)) (by simp [blocks]) hin,
    blockIndex_of_out ho.1, blockIndex_of_out ho.2.1, blockIndex_of_out ho.2.2, blockIndex_of_in i h1 h2]

/-- Every address of the map lies in the device window. -/
theorem scalar_in_window (h : devMapWf m = true) (ha : a ∈ scalarAddresses m) : deviceBase.toNat ≤ a.toNat :=
  (devMapWf_parts h).1.1 a ha

/-- A word access at a scalar register's address is dispatched to it. -/
theorem selects_scalar {p : Params} (h : devMapWf p.devAddr = true) {r : DevReg}
    (hr : (a, r) ∈ scalarTable p.devAddr) : (!(a.ult deviceBase)) = true ∧ select p.devAddr a = some r := by
  refine ⟨?_, select_scalar h hr⟩
  have := scalar_in_window h (List.of_mem_zip hr).1
  simp only [Bool.not_eq_true', BitVec.ult, decide_eq_false_iff_not]
  omega

/-- The launch's map meets the constraints of R69 whatever Config.devAddr is. -/
theorem launchDevMap_wf : devMapWf launchDevMap = true := by
  unfold launchDevMap
  split
  · assumption
  · decide

end Sys2Proof.Machine
end

