-- ==== Sys2Proof/Tests/Slice0.lean ====
section
/-! SUPPORT. Tests of one step or one operation each, with the expected values of 95_test_vectors, and, for every
statement of Certificates/Slice0/Obligations.lean that has hypotheses, states and operands that meet them. -/

namespace Sys2Proof.Tests

open Sys2Proof Sys2Proof.Machine

/-! ## Well-formedness: one ill-formed term for each check -/

theorem test_wf_refuses_odd_offsets :
    (Instr.jal 1#5 9#21).wf = false ∧ (Instr.beq 6#5 7#5 1#13).wf = false ∧ (Instr.bne 6#5 7#5 1#13).wf = false ∧
    (Instr.blt 6#5 7#5 3#13).wf = false ∧ (Instr.bge 6#5 7#5 1#13).wf = false ∧
    (Instr.bltu 6#5 7#5 1#13).wf = false ∧ (Instr.bgeu 6#5 7#5 0x1FFF#13).wf = false ∧
    (Instr.cJal 1#12).wf = false ∧ (Instr.cJ 1#12).wf = false ∧ (Instr.cBeqz 0#3 1#9).wf = false ∧
    (Instr.cBnez 0#3 1#9).wf = false := by decide

theorem test_wf_refuses_unscaled_offsets :
    (Instr.cAddi4spn 0#3 2#10).wf = false ∧ (Instr.cFld 0#3 0#3 4#8).wf = false ∧
    (Instr.cFsd 0#3 0#3 4#8).wf = false ∧ (Instr.cLw 0#3 0#3 2#7).wf = false ∧ (Instr.cFlw 0#3 0#3 2#7).wf = false ∧
    (Instr.cSw 0#3 0#3 1#7).wf = false ∧ (Instr.cFsw 0#3 0#3 2#7).wf = false ∧ (Instr.cAddi16sp 8#10).wf = false ∧
    (Instr.cLui 5#5 0x800#18).wf = false ∧ (Instr.cFldsp 0#5 4#9).wf = false ∧ (Instr.cFsdsp 0#5 4#9).wf = false ∧
    (Instr.cLwsp 1#5 2#8).wf = false ∧ (Instr.cFlwsp 0#5 2#8).wf = false ∧ (Instr.cSwsp 0#5 2#8).wf = false ∧
    (Instr.cFswsp 0#5 2#8).wf = false := by decide

theorem test_wf_refuses_zero_immediates :
    (Instr.cAddi4spn 0#3 0#10).wf = false ∧ (Instr.cAddi16sp 0#10).wf = false ∧
    (Instr.cLui 5#5 0#18).wf = false := by decide

theorem test_wf_refuses_reserved_registers :
    (Instr.cAddi 0#5 1#6).wf = false ∧ (Instr.cLui 2#5 0x1000#18).wf = false ∧ (Instr.cLwsp 0#5 4#8).wf = false ∧
    (Instr.cJr 0#5).wf = false ∧ (Instr.cJalr 0#5).wf = false ∧ (Instr.cMv 5#5 0#5).wf = false ∧
    (Instr.cAdd 5#5 0#5).wf = false := by decide

/-! ## Decoding: a word of 95_test_vectors for every constructor

The terms are read from the assembly text beside the word there. -/

/-- RV32I, 40_rv32i and 30_encoding R95 to R97. -/
theorem test_decode_rv32i_control :
    decode 0x123452B7#32 = .ok (.lui 5#5 0x12345#20) ∧
    decode 0x00001297#32 = .ok (.auipc 5#5 1#20) ∧
    decode 0x008000EF#32 = .ok (.jal 1#5 8#21) ∧
    decode 0x001300E7#32 = .ok (.jalr 1#5 6#5 1#12) ∧
    decode 0x00730863#32 = .ok (.beq 6#5 7#5 16#13) ∧
    decode 0xFE731CE3#32 = .ok (.bne 6#5 7#5 0x1FF8#13) ∧
    decode 0x00734663#32 = .ok (.blt 6#5 7#5 12#13) ∧
    decode 0x00735663#32 = .ok (.bge 6#5 7#5 12#13) ∧
    decode 0x00736663#32 = .ok (.bltu 6#5 7#5 12#13) ∧
    decode 0x00737663#32 = .ok (.bgeu 6#5 7#5 12#13) := by decide

/-- RV32I loads and stores. -/
theorem test_decode_rv32i_memory :
    decode 0x00030283#32 = .ok (.lb 5#5 6#5 0#12) ∧
    decode 0x00131283#32 = .ok (.lh 5#5 6#5 1#12) ∧
    decode 0x00332283#32 = .ok (.lw 5#5 6#5 3#12) ∧
    decode 0x00034283#32 = .ok (.lbu 5#5 6#5 0#12) ∧
    decode 0x00135283#32 = .ok (.lhu 5#5 6#5 1#12) ∧
    decode 0x00638023#32 = .ok (.sb 7#5 6#5 0#12) ∧
    decode 0x006390A3#32 = .ok (.sh 7#5 6#5 1#12) ∧
    decode 0xFE63AFA3#32 = .ok (.sw 7#5 6#5 0xFFF#12) := by decide

/-- RV32I immediates. -/
theorem test_decode_rv32i_immediate :
    decode 0x00130293#32 = .ok (.addi 5#5 6#5 1#12) ∧
    decode 0x00032293#32 = .ok (.slti 5#5 6#5 0#12) ∧
    decode 0xFFF33293#32 = .ok (.sltiu 5#5 6#5 0xFFF#12) ∧
    decode 0xFFF34293#32 = .ok (.xori 5#5 6#5 0xFFF#12) ∧
    decode 0x7FF36293#32 = .ok (.ori 5#5 6#5 0x7FF#12) ∧
    decode 0xFF037293#32 = .ok (.andi 5#5 6#5 0xFF0#12) ∧
    decode 0x01F31293#32 = .ok (.slli 5#5 6#5 31#5) ∧
    decode 0x01F35293#32 = .ok (.srli 5#5 6#5 31#5) ∧
    decode 0x41F35293#32 = .ok (.srai 5#5 6#5 31#5) := by decide

/-- RV32I registers and fences. -/
theorem test_decode_rv32i_register :
    decode 0x007302B3#32 = .ok (.add 5#5 6#5 7#5) ∧
    decode 0x407302B3#32 = .ok (.sub 5#5 6#5 7#5) ∧
    decode 0x007312B3#32 = .ok (.sll 5#5 6#5 7#5) ∧
    decode 0x007322B3#32 = .ok (.slt 5#5 6#5 7#5) ∧
    decode 0x007032B3#32 = .ok (.sltu 5#5 0#5 7#5) ∧
    decode 0x007342B3#32 = .ok (.xor 5#5 6#5 7#5) ∧
    decode 0x007352B3#32 = .ok (.srl 5#5 6#5 7#5) ∧
    decode 0x407352B3#32 = .ok (.sra 5#5 6#5 7#5) ∧
    decode 0x007362B3#32 = .ok (.or 5#5 6#5 7#5) ∧
    decode 0x007372B3#32 = .ok (.and 5#5 6#5 7#5) ∧
    decode 0x0FF0000F#32 = .ok (.fence 0#4 15#4 15#4 0#5 0#5) ∧
    decode 0x0000100F#32 = .ok (.fenceI 0#12 0#5 0#5) := by decide

/-- RV32M. -/
theorem test_decode_rv32m :
    decode 0x027302B3#32 = .ok (.mul 5#5 6#5 7#5) ∧
    decode 0x027312B3#32 = .ok (.mulh 5#5 6#5 7#5) ∧
    decode 0x027322B3#32 = .ok (.mulhsu 5#5 6#5 7#5) ∧
    decode 0x027332B3#32 = .ok (.mulhu 5#5 6#5 7#5) ∧
    decode 0x027342B3#32 = .ok (.div 5#5 6#5 7#5) ∧
    decode 0x027352B3#32 = .ok (.divu 5#5 6#5 7#5) ∧
    decode 0x027362B3#32 = .ok (.rem 5#5 6#5 7#5) ∧
    decode 0x027372B3#32 = .ok (.remu 5#5 6#5 7#5) := by decide

/-- RV32A. -/
theorem test_decode_rv32a :
    decode 0x100322AF#32 = .ok (.lrW 5#5 6#5 0#1 0#1) ∧
    decode 0x187322AF#32 = .ok (.scW 5#5 6#5 7#5 0#1 0#1) ∧
    decode 0x087322AF#32 = .ok (.amoswapW 5#5 6#5 7#5 0#1 0#1) ∧
    decode 0x007322AF#32 = .ok (.amoaddW 5#5 6#5 7#5 0#1 0#1) ∧
    decode 0x207322AF#32 = .ok (.amoxorW 5#5 6#5 7#5 0#1 0#1) ∧
    decode 0x607322AF#32 = .ok (.amoandW 5#5 6#5 7#5 0#1 0#1) ∧
    decode 0x407322AF#32 = .ok (.amoorW 5#5 6#5 7#5 0#1 0#1) ∧
    decode 0x807322AF#32 = .ok (.amominW 5#5 6#5 7#5 0#1 0#1) ∧
    decode 0xA07322AF#32 = .ok (.amomaxW 5#5 6#5 7#5 0#1 0#1) ∧
    decode 0xC07322AF#32 = .ok (.amominuW 5#5 6#5 7#5 0#1 0#1) ∧
    decode 0xE07322AF#32 = .ok (.amomaxuW 5#5 6#5 7#5 0#1 0#1) := by decide

/-- System. -/
theorem test_decode_system :
    decode 0x00000073#32 = .ok .ecall ∧
    decode 0x00100073#32 = .ok .ebreak ∧
    decode 0x30200073#32 = .ok .mret ∧
    decode 0x10500073#32 = .ok .wfi ∧
    decode 0x340312F3#32 = .ok (.csrrw 5#5 6#5 0x340#12) ∧
    decode 0x300322F3#32 = .ok (.csrrs 5#5 6#5 0x300#12) ∧
    decode 0x300332F3#32 = .ok (.csrrc 5#5 6#5 0x300#12) ∧
    decode 0x3401D2F3#32 = .ok (.csrrwi 5#5 3#5 0x340#12) ∧
    decode 0x300462F3#32 = .ok (.csrrsi 5#5 8#5 0x300#12) ∧
    decode 0x300472F3#32 = .ok (.csrrci 5#5 8#5 0x300#12) := by decide

/-- RVC quadrant 0. -/
theorem test_decode_rvc0 :
    decode 0x00000800#32 = .ok (.cAddi4spn 0#3 16#10) ∧
    decode 0x00002404#32 = .ok (.cFld 1#3 0#3 8#8) ∧
    decode 0x00004044#32 = .ok (.cLw 1#3 0#3 4#7) ∧
    decode 0x000060C0#32 = .ok (.cFlw 0#3 1#3 4#7) ∧
    decode 0x0000BC64#32 = .ok (.cFsd 1#3 0#3 0xF8#8) ∧
    decode 0x0000DC64#32 = .ok (.cSw 1#3 0#3 0x7C#7) ∧
    decode 0x0000E0C0#32 = .ok (.cFsw 0#3 1#3 4#7) := by decide

/-- RVC quadrant 1. -/
theorem test_decode_rvc1 :
    decode 0x00000001#32 = .ok (.cNop 0#6) ∧
    decode 0x0000147D#32 = .ok (.cAddi 8#5 63#6) ∧
    decode 0x00002021#32 = .ok (.cJal 8#12) ∧
    decode 0x00005401#32 = .ok (.cLi 8#5 32#6) ∧
    decode 0x00007139#32 = .ok (.cAddi16sp 0x3C0#10) ∧
    decode 0x00006785#32 = .ok (.cLui 15#5 0x1000#18) ∧
    decode 0x00008011#32 = .ok (.cSrli 0#3 4#5) ∧
    decode 0x00008411#32 = .ok (.cSrai 0#3 4#5) ∧
    decode 0x00009841#32 = .ok (.cAndi 0#3 48#6) ∧
    decode 0x00008C05#32 = .ok (.cSub 0#3 1#3) ∧
    decode 0x00008C25#32 = .ok (.cXor 0#3 1#3) ∧
    decode 0x00008C45#32 = .ok (.cOr 0#3 1#3) ∧
    decode 0x00008C65#32 = .ok (.cAnd 0#3 1#3) ∧
    decode 0x0000BFE5#32 = .ok (.cJ 0xFF8#12) ∧
    decode 0x0000C501#32 = .ok (.cBeqz 2#3 8#9) ∧
    decode 0x0000FD75#32 = .ok (.cBnez 2#3 0x1FC#9) := by decide

/-- RVC quadrant 2. -/
theorem test_decode_rvc2 :
    decode 0x00000292#32 = .ok (.cSlli 5#5 4#5) ∧
    decode 0x00002422#32 = .ok (.cFldsp 8#5 8#9) ∧
    decode 0x000040B2#32 = .ok (.cLwsp 1#5 12#8) ∧
    decode 0x00006412#32 = .ok (.cFlwsp 8#5 4#8) ∧
    decode 0x00008082#32 = .ok (.cJr 1#5) ∧
    decode 0x0000829A#32 = .ok (.cMv 5#5 6#5) ∧
    decode 0x00009002#32 = .ok .cEbreak ∧
    decode 0x00009282#32 = .ok (.cJalr 5#5) ∧
    decode 0x0000929A#32 = .ok (.cAdd 5#5 6#5) ∧
    decode 0x0000A422#32 = .ok (.cFsdsp 8#5 8#9) ∧
    decode 0x0000C606#32 = .ok (.cSwsp 1#5 12#8) ∧
    decode 0x0000E222#32 = .ok (.cFswsp 8#5 4#8) := by decide

/-- FENCE.TSO's fields (40_rv32i R152), and `aq` and `rl` (42_rv32a R165). -/
theorem test_decode_ignored_fields :
    decode 0x8330000F#32 = .ok (.fence 8#4 3#4 3#4 0#5 0#5) ∧
    decode 0x1407A52F#32 = .ok (.lrW 10#5 15#5 1#1 0#1) ∧
    decode 0x1A73242F#32 = .ok (.scW 8#5 6#5 7#5 0#1 1#1) := by decide

/-- Words that match no row (30_encoding R104, R99, R100). -/
theorem test_decode_refuses :
    decode 0xFFFFFFFF#32 = .error .majorOpcode ∧ decode 0x0000007F#32 = .error .majorOpcode ∧
    (decode 0x00000000#32).toOption = none ∧ (decode 0x00009001#32).toOption = none ∧
    (decode 0x00002063#32).toOption = none ∧ (decode 0x02001013#32).toOption = none ∧
    (decode 0x0000006B#32).toOption = none ∧ (decode 0x00006101#32).toOption = none := by decide

/-! ## One step of each instruction -/

/-- A launch with every OPEN parameter given a value. -/
def testParams : Params := { launchParams with
  closeExitCode := 7#32
  devAddr := fallbackDevMap
  blt := some ⟨1, .firstHigh, false⟩
  diskEof := 0xFFFFFFFF#32
  diskSectorNum := 8#32
  diskSectorSize := 512#32 }

/-- The start state of 95_test_vectors: pc 0x100, everything else 0. -/
def base : State := { State.reset with pc := 0x100#32, mtimecur := 0, clockSeen := 0, params := testParams }

/-- One entry of a vector's "start state" or "changed state". -/
inductive Item where
  | pc (v : Nat)
  | x (r v : Nat)
  | f (r v : Nat)
  | c (n v : Nat)
  | m (a : Nat) (bytes : List Nat)
  | res (a : Option Nat)
  | exit

def putBytes (s : State) : Nat → List Nat → State
  | _, [] => s
  | a, b :: rest => putBytes (s.setByte (BitVec.ofNat 32 a) (BitVec.ofNat 8 b)) (a + 1) rest

def holdsBytes (s : State) : Nat → List Nat → Bool
  | _, [] => true
  | a, b :: rest => s.byteAt (BitVec.ofNat 32 a) == BitVec.ofNat 8 b && holdsBytes s (a + 1) rest

def put (s : State) : Item → State
  | .pc v => { s with pc := BitVec.ofNat 32 v }
  | .x r v => s.setReg (BitVec.ofNat 5 r) (BitVec.ofNat 32 v)
  | .f r v => s.setFreg (BitVec.ofNat 5 r) (BitVec.ofNat 64 v)
  | .c n v => s.setCsr (BitVec.ofNat 12 n) (BitVec.ofNat 32 v)
  | .m a bytes => putBytes s a bytes
  | .res a => { s with mreserved := a.map (BitVec.ofNat 32) }
  | .exit => { s with exitFlag := true }

def holds (s : State) : Item → Bool
  | .pc v => s.pc == BitVec.ofNat 32 v
  | .x r v => s.regs[(BitVec.ofNat 5 r).toNat] == BitVec.ofNat 32 v
  | .f r v => s.getFreg (BitVec.ofNat 5 r) == BitVec.ofNat 64 v
  | .c n v => s.csr (BitVec.ofNat 12 n) == BitVec.ofNat 32 v
  | .m a bytes => holdsBytes s a bytes
  | .res a => s.mreserved == a.map (BitVec.ofNat 32)
  | .exit => s.exitFlag

/-- `r` is a next state of which `p` holds. -/
def isNext (r : Result) (p : State → Bool) : Bool :=
  match r with
  | .next t => p t
  | _ => false

theorem exists_next {r : Result} {p : State → Bool} (h : isNext r p = true) : ∃ t, r = .next t ∧ p t = true := by
  cases r with
  | next t => exact ⟨t, rfl, h⟩
  | fault f => cases h
  | refused e => cases h

def isRefused (r : Result) (e : Refusal) : Bool :=
  match r with
  | .refused e' => e' == e
  | _ => false

def runsFrom (s : State) (w : Nat) (start expect : List Item) : Bool :=
  isNext (step ((start.foldl put s).withFetchWord 32 w)) (fun t => expect.all (holds t))

/-- From `base` with `start` put into it and the word `w` at the pc, one step leaves every entry of `expect`. -/
def runs (w : Nat) (start expect : List Item) : Bool := runsFrom base w start expect

-- lui x5, 0x12345
theorem test_lui : runs 0x123452B7 [] [.x 5 0x12345000, .pc 0x104] = true := by decide
-- lui x0, 0x12345
theorem test_lui_again : runs 0x12345037 [] [.pc 0x104] = true := by decide
-- auipc x5, 0x1
theorem test_auipc : runs 0x00001297 [] [.x 5 0x1100, .pc 0x104] = true := by decide
-- auipc x5, 0xFFFFF
theorem test_auipc_again : runs 0xFFFFF297 [] [.x 5 0xFFFFF100, .pc 0x104] = true := by decide
-- jal x1, 8
theorem test_jal : runs 0x008000EF [] [.x 1 0x104, .pc 0x108] = true := by decide
-- jal x0, -0x104
theorem test_jal_again : runs 0xEFDFF06F [] [.pc 0xFFFFFFFC] = true := by decide
-- jalr x1, 1(x6)
theorem test_jalr : runs 0x001300E7 [.x 6 0x200] [.x 1 0x104, .pc 0x200] = true := by decide
-- jalr x6, 0(x6)
theorem test_jalr_again : runs 0x00030367 [.x 6 0x300] [.x 6 0x104, .pc 0x300] = true := by decide
-- beq x6, x7, 16
theorem test_beq : runs 0x00730863 [.x 6 0x5, .x 7 0x5] [.pc 0x110] = true := by decide
-- beq x6, x7, 16
theorem test_beq_again : runs 0x00730863 [.x 6 0x5, .x 7 0x6] [.pc 0x104] = true := by decide
-- bne x6, x7, -8
theorem test_bne : runs 0xFE731CE3 [.x 6 0x5, .x 7 0x6] [.pc 0xF8] = true := by decide
-- blt x6, x7, 12
theorem test_blt : runs 0x00734663 [.x 6 0xFFFFFFFF, .x 7 0x1] [.pc 0x10C] = true := by decide
-- bge x6, x7, 12
theorem test_bge : runs 0x00735663 [.x 6 0x80000000, .x 7 0x80000000] [.pc 0x10C] = true := by decide
-- bge x6, x7, 12
theorem test_bge_again : runs 0x00735663 [.x 6 0x80000000, .x 7 0x0] [.pc 0x104] = true := by decide
-- bltu x6, x7, 12
theorem test_bltu : runs 0x00736663 [.x 6 0xFFFFFFFF, .x 7 0x1] [.pc 0x104] = true := by decide
-- bgeu x6, x7, 12
theorem test_bgeu : runs 0x00737663 [.x 6 0x80000000, .x 7 0x0] [.pc 0x10C] = true := by decide
-- lb x5, 0(x6)
theorem test_lb : runs 0x00030283 [.x 6 0x200, .m 0x200 [0x80]] [.x 5 0xFFFFFF80, .pc 0x104] = true := by decide
-- lh x5, 1(x6)
theorem test_lh :
    runs 0x00131283 [.x 6 0x200, .m 0x200 [0x00, 0x01, 0x80]] [.x 5 0xFFFF8001, .pc 0x104] = true := by decide
-- lw x5, 3(x6)
theorem test_lw :
    runs 0x00332283 [.x 6 0x200, .m 0x200 [0x00, 0x00, 0x00, 0x11, 0x22, 0x33, 0x44]]
      [.x 5 0x44332211, .pc 0x104] = true := by decide
-- lw x5, -2(x6)
theorem test_lw_again :
    runs 0xFFE32283 [.x 6 0x4000000, .m 0x3FFFFFE [0xAA, 0xBB], .m 0x0 [0xCC, 0xDD]]
      [.x 5 0xDDCCBBAA, .pc 0x104] = true := by decide
-- lbu x5, 0(x6)
theorem test_lbu : runs 0x00034283 [.x 6 0x200, .m 0x200 [0x80]] [.x 5 0x80, .pc 0x104] = true := by decide
-- lhu x5, 1(x6)
theorem test_lhu :
    runs 0x00135283 [.x 6 0x200, .m 0x200 [0x00, 0x01, 0x80]] [.x 5 0x8001, .pc 0x104] = true := by decide
-- sb x6, 0(x7)
theorem test_sb : runs 0x00638023 [.x 6 0x12345678, .x 7 0x200] [.m 0x200 [0x78], .pc 0x104] = true := by decide
-- sh x6, 1(x7)
theorem test_sh : runs 0x006390A3 [.x 6 0x12345678, .x 7 0x200] [.m 0x201 [0x78, 0x56], .pc 0x104] = true := by decide
-- sw x6, -1(x7)
theorem test_sw :
    runs 0xFE63AFA3 [.x 6 0x12345678, .x 7 0x201] [.m 0x200 [0x78, 0x56, 0x34, 0x12], .pc 0x104] = true := by decide
-- sw x6, 0(x7)
theorem test_sw_again :
    runs 0x0063A023 [.x 6 0x11223344, .x 7 0x3FFFFFE]
      [.m 0x0 [0x22, 0x11], .m 0x3FFFFFE [0x44, 0x33], .pc 0x104] = true := by decide
-- addi x5, x6, 1
theorem test_addi : runs 0x00130293 [.x 6 0x7FFFFFFF] [.x 5 0x80000000, .pc 0x104] = true := by decide
-- addi x5, x6, -2048
theorem test_addi_again : runs 0x80030293 [.x 6 0x0] [.x 5 0xFFFFF800, .pc 0x104] = true := by decide
-- slti x5, x6, 0
theorem test_slti : runs 0x00032293 [.x 6 0xFFFFFFFF] [.x 5 0x1, .pc 0x104] = true := by decide
-- sltiu x5, x6, -1
theorem test_sltiu : runs 0xFFF33293 [.x 6 0x5] [.x 5 0x1, .pc 0x104] = true := by decide
-- sltiu x5, x6, 1
theorem test_sltiu_again : runs 0x00133293 [.x 6 0x0] [.x 5 0x1, .pc 0x104] = true := by decide
-- xori x5, x6, -1
theorem test_xori : runs 0xFFF34293 [.x 6 0xF0F0F0F] [.x 5 0xF0F0F0F0, .pc 0x104] = true := by decide
-- ori x5, x6, 0x7FF
theorem test_ori : runs 0x7FF36293 [.x 6 0x80000000] [.x 5 0x800007FF, .pc 0x104] = true := by decide
-- andi x5, x6, -16
theorem test_andi : runs 0xFF037293 [.x 6 0x12345678] [.x 5 0x12345670, .pc 0x104] = true := by decide
-- slli x5, x6, 31
theorem test_slli : runs 0x01F31293 [.x 6 0x3] [.x 5 0x80000000, .pc 0x104] = true := by decide
-- srli x5, x6, 31
theorem test_srli : runs 0x01F35293 [.x 6 0x80000000] [.x 5 0x1, .pc 0x104] = true := by decide
-- srai x5, x6, 31
theorem test_srai : runs 0x41F35293 [.x 6 0x80000000] [.x 5 0xFFFFFFFF, .pc 0x104] = true := by decide
-- srai x5, x6, 4
theorem test_srai_again : runs 0x40435293 [.x 6 0x7FFFFFF0] [.x 5 0x7FFFFFF, .pc 0x104] = true := by decide
-- add x5, x6, x7
theorem test_add : runs 0x007302B3 [.x 6 0xFFFFFFFF, .x 7 0x2] [.x 5 0x1, .pc 0x104] = true := by decide
-- add x0, x6, x7
theorem test_add_again : runs 0x00730033 [.x 6 0x1, .x 7 0x2] [.pc 0x104] = true := by decide
-- sub x5, x6, x7
theorem test_sub : runs 0x407302B3 [.x 6 0x0, .x 7 0x1] [.x 5 0xFFFFFFFF, .pc 0x104] = true := by decide
-- sll x5, x6, x7
theorem test_sll : runs 0x007312B3 [.x 6 0x1, .x 7 0x21] [.x 5 0x2, .pc 0x104] = true := by decide
-- slt x5, x6, x7
theorem test_slt : runs 0x007322B3 [.x 6 0x80000000, .x 7 0x7FFFFFFF] [.x 5 0x1, .pc 0x104] = true := by decide
-- sltu x5, x0, x7
theorem test_sltu : runs 0x007032B3 [.x 7 0x9] [.x 5 0x1, .pc 0x104] = true := by decide
-- xor x5, x6, x7
theorem test_xor : runs 0x007342B3 [.x 6 0xFF00FF00, .x 7 0xFF00FF0] [.x 5 0xF0F0F0F0, .pc 0x104] = true := by decide
-- srl x5, x6, x7
theorem test_srl : runs 0x007352B3 [.x 6 0x80000000, .x 7 0xFFFFFFFF] [.x 5 0x1, .pc 0x104] = true := by decide
-- sra x5, x6, x7
theorem test_sra : runs 0x407352B3 [.x 6 0x80000000, .x 7 0x20] [.x 5 0x80000000, .pc 0x104] = true := by decide
-- or x5, x6, x7
theorem test_or : runs 0x007362B3 [.x 6 0xFF00FF00, .x 7 0xFF00FF0] [.x 5 0xFFF0FFF0, .pc 0x104] = true := by decide
-- and x5, x6, x7
theorem test_and : runs 0x007372B3 [.x 6 0xFF00FF00, .x 7 0xFF00FF0] [.x 5 0xF000F00, .pc 0x104] = true := by decide
-- fence
theorem test_fence : runs 0x0FF0000F [] [.pc 0x104] = true := by decide
-- fence.i
theorem test_fenceI : runs 0x0000100F [] [.pc 0x104] = true := by decide
-- mul x5, x6, x7
theorem test_mul : runs 0x027302B3 [.x 6 0x3, .x 7 0xFFFFFFFE] [.x 5 0xFFFFFFFA, .pc 0x104] = true := by decide
-- mulh x5, x6, x7
theorem test_mulh :
    runs 0x027312B3 [.x 6 0x12345678, .x 7 0x9ABCDEF0] [.x 5 0xF8CC93D6, .pc 0x104] = true := by decide
-- mulh x5, x6, x7
theorem test_mulh_again : runs 0x027312B3 [.x 6 0x3, .x 7 0xFFFFFFFE] [.x 5 0xFFFFFFFF, .pc 0x104] = true := by decide
-- mulhsu x5, x6, x7
theorem test_mulhsu :
    runs 0x027322B3 [.x 6 0xFFFFFFFF, .x 7 0xFFFFFFFF] [.x 5 0xFFFFFFFF, .pc 0x104] = true := by decide
-- mulhsu x5, x6, x7
theorem test_mulhsu_again :
    runs 0x027322B3 [.x 6 0x80000000, .x 7 0x80000000] [.x 5 0xC0000000, .pc 0x104] = true := by decide
-- mulhu x5, x6, x7
theorem test_mulhu :
    runs 0x027332B3 [.x 6 0xFFFFFFFF, .x 7 0xFFFFFFFF] [.x 5 0xFFFFFFFE, .pc 0x104] = true := by decide
-- div x5, x6, x7
theorem test_div : runs 0x027342B3 [.x 6 0xFFFFFFF9, .x 7 0x2] [.x 5 0xFFFFFFFD, .pc 0x104] = true := by decide
-- div x5, x6, x7
theorem test_div_again :
    runs 0x027342B3 [.x 6 0x80000000, .x 7 0xFFFFFFFF] [.x 5 0x80000000, .pc 0x104] = true := by decide
-- divu x5, x6, x7
theorem test_divu : runs 0x027352B3 [.x 6 0x7, .x 7 0x0] [.x 5 0xFFFFFFFF, .pc 0x104] = true := by decide
-- divu x5, x6, x7
theorem test_divu_again : runs 0x027352B3 [.x 6 0xFFFFFFF9, .x 7 0x2] [.x 5 0x7FFFFFFC, .pc 0x104] = true := by decide
-- rem x5, x6, x7
theorem test_rem : runs 0x027362B3 [.x 6 0xFFFFFFF9, .x 7 0x2] [.x 5 0xFFFFFFFF, .pc 0x104] = true := by decide
-- rem x5, x6, x7
theorem test_rem_again : runs 0x027362B3 [.x 6 0x80000000, .x 7 0xFFFFFFFF] [.pc 0x104] = true := by decide
-- remu x5, x6, x7
theorem test_remu : runs 0x027372B3 [.x 6 0xFFFFFFF9, .x 7 0x2] [.x 5 0x1, .pc 0x104] = true := by decide
-- remu x5, x6, x7
theorem test_remu_again : runs 0x027372B3 [.x 6 0x80000000, .x 7 0x0] [.x 5 0x80000000, .pc 0x104] = true := by decide
-- lr.w x5, (x6)
theorem test_lrW :
    runs 0x100322AF [.x 6 0x200, .m 0x200 [0x01, 0x02, 0x03, 0x04]]
      [.x 5 0x4030201, .res (some 0x200), .pc 0x104] = true := by decide
-- sc.w x5, x7, (x6)
theorem test_scW :
    runs 0x187322AF [.x 6 0x200, .x 7 0xCAFEF00D, .res (some 0x200)]
      [.res none, .m 0x200 [0x0D, 0xF0, 0xFE, 0xCA], .pc 0x104] = true := by decide
-- sc.w x5, x7, (x6)
theorem test_scW_again :
    runs 0x187322AF [.x 6 0x204, .x 7 0xCAFEF00D, .res (some 0x200)]
      [.x 5 0x1, .res none, .pc 0x104] = true := by decide
-- amoswap.w x5, x7, (x6)
theorem test_amoswapW :
    runs 0x087322AF [.x 6 0x200, .x 7 0x11111111, .m 0x200 [0x44, 0x33, 0x22, 0x11]]
      [.x 5 0x11223344, .m 0x200 [0x11, 0x11, 0x11], .pc 0x104] = true := by decide
-- amoswap.w x0, x7, (x6)
theorem test_amoswapW_again :
    runs 0x0873202F [.x 6 0x201, .x 7 0xA1B2C3D4, .m 0x200 [0x00, 0x01, 0x02, 0x03, 0x04]]
      [.m 0x201 [0xD4, 0xC3, 0xB2, 0xA1], .pc 0x104] = true := by decide
-- amoadd.w x5, x7, (x6)
theorem test_amoaddW :
    runs 0x007322AF [.x 6 0x200, .x 7 0x1, .m 0x200 [0xFF, 0xFF, 0xFF, 0xFF]]
      [.x 5 0xFFFFFFFF, .m 0x200 [0x00, 0x00, 0x00, 0x00], .pc 0x104] = true := by decide
-- amoadd.w x7, x7, (x6)
theorem test_amoaddW_again :
    runs 0x007323AF [.x 6 0x200, .x 7 0x5, .m 0x200 [0x0A, 0x00, 0x00, 0x00]]
      [.x 7 0xA, .m 0x200 [0x0F], .pc 0x104] = true := by decide
-- amoxor.w x5, x7, (x6)
theorem test_amoxorW :
    runs 0x207322AF [.x 6 0x200, .x 7 0xFFFF0000, .m 0x200 [0x78, 0x56, 0x34, 0x12]]
      [.x 5 0x12345678, .m 0x202 [0xCB, 0xED], .pc 0x104] = true := by decide
-- amoand.w x5, x7, (x6)
theorem test_amoandW :
    runs 0x607322AF [.x 6 0x200, .x 7 0xFF00FF00, .m 0x200 [0x78, 0x56, 0x34, 0x12]]
      [.x 5 0x12345678, .m 0x200 [0x00], .m 0x202 [0x00], .pc 0x104] = true := by decide
-- amoor.w x5, x7, (x6)
theorem test_amoorW :
    runs 0x407322AF [.x 6 0x200, .x 7 0xF, .m 0x200 [0x70, 0x56, 0x34, 0x12]]
      [.x 5 0x12345670, .m 0x200 [0x7F], .pc 0x104] = true := by decide
-- amomin.w x5, x7, (x6)
theorem test_amominW :
    runs 0x807322AF [.x 6 0x200, .x 7 0x1, .m 0x200 [0xFF, 0xFF, 0xFF, 0xFF]]
      [.x 5 0xFFFFFFFF, .pc 0x104] = true := by decide
-- amomax.w x5, x7, (x6)
theorem test_amomaxW :
    runs 0xA07322AF [.x 6 0x200, .x 7 0x1, .m 0x200 [0xFF, 0xFF, 0xFF, 0xFF]]
      [.x 5 0xFFFFFFFF, .m 0x200 [0x01, 0x00, 0x00, 0x00], .pc 0x104] = true := by decide
-- amominu.w x5, x7, (x6)
theorem test_amominuW :
    runs 0xC07322AF [.x 6 0x200, .x 7 0x1, .m 0x200 [0xFF, 0xFF, 0xFF, 0xFF]]
      [.x 5 0xFFFFFFFF, .m 0x200 [0x01, 0x00, 0x00, 0x00], .pc 0x104] = true := by decide
-- amomaxu.w x5, x7, (x6)
theorem test_amomaxuW :
    runs 0xE07322AF [.x 6 0x200, .x 7 0x1, .m 0x200 [0xFF, 0xFF, 0xFF, 0xFF]]
      [.x 5 0xFFFFFFFF, .pc 0x104] = true := by decide
-- ecall
theorem test_ecall : runs 0x00000073 [.x 17 0x5D, .x 10 0x2A] [.exit, .pc 0x104] = true := by decide
-- ecall
theorem test_ecall_again : runs 0x00000073 [.x 17 0x40, .x 10 0x2A] [.x 10 0x0, .pc 0x104] = true := by decide
-- ebreak
theorem test_ebreak : runs 0x00100073 [] [.pc 0x104] = true := by decide
-- mret
theorem test_mret : runs 0x30200073 [.c 0x341 0x124, .c 0x300 0x80] [.c 0x300 0x88, .pc 0x124] = true := by decide
-- mret
theorem test_mret_again :
    runs 0x30200073 [.c 0x341 0x125, .c 0x300 0x8] [.c 0x300 0x80, .pc 0x125] = true := by decide
-- wfi
theorem test_wfi : runs 0x10500073 [] [.pc 0x104] = true := by decide
-- csrrw x5, mscratch, x5
theorem test_csrrw : runs 0x340292F3 [.x 5 0x9, .c 0x340 0x7] [.x 5 0x7, .c 0x340 0x9, .pc 0x104] = true := by decide
-- csrrw x5, cycle, x6
theorem test_csrrw_again : runs 0xC00312F3 [.x 6 0x9, .c 0xC00 0x3] [.x 5 0x3, .pc 0x104] = true := by decide
-- csrrs x5, mstatus, x6
theorem test_csrrs :
    runs 0x300322F3 [.x 6 0x8, .c 0x300 0x80] [.x 5 0x80, .c 0x300 0x88, .pc 0x104] = true := by decide
-- csrrs x5, mstatus, x0
theorem test_csrrs_again : runs 0x300022F3 [.c 0x300 0x80] [.x 5 0x80, .pc 0x104] = true := by decide
-- csrrc x5, mstatus, x6
theorem test_csrrc :
    runs 0x300332F3 [.x 6 0x8, .c 0x300 0x88] [.x 5 0x88, .c 0x300 0x80, .pc 0x104] = true := by decide
-- csrrc x5, 0xFFF, x6
theorem test_csrrc_again : runs 0xFFF332F3 [.x 6 0x1, .c 0xFFF 0xF] [.x 5 0xF, .pc 0x104] = true := by decide
-- csrrwi x5, mscratch, 3
theorem test_csrrwi : runs 0x3401D2F3 [.c 0x340 0x7] [.x 5 0x7, .c 0x340 0x3, .pc 0x104] = true := by decide
-- csrrwi x5, mscratch, 0
theorem test_csrrwi_again : runs 0x340052F3 [.c 0x340 0x7] [.x 5 0x7, .c 0x340 0x0, .pc 0x104] = true := by decide
-- csrrsi x5, mstatus, 8
theorem test_csrrsi : runs 0x300462F3 [] [.c 0x300 0x8, .pc 0x104] = true := by decide
-- csrrsi x5, mie, 0
theorem test_csrrsi_again : runs 0x304062F3 [.c 0x304 0x80] [.x 5 0x80, .pc 0x104] = true := by decide
-- csrrci x5, mstatus, 8
theorem test_csrrci : runs 0x300472F3 [.c 0x300 0x88] [.x 5 0x88, .c 0x300 0x80, .pc 0x104] = true := by decide
-- c.addi4spn x8, sp, 16
theorem test_cAddi4spn : runs 0x0800 [.x 2 0x1000] [.x 8 0x1010, .pc 0x102] = true := by decide
-- c.fld f9, 8(x8)
theorem test_cFld :
    runs 0x2404 [.x 8 0x200, .m 0x208 [0x01, 0x02, 0x03, 0x04, 0x05, 0x06, 0x07, 0x08]]
      [.f 9 0x807060504030201, .pc 0x102] = true := by decide
-- c.lw x9, 4(x8)
theorem test_cLw :
    runs 0x4044 [.x 8 0x200, .m 0x204 [0x78, 0x56, 0x34, 0x12]] [.x 9 0x12345678, .pc 0x102] = true := by decide
-- c.flw f8, 4(x9)
theorem test_cFlw : runs 0x60C0 [.x 9 0x200] [.pc 0x102] = true := by decide
-- c.fsd f9, 248(x8)
theorem test_cFsd :
    runs 0xBC64 [.x 8 0x200, .f 9 0x1122334455667788]
      [.m 0x2F8 [0x88, 0x77, 0x66, 0x55, 0x44, 0x33, 0x22, 0x11], .pc 0x102] = true := by decide
-- c.sw x9, 124(x8)
theorem test_cSw :
    runs 0xDC64 [.x 8 0x200, .x 9 0xDEADBEEF] [.m 0x27C [0xEF, 0xBE, 0xAD, 0xDE], .pc 0x102] = true := by decide
-- c.fsw f8, 4(x9)
theorem test_cFsw : runs 0xE0C0 [.x 9 0x200, .f 8 0x5] [.pc 0x102] = true := by decide
-- c.nop
theorem test_cNop : runs 0x0001 [] [.pc 0x102] = true := by decide
-- c.addi x8, -1
theorem test_cAddi : runs 0x147D [.x 8 0x0] [.x 8 0xFFFFFFFF, .pc 0x102] = true := by decide
-- c.jal 8
theorem test_cJal : runs 0x2021 [] [.x 1 0x102, .pc 0x108] = true := by decide
-- c.li x8, -32
theorem test_cLi : runs 0x5401 [] [.x 8 0xFFFFFFE0, .pc 0x102] = true := by decide
-- c.li x0, 5
theorem test_cLi_again : runs 0x4015 [] [.pc 0x102] = true := by decide
-- c.addi16sp sp, -64
theorem test_cAddi16sp : runs 0x7139 [.x 2 0x1000] [.x 2 0xFC0, .pc 0x102] = true := by decide
-- c.addi16sp sp, 496
theorem test_cAddi16sp_again : runs 0x617D [.x 2 0x1000] [.x 2 0x11F0, .pc 0x102] = true := by decide
-- c.lui x15, 1
theorem test_cLui : runs 0x6785 [] [.x 15 0x1000, .pc 0x102] = true := by decide
-- c.lui x5, 0xFFFFF
theorem test_cLui_again : runs 0x72FD [] [.x 5 0xFFFFF000, .pc 0x102] = true := by decide
-- c.srli x8, 4
theorem test_cSrli : runs 0x8011 [.x 8 0x80000000] [.x 8 0x8000000, .pc 0x102] = true := by decide
-- c.srai x8, 4
theorem test_cSrai : runs 0x8411 [.x 8 0x80000000] [.x 8 0xF8000000, .pc 0x102] = true := by decide
-- c.andi x8, -16
theorem test_cAndi : runs 0x9841 [.x 8 0x12345678] [.x 8 0x12345670, .pc 0x102] = true := by decide
-- c.sub x8, x9
theorem test_cSub : runs 0x8C05 [.x 8 0x5, .x 9 0x7] [.x 8 0xFFFFFFFE, .pc 0x102] = true := by decide
-- c.xor x8, x9
theorem test_cXor : runs 0x8C25 [.x 8 0xFF00, .x 9 0xFF0] [.x 8 0xF0F0, .pc 0x102] = true := by decide
-- c.or x8, x9
theorem test_cOr : runs 0x8C45 [.x 8 0xFF00, .x 9 0xFF0] [.x 8 0xFFF0, .pc 0x102] = true := by decide
-- c.and x8, x9
theorem test_cAnd : runs 0x8C65 [.x 8 0xFF00, .x 9 0xFF0] [.x 8 0xF00, .pc 0x102] = true := by decide
-- c.j -8
theorem test_cJ : runs 0xBFE5 [] [.pc 0xF8] = true := by decide
-- c.j -2048
theorem test_cJ_again : runs 0xB001 [] [.pc 0xFFFFF900] = true := by decide
-- c.beqz x10, 8
theorem test_cBeqz : runs 0xC501 [.x 10 0x0] [.pc 0x108] = true := by decide
-- c.beqz x10, 8
theorem test_cBeqz_again : runs 0xC501 [.x 10 0x1] [.pc 0x102] = true := by decide
-- c.bnez x10, -4
theorem test_cBnez : runs 0xFD75 [.x 10 0x1] [.pc 0xFC] = true := by decide
-- c.slli x5, 4
theorem test_cSlli : runs 0x0292 [.x 5 0x10000001] [.x 5 0x10, .pc 0x102] = true := by decide
-- c.fldsp f8, 8(sp)
theorem test_cFldsp :
    runs 0x2422 [.x 2 0x1000, .m 0x1008 [0x08, 0x07, 0x06, 0x05, 0x04, 0x03, 0x02, 0x01]]
      [.f 8 0x102030405060708, .pc 0x102] = true := by decide
-- c.lwsp x1, 12(sp)
theorem test_cLwsp :
    runs 0x40B2 [.x 2 0x1000, .m 0x100C [0xEF, 0xBE, 0xAD, 0xDE]] [.x 1 0xDEADBEEF, .pc 0x102] = true := by decide
-- c.flwsp f8, 4(sp)
theorem test_cFlwsp : runs 0x6412 [.x 2 0x1000] [.pc 0x102] = true := by decide
-- c.jr x1
theorem test_cJr : runs 0x8082 [.x 1 0x301] [.pc 0x300] = true := by decide
-- c.mv x5, x6
theorem test_cMv : runs 0x829A [.x 6 0x1234] [.x 5 0x1234, .pc 0x102] = true := by decide
-- c.ebreak
theorem test_cEbreak : runs 0x9002 [] [.pc 0x102] = true := by decide
-- c.jalr x5
theorem test_cJalr : runs 0x9282 [.x 5 0x400] [.x 1 0x102, .pc 0x400] = true := by decide
-- c.add x5, x6
theorem test_cAdd : runs 0x929A [.x 5 0xFFFFFFFF, .x 6 0x2] [.x 5 0x1, .pc 0x102] = true := by decide
-- c.fsdsp f8, 8(sp)
theorem test_cFsdsp :
    runs 0xA422 [.x 2 0x1000, .f 8 0xAABBCCDD11223344]
      [.m 0x1008 [0x44, 0x33, 0x22, 0x11, 0xDD, 0xCC, 0xBB, 0xAA], .pc 0x102] = true := by decide
-- c.swsp x1, 12(sp)
theorem test_cSwsp :
    runs 0xC606 [.x 2 0x1000, .x 1 0xCAFEBABE] [.m 0x100C [0xBE, 0xBA, 0xFE, 0xCA], .pc 0x102] = true := by decide
-- c.fswsp f8, 4(sp)
theorem test_cFswsp : runs 0xE222 [.x 2 0x1000, .f 8 0x1] [.pc 0x102] = true := by decide
/-! ## The switches of R21 -/

def allMoves : State := { base with params := { testParams with fpMoves := ⟨true, true, true, true, true, true, true, true⟩ } }

-- R191: a word load zero-extends into the slot, a word store writes the low half
theorem test_cFlw_implemented :
    runsFrom allMoves 0x60C0 [.x 9 0x200, .f 8 0xFFFFFFFFFFFFFFFF, .m 0x204 [0x78, 0x56, 0x34, 0x12]]
      [.f 8 0x12345678, .pc 0x102] = true := by decide
theorem test_cFsw_implemented :
    runsFrom allMoves 0xE0C0 [.x 9 0x200, .f 8 0x1122334455667788] [.m 0x204 [0x88, 0x77, 0x66, 0x55, 0], .pc 0x102]
      = true := by decide
theorem test_cFlwsp_implemented :
    runsFrom allMoves 0x6412 [.x 2 0x1000, .m 0x1004 [1, 2, 3, 4, 5]] [.f 8 0x04030201, .pc 0x102] = true := by decide
theorem test_cFswsp_implemented :
    runsFrom allMoves 0xE222 [.x 2 0x1000, .f 8 0xAABBCCDD11223344] [.m 0x1004 [0x44, 0x33, 0x22, 0x11, 0], .pc 0x102]
      = true := by decide

def withSwitch (f : Params → Params) : State := { base with params := f testParams }

def refusing : State := withSwitch (fun p => { p with decodeReserved := .refuse, divCorner := .refuse })
def breaking : State := withSwitch (fun p => { p with storeBreaksReservation := true })
def clearing : State := withSwitch (fun p => { p with mretClearsBit0 := true })
def unfixed : State := withSwitch (fun p => { p with blt := none })

-- R104
theorem test_unmatched_noop : runs 0xFFFFFFFF [.x 6 1] [.x 6 1, .pc 0x104] = true ∧ runs 0 [] [.pc 0x102] = true := by
  decide
theorem test_unmatched_refused :
    isRefused (step (refusing.withFetchWord 32 0xFFFFFFFF)) .reservedEncoding = true ∧
    isRefused (step (refusing.withFetchWord 32 0x60C0)) .reservedEncoding = true := by decide
-- R155
theorem test_division_refused :
    isRefused (step ((put refusing (.x 6 7)).withFetchWord 32 0x027342B3)) .divisionCorner = true := by decide
-- E5: SW to the reserved word between LR and SC
theorem test_store_breaks_reservation :
    runsFrom breaking 0x00032023 [.x 6 0x200, .res (some 0x202)] [.res none, .pc 0x104] = true ∧
    runsFrom breaking 0x00032023 [.x 6 0x200, .res (some 0x204)] [.res (some 0x204), .pc 0x104] = true ∧
    runs 0x00032023 [.x 6 0x200, .res (some 0x200)] [.res (some 0x200), .pc 0x104] = true := by decide
-- R181
theorem test_mret_clears_bit0 :
    runsFrom clearing 0x30200073 [.c 0x341 0x125, .c 0x300 0x8] [.pc 0x124, .c 0x300 0x80] = true := by decide

/-! ## The timer check: the rows of 95_test_vectors section 7 -/

/-- A due check point of `base` with `start` put into it: `mtimecmp` is 0, so any sample is due. -/
def dueTrap (start expect : List Item) : Bool := expect.all (holds (takeInterrupt 7 (start.foldl put base)))

theorem test_trap_direct :
    dueTrap [.c 0x300 0x8, .c 0x304 0x80, .c 0x305 0x400]
      [.c 0x300 0x80, .c 0x341 0x100, .c 0x342 0x80000007, .c 0x344 0x80, .pc 0x400] = true := by decide
theorem test_trap_vectored :
    dueTrap [.c 0x300 0x8, .c 0x304 0x80, .c 0x305 0x401] [.pc 0x41C] = true := by decide
theorem test_trap_mode2 : dueTrap [.c 0x300 0x8, .c 0x304 0x80, .c 0x305 0x402] [.pc 0x400] = true := by decide
theorem test_trap_mode3 :
    dueTrap [.c 0x300 0x1808, .c 0x304 0x80, .c 0x305 0xFFFFFFFF, .c 0x344 0x800]
      [.c 0x300 0x1880, .c 0x341 0x100, .c 0x344 0x880, .pc 0xFFFFFFFC] = true := by decide
theorem test_trap_disabled :
    dueTrap [.c 0x300 0x80, .c 0x304 0x80, .c 0x305 0x400] [.pc 0x100, .c 0x300 0x80, .c 0x344 0] = true ∧
    dueTrap [.c 0x300 0x8, .c 0x304 0x808, .c 0x305 0x400] [.pc 0x100, .c 0x300 0x8, .c 0x341 0] = true := by decide
theorem test_trap_odd_pc :
    dueTrap [.pc 0x103, .c 0x300 0x8, .c 0x304 0x80, .c 0x305 0x400] [.c 0x341 0x103, .pc 0x400] = true := by decide

-- R244, D12: 95_test_vectors' scheduling vectors
theorem test_batch_length :
    batchLength testParams 1000000#32 = 10000 ∧ batchLength testParams 99#32 = 0 ∧
    batchLength testParams 1500000#32 = 15000 := by decide

/-! ## The device window: the rows of 95_test_vectors section 8, at the addresses of `fallbackDevMap` -/

def at6 (a : Word) (start : List Item) : State := (start.foldl put base).setReg 6 a
def timerAt : State := { base with mtimecmp := 0x500000000#64 }

theorem test_mtimecmp_low :
    isNext (exec (.sw 6#5 7#5 0#12) ((put timerAt (.x 7 0x1234)).setReg 6 fallbackDevMap.mtimecmpL))
      (fun t => t.mtimecmp == 0x500001234#64) = true := by decide
theorem test_mtimecmp_high :
    isNext (exec (.sw 6#5 7#5 0#12) ((put timerAt (.x 7 1)).setReg 6 fallbackDevMap.mtimecmpH))
      (fun t => t.mtimecmp == 0x100000000#64 && t.pc == 0x104#32) = true := by decide
theorem test_stdio_byte :
    isNext (exec (.sb 6#5 7#5 0#12) (at6 fallbackDevMap.stdio [.x 7 0x141])) (fun t => t.sent == [.stdoutByte 0x41#8])
      = true := by decide
theorem test_stdio_flush :
    isNext (exec (.sw 6#5 7#5 0#12) (at6 fallbackDevMap.stdio [.x 7 0xFFFFFFFF])) (fun t => t.sent == [.stdoutFlush])
      = true ∧
    isNext (exec (.sh 6#5 7#5 0#12) (at6 fallbackDevMap.stdio [.x 7 0xFFFFFFFF]))
      (fun t => t.sent == [.stdoutByte 0xFF#8]) = true := by decide

def withDisplay (i : Fin 8) (v : Word) (s : State) : State :=
  { s with dev := { s.dev with display := s.dev.display.set i.val v i.isLt } }

theorem test_display_byte_load :
    isNext (exec (.lbu 5#5 6#5 5#12) (withDisplay 1 0x12345678#32 (at6 fallbackDevMap.displayBase [])))
      (fun t => t.getReg 5 == 0x78#32) = true := by decide
theorem test_display_byte_store :
    isNext (exec (.sb 6#5 7#5 6#12) (withDisplay 1 0x12345678#32 (at6 fallbackDevMap.displayBase [.x 7 0xAB])))
      (fun t => t.dev.display[1] == 0xAB#32) = true := by decide
theorem test_cpu_freq_clamp :
    isNext (exec (.sw 6#5 7#5 0#12) (at6 fallbackDevMap.cpuFreq [.x 7 2000000]))
      (fun t => t.dev.cpuFreq == 1500000#32) = true := by decide

def withDisk (pos : Nat) (cells : List Host.Cell) (s : State) : State :=
  { s with dev := { s.dev with disk := some ⟨4096, cells⟩, diskPos := pos } }

theorem test_disk_seek :
    isNext (exec (.sw 6#5 7#5 0#12) (withDisk 7 [] (at6 fallbackDevMap.diskSectorIdx [.x 7 3])))
      (fun t => t.dev.diskPos == 1536) = true := by decide
theorem test_disk_read :
    isNext (exec (.lbu 5#5 6#5 0#12) (withDisk 1536 [(1536, 0x5A#8)] (at6 fallbackDevMap.diskSectorDat [])))
      (fun t => t.getReg 5 == 0x5A#32 && t.dev.diskPos == 1537) = true := by decide
theorem test_disk_end :
    isNext (exec (.lw 5#5 6#5 0#12) (withDisk 4096 [] (at6 fallbackDevMap.diskSectorDat [])))
      (fun t => t.getReg 5 == 0xFFFFFFFF#32 && t.dev.diskPos == 4096) = true ∧
    isNext (exec (.lw 5#5 6#5 0#12) (at6 fallbackDevMap.diskSectorNum [.x 5 9])) (fun t => t.getReg 5 == 0#32)
      = true := by decide
-- the start address alone decides (R55)
theorem test_window_edge :
    isNext (exec (.lw 5#5 6#5 0#12) (at6 0xFEFFFFFE#32 [.m 0x2FFFFFE [0x11, 0x22, 0x33, 0x44]]))
      (fun t => t.getReg 5 == 0x44332211#32) = true ∧
    isNext (exec (.sw 6#5 7#5 0#12) (at6 0xFFFFFFFE#32 [.x 7 5])) (fun t => t.mem == []) = true := by decide

/-- R74: a copy of 2 by 2 pixels, one byte each, from 0x300 to row 1, column 1 of a display 8 wide at 0x1000. -/
def blitState (s : State) : State :=
  withDisplay 0 0x00080004#32 (withDisplay 1 0x1000#32 (withDisplay 5 0x300#32 (withDisplay 6 0x00010001#32
    (put (s.setReg 6 (fallbackDevMap.displayBase + 28)) (.m 0x300 [1, 2, 3, 4])))))

theorem test_bitblt :
    isNext (exec (.sw 6#5 7#5 0#12) (put (blitState base) (.x 7 0x00020002)))
      (fun t => holdsBytes t 0x1008 [0, 1, 2, 0] && holdsBytes t 0x1010 [0, 3, 4, 0]) = true := by decide
theorem test_bitblt_not_fixed :
    isRefused (exec (.sw 6#5 7#5 0#12) (put (blitState unfixed) (.x 7 0x00020002))) .bitBltNotFixed = true := by
  decide

/-! ## The audio-in mutex and the capture step (R76, R83, E9) -/

def withOwner (o : MutexOwner) (pending : List CaptureEffect) (s : State) : State :=
  { s with dev := { s.dev with audioOwner := o, capturePending := pending } }

def lockAddr : Word := fallbackDevMap.audioInBase + 24

/-- `r` is a state of which `p` holds. -/
def isStored (r : Except Refusal State) (p : State → Bool) : Bool :=
  match r with
  | .ok t => p t
  | .error _ => false

def isRejected (r : Except Refusal State) (e : Refusal) : Bool :=
  match r with
  | .ok _ => false
  | .error e' => e' == e

/-- The store of `v` to an audio-in register, after the instant at which the agent may act. -/
def storesAudioIn (i : Fin 7) (v : Word) (s : State) : Except Refusal State := devStore (some (.audioIn i)) v s

theorem test_lock_taken :
    isStored (storesAudioIn 6 1#32 base) (fun t => decide (t.dev.audioOwner = .hart) && t.dev.audioIn[6] == 1#32)
      = true := by decide
theorem test_lock_refusals :
    isRejected (storesAudioIn 6 1#32 (withOwner .hart [] base)) .audioLockRetaken = true ∧
    isRejected (storesAudioIn 6 0#32 base) .audioLockNotOwned = true := by decide

/-- A ring of 4 bytes at 0x500 that holds `curr` bytes, with TAIL at 3. -/
def withAudioIn (curr : Word) (s : State) : State :=
  { s with dev := { s.dev with audioIn := #v[0#32, 0x500#32, 0#32, 3#32, 4#32, curr, 0#32], ringMade := true } }

/-- One capture step, from its start to its end. -/
def captured (curr : Word) (samples : List Byte) : State :=
  let s := withAudioIn curr base
  finishCapture (s.withRing (captureMove s s.ring (.start samples)))

theorem test_capture_wraps :
    (captured 1#32 [0xA1#8, 0xA2#8]).dev.audioIn = #v[0#32, 0x500#32, 0#32, 1#32, 4#32, 3#32, 0#32] ∧
    holdsBytes (captured 1#32 [0xA1#8, 0xA2#8]) 0x500 [0xA2, 0, 0, 0xA1, 0] = true := by decide
theorem test_capture_overflows :
    (captured 3#32 [0xA1#8, 0xA2#8]).dev.audioIn = #v[0#32, 0x500#32, 1#32, 1#32, 4#32, 4#32, 0#32] := by decide

/-- A step with two of its effects done, TAIL among them, and a byte still owed. CURR takes SIZE only after its sum. -/
def halfway : State :=
  let s := withAudioIn 1#32 base
  s.withRing ([.start [0xA1#8, 0xA2#8], .act 2, .act 4, .act 1].foldl (captureMove s) s.ring)

-- R83: each effect shows on its own; the mutex is the agent's until it has released it
theorem test_capture_halfway :
    halfway.dev.audioIn[3] = 1#32 ∧ halfway.dev.audioIn[5] = 1#32 ∧ halfway.dev.audioOwner = .capture ∧
    holdsBytes halfway 0x500 [0xA2, 0, 0, 0] = true ∧ halfway.dev.capturePending.length = 4 := by decide
/-- What a step of two samples has read of that ring. -/
def seen : CaptureSeen := (withAudioIn 1#32 base).captureSeen (withAudioIn 1#32 base).ring 2

-- R83: a value read again during a step: TAIL as the hart has written it, before the step sets TAIL (the bytes go there)
-- and after it (HEAD takes it); CURR after the step has set it (it is what is held against SIZE)
theorem test_capture_reread :
    (CaptureEffect.target ⟨.byte 0 0xA1#8, seen.reread (fun _ => true) true true 3 2#32⟩) = some 0x502#32 ∧
    seen.newTail = 1#32 ∧ (seen.reread (fun _ => true) false false 3 2#32).newTail = 2#32 ∧
    seen.overflows = false ∧ (seen.reread (fun _ => true) false false 5 5#32).overflows = true ∧
    (seen.reread (fun j => j == 1) true true 4 2#32).overflows = true := by decide
-- R245, R83: at a frame end the agent may act whether the hart holds the mutex or not
theorem test_frame_sleep : frameSleep base = captureInstant base := rfl

/-! ## Reset, launch, the end of a run -/

-- R248, R249
theorem test_reset : State.reset.pc = 0#32 ∧ State.reset.exitFlag = false ∧ State.reset.sched.stepsLeft = 10000 := by
  decide
theorem test_core : core.reset = State.reset := rfl
theorem test_boot :
    ((boot testParams [0x93#8, 0x08#8, 0xD0#8, 0x05#8] none).any
      (fun s => isNext (step s) (fun t => t.getReg 17 == 93#32 && t.pc == 4#32))) = true := by decide
theorem test_boot_too_large :
    boot { testParams with memLog2 := 0 } [1#8, 2#8] none = none := by decide
theorem test_exited : step (put base .exit) = .fault .exited := rfl
theorem test_closed :
    step { base with sched := { base.sched with closed := true } } = .fault .displayClosed := rfl
theorem test_result :
    runResult (put (put base (.x 10 42)) .exit) = some 42#32 ∧ runResult base = none ∧
    runResult { base with sched := { base.sched with closed := true } } = some 7#32 := by decide
-- a word placed at reset is what the first step runs
theorem test_first_step :
    isNext (step (State.reset.withFetchWord 32 0x123452B7)) (fun t => t.getReg 5 == 0x12345000#32 && t.pc == 4#32)
      = true ∧
    decodeTableWord 16 0x147D = some (.cAddi 8#5 63#6) := by decide

/-! ## Witnesses: states and operands that meet the hypotheses of each statement

`isNext r p = true` says that `r = .next t` for a `t` with `p t = true` (exists_next). -/

/-- `r` is a next state. -/
def completes (r : Result) : Bool := isNext r (fun _ => true)

theorem completes_iff {r : Result} (h : completes r = true) : ∃ t, r = .next t :=
  (exists_next h).imp fun _ ht => ht.1

def atCheck (last : Bool) : State := { base with sched := { base.sched with stepsLeft := 0, lastBatch := last } }
def enabledTrap (s : State) : State := [Item.c 0x300 0x8, .c 0x304 0x80, .c 0x305 0x400].foldl put s
def addNext : State := base.withFetchWord 32 0x007302B3
def exitNext : State := (put base (.x 17 93)).withFetchWord 32 0x00000073
def hartOwns : State := withOwner .hart [] base
def captureOwns : State := withOwner .capture [⟨.tail, seen⟩] base

/-- Where there is no ring the capture agent disturbs no byte. -/
theorem undisturbed_of_no_ring {s : State} (h : s.dev.audioIn[4] = 0) (hp : s.dev.capturePending = []) (a : Word) :
    Undisturbed s a := by
  refine .inr ⟨fun ⟨x, hx, _⟩ => ?_, fun ⟨e, he, _⟩ => ?_⟩
  · rw [h] at hx; exact Nat.not_lt_zero x hx
  · rw [hp] at he; cases he

/-- With a ring, every byte outside it, and every byte while the hart owns the mutex. -/
theorem test_undisturbed :
    Undisturbed (withAudioIn 1#32 base) 0x504#32 ∧ Undisturbed (withAudioIn 1#32 base) 0x4FF#32 ∧
    Undisturbed (withOwner .hart [] (withAudioIn 1#32 base)) 0x500#32 := by
  have out : ∀ a : Word, (∀ x : Nat, x < 4 → backingIndex base.params (0x500#32 + BitVec.ofNat 32 x) ≠
      backingIndex base.params a) → Undisturbed (withAudioIn 1#32 base) a := fun a h =>
    .inr ⟨fun ⟨x, hx, hk⟩ => h x hx hk, fun ⟨e, he, _⟩ => by cases he⟩
  exact ⟨out _ (by decide), out _ (by decide), .inl rfl⟩

/-- The last guest address and the first of the device window, in x6. -/
def lastGuest : State := base.setReg 6 0xFEFFFFFF#32
def firstDevice : State := base.setReg 6 deviceBase
def lastDevice : State := base.setReg 6 0xFFFFFFFF#32

theorem test_hyp_DecodeOfEncode :
    (Instr.jal 1#5 0x1FFFFE#21).wf = true ∧ encode (.jal 1#5 0x1FFFFE#21) = .w32 0xFFFFF0EF#32 ∧
    (Instr.cLi 0#5 63#6).wf = true ∧ encode (.cLi 0#5 63#6) = .w16 0x507D#16 := by decide

theorem test_hyp_EncodeOfDecode :
    decode 0xFFFFF0EF#32 = .ok (.jal 1#5 0x1FFFFE#21) ∧ decode 0x0000507D#32 = .ok (.cLi 0#5 63#6) := by decide

theorem test_hyp_LengthFromLowTwoBits :
    decode 0x1234507D#32 = .ok (.cLi 0#5 63#6) ∧ decode 0x007302B3#32 = .ok (.add 5#5 6#5 7#5) ∧
    (0x1234507D#32).extractLsb' 0 2 ≠ 3#2 ∧
    (0x1234507D#32).extractLsb' 0 16 = (0xFFFF507D#32).extractLsb' 0 16 := by decide

/-- The pc at DISP_ADDR, which holds the word of an instruction. -/
def deviceNext : State :=
  { base with
    pc := fallbackDevMap.displayBase + 4
    dev := { base.dev with display := base.dev.display.set 1 0x007302B3#32 } }

theorem test_hyp_StepRunsDecodedInstruction :
    ((HartNext addNext ∧ InGuest addNext.pc) ∧
      decode (fetch addNext).1 = .ok (.add 5#5 6#5 7#5) ∧
      completes (exec (.add 5#5 6#5 7#5) (fetch addNext).2) = true) ∧
    (HartNext deviceNext ∧ ¬ InGuest deviceNext.pc) ∧ decode (fetch deviceNext).1 = .ok (.add 5#5 6#5 7#5) := by
  unfold HartNext InGuest; decide

theorem test_hyp_StepRunsDecodedInstruction_refused :
    HartNext (refusing.withFetchWord 32 0x027342B3) ∧
    decode (fetch (refusing.withFetchWord 32 0x027342B3)).1 = .ok (.div 5#5 6#5 7#5) ∧
    isRefused (exec (.div 5#5 6#5 7#5) (fetch (refusing.withFetchWord 32 0x027342B3)).2) .divisionCorner = true := by
  unfold HartNext; decide

theorem decode_ok_of_error {w : BitVec 32} {e : Reject} (h : decode w = .error e) (i : Instr) (hi : decode w = .ok i)
    (P : Prop) : P := by rw [h] at hi; cases hi

/-- Under both values of DECODE_RESERVED: a word of no row, and a disabled floating-point move. -/
theorem test_hyp_UnmatchedWordIsNoop :
    (HartNext (base.withFetchWord 32 0xFFFFFFFF) ∧ ∀ i, decode (fetch (base.withFetchWord 32 0xFFFFFFFF)).1 = .ok i →
      i.enabled testParams = false) ∧
    (HartNext (base.withFetchWord 32 0x60C0) ∧ ∀ i, decode (fetch (base.withFetchWord 32 0x60C0)).1 = .ok i →
      i.enabled testParams = false) ∧ testParams.decodeReserved = .noop ∧
    (HartNext (refusing.withFetchWord 32 0x60C0) ∧ ∀ i, decode (fetch (refusing.withFetchWord 32 0x60C0)).1 = .ok i →
      i.enabled refusing.params = false) ∧ refusing.params.decodeReserved = .refuse := by
  have h : decode (fetch (base.withFetchWord 32 0x60C0)).1 = .ok (.cFlw 0#3 1#3 4#7) := by decide
  have h' : decode (fetch (refusing.withFetchWord 32 0x60C0)).1 = .ok (.cFlw 0#3 1#3 4#7) := by decide
  refine ⟨⟨by unfold HartNext; decide, fun i hi => decode_ok_of_error (e := .majorOpcode) (by decide) i hi _⟩,
    ⟨by unfold HartNext; decide, fun i hi => ?_⟩, rfl, ⟨by unfold HartNext; decide, fun i hi => ?_⟩, rfl⟩
  · rw [h] at hi; cases hi; rfl
  · rw [h'] at hi; cases hi; rfl

theorem test_hyp_ZeroAfterEveryStep :
    (HartNext addNext ∧ completes (step addNext) = true) ∧
    (CheckNext (atCheck false) ∧ ∃ t, step (atCheck false) = .next t) := by
  exact ⟨by unfold HartNext; decide, by unfold CheckNext; decide, _, rfl⟩

theorem test_hyp_StepFaultsOnlyAfterTheRun :
    (put base .exit).exitFlag = true ∧ step (put base .exit) = .fault .exited := ⟨rfl, rfl⟩

/-- Enabled and due (`mtimecmp` is 0), and disabled; after the first sub-batch and after the second. -/
theorem test_hyp_TimerCheckAtCheckPoint :
    CheckNext (enabledTrap (atCheck false)) ∧ CheckNext (atCheck true) ∧
    ((enabledTrap (atCheck false)).csr 0x300#12).getLsbD 3 = true ∧
    ((enabledTrap (atCheck false)).csr 0x304#12).getLsbD 7 = true ∧
    (∀ c : DWord, (enabledTrap (atCheck false)).mtimecmp ≤ c) ∧
    (enabledTrap (atCheck false)).sched.lastBatch = false ∧ ((atCheck true).csr 0x300#12).getLsbD 3 = false := by
  refine ⟨by unfold CheckNext; decide, by unfold CheckNext; decide, by decide, by decide, fun c => ?_, rfl, by decide⟩
  have h : (enabledTrap (atCheck false)).mtimecmp = 0#64 := rfl
  rw [h, BitVec.le_def]; exact Nat.zero_le _

theorem test_hyp_TrapEntry :
    ((enabledTrap base).csr 0x300#12).getLsbD 3 = true ∧ ((enabledTrap base).csr 0x304#12).getLsbD 7 = true ∧
    ((put (enabledTrap base) (.c 0x304 0x80000000)).csr 0x304#12).getLsbD 31 = true ∧
    (base.csr 0x300#12).getLsbD 3 = false := by decide

theorem test_hyp_TrapTargets :
    (0x401#32).extractLsb' 0 2 = 1#2 ∧ (0x400#32).extractLsb' 0 2 ≠ 1#2 ∧ (0xFFFFFFFF#32).extractLsb' 0 2 ≠ 1#2 := by
  decide

theorem test_hyp_MretReturns : base.params.mretClearsBit0 = false ∧ clearing.params.mretClearsBit0 = true :=
  ⟨rfl, rfl⟩

/-- The state the handler starts in is one that holds the trap's `mepc` and `mstatus`. -/
theorem test_hyp_TrapThenMretRestores :
    ((enabledTrap clearing).csr 0x300#12).getLsbD 3 = true ∧ ((enabledTrap clearing).csr 0x304#12).getLsbD 7 = true ∧
    (takeInterrupt 7 (enabledTrap clearing)).csr 0x341#12 = 0x100#32 ∧
    (takeInterrupt 7 (enabledTrap clearing)).params.mretClearsBit0 = true ∧
    (enabledTrap clearing).pc.getLsbD 0 = false := by decide

/-- The last writable number, the first read-only one, and a zero operand. -/
theorem test_hyp_CsrInstructions :
    ((0xBFF#12).toNat < 0xC00 ∧ ¬ False) ∧ ¬ (0xC00#12).toNat < 0xC00 ∧ base.getReg 6 = 0 ∧
    (put base (.x 6 1)).getReg 6 ≠ 0 := by decide

theorem test_hyp_ReadOnlyCsrsNeverChange :
    completes (step addNext) = true ∧ 0xC00 ≤ (0xC00#12).toNat ∧ 0xC00 ≤ (0xFFF#12).toNat := by decide

theorem test_hyp_OnlyCsrInstructionsAndMretChangeCsrs :
    (completes (exec (.add 5#5 6#5 7#5) base) = true ∧ (Instr.add 5#5 6#5 7#5).isCsr = false ∧
      Instr.add 5#5 6#5 7#5 ≠ .mret) ∧
    completes (exec .mret base) = true ∧ Instr.mret.isCsr = false ∧ (0x341#12) ≠ 0x300#12 := by decide

theorem test_hyp_EcallExitsOrReturnsZero :
    (put base (.x 17 93)).getReg 17#5 = 93#32 ∧ base.getReg 17#5 ≠ 93#32 ∧ (put base .exit).exitFlag = true := by decide

theorem test_hyp_ExitOnlyByEcall93 :
    completes (exec .ecall (put base (.x 17 93))) = true ∧ isNext (step exitNext) (fun t => t.exitFlag) = true := by
  decide

/-- The edges of guest memory. -/
theorem test_hyp_LoadsFromGuestMemory :
    InGuest (eaSigned base 6#5 0#12) ∧ InGuest (eaSigned lastGuest 6#5 0#12) ∧
    InGuest (eaUnsigned base (8#5 + (0#3).setWidth 5) 0x7C#7) ∧ InGuest (eaUnsigned base 2#5 0xFC#8) := by
  unfold InGuest; decide

theorem test_hyp_LoadsFromTheDeviceWindow :
    ¬ InGuest (eaSigned firstDevice 6#5 0#12) ∧ ¬ InGuest (eaSigned lastDevice 6#5 0#12) ∧
    select lastDevice.params.devAddr (eaSigned lastDevice 6#5 0#12) = none ∧ devMapWf base.params.devAddr = true ∧
    eaSigned (base.setReg 6 fallbackDevMap.getch) 6#5 0#12 = base.params.devAddr.getch ∧
    ¬ InGuest fallbackDevMap.getch := by unfold InGuest; decide

-- R67: the bits written, zero-extended; the low bits read
theorem test_forms :
    (storeForms (base.setReg 7 0xFFFFFFFF#32) 6#5 7#5 0#12).map (fun f => (f.bytes, f.value)) =
      [(1, 0xFF#32), (2, 0xFFFF#32), (4, 0xFFFFFFFF#32)] ∧
    (loadForms 5#5 6#5 0#12).map (fun g => g.ext 0x12348081#32) =
      [0xFFFFFF81#32, 0xFFFF8081#32, 0x12348081#32, 0x81#32, 0x8081#32] := by decide
-- R70: a byte of all ones written to STDIO is a character and not the flush value; R77: a narrow store replaces a half
theorem test_narrow_device_stores :
    isNext (exec (.sb 6#5 7#5 0#12) (at6 fallbackDevMap.stdio [.x 7 0xFFFFFFFF]))
      (fun t => t.sent == [.stdoutByte 0xFF#8]) = true ∧
    isNext (exec (.sb 6#5 7#5 0#12) (put timerAt (.x 7 0x1234) |>.setReg 6 fallbackDevMap.mtimecmpL))
      (fun t => t.mtimecmp == 0x500000034#64) = true := by decide

theorem test_hyp_StoresToGuestMemory :
    InGuest (eaSigned lastGuest 6#5 0#12) ∧
    InGuest (eaUnsigned base (8#5 + (7#3).setWidth 5) 0x7C#7) ∧ InGuest (eaUnsigned base 2#5 0xFC#8) := by
  unfold InGuest; decide

theorem test_hyp_StoreThenLoadAtAnyAlignment :
    InGuest (eaSigned lastGuest 6#5 0#12) ∧ 2 ≤ lastGuest.params.memLog2.val ∧ 5#5 ≠ 0#5 ∧
    ∀ k : Nat, k < 4 → Undisturbed lastGuest (eaSigned lastGuest 6#5 0#12 + BitVec.ofNat 32 k) :=
  ⟨by unfold InGuest; decide, by decide, by decide, fun _ _ => undisturbed_of_no_ring rfl rfl _⟩

theorem test_hyp_GuestMemoryWraps :
    InGuest 0x200#32 ∧ InGuest 0xFC000200#32 ∧
    (0x200#32).toNat % memSize base.params = (0xFC000200#32).toNat % memSize base.params := by
  unfold InGuest; decide

theorem test_hyp_LoadReserved :
    InGuest (lastGuest.getReg 6#5) ∧ ¬ InGuest (firstDevice.getReg 6#5) := by
  unfold InGuest; decide

theorem test_hyp_StoreConditional :
    (put lastGuest (.res (some 0xFEFFFFFF))).mreserved = some (lastGuest.getReg 6#5) ∧
    InGuest (lastGuest.getReg 6#5) ∧ lastGuest.mreserved ≠ some (lastGuest.getReg 6#5) ∧
    ((put firstDevice (.res (some 0xFF000000))).mreserved = some (firstDevice.getReg 6#5) ∧
      ¬ InGuest (firstDevice.getReg 6#5)) ∧
    isStored (deviceStore base fallbackDevMap.displayBase 1#32) (fun t => t.dev.display[0] == 1#32) = true ∧
    isRejected (deviceStore hartOwns lockAddr 1#32) .audioLockRetaken = true := by
  unfold InGuest; decide

theorem test_hyp_AtomicMemoryOperations :
    InGuest (lastGuest.getReg 6#5) ∧ ¬ InGuest (firstDevice.getReg 6#5) ∧ ¬ InGuest (lastDevice.getReg 6#5) := by
  unfold InGuest; decide

theorem test_hyp_OnlyLrAndScChangeTheReservation :
    completes (exec (.lrW 5#5 6#5 0#1 0#1) base) = true ∧ completes (exec (.scW 5#5 6#5 7#5 0#1 0#1) base) = true ∧
    completes (exec (.sw 6#5 7#5 0#12) breaking) = true ∧ breaking.params.storeBreaksReservation = true ∧
    completes (exec (.sw 6#5 7#5 0#12) base) = true ∧ CheckNext (atCheck false) ∧
    (storeAt breaking (.sw 6#5 7#5 0#12) = some (0#32, 4) ∧ storeAt breaking (.add 5#5 6#5 7#5) = none) ∧
    (reservationAfter (put breaking (.res (some 3))) 0#32 4 = none ∧
      reservationAfter (put breaking (.res (some 4))) 0#32 4 = some 4#32 ∧
      reservationAfter (put base (.res (some 3))) 0#32 4 = some 3#32) ∧
    (blitState base).selects (eaSigned (blitState base) 6#5 0#12) = some (.display 7) := by
  refine ⟨?_, ?_, ?_, ?_, ?_, ?_, ?_, ?_, ?_⟩ <;> first | decide | (unfold CheckNext; decide)

def dividing (a b : Nat) (s : State) : State := put (put s (.x 6 a)) (.x 7 b)

theorem test_hyp_Divisions :
    (dividing 7 2 base).getReg 7#5 ≠ 0 ∧
    ¬ ((dividing 0x80000000 1 base).getReg 6#5 = 0x80000000#32 ∧
      (dividing 0x80000000 1 base).getReg 7#5 = 0xFFFFFFFF#32) := by decide

theorem test_hyp_DivisionCorners :
    (base.params.divCorner = .riscv ∧ base.getReg 7#5 = 0 ∧
      (dividing 0x80000000 0xFFFFFFFF base).getReg 6#5 = 0x80000000#32 ∧
      (dividing 0x80000000 0xFFFFFFFF base).getReg 7#5 = 0xFFFFFFFF#32) ∧
    (refusing.params.divCorner = .refuse ∧ refusing.getReg 7#5 = 0 ∧
      (dividing 0x80000000 0xFFFFFFFF refusing).getReg 6#5 = 0x80000000#32 ∧
      (dividing 0x80000000 0xFFFFFFFF refusing).getReg 7#5 = 0xFFFFFFFF#32) := by decide

theorem test_hyp_DivisionIdentity :
    (dividing 0xFFFFFFF9 2 base).getReg 7#5 ≠ 0 ∧ ((dividing 0xFFFFFFF9 2 base).getReg 6#5).toInt ≤ 0 ∧
    0 ≤ ((dividing 7 0xFFFFFFFE base).getReg 6#5).toInt ∧
    ¬ ((dividing 7 0xFFFFFFFE base).getReg 6#5 = 0x80000000#32) := by decide

/-- MTIMECMPL at the first address of the device window. -/
def compareFirst : State :=
  { allMoves with
    params := { allMoves.params with devAddr := { fallbackDevMap with
      stdio := fallbackDevMap.mtimecmpL, mtimecmpL := 0xFF000000#32 } }
    mtimecmp := 0x1234#64 }

/-- The two accesses of a 64-bit move end at the last guest word; the second lies in the device window (the vector of
95_test_vectors section 8), or the first. -/
theorem test_hyp_FloatingLoads :
    (allMoves.params.fpMoves.cFld ∧ allMoves.params.fpMoves.cFlw ∧
      allMoves.params.fpMoves.cFldsp ∧ allMoves.params.fpMoves.cFlwsp) ∧
    InGuest (eaUnsigned (allMoves.setReg 8 0xFEFFFFFB#32) (8#5 + (0#3).setWidth 5) 0#8) ∧
    InGuest (eaUnsigned (allMoves.setReg 8 0xFEFFFFFB#32) (8#5 + (0#3).setWidth 5) 0#8 + 4) ∧
    InGuest (eaUnsigned allMoves 2#5 0x1F8#9) ∧ InGuest (eaUnsigned allMoves 2#5 0x1F8#9 + 4) ∧
    (InGuest 0xFEFFFFFC#32 ∧ ¬ InGuest (0xFEFFFFFC#32 + 4) ∧ ¬ InGuest 0xFFFFFFFC#32 ∧ InGuest (0xFFFFFFFC#32 + 4)) ∧
    isNext (exec (.cFld 0#3 1#3 0#8) (put (put compareFirst (.x 9 0xFEFFFFFC)) (.m 0xFEFFFFFC [0x78, 0x56])))
      (fun t => t.getFreg 8 == 0x123400005678#64) = true := by
  unfold InGuest; decide

theorem test_hyp_FloatingStores :
    (allMoves.params.fpMoves.cFsd ∧ allMoves.params.fpMoves.cFsw ∧
      allMoves.params.fpMoves.cFsdsp ∧ allMoves.params.fpMoves.cFswsp) ∧
    InGuest (eaUnsigned (allMoves.setReg 8 0xFEFFFFFB#32) (8#5 + (0#3).setWidth 5) 0#8 + 4) ∧
    InGuest (eaUnsigned allMoves 2#5 0xFC#8) ∧
    (InGuest 0xFEFFFFFC#32 ∧ ¬ InGuest (0xFEFFFFFC#32 + 4) ∧ ¬ InGuest 0xFFFFFFFC#32 ∧ InGuest (0xFFFFFFFC#32 + 4)) ∧
    isNext (exec (.cFsd 0#3 1#3 0#8) (put (put compareFirst (.x 9 0xFEFFFFFC)) (.f 8 0x567800001234)))
      (fun t => holdsBytes t 0xFEFFFFFC [0x34, 0x12] && t.mtimecmp == 0x5678#64) = true ∧
    isRefused (exec (.cFsw 0#3 1#3 0#7) ((withOwner .hart [] allMoves).setReg 9 lockAddr)) .audioLockRetaken = false ∧
    isRefused (exec (.cFsw 0#3 1#3 0#7) (put ((withOwner .hart [] allMoves).setReg 9 lockAddr) (.f 8 1)))
      .audioLockRetaken = true := by
  unfold InGuest; decide

theorem test_hyp_CompressedExpansions :
    (Instr.cLui 5#5 0x3F000#18).wf = true ∧ (Instr.cLui 5#5 0x3F000#18).expansion = some (.lui 5#5 0xFFFFF#20) := by
  decide

theorem test_hyp_RegisterFrame :
    completes (exec (.sw 6#5 7#5 0#12) base) = true ∧ (Instr.sw 6#5 7#5 0#12).dest ≠ some 5#5 := by decide

/-- A load, a store and an address it does not write, a store to a device register. -/
theorem test_hyp_GuestMemoryFrame :
    (completes (exec (.lw 5#5 6#5 0#12) base) = true ∧ storeAt base (.lw 5#5 6#5 0#12) = none) ∧
    (completes (exec (.sw 6#5 7#5 4#12) base) = true ∧ storeAt base (.sw 6#5 7#5 4#12) = some (4#32, 4)) ∧
    StoreCalm base 4#32 4 ∧ ¬ Stored base 4#32 4 8#32 ∧ ¬ Stored base 4#32 4 3#32 ∧
    StoreCalm base fallbackDevMap.stdio 4 ∧ ¬ Stored base fallbackDevMap.stdio 4 0#32 ∧ Undisturbed base 8#32 := by
  unfold StoreCalm Stored InGuest storeParts
  refine ⟨by decide, by decide, ⟨by decide, by decide⟩, ?_, ?_, ⟨by decide, by decide⟩, ?_,
    undisturbed_of_no_ring rfl rfl _⟩
  · rintro ⟨p, hp, _, k, hk, h⟩
    rcases List.mem_singleton.1 hp with rfl
    have hk : k < 4 := hk
    have : k = 0 ∨ k = 1 ∨ k = 2 ∨ k = 3 := by omega
    rcases this with rfl | rfl | rfl | rfl <;> revert h <;> decide
  · rintro ⟨p, hp, _, k, hk, h⟩
    rcases List.mem_singleton.1 hp with rfl
    have hk : k < 4 := hk
    have : k = 0 ∨ k = 1 ∨ k = 2 ∨ k = 3 := by omega
    rcases this with rfl | rfl | rfl | rfl <;> revert h <;> decide
  · rintro ⟨p, hp, hg, _⟩
    rcases List.mem_singleton.1 hp with rfl
    revert hg; decide

theorem test_hyp_FloatingSlotFrame :
    (completes (exec (.cFld 0#3 1#3 0#8) base) = true ∧ (Instr.cFld 0#3 1#3 0#8).fdest ≠ some 9#5) ∧
    (completes (exec (.cFlw 0#3 1#3 0#7) base) = true ∧ (Instr.cFlw 0#3 1#3 0#7).enabled base.params = false) ∧
    CheckNext (atCheck true) ∧ ∃ t, step (atCheck true) = .next t := by
  exact ⟨by decide, by decide, by unfold CheckNext; decide, _, rfl⟩

theorem test_hyp_DeviceAndScheduleFrame :
    completes (exec (.cFsd 0#3 1#3 0#8) base) = true ∧
    ∀ a ∈ accessStarts base (.cFsd 0#3 1#3 0#8), InGuest a := by
  refine ⟨by decide, fun a ha => ?_⟩
  have ha : a ∈ [0#32, 4#32] := ha
  have : a = 0#32 ∨ a = 4#32 := by simpa using ha
  rcases this with rfl | rfl <;> (unfold InGuest; decide)

/-- A store of 0 to AUDIO_IN_LOCK by a hart that does not own the mutex. -/
theorem lock_not_owned : exec (.sw 6#5 7#5 0#12) (at6 lockAddr []) = .refused .audioLockNotOwned := by
  have hn : ¬ (captureInstant (at6 lockAddr [])).dev.audioOwner = .hart := fun h => by
    cases (captureInstant_frame (at6 lockAddr [])).hart.1 h
  have hd : isDevice (eaSigned (at6 lockAddr []) 6#5 0#12) = true := by decide
  have hs : (at6 lockAddr []).selects (eaSigned (at6 lockAddr []) 6#5 0#12) = some (.audioIn 6) := by decide
  have hv : Width.word.low ((at6 lockAddr []).getReg 7#5) = 0 := by decide
  have hw : memWrite .word (eaSigned (at6 lockAddr []) 6#5 0#12) ((at6 lockAddr []).getReg 7#5) (at6 lockAddr []) =
      .error .audioLockNotOwned := by
    simp only [memWrite, memStore, hd, hs, hv, if_true, devStore, storeAudioIn, storeAudioLock, if_neg hn, Except.map]
  exact congrArg (retireAfter len4) hw

/-- Each refusal is reached. -/
theorem test_hyp_OnlyNamedRefusals :
    isRefused (exec (.div 5#5 6#5 7#5) refusing) .divisionCorner = true ∧
    isRefused (exec (.cFlw 0#3 0#3 0#7) refusing) .reservedEncoding = true ∧
    isRefused (exec (.sw 6#5 7#5 0#12) (withOwner .hart [] (at6 lockAddr [.x 7 1]))) .audioLockRetaken = true ∧
    exec (.sw 6#5 7#5 0#12) (at6 lockAddr []) = .refused .audioLockNotOwned ∧
    isRefused (exec (.sw 6#5 7#5 0#12) (put (blitState unfixed) (.x 7 0x00010001))) .bitBltNotFixed = true :=
  ⟨by decide, by decide, by decide, lock_not_owned, by decide⟩

theorem test_hyp_TimerRegisters :
    devMapWf base.params.devAddr = true ∧
    eaSigned (at6 fallbackDevMap.mtimecmpL []) 6#5 0#12 = base.params.devAddr.mtimecmpL ∧
    eaSigned (at6 fallbackDevMap.mtimecmpH []) 6#5 0#12 = base.params.devAddr.mtimecmpH ∧
    eaSigned (at6 fallbackDevMap.mtimecurL []) 6#5 0#12 = base.params.devAddr.mtimecurL ∧
    eaSigned (at6 fallbackDevMap.mtimecurH []) 6#5 0#12 = base.params.devAddr.mtimecurH := by
  decide

/-- The first and the last address of each block: DISP_WH, byte 0, and DISP_BITBLT_WH, byte 3; AUDIO_OUT_FMT, byte 0,
and AUDIO_OUT_LOCK, byte 3; and one between. -/
theorem test_hyp_DisplayAndAudioOutRegisters :
    devMapWf base.params.devAddr = true ∧
    (eaSigned (at6 fallbackDevMap.displayBase []) 6#5 0#12).toNat = base.params.devAddr.displayBase.toNat + 4 * 0 + 0 ∧
    (eaSigned (at6 fallbackDevMap.displayBase []) 6#5 31#12).toNat
      = base.params.devAddr.displayBase.toNat + 4 * 7 + 3 ∧
    (eaSigned (at6 fallbackDevMap.displayBase []) 6#5 27#12).toNat
      = base.params.devAddr.displayBase.toNat + 4 * 6 + 3 ∧
    (at6 fallbackDevMap.displayBase []).getReg 7#5 = base.dev.display[0] ∧
    (eaSigned (at6 fallbackDevMap.audioOutBase []) 6#5 0#12).toNat
      = base.params.devAddr.audioOutBase.toNat + 4 * 0 + 0 ∧
    (eaSigned (at6 fallbackDevMap.audioOutBase []) 6#5 27#12).toNat
      = base.params.devAddr.audioOutBase.toNat + 4 * 6 + 3 ∧
    (at6 fallbackDevMap.audioOutBase []).getReg 7#5 = base.dev.audioOut[0] := by decide

-- R75: the audio-out registers store and read back
theorem test_audio_out :
    isNext (exec (.sw 6#5 7#5 16#12) (at6 fallbackDevMap.audioOutBase [.x 7 0x12345678]))
      (fun t => t.dev.audioOut[4] == 0x12345678#32) = true := by decide
-- R76: and the audio-in registers; a changed SIZE makes a ring
theorem test_audio_in :
    isNext (exec (.sw 6#5 7#5 16#12) (at6 fallbackDevMap.audioInBase [.x 7 0x40]))
      (fun t => t.dev.audioIn[4] == 0x40#32 && t.dev.ringMade) = true ∧
    isNext (exec (.lw 5#5 6#5 4#12) (withAudioIn 1#32 (at6 fallbackDevMap.audioInBase [])))
      (fun t => t.getReg 5 == 0x500#32) = true := by decide

theorem test_hyp_CpuFrequencyIsClamped :
    devMapWf base.params.devAddr = true ∧
    eaSigned (at6 fallbackDevMap.cpuFreq []) 6#5 0#12 = base.params.devAddr.cpuFreq := by
  decide

/-- Every address is an effective address. -/
theorem at6_address (a : Word) : eaSigned (at6 a []) 6#5 0#12 = a := by
  have h : eaSigned (at6 a []) 6#5 0#12 = a + 0#32 := rfl
  rw [h, BitVec.add_zero]

theorem test_hyp_ConsoleAndInertWrites :
    devMapWf base.params.devAddr = true ∧
    (∀ a : Word, eaSigned (at6 a []) 6#5 0#12 = a) ∧
    ¬ InGuest 0xFFFFFFFF#32 ∧ select base.params.devAddr 0xFFFFFFFF#32 = none ∧
    select base.params.devAddr 0xFF000001#32 = none ∧
    (base.params.devAddr.keybdBase.toNat ≤ (0xFF00010F#32).toNat ∧
      (0xFF00010F#32).toNat < base.params.devAddr.keybdBase.toNat + 16) := by
  refine ⟨?_, at6_address, ?_, ?_, ?_, ?_⟩ <;> first | decide | (unfold InGuest; decide)

/-- A byte before the end, the cursor at the end, no disk. -/
theorem test_hyp_DiskRegisters :
    devMapWf base.params.devAddr = true ∧
    ((withDisk 4095 [(4095, 0x5A#8)] base).dev.disk = some ⟨4096, [(4095, 0x5A#8)]⟩ ∧
      (withDisk 4095 [(4095, 0x5A#8)] base).dev.diskPos < 4096) ∧
    ((withDisk 4096 [] base).dev.disk = some ⟨4096, []⟩ ∧ 4096 ≤ (withDisk 4096 [] base).dev.diskPos) ∧
    base.dev.disk = none ∧ (∀ a : Word, eaSigned (at6 a []) 6#5 0#12 = a) :=
  ⟨by decide, ⟨rfl, by decide⟩, ⟨rfl, Nat.le_refl _⟩, rfl, at6_address⟩

/-- The first and the last address of the block, LOCK; the mutex free, held by the capture agent, held by the hart. -/
theorem test_hyp_AudioInRegisters :
    devMapWf base.params.devAddr = true ∧
    (eaSigned (at6 fallbackDevMap.audioInBase []) 6#5 0#12).toNat
      = base.params.devAddr.audioInBase.toNat + 4 * (0 : Fin 7).val + 0 ∧
    (eaSigned (at6 fallbackDevMap.audioInBase []) 6#5 23#12).toNat
      = base.params.devAddr.audioInBase.toNat + 4 * (5 : Fin 7).val + 3 ∧
    (eaSigned (at6 lockAddr []) 6#5 0#12).toNat = base.params.devAddr.audioInBase.toNat + 4 * (6 : Fin 7).val + 0 ∧
    (base.dev.audioOwner = .free ∧ base.dev.capturePending = []) ∧
    captureOwns.dev.audioOwner = .capture ∧ (hartOwns.dev.audioOwner = .hart ∧ hartOwns.dev.capturePending = []) ∧
    (at6 lockAddr []).getReg 7#5 = 0 ∧ (at6 lockAddr [.x 7 1]).getReg 7#5 ≠ 0 :=
  ⟨by decide, by decide, by decide, by decide, by decide, rfl, ⟨rfl, rfl⟩, rfl, show (1#32 : Word) ≠ 0 by decide⟩

/-- A rectangle of 2 by 2 pixels of one byte: the source at 0x300 to 0x303, the destination in two rows of a display 8
wide; and the cases of a launch that does not fix the parameters. -/
theorem test_hyp_BitBltOnDisplayWrite :
    (devMapWf base.params.devAddr = true ∧
      (eaSigned (blitState base) 6#5 0#12).toNat = base.params.devAddr.displayBase.toNat + 28 + 0 ∧
      base.params.blt = some ⟨1, .firstHigh, false⟩) ∧
    (let b := bltOf ⟨1, .firstHigh, false⟩ ((blitState base).dev.display.set 7 0x00020002#32)
      let source (r j : Nat) : Word := b.source + BitVec.ofNat 32 (r * b.w.toNat * 1 + j)
      let dest (r j : Nat) : Word := (blitState base).dev.display[1] +
        BitVec.ofNat 32 (((b.dy.toNat + r) * b.width.toNat + b.dx.toNat) * 1 + j)
      (b.h.toNat = 2 ∧ b.w.toNat * 1 = 2) ∧
      (∀ a, Undisturbed (blitState base) a) ∧
      (∀ r < 2, ∀ j < 2, (source r j).toNat < 0xFF000000 ∧ (dest r j).toNat < 0xFF000000) ∧
      (∀ r < 2, ∀ j < 2, ∀ r' < 2, ∀ j' < 2,
        backingIndex base.params (source r j) ≠ backingIndex base.params (dest r' j') ∧
        (backingIndex base.params (dest r j) = backingIndex base.params (dest r' j') → r = r' ∧ j = j'))) ∧
    unfixed.params.blt = none ∧ (0x00010001#32).extractLsb' 0 16 ≠ 0 ∧ (0x00010001#32).extractLsb' 16 16 ≠ 0 ∧
    (0x00010000#32).extractLsb' 0 16 = 0 := by
  refine ⟨by decide, ⟨by decide, undisturbed_of_no_ring rfl rfl, by decide, fun r hr j hj r' hr' j' hj' => ?_⟩, by decide⟩
  rcases (by omega : r = 0 ∨ r = 1) with rfl | rfl <;> rcases (by omega : j = 0 ∨ j = 1) with rfl | rfl <;>
    rcases (by omega : r' = 0 ∨ r' = 1) with rfl | rfl <;> rcases (by omega : j' = 0 ∨ j' = 1) with rfl | rfl <;> decide

/-- A ring of 4 bytes: an overflow, none, samples that fit and more than fit, and a byte outside it. -/
theorem test_hyp_CaptureStepAppends :
    ((withAudioIn 3#32 base).dev.audioOwner = .free ∧ (withAudioIn 3#32 base).dev.audioIn[4] = 4#32 ∧
      (4#32).toNat ≤ memSize base.params) ∧
    (4#32 < 3#32 + BitVec.ofNat 32 [0xA1#8, 0xA2#8].length ∧ 3#32 + BitVec.ofNat 32 [0xA1#8].length ≤ 4#32) ∧
    ((withAudioIn 3#32 base).dev.audioIn[3].toNat + [1#8, 2#8, 3#8, 4#8, 5#8].length ≤ 2 ^ 32 ∧
      [1#8, 2#8, 3#8, 4#8, 5#8].length ≤ 1 + (4#32).toNat) ∧ ¬ InRing (withAudioIn 3#32 base) 0x504#32 := by
  have hb : ∀ x : Nat, x < 4 → backingIndex base.params (0x500#32 + BitVec.ofNat 32 x) ≠
      backingIndex base.params 0x504#32 := by decide
  exact ⟨by decide, by decide, by decide, fun ⟨x, hx, hk⟩ => hb x hx hk⟩

/-- A state that is not reset's and meets the invariant, and a step from it. -/
theorem test_hyp_InvariantKept : Inv (put addNext (.x 6 5)) ∧ completes (step (put addNext (.x 6 5))) = true := by
  refine ⟨⟨by decide, by decide, by decide, by decide, by decide, by decide, by decide, ?_, ?_, ?_, ?_, by decide,
    by decide⟩, by decide⟩
  · decide
  · exact fun _ => rfl
  · exact fun _ => ⟨rfl, fun e he => by cases he⟩
  · intro d hd; cases hd

theorem test_hyp_BootLoadsTheRom :
    [1#8, 2#8].length ≤ memSize { testParams with memLog2 := 1 } ∧
    memSize { testParams with memLog2 := 0 } < [1#8, 2#8].length := by decide

def mretNext (s : State) : State := s.withFetchWord 32 0x30200073

/-- A step of another instruction with an odd `mepc`; MRET with an even one; MRET with an odd one that is cleared. -/
theorem test_hyp_PcStaysEven :
    ((put addNext (.c 0x341 0x125)).pc.getLsbD 0 = false ∧ completes (step (put addNext (.c 0x341 0x125))) = true ∧
      decode (fetch (put addNext (.c 0x341 0x125))).1 = .ok (.add 5#5 6#5 7#5)) ∧
    (decode (fetch (mretNext base)).1 = .ok .mret ∧ ((mretNext base).csr 0x341#12).getLsbD 0 = false ∧
      completes (step (mretNext base)) = true) ∧
    (decode (fetch (mretNext clearing)).1 = .ok .mret ∧ (mretNext clearing).params.mretClearsBit0 = true) := by decide

/-- With the hold flag set and not set, and a ring that has a size. -/
theorem test_hyp_FrameSchedule :
    (HartNext addNext ∧ completes (step addNext) = true) ∧
    (CheckNext (atCheck true) ∧ (atCheck true).sched.lastBatch = true ∧ ∃ t, step (atCheck true) = .next t) ∧
    ({ base.dev with audioOut := #v[0, 0, 0, 0, 4, 2, 1] } : Devices).audioOut[6] ≠ 0 ∧
    ({ base.dev with audioOut := #v[0, 0, 0, 0, 4, 2, 0] } : Devices).audioOut[4] ≠ 0 ∧
    ¬ InRing (withAudioIn 1#32 (atCheck true)) 0x504#32 ∧ ¬ Owed (withAudioIn 1#32 (atCheck true)) 0x504#32 := by
  have hb : ∀ x : Nat, x < 4 → backingIndex base.params (0x500#32 + BitVec.ofNat 32 x) ≠
      backingIndex base.params 0x504#32 := by decide
  exact ⟨⟨by unfold HartNext; decide, by decide⟩, ⟨by unfold CheckNext; decide, rfl, _, rfl⟩, by decide, by decide,
    fun ⟨x, hx, hk⟩ => hb x hx hk, fun ⟨e, he, _⟩ => by cases he⟩


end Sys2Proof.Tests
end

section
/-! SUPPORT. The statements about the state of the hart (10_state): what a step, an instruction and a check point leave as
they were. Each is derived from one lemma a shared operation of the meanings. -/

namespace Sys2Proof

/-! ## The decoder gives well-formed instructions -/

theorem lowZero_immB (w : BitVec 32) : lowZero 1 (immB w) = true := by
  simp (disch := decide) [lowZero, immB, BitVec.extractLsb'_or, extract_place_below]

theorem lowZero_immJ (w : BitVec 32) : lowZero 1 (immJ w) = true := by
  simp (disch := decide) [lowZero, immJ, BitVec.extractLsb'_or, extract_place_below]

theorem lowZero_immAddi4spn (h : BitVec 16) : lowZero 2 (immAddi4spn h) = true := by
  simp (disch := decide) [lowZero, immAddi4spn, BitVec.extractLsb'_or, extract_place_below]

theorem lowZero_immCD (h : BitVec 16) : lowZero 3 (immCD h) = true := by
  simp (disch := decide) [lowZero, immCD, BitVec.extractLsb'_or, extract_place_below]

theorem lowZero_immCW (h : BitVec 16) : lowZero 2 (immCW h) = true := by
  simp (disch := decide) [lowZero, immCW, BitVec.extractLsb'_or, extract_place_below]

theorem lowZero_immCJ (h : BitVec 16) : lowZero 1 (immCJ h) = true := by
  simp (disch := decide) [lowZero, immCJ, BitVec.extractLsb'_or, extract_place_below]

theorem lowZero_immAddi16sp (h : BitVec 16) : lowZero 4 (immAddi16sp h) = true := by
  simp (disch := decide) [lowZero, immAddi16sp, BitVec.extractLsb'_or, extract_place_below]

theorem lowZero_immCLui (h : BitVec 16) : lowZero 12 (immCLui h) = true := by
  simp (disch := decide) [lowZero, immCLui, BitVec.extractLsb'_or, extract_place_below]

theorem lowZero_immCB (h : BitVec 16) : lowZero 1 (immCB h) = true := by
  simp (disch := decide) [lowZero, immCB, BitVec.extractLsb'_or, extract_place_below]

theorem lowZero_immLwsp (h : BitVec 16) : lowZero 2 (immLwsp h) = true := by
  simp (disch := decide) [lowZero, immLwsp, BitVec.extractLsb'_or, extract_place_below]

theorem lowZero_immFldsp (h : BitVec 16) : lowZero 3 (immFldsp h) = true := by
  simp (disch := decide) [lowZero, immFldsp, BitVec.extractLsb'_or, extract_place_below]

theorem lowZero_immSwsp (h : BitVec 16) : lowZero 2 (immSwsp h) = true := by
  simp (disch := decide) [lowZero, immSwsp, BitVec.extractLsb'_or, extract_place_below]

theorem lowZero_immFsdsp (h : BitVec 16) : lowZero 3 (immFsdsp h) = true := by
  simp (disch := decide) [lowZero, immFsdsp, BitVec.extractLsb'_or, extract_place_below]

/-- What a decoder gives, if it accepts, is well formed. -/
def GivesWf (r : Except Reject Instr) : Prop := ∀ i, r = .ok i → i.wf = true

namespace GivesWf

theorem ok {i : Instr} (h : i.wf = true) : GivesWf (.ok i) := by
  rintro _ ⟨⟩
  exact h

theorem error (e : Reject) : GivesWf (.error e) := nofun

theorem ite {c : Prop} [Decidable c] {a b : Except Reject Instr} (ha : c → GivesWf a) (hb : ¬ c → GivesWf b) :
    GivesWf (if c then a else b) := by
  split
  · next hc => exact ha hc
  · next hc => exact hb hc

end GivesWf

/-! One lemma a decoder; each proof follows the decoder's own chain of tests. -/

theorem decodeBranch_wf (f3 : BitVec 3) (rs1 rs2 : Reg) {imm : BitVec 13} (hb : lowZero 1 imm = true) :
    GivesWf (decodeBranch f3 rs1 rs2 imm) := by
  unfold decodeBranch
  repeat' refine .ite (fun _ => ?_) (fun _ => ?_)
  all_goals rintro _ ⟨⟩ <;> exact hb

theorem decodeLoad_wf (f3 : BitVec 3) (rd rs1 : Reg) (imm : BitVec 12) : GivesWf (decodeLoad f3 rd rs1 imm) := by
  unfold decodeLoad
  repeat' refine .ite (fun _ => ?_) (fun _ => ?_)
  all_goals rintro _ ⟨⟩ <;> rfl

theorem decodeStore_wf (f3 : BitVec 3) (rs1 rs2 : Reg) (imm : BitVec 12) : GivesWf (decodeStore f3 rs1 rs2 imm) := by
  unfold decodeStore
  repeat' refine .ite (fun _ => ?_) (fun _ => ?_)
  all_goals rintro _ ⟨⟩ <;> rfl

theorem decodeOpImm_wf (f7 : BitVec 7) (f3 : BitVec 3) (rd rs1 : Reg) (shamt : BitVec 5) (imm : BitVec 12) :
    GivesWf (decodeOpImm f7 f3 rd rs1 shamt imm) := by
  unfold decodeOpImm
  repeat' refine .ite (fun _ => ?_) (fun _ => ?_)
  all_goals rintro _ ⟨⟩ <;> rfl

theorem decodeOp_wf (f7 : BitVec 7) (f3 : BitVec 3) (rd rs1 rs2 : Reg) : GivesWf (decodeOp f7 f3 rd rs1 rs2) := by
  unfold decodeOp
  repeat' refine .ite (fun _ => ?_) (fun _ => ?_)
  all_goals rintro _ ⟨⟩ <;> rfl

theorem decodeMiscMem_wf (f3 : BitVec 3) (fm pred succ : BitVec 4) (imm : BitVec 12) (rs1 rd : Reg) :
    GivesWf (decodeMiscMem f3 fm pred succ imm rs1 rd) := by
  unfold decodeMiscMem
  repeat' refine .ite (fun _ => ?_) (fun _ => ?_)
  all_goals rintro _ ⟨⟩ <;> rfl

theorem decodeAmo_wf (f5 : BitVec 5) (f3 : BitVec 3) (rd rs1 rs2 : Reg) (aq rl : BitVec 1) :
    GivesWf (decodeAmo f5 f3 rd rs1 rs2 aq rl) := by
  unfold decodeAmo
  repeat' refine .ite (fun _ => ?_) (fun _ => ?_)
  all_goals rintro _ ⟨⟩ <;> rfl

theorem decodeSystem_wf (hi : BitVec 25) (f3 : BitVec 3) (rd rs1 : Reg) (csr : BitVec 12) :
    GivesWf (decodeSystem hi f3 rd rs1 csr) := by
  unfold decodeSystem
  repeat' refine .ite (fun _ => ?_) (fun _ => ?_)
  all_goals rintro _ ⟨⟩ <;> rfl

theorem decode32_wf (w : BitVec 32) : GivesWf (decode32 w) :=
  .ite (fun _ => .ok rfl) fun _ =>
  .ite (fun _ => .ok rfl) fun _ =>
  .ite (fun _ => .ok (lowZero_immJ w)) fun _ =>
  .ite (fun _ => .ite (fun _ => .ok rfl) fun _ => .error _) fun _ =>
  .ite (fun _ => decodeBranch_wf _ _ _ (lowZero_immB w)) fun _ =>
  .ite (fun _ => decodeLoad_wf _ _ _ _) fun _ =>
  .ite (fun _ => decodeStore_wf _ _ _ _) fun _ =>
  .ite (fun _ => decodeOpImm_wf _ _ _ _ _ _) fun _ =>
  .ite (fun _ => decodeOp_wf _ _ _ _ _) fun _ =>
  .ite (fun _ => decodeMiscMem_wf _ _ _ _ _ _ _) fun _ =>
  .ite (fun _ => decodeAmo_wf _ _ _ _ _ _ _) fun _ =>
  .ite (fun _ => decodeSystem_wf _ _ _ _ _) fun _ => .error _

theorem decodeQ0_wf (h : BitVec 16) : GivesWf (decodeQ0 h) :=
  .ite (fun _ => .ite (fun _ => .error _) fun h0 => .ok 
    (by rw [Instr.wf, lowZero_immAddi4spn, bne_iff_ne.2 h0]; rfl)) fun _ =>
  .ite (fun _ => .ok (lowZero_immCD h)) fun _ =>
  .ite (fun _ => .ok (lowZero_immCW h)) fun _ =>
  .ite (fun _ => .ok (lowZero_immCW h)) fun _ =>
  .ite (fun _ => .error _) fun _ =>
  .ite (fun _ => .ok (lowZero_immCD h)) fun _ =>
  .ite (fun _ => .ok (lowZero_immCW h)) fun _ => .ok (lowZero_immCW h)

theorem decodeQ1Alu_wf (h : BitVec 16) : GivesWf (decodeQ1Alu h) := by
  unfold decodeQ1Alu
  repeat' refine .ite (fun _ => ?_) (fun _ => ?_)
  all_goals rintro _ ⟨⟩ <;> rfl

theorem decodeQ1_wf (h : BitVec 16) : GivesWf (decodeQ1 h) :=
  .ite (fun _ => .ite (fun _ => .ok rfl) fun hrd => .ok (bne_iff_ne.2 hrd)) fun _ =>
  .ite (fun _ => .ok (lowZero_immCJ h)) fun _ =>
  .ite (fun _ => .ok rfl) fun _ =>
  .ite (fun _ => .ite
    (fun _ => .ite (fun _ => .error _) fun h0 => .ok 
      (by rw [Instr.wf, lowZero_immAddi16sp, bne_iff_ne.2 h0]; rfl))
    fun hrd => .ite (fun _ => .error _) fun h0 => .ok
      (by rw [Instr.wf, lowZero_immCLui, bne_iff_ne.2 hrd, bne_iff_ne.2 h0]; rfl)) fun _ =>
  .ite (fun _ => decodeQ1Alu_wf h) fun _ =>
  .ite (fun _ => .ok (lowZero_immCJ h)) fun _ =>
  .ite (fun _ => .ok (lowZero_immCB h)) fun _ => .ok (lowZero_immCB h)

theorem decodeQ2Reg_wf (h : BitVec 16) : GivesWf (decodeQ2Reg h) :=
  .ite
    (fun _ => .ite (fun _ => .ite (fun _ => .error _) fun hrd => .ok (bne_iff_ne.2 hrd))
      fun hrs => .ok (bne_iff_ne.2 hrs))
    fun _ => .ite (fun _ => .ite (fun _ => .ok rfl) fun hrd => .ok (bne_iff_ne.2 hrd))
      fun hrs => .ok (bne_iff_ne.2 hrs)

theorem decodeQ2_wf (h : BitVec 16) : GivesWf (decodeQ2 h) :=
  .ite (fun _ => .ite (fun _ => .ok rfl) fun _ => .error _) fun _ =>
  .ite (fun _ => .ok (lowZero_immFldsp h)) fun _ =>
  .ite (fun _ => .ite (fun _ => .error _) fun hrd => .ok
    (by rw [Instr.wf, lowZero_immLwsp, bne_iff_ne.2 hrd]; rfl)) fun _ =>
  .ite (fun _ => .ok (lowZero_immLwsp h)) fun _ =>
  .ite (fun _ => decodeQ2Reg_wf h) fun _ =>
  .ite (fun _ => .ok (lowZero_immFsdsp h)) fun _ =>
  .ite (fun _ => .ok (lowZero_immSwsp h)) fun _ => .ok (lowZero_immSwsp h)

theorem decode16_wf (h : BitVec 16) : GivesWf (decode16 h) :=
  .ite (fun _ => decodeQ0_wf h) fun _ => .ite (fun _ => decodeQ1_wf h) fun _ => decodeQ2_wf h

/-- What the decoder accepts has an encoding's immediates and registers. -/
theorem decode_wf {w : BitVec 32} {i : Instr} (h : decode w = .ok i) : i.wf = true := by
  have hw : GivesWf (decode w) := .ite (fun _ => decode32_wf w) fun _ => decode16_wf _
  exact hw i h

end Sys2Proof

namespace Sys2Proof.Machine

open Sys2Proof

variable {s t : State} {len ea v target : Word} {rd r : Reg} {w : Width} {i : Instr}

/-! ## Shared facts -/

/-- The check point changes, beside the schedule, no more than the timer check and the frame end do. -/
theorem checkPoint_frame (s : State) : FrameEndFrame (timerCheck s) (checkPoint s) := by
  simp only [checkPoint]
  split
  · exact (frameEnd_frame _).trans ⟨rfl, rfl, rfl, rfl, rfl, rfl, rfl, rfl, rfl, rfl, rfl, rfl, rfl, rfl, rfl, rfl⟩
  · exact ⟨rfl, rfl, rfl, rfl, rfl, rfl, rfl, rfl, rfl, rfl, rfl, rfl, rfl, rfl, rfl, rfl⟩

/-- Where the transition is a check point, the state after it is `checkPoint`'s. -/
theorem step_checkNext (hc : CheckNext s) (h : step s = .next t) : t = checkPoint s := by
  rw [step_of_checkNext hc] at h
  cases h
  rfl

/-- The operation of an AMO and its register fields `rd`, `rs1` and `rs2` (42_rv32a R170 to R178). -/
def amoFields : Instr → Option ((Word → Word → Word) × Reg × Reg × Reg)
  | .amoswapW rd rs1 rs2 _ _ => some (fun _ b => b, rd, rs1, rs2)
  | .amoaddW rd rs1 rs2 _ _ => some ((· + ·), rd, rs1, rs2)
  | .amoxorW rd rs1 rs2 _ _ => some ((· ^^^ ·), rd, rs1, rs2)
  | .amoandW rd rs1 rs2 _ _ => some ((· &&& ·), rd, rs1, rs2)
  | .amoorW rd rs1 rs2 _ _ => some ((· ||| ·), rd, rs1, rs2)
  | .amominW rd rs1 rs2 _ _ => some (minS, rd, rs1, rs2)
  | .amomaxW rd rs1 rs2 _ _ => some (maxS, rd, rs1, rs2)
  | .amominuW rd rs1 rs2 _ _ => some (minU, rd, rs1, rs2)
  | .amomaxuW rd rs1 rs2 _ _ => some (maxU, rd, rs1, rs2)
  | _ => none

/-- The meaning of an AMO is `amo` of its operation (R169). -/
theorem exec_amo {f : Word → Word → Word} {rs1 rs2 : Reg} (h : exec i s = .next t)
    (hf : amoFields i = some (f, rd, rs1, rs2)) : amo f rd rs1 rs2 s = .next t := by
  cases i with
  | amoswapW | amoaddW | amoxorW | amoandW | amoorW | amominW | amomaxW | amominuW | amomaxuW => cases hf; exact h
  | _ => cases hf

/-! ## No instruction faults (60_exceptions R227, R246) -/

theorem retireAfter_ne_fault (e : Except Refusal State) (f : Fault) : retireAfter len e ≠ .fault f := by
  cases e <;> nofun

theorem unmatched_ne_fault (s : State) (f : Fault) : unmatched len s ≠ .fault f := by
  unfold unmatched
  split <;> nofun

theorem branch_ne_fault (taken : Bool) (offset : Word) (s : State) (f : Fault) :
    branch len taken offset s ≠ .fault f := by
  cases taken <;> nofun

theorem divReg_ne_fault (g : DivCorner → Word → Word → Except Refusal Word) (rs1 rs2 : Reg) (s : State) (f : Fault) :
    divReg g rd rs1 rs2 s ≠ .fault f := by
  unfold divReg
  split <;> nofun

theorem execScW_ne_fault (rs1 rs2 : Reg) (aq rl : BitVec 1) (s : State) (f : Fault) :
    execScW rd rs1 rs2 aq rl s ≠ .fault f := by
  simp only [execScW]
  split
  · exact retireAfter_ne_fault _ f
  · nofun

theorem execEcall_ne_fault (s : State) (f : Fault) : execEcall s ≠ .fault f := by
  unfold execEcall
  split <;> nofun

theorem fpMove_ne_fault {b : Bool} {res : Result} {f : Fault} (h : res ≠ .fault f) : fpMove b s res ≠ .fault f := by
  cases b with
  | true => exact h
  | false => exact unmatched_ne_fault s f

/-- No instruction faults (60_exceptions R227). -/
theorem exec_ne_fault (i : Instr) (s : State) (f : Fault) : exec i s ≠ .fault f := by
  cases i with
  | beq | bne | blt | bge | bltu | bgeu | cBeqz | cBnez => exact branch_ne_fault _ _ _ f
  | sb | sh | sw | cSw | cSwsp | amoswapW | amoaddW | amoxorW | amoandW | amoorW | amominW | amomaxW | amominuW
    | amomaxuW => exact retireAfter_ne_fault _ f
  | div | divu | rem | remu => exact divReg_ne_fault _ _ _ s f
  | scW _ rs1 rs2 aq rl => exact execScW_ne_fault rs1 rs2 aq rl s f
  | ecall => exact execEcall_ne_fault s f
  | cFld | cFldsp | cFlw | cFlwsp => exact fpMove_ne_fault nofun
  | cFsd | cFsdsp | cFsw | cFswsp => exact fpMove_ne_fault (retireAfter_ne_fault _ f)
  | _ => nofun

theorem countStep_ne_fault {res : Result} {f : Fault} (h : res ≠ .fault f) : countStep res ≠ .fault f := by
  cases res with
  | fault g => exact h
  | next | refused => nofun

theorem hartStep_ne_fault (s : State) (f : Fault) : hartStep s ≠ .fault f := by
  unfold hartStep
  split
  · exact countStep_ne_fault (exec_ne_fault _ _ f)
  · exact countStep_ne_fault (unmatched_ne_fault _ f)

/-- Settles O8: no step of the hart faults, so the two faults are those of a run that has ended. -/
theorem stepFaultsOnlyAfterTheRun : Obligations.StepFaultsOnlyAfterTheRun := by
  unfold Obligations.StepFaultsOnlyAfterTheRun
  intro s f
  unfold step
  cases he : s.exitFlag with
  | true => cases f <;> simp
  | false =>
    cases hc : s.sched.closed with
    | true => cases f <;> simp
    | false =>
      by_cases h0 : s.sched.stepsLeft = 0
      · simp [h0]
      · simpa [h0] using hartStep_ne_fault s f

/-! ## Registers and slots (10_state R29 to R32) -/

/-- Settles O42, by the inversion of exec. -/
theorem registerFrame : Obligations.RegisterFrame := by
  unfold Obligations.RegisterFrame
  intro i s t h
  exact ⟨(exec_frame h).regs, (exec_frame h).zero⟩

/-- A floating-point move outside `FP_MOVES` does what an unmatched word does (30_encoding R103, R104). -/
theorem exec_of_disabled (h : i.enabled s.params = false) : exec i s = unmatched len2 s := by
  have disabled (b : Bool) (res : Result) (hb : b = false) : fpMove b s res = unmatched len2 s := by
    rw [hb]; rfl
  cases i with
  | cFld | cFlw | cFsd | cFsw | cFldsp | cFlwsp | cFsdsp | cFswsp => exact disabled _ _ h
  | _ => cases h

/-- Settles O44: a disabled load acts as an unmatched word, and every other instruction names the slot it loads. -/
theorem floatingSlotFrame : Obligations.FloatingSlotFrame := by
  unfold Obligations.FloatingSlotFrame
  refine ⟨fun i s t r h hr => ?_, fun s t hc h => ?_⟩
  · rcases hr with hr | hr
    · exact (exec_frame h).fregs r hr
    · rw [exec_of_disabled hr] at h
      rw [unmatched_next h]
      rfl
  · rw [step_checkNext hc h]
    exact (checkPoint_frame s).fregs.trans (timerCheck_frame s).fregs

/-! ## CSRs (10_state R38 to R40) -/

/-- MRET changes no CSR but `mstatus` (43_system R181). -/
theorem execMret_csr (h : exec .mret s = .next t) {n : BitVec 12} (hn : n ≠ mstatusNo) : t.csr n = s.csr n := by
  cases h
  exact (State.csr_setCsr s mstatusNo n _).trans (if_neg hn)

/-- Settles O16, by the inversion of exec, and for MRET by its one CSR write. -/
theorem onlyCsrInstructionsAndMretChangeCsrs : Obligations.OnlyCsrInstructionsAndMretChangeCsrs := by
  unfold Obligations.OnlyCsrInstructionsAndMretChangeCsrs
  intro i s t h hi
  refine ⟨(exec_frame h).csrs hi, fun n hn => ?_⟩
  by_cases hm : i = .mret
  · subst hm
    exact execMret_csr h hn
  · exact State.csr_congr ((exec_frame h).csrs hi hm) n

/-- Every CSR instruction is a `CsrOp` (43_system R183). -/
theorem exec_of_isCsr (h : i.isCsr = true) (s : State) : ∃ kind rd c x, exec i s = csrOp kind rd c x s := by
  cases i with
  | csrrw rd rs1 c => exact ⟨.write, rd, c, s.getReg rs1, rfl⟩
  | csrrs rd rs1 c => exact ⟨.set, rd, c, s.getReg rs1, rfl⟩
  | csrrc rd rs1 c => exact ⟨.clear, rd, c, s.getReg rs1, rfl⟩
  | csrrwi rd uimm c => exact ⟨.write, rd, c, zext uimm, rfl⟩
  | csrrsi rd uimm c => exact ⟨.set, rd, c, zext uimm, rfl⟩
  | csrrci rd uimm c => exact ⟨.clear, rd, c, zext uimm, rfl⟩
  | _ => cases h

/-- The numbers of the read-only range are those with bits 11:10 both 1 (10_state R40). -/
theorem csrWritable_iff (c : BitVec 12) : csrWritable c = true ↔ c.toNat < 0xC00 := by
  have hc := c.isLt
  rw [csrWritable, bne_iff_ne, ne_eq, ← BitVec.toNat_inj, BitVec.extractLsb'_toNat, Nat.shiftRight_eq_div_pow]
  simp only [BitVec.toNat_ofNat]
  omega

theorem csrDoesWrite_writable {kind : CsrKind} {c : BitVec 12} {x : Word} (h : csrDoesWrite kind c x = true) :
    csrWritable c = true := by
  cases kind with
  | write => exact h
  | set | clear => exact (Bool.and_eq_true_iff.1 h).1

/-- A CSR instruction writes no CSR of the read-only range (10_state R40). -/
theorem csrOp_csr_readOnly {kind : CsrKind} {c n : BitVec 12} {x : Word} (hn : 0xC00 ≤ n.toNat)
    (h : csrOp kind rd c x s = .next t) : t.csr n = s.csr n := by
  rw [csrOp_next h]
  split
  · next hw =>
    have hc := (csrWritable_iff c).1 (csrDoesWrite_writable hw)
    have hne : n ≠ c := by rintro rfl; omega
    exact (State.csr_setCsr s c n _).trans (if_neg hne)
  · rfl

/-- No instruction changes a CSR of the read-only range. -/
theorem exec_csr_readOnly {n : BitVec 12} (hn : 0xC00 ≤ n.toNat) (h : exec i s = .next t) : t.csr n = s.csr n := by
  cases hi : i.isCsr with
  | true =>
    obtain ⟨kind, rd, c, x, he⟩ := exec_of_isCsr hi s
    exact csrOp_csr_readOnly hn (he ▸ h)
  | false =>
    refine (onlyCsrInstructionsAndMretChangeCsrs i s t h hi).2 n ?_
    rintro rfl
    exact absurd hn (by decide)

/-- Trap entry writes four CSRs, all below the read-only range (60_exceptions R232). -/
theorem takeInterrupt_csr_readOnly {n : BitVec 12} (hn : 0xC00 ≤ n.toNat) (src : Nat) (s : State) :
    (takeInterrupt src s).csr n = s.csr n := by
  have below (k : BitVec 12) (hk : k.toNat < 0xC00) : n ≠ k := by rintro rfl; omega
  cases he : s.interruptEnabled src with
  | true =>
    rw [takeInterrupt_csr s he, if_neg (below _ (by decide)), if_neg (below _ (by decide)),
      if_neg (below _ (by decide)), if_neg (below _ (by decide))]
  | false => rw [takeInterrupt_of_disabled s he]

theorem checkPoint_csr_readOnly {n : BitVec 12} (hn : 0xC00 ≤ n.toNat) (s : State) :
    (checkPoint s).csr n = s.csr n := by
  rw [State.csr_congr (checkPoint_frame s).csrs]
  cases hd : s.interruptEnabled timerSource && s.mtimecmp.ule (sampleClock s) with
  | true =>
    rw [State.csr_congr ((timerCheck_trap s).1 hd).1]
    exact takeInterrupt_csr_readOnly hn _ s
  | false => exact State.csr_congr ((timerCheck_trap s).2 hd).1 n

/-- Settles O15: neither a fetch, nor an instruction, nor a check point writes in the range. -/
theorem readOnlyCsrsNeverChange : Obligations.ReadOnlyCsrsNeverChange := by
  unfold Obligations.ReadOnlyCsrsNeverChange
  intro s t n h hn
  rcases step_next h with ⟨_, h⟩ | ⟨_, rfl⟩
  · obtain ⟨u, hu, rfl⟩ := hartStep_next h
    have hf : (fetch s).2.csr n = s.csr n := State.csr_congr (fetch_access s).csrs n
    rcases hu with ⟨i, _, hu⟩ | ⟨_, rfl⟩
    · exact (exec_csr_readOnly hn hu).trans hf
    · exact hf
  · exact checkPoint_csr_readOnly hn s

/-! ## The exit flag (10_state R37) -/

theorem execEcall_exitFlag (h : exec .ecall s = .next t) :
    t.exitFlag = true ↔ s.exitFlag = true ∨ s.getReg a7Reg = 93#32 := by
  by_cases h93 : s.getReg a7Reg = 93#32
  · have he : exec .ecall s = .next (({ captureInstant s with exitFlag := true }).retire len4) := if_pos h93
    cases he.symm.trans h
    simp [h93]
  · have he : exec .ecall s = retireWith len4 a0Reg 0 s := if_neg h93
    rw [retireWith_next (he.symm.trans h)]
    simp [h93]

/-- An instruction sets the exit flag exactly if it is ECALL with 93 in x17, and none clears it (10_state R37). -/
theorem exec_exitFlag (h : exec i s = .next t) :
    t.exitFlag = true ↔ s.exitFlag = true ∨ (i = .ecall ∧ s.getReg a7Reg = 93#32) := by
  by_cases hi : i = .ecall
  · subst hi
    simpa using execEcall_exitFlag h
  · simp [hi, (exec_frame h).exitFlag hi]

/-- Settles O18: a transition starts with the flag clear, and neither the fetch nor a check point sets it. -/
theorem exitOnlyByEcall93 : Obligations.ExitOnlyByEcall93 := by
  unfold Obligations.ExitOnlyByEcall93
  refine ⟨fun i s t h => exec_exitFlag h, fun s t h ht => ?_⟩
  rcases step_next h with ⟨hn, h⟩ | ⟨hc, rfl⟩
  · have hf := fetch_access s
    have h0 : ¬ (fetch s).2.exitFlag = true := by rw [hf.exitFlag, hn.1]; decide
    obtain ⟨u, hu, rfl⟩ := hartStep_next h
    rcases hu with ⟨i, hd, hu⟩ | ⟨_, rfl⟩
    · obtain ⟨rfl, h93⟩ := ((exec_exitFlag hu).1 ht).resolve_left h0
      exact ⟨hd, hf.getReg a7Reg ▸ h93⟩
    · exact absurd ht h0
  · have h0 : (checkPoint s).exitFlag = false :=
      ((checkPoint_frame s).exitFlag.trans (timerCheck_frame s).exitFlag).trans hc.1
    rw [h0] at ht
    cases ht

/-! ## The reservation (10_state R49, 42_rv32a R166) -/

/-- What a store of `n` bytes at `ea` leaves of the reservation (R166): what `reservationAfter` says, but that the copy
that it may start can clear it besides (20_memory R74). -/
def StoreReserves (s t : State) (ea : Word) (n : Nat) : Prop :=
  t.mreserved = reservationAfter s ea n ∨
    (t.mreserved = none ∧ s.params.storeBreaksReservation = true ∧
      ∃ p ∈ storeParts ea n, s.selects p.1 = some (.display 7))

theorem storeParts_width (ea : Word) (w : Width) : storeParts ea w.bytes = [(ea, w.bytes)] := by
  cases w <;> rfl

theorem memWrite_reserves (h : memWrite w ea v s = .ok t) : StoreReserves s t ea w.bytes := by
  rcases memWrite_mreserved h with hm | ⟨hm, hp, hd⟩
  · exact .inl hm
  · exact .inr ⟨hm, hp, (ea, w.bytes), by simp [storeParts_width], hd⟩

theorem selects_congr (h : t.params = s.params) (a : Word) : t.selects a = s.selects a := by
  rw [State.selects, State.selects, h]

theorem StoreReserves.of_congr {u : State} {n : Nat} (hm : u.mreserved = s.mreserved) (hp : u.params = s.params)
    (h : StoreReserves u t ea n) : StoreReserves s t ea n := by
  unfold StoreReserves at *
  simpa only [reservationAfter_congr hm hp, hp, selects_congr hp] using h

theorem reservationAfter_of_none {n : Nat} (h : s.mreserved = none) : reservationAfter s ea n = none := by
  rw [reservationAfter, h]

/-- A 64-bit store is two stores of a word, either of which may start a copy (20_memory R60). -/
theorem memWrite64_reserves {x : DWord} (h : memWrite64 ea x s = .ok t) : StoreReserves s t ea 8 := by
  obtain ⟨u, hu, ht⟩ := memWrite64_cases h
  have hp := (memWrite_access hu).params
  rcases memWrite_mreserved ht with hm | ⟨hm, hb, hd⟩
  · rcases memWrite_mreserved hu with hmu | ⟨hmu, hb, hd⟩
    · exact .inl (hm.trans (reservationAfter_two hmu hp))
    · exact .inr ⟨hm.trans (reservationAfter_of_none hmu), hb, (ea, 4), by simp [storeParts], hd⟩
  · exact .inr ⟨hm, hp ▸ hb, (ea + 4, 4), by simp [storeParts], selects_congr hp _ ▸ hd⟩

theorem StoreReserves.of_eq {u : State} {n : Nat} (h : StoreReserves s u ea n) (hm : t.mreserved = u.mreserved) :
    StoreReserves s t ea n := by
  unfold StoreReserves
  rwa [hm]

theorem storeReg_reserves (h : storeReg len w ea v s = .next t) : StoreReserves s t ea w.bytes := by
  obtain ⟨u, hu, rfl⟩ := storeReg_next h
  exact (memWrite_reserves hu).of_eq rfl

theorem storeFreg64_reserves (h : storeFreg64 r ea s = .next t) : StoreReserves s t ea 8 := by
  obtain ⟨u, hu, rfl⟩ := retireAfter_next h
  exact (memWrite64_reserves hu).of_eq rfl

theorem storeFreg32_reserves (h : storeFreg32 r ea s = .next t) : StoreReserves s t ea 4 := by
  obtain ⟨u, hu, rfl⟩ := retireAfter_next h
  exact (memWrite_reserves hu).of_eq rfl

theorem amo_reserves {f : Word → Word → Word} {rs1 rs2 : Reg} (h : amo f rd rs1 rs2 s = .next t) :
    StoreReserves s t (s.getReg rs1) 4 := by
  obtain ⟨u, hu, rfl⟩ := amo_next h
  exact .of_congr (memRead_mreserved _ _ _) (memRead_access _ _ _).params ((memWrite_reserves hu).of_eq rfl)

/-! ### The rule, one lemma a shared operation -/

/-- The rule for an instruction that is neither LR.W nor SC.W, by where it stores. -/
def ReservationRule (s t : State) : Option (Word × Nat) → Prop
  | none => t.mreserved = s.mreserved
  | some (ea, n) => StoreReserves s t ea n

theorem fpMove_store_rule {b : Bool} {res : Result} {n : Nat} (hr : res = .next t → StoreReserves s t ea n)
    (h : fpMove b s res = .next t) : ReservationRule s t (if b then some (ea, n) else none) := by
  rcases fpMove_next h with ⟨rfl, h⟩ | ⟨rfl, rfl⟩
  · exact hr h
  · rfl

theorem fpMove_load_mreserved {b : Bool} {res : Result} (hr : res = .next t → t.mreserved = s.mreserved)
    (h : fpMove b s res = .next t) : t.mreserved = s.mreserved := by
  rcases fpMove_next h with ⟨_, h⟩ | ⟨_, rfl⟩
  · exact hr h
  · rfl

theorem loadReg_mreserved {ext : Word → Word} (h : loadReg len w ext rd ea s = .next t) :
    t.mreserved = s.mreserved := by
  cases h; exact memRead_mreserved w ea s

theorem loadFreg64_mreserved (h : loadFreg64 rd ea s = .next t) : t.mreserved = s.mreserved := by
  cases h; exact (memRead_mreserved _ _ _).trans (memRead_mreserved _ _ _)

theorem loadFreg32_mreserved (h : loadFreg32 rd ea s = .next t) : t.mreserved = s.mreserved := by
  cases h; exact memRead_mreserved _ _ _

theorem branch_mreserved {taken : Bool} {offset : Word} (h : branch len taken offset s = .next t) :
    t.mreserved = s.mreserved := by
  rw [branch_next h]; rfl

theorem divReg_mreserved {f : DivCorner → Word → Word → Except Refusal Word} {rs1 rs2 : Reg}
    (h : divReg f rd rs1 rs2 s = .next t) : t.mreserved = s.mreserved := by
  obtain ⟨q, _, rfl⟩ := divReg_next h
  rfl

theorem csrOp_mreserved {kind : CsrKind} {c : BitVec 12} {x : Word} (h : csrOp kind rd c x s = .next t) :
    t.mreserved = s.mreserved := by
  rw [csrOp_next h]
  split <;> rfl

theorem execEcall_mreserved (h : execEcall s = .next t) : t.mreserved = s.mreserved := by
  unfold execEcall at h
  split at h <;> cases h
  · exact (captureInstant_frame s).mreserved
  · rfl

theorem execScW_mreserved {rs1 rs2 : Reg} {aq rl : BitVec 1} (h : exec (.scW rd rs1 rs2 aq rl) s = .next t) :
    t.mreserved = none := by
  rcases execScW_next (aq := aq) (rl := rl) h with ⟨_, u, _, rfl⟩ | ⟨_, rfl⟩ <;> rfl

/-- The reservation after an instruction (42_rv32a R166 to R168). -/
theorem exec_mreserved (h : exec i s = .next t) :
    match i with
    | .lrW _ rs1 _ _ => t.mreserved = some (s.getReg rs1)
    | .scW _ _ _ _ _ => t.mreserved = none
    | _ => ReservationRule s t (storeAt s i) := by
  cases i with
  | lrW => cases h; rfl
  | scW => exact execScW_mreserved h
  | sb | sh | sw | cSw | cSwsp => exact storeReg_reserves h
  | amoswapW | amoaddW | amoxorW | amoandW | amoorW | amominW | amomaxW | amominuW | amomaxuW =>
    exact amo_reserves (exec_amo h rfl)
  | cFsd | cFsdsp => exact fpMove_store_rule storeFreg64_reserves h
  | cFsw | cFswsp => exact fpMove_store_rule storeFreg32_reserves h
  | lb | lh | lw | lbu | lhu | cLw | cLwsp => exact loadReg_mreserved h
  | cFld | cFldsp => exact fpMove_load_mreserved loadFreg64_mreserved h
  | cFlw | cFlwsp => exact fpMove_load_mreserved loadFreg32_mreserved h
  | beq | bne | blt | bge | bltu | bgeu | cBeqz | cBnez => exact branch_mreserved h
  | div | divu | rem | remu => exact divReg_mreserved h
  | csrrw | csrrs | csrrc | csrrwi | csrrsi | csrrci => exact csrOp_mreserved h
  | ecall => exact execEcall_mreserved h
  | _ => cases h; rfl

/-- Settles O27, by the rule for each kind of instruction and the frame of the check point. -/
theorem onlyLrAndScChangeTheReservation : Obligations.OnlyLrAndScChangeTheReservation := by
  unfold Obligations.OnlyLrAndScChangeTheReservation
  refine ⟨fun i s t h => ?_, fun s t hc h => ?_⟩
  · have hr := exec_mreserved h
    cases i <;> exact hr
  · rw [step_checkNext hc h]
    exact (checkPoint_frame s).mreserved.trans (timerCheck_frame s).mreserved

/-! ## Devices, schedule and parameters (10_state R50 to R53) -/

/-- A frame of the capture agent depends on the devices, the count of draws and the parameters alone. -/
theorem CaptureFrame.rebase {u : State} (hd : t.dev = s.dev) (hn : t.draws = s.draws) (hp : t.params = s.params)
    (h : CaptureFrame t u) : CaptureFrame s { s with draws := u.draws, dev := u.dev } where
  rest := by
    have hu : u.dev = { s.dev with
        audioIn := u.dev.audioIn
        audioOwner := u.dev.audioOwner
        capturePending := u.dev.capturePending } := by
      rw [← hd]; exact congrArg State.dev h.rest
    exact congrArg (fun d => { s with draws := u.draws, dev := d }) hu
  regs j hj h2 h3 h5 := by rw [← hd]; exact h.regs j hj h2 h3 h5
  hart := by rw [← hd]; exact h.hart
  held ho := by rw [h.held (hd ▸ ho), hd, hn]
  bytes _ _ := rfl
  undisturbed a ha := by
    have ht : Undisturbed t a := by unfold Undisturbed InRing Owed at *; rwa [hd, hp]
    have hu := h.undisturbed a ht
    unfold Undisturbed InRing Owed at *
    rwa [h.params, hp] at hu

/-- The devices and what the host sees of `t` are those of `s`, but for what the capture agent may do (20_memory R83). -/
structure AgentOnly (s t : State) : Prop where
  mtimecmp : t.mtimecmp = s.mtimecmp
  clockSeen : t.clockSeen = s.clockSeen
  sent : t.sent = s.sent
  params : t.params = s.params
  agent : CaptureFrame s { s with draws := t.draws, dev := t.dev }

namespace AgentOnly

variable {u : State}

theorem of_capture (h : CaptureFrame s t) : AgentOnly s t :=
  ⟨h.frameEnd.mtimecmp, h.frameEnd.clockSeen, h.frameEnd.sent, h.params, h.rebase rfl rfl rfl⟩

theorem refl (s : State) : AgentOnly s s := .of_capture (.refl s)

theorem trans (h : AgentOnly s t) (h' : AgentOnly t u) : AgentOnly s u where
  mtimecmp := h'.mtimecmp.trans h.mtimecmp
  clockSeen := h'.clockSeen.trans h.clockSeen
  sent := h'.sent.trans h.sent
  params := h'.params.trans h.params
  agent := by
    have ha := h'.agent.rebase (t := t) (s := { s with draws := t.draws, dev := t.dev }) rfl rfl h.params
    exact h.agent.trans ha

/-- What the hart keeps to itself does not count. -/
theorem setReg (h : AgentOnly s u) : AgentOnly s (u.setReg r v) :=
  ⟨h.mtimecmp, h.clockSeen, h.sent, h.params, h.agent⟩

theorem setFreg {x : DWord} (h : AgentOnly s u) : AgentOnly s (u.setFreg r x) :=
  ⟨h.mtimecmp, h.clockSeen, h.sent, h.params, h.agent⟩

theorem setCsr {n : BitVec 12} (h : AgentOnly s u) : AgentOnly s (u.setCsr n v) :=
  ⟨h.mtimecmp, h.clockSeen, h.sent, h.params, h.agent⟩

theorem reserve {m : Option Word} (h : AgentOnly s u) : AgentOnly s { u with mreserved := m } :=
  ⟨h.mtimecmp, h.clockSeen, h.sent, h.params, h.agent⟩

theorem jumpTo (h : AgentOnly s u) : AgentOnly s (u.jumpTo target) :=
  ⟨h.mtimecmp, h.clockSeen, h.sent, h.params, h.agent⟩

end AgentOnly

theorem memRead_agentOnly (ha : InGuest ea) (w : Width) (s : State) : AgentOnly s (memRead w ea s).2 :=
  .of_capture (memRead_guest ha w s).1

theorem memWrite_agentOnly (ha : InGuest ea) (h : memWrite w ea v s = .ok t) : AgentOnly s t := by
  obtain ⟨u, hu, t', ht, _, _, he⟩ := memWrite_guest (s := s) ha w v
  cases h.symm.trans ht
  have hf := AgentOnly.of_capture hu
  rw [he]
  exact ⟨hf.mtimecmp, hf.clockSeen, hf.sent, hf.params, hf.agent⟩

/-! ### Accesses whose start addresses all lie in guest memory -/

theorem loadReg_agentOnly {ext : Word → Word} (ha : ∀ a ∈ [ea], InGuest a)
    (h : loadReg len w ext rd ea s = .next t) : AgentOnly s t := by
  cases h
  exact (memRead_agentOnly (ha ea (by simp)) w s).setReg.jumpTo

theorem storeReg_agentOnly (ha : ∀ a ∈ [ea], InGuest a) (h : storeReg len w ea v s = .next t) : AgentOnly s t := by
  obtain ⟨u, hu, rfl⟩ := storeReg_next h
  exact (memWrite_agentOnly (ha ea (by simp)) hu).jumpTo

theorem amo_agentOnly {f : Word → Word → Word} {rs1 rs2 : Reg} (ha : ∀ a ∈ [s.getReg rs1], InGuest a)
    (h : amo f rd rs1 rs2 s = .next t) : AgentOnly s t := by
  have hg := ha _ (List.mem_singleton_self _)
  obtain ⟨u, hu, rfl⟩ := amo_next h
  exact ((memRead_agentOnly hg .word s).trans (memWrite_agentOnly hg hu)).setReg.jumpTo

theorem execLrW_agentOnly {rs1 : Reg} {aq rl : BitVec 1} (ha : ∀ a ∈ [s.getReg rs1], InGuest a)
    (h : exec (.lrW rd rs1 aq rl) s = .next t) : AgentOnly s t := by
  cases h
  exact (memRead_agentOnly (ha _ (List.mem_singleton_self _)) .word s).setReg.reserve.jumpTo

theorem execScW_agentOnly {rs1 rs2 : Reg} {aq rl : BitVec 1} (ha : ∀ a ∈ [s.getReg rs1], InGuest a)
    (h : exec (.scW rd rs1 rs2 aq rl) s = .next t) : AgentOnly s t := by
  rcases execScW_next (aq := aq) (rl := rl) h with ⟨_, u, hu, rfl⟩ | ⟨_, rfl⟩
  · exact (memWrite_agentOnly (ha _ (List.mem_singleton_self _)) hu).setReg.reserve.jumpTo
  · exact (AgentOnly.refl s).setReg.reserve.jumpTo

theorem loadFreg32_agentOnly (ha : ∀ a ∈ [ea], InGuest a) (h : loadFreg32 rd ea s = .next t) : AgentOnly s t := by
  cases h
  exact (memRead_agentOnly (ha ea (by simp)) .word s).setFreg.jumpTo

theorem loadFreg64_agentOnly (ha : ∀ a ∈ [ea, ea + 4], InGuest a) (h : loadFreg64 rd ea s = .next t) :
    AgentOnly s t := by
  cases h
  exact ((memRead_agentOnly (ha ea (by simp)) .word s).trans
    (memRead_agentOnly (ha (ea + 4) (by simp)) .word _)).setFreg.jumpTo

theorem storeFreg32_agentOnly (ha : ∀ a ∈ [ea], InGuest a) (h : storeFreg32 r ea s = .next t) : AgentOnly s t := by
  obtain ⟨u, hu, rfl⟩ := retireAfter_next h
  exact (memWrite_agentOnly (ha ea (by simp)) hu).jumpTo

theorem storeFreg64_agentOnly (ha : ∀ a ∈ [ea, ea + 4], InGuest a) (h : storeFreg64 r ea s = .next t) :
    AgentOnly s t := by
  obtain ⟨u, hu, rfl⟩ := retireAfter_next h
  obtain ⟨u', hu', hu⟩ := memWrite64_cases hu
  exact ((memWrite_agentOnly (ha ea (by simp)) hu').trans (memWrite_agentOnly (ha (ea + 4) (by simp)) hu)).jumpTo

/-! ### Instructions without an access -/

theorem fpMove_agentOnly {b : Bool} {res : Result} (hr : res = .next t → AgentOnly s t)
    (h : fpMove b s res = .next t) : AgentOnly s t := by
  rcases fpMove_next h with ⟨_, h⟩ | ⟨_, rfl⟩
  · exact hr h
  · exact (AgentOnly.refl s).jumpTo

theorem retireWith_agentOnly (h : retireWith len rd v s = .next t) : AgentOnly s t := by
  rw [retireWith_next h]; exact (AgentOnly.refl s).setReg.jumpTo

theorem divReg_agentOnly {f : DivCorner → Word → Word → Except Refusal Word} {rs1 rs2 : Reg}
    (h : divReg f rd rs1 rs2 s = .next t) : AgentOnly s t := by
  obtain ⟨q, _, rfl⟩ := divReg_next h
  exact (AgentOnly.refl s).setReg.jumpTo

theorem branch_agentOnly {taken : Bool} {offset : Word} (h : branch len taken offset s = .next t) : AgentOnly s t := by
  rw [branch_next h]; exact (AgentOnly.refl s).jumpTo

theorem csrOp_agentOnly {kind : CsrKind} {c : BitVec 12} {x : Word} (h : csrOp kind rd c x s = .next t) :
    AgentOnly s t := by
  rw [csrOp_next h]
  split
  · exact (AgentOnly.refl s).setCsr.setReg.jumpTo
  · exact (AgentOnly.refl s).setReg.jumpTo

theorem execEcall_agentOnly (h : execEcall s = .next t) : AgentOnly s t := by
  unfold execEcall at h
  split at h
  · cases h
    have hf := AgentOnly.of_capture (captureInstant_frame s)
    exact ⟨hf.mtimecmp, hf.clockSeen, hf.sent, hf.params, hf.agent⟩
  · exact retireWith_agentOnly h

/-- An instruction whose accesses all lie in guest memory leaves the devices to the capture agent. -/
theorem exec_agentOnly (h : exec i s = .next t) (ha : ∀ a ∈ accessStarts s i, InGuest a) : AgentOnly s t := by
  cases i with
  | lb | lh | lw | lbu | lhu | cLw | cLwsp => exact loadReg_agentOnly ha h
  | sb | sh | sw | cSw | cSwsp => exact storeReg_agentOnly ha h
  | lrW => exact execLrW_agentOnly ha h
  | scW => exact execScW_agentOnly ha h
  | amoswapW | amoaddW | amoxorW | amoandW | amoorW | amominW | amomaxW | amominuW | amomaxuW =>
    exact amo_agentOnly ha (exec_amo h rfl)
  | cFld | cFldsp => exact fpMove_agentOnly (loadFreg64_agentOnly ha) h
  | cFlw | cFlwsp => exact fpMove_agentOnly (loadFreg32_agentOnly ha) h
  | cFsd | cFsdsp => exact fpMove_agentOnly (storeFreg64_agentOnly ha) h
  | cFsw | cFswsp => exact fpMove_agentOnly (storeFreg32_agentOnly ha) h
  | beq | bne | blt | bge | bltu | bgeu | cBeqz | cBnez => exact branch_agentOnly h
  | div | divu | rem | remu => exact divReg_agentOnly h
  | csrrw | csrrs | csrrc | csrrwi | csrrsi | csrrci => exact csrOp_agentOnly h
  | ecall => exact execEcall_agentOnly h
  | mret => cases h; exact (AgentOnly.refl s).setCsr.jumpTo
  | fence | fenceI | ebreak | wfi | cNop | cJ | cJr | cEbreak => cases h; exact (AgentOnly.refl s).jumpTo
  | jal | jalr | cJal | cJalr => cases h; exact (AgentOnly.refl s).setReg.jumpTo
  | _ => exact retireWith_agentOnly h

/-- Settles O45, by the inversion of exec and the frame of an instruction that accesses no device. -/
theorem deviceAndScheduleFrame : Obligations.DeviceAndScheduleFrame := by
  unfold Obligations.DeviceAndScheduleFrame
  intro i s t h
  have hf := exec_frame h
  refine ⟨hf.mode, hf.mtimecur, hf.sched, hf.params, fun ha => ?_⟩
  have hg := exec_agentOnly h ha
  exact ⟨hg.mtimecmp, hg.clockSeen, hg.sent, _, hg.agent, rfl, rfl⟩

/-! ## The pc (10_state R35) -/

theorem even_add {a b : Word} (ha : a.getLsbD 0 = false) (hb : b.getLsbD 0 = false) : (a + b).getLsbD 0 = false := by
  rw [BitVec.getLsbD_add (by decide), ha, hb]
  simp

theorem even_clearBit0 (v : Word) : (clearBit0 v).getLsbD 0 = false := by
  simp [clearBit0]

theorem even_sext {n : Nat} {v : BitVec n} (hn : 0 < n) (h : lowZero 1 v = true) : (sext v).getLsbD 0 = false := by
  rw [sext, BitVec.getLsbD_signExtend, if_pos hn, lowZero_getLsbD h (by decide)]
  rfl

theorem even_trapTarget (v : Word) (src : Nat) : (trapTarget v src).getLsbD 0 = false :=
  lowZero_getLsbD (n := 2) (by simp [lowZero, trapTarget_aligned]) (by decide)

/-! ### Where an instruction that transfers no control goes -/

theorem retireWith_pc (h : retireWith len rd v s = .next t) : t.pc = s.pc + len := by
  rw [retireWith_next h]; rfl

theorem loadReg_pc {ext : Word → Word} (h : loadReg len w ext rd ea s = .next t) : t.pc = s.pc + len := by
  cases h; exact congrArg (· + len) (memRead_access w ea s).pc

theorem storeReg_pc (h : storeReg len w ea v s = .next t) : t.pc = s.pc + len := by
  obtain ⟨u, hu, rfl⟩ := storeReg_next h
  exact congrArg (· + len) (memWrite_access hu).pc

theorem loadFreg64_pc (h : loadFreg64 rd ea s = .next t) : t.pc = s.pc + len2 := by
  cases h; exact congrArg (· + len2) (memRead64_access ea s).pc

theorem loadFreg32_pc (h : loadFreg32 rd ea s = .next t) : t.pc = s.pc + len2 := by
  cases h; exact congrArg (· + len2) (memRead_access .word ea s).pc

theorem storeFreg64_pc (h : storeFreg64 r ea s = .next t) : t.pc = s.pc + len2 := by
  obtain ⟨u, hu, rfl⟩ := retireAfter_next h
  exact congrArg (· + len2) (memWrite64_access hu).pc

theorem storeFreg32_pc (h : storeFreg32 r ea s = .next t) : t.pc = s.pc + len2 := by
  obtain ⟨u, hu, rfl⟩ := retireAfter_next h
  exact congrArg (· + len2) (memWrite_access hu).pc

theorem fpMove_pc {b : Bool} {res : Result} (hr : res = .next t → t.pc = s.pc + len2)
    (h : fpMove b s res = .next t) : t.pc = s.pc + len2 := by
  rcases fpMove_next h with ⟨_, h⟩ | ⟨_, rfl⟩
  · exact hr h
  · rfl

theorem divReg_pc {f : DivCorner → Word → Word → Except Refusal Word} {rs1 rs2 : Reg}
    (h : divReg f rd rs1 rs2 s = .next t) : t.pc = s.pc + len4 := by
  obtain ⟨q, _, rfl⟩ := divReg_next h
  rfl

theorem amo_pc {f : Word → Word → Word} {rs1 rs2 : Reg} (h : amo f rd rs1 rs2 s = .next t) :
    t.pc = s.pc + len4 := by
  obtain ⟨u, hu, rfl⟩ := amo_next h
  exact congrArg (· + len4) ((memRead_access _ _ _).trans (memWrite_access hu)).pc

theorem execLrW_pc {rs1 : Reg} {aq rl : BitVec 1} (h : exec (.lrW rd rs1 aq rl) s = .next t) :
    t.pc = s.pc + len4 := by
  cases h; exact congrArg (· + len4) (memRead_access .word (s.getReg rs1) s).pc

theorem execScW_pc {rs1 rs2 : Reg} {aq rl : BitVec 1} (h : exec (.scW rd rs1 rs2 aq rl) s = .next t) :
    t.pc = s.pc + len4 := by
  rcases execScW_next (aq := aq) (rl := rl) h with ⟨_, u, hu, rfl⟩ | ⟨_, rfl⟩
  · exact congrArg (· + len4) (memWrite_access hu).pc
  · rfl

theorem csrOp_pc {kind : CsrKind} {c : BitVec 12} {x : Word} (h : csrOp kind rd c x s = .next t) :
    t.pc = s.pc + len4 := by
  rw [csrOp_next h]
  split <;> rfl

theorem execEcall_pc (h : execEcall s = .next t) : t.pc = s.pc + len4 := by
  unfold execEcall at h
  split at h
  · cases h; exact congrArg (· + len4) (captureInstant_frame s).access.pc
  · exact retireWith_pc h

theorem branch_pc_even {taken : Bool} {offset : Word} (hs : s.pc.getLsbD 0 = false) (hl : len.getLsbD 0 = false)
    (ho : offset.getLsbD 0 = false) (h : branch len taken offset s = .next t) : t.pc.getLsbD 0 = false := by
  rw [branch_next h]
  cases taken with
  | true => exact even_add hs ho
  | false => exact even_add hs hl

/-- From an even pc an instruction with an encoding leads to an even pc, but for MRET (10_state R35). -/
theorem exec_pc_even (hw : i.wf = true) (hm : i ≠ .mret) (hs : s.pc.getLsbD 0 = false) (h : exec i s = .next t) :
    t.pc.getLsbD 0 = false := by
  have next4 (ht : t.pc = s.pc + len4) : t.pc.getLsbD 0 = false := ht ▸ even_add hs rfl
  have next2 (ht : t.pc = s.pc + len2) : t.pc.getLsbD 0 = false := ht ▸ even_add hs rfl
  cases i with
  | jal | cJal | cJ => cases h; exact even_add hs (even_sext (by decide) hw)
  | jalr | cJr | cJalr => cases h; exact even_clearBit0 _
  | beq | bne | blt | bge | bltu | bgeu | cBeqz | cBnez =>
    exact branch_pc_even hs rfl (even_sext (by decide) hw) h
  | mret => exact absurd rfl hm
  | lb | lh | lw | lbu | lhu => exact next4 (loadReg_pc h)
  | cLw | cLwsp => exact next2 (loadReg_pc h)
  | sb | sh | sw => exact next4 (storeReg_pc h)
  | cSw | cSwsp => exact next2 (storeReg_pc h)
  | lrW => exact next4 (execLrW_pc h)
  | scW => exact next4 (execScW_pc h)
  | amoswapW | amoaddW | amoxorW | amoandW | amoorW | amominW | amomaxW | amominuW | amomaxuW =>
    exact next4 (amo_pc (exec_amo h rfl))
  | cFld | cFldsp => exact next2 (fpMove_pc loadFreg64_pc h)
  | cFlw | cFlwsp => exact next2 (fpMove_pc loadFreg32_pc h)
  | cFsd | cFsdsp => exact next2 (fpMove_pc storeFreg64_pc h)
  | cFsw | cFswsp => exact next2 (fpMove_pc storeFreg32_pc h)
  | div | divu | rem | remu => exact next4 (divReg_pc h)
  | csrrw | csrrs | csrrc | csrrwi | csrrsi | csrrci => exact next4 (csrOp_pc h)
  | ecall => exact next4 (execEcall_pc h)
  | fence | fenceI | ebreak | wfi => cases h; exact next4 rfl
  | cNop | cEbreak => cases h; exact next2 rfl
  | cAddi4spn | cAddi | cLi | cAddi16sp | cLui | cSrli | cSrai | cAndi | cSub | cXor | cOr | cAnd | cSlli | cMv
    | cAdd => exact next2 (retireWith_pc h)
  | _ => exact next4 (retireWith_pc h)

theorem execMret_pc_even (hm : s.params.mretClearsBit0 = true ∨ (s.csr mepcNo).getLsbD 0 = false)
    (h : exec .mret s = .next t) : t.pc.getLsbD 0 = false := by
  cases h
  show (returnTarget s).getLsbD 0 = false
  unfold returnTarget
  split
  · exact even_clearBit0 _
  · next hc => exact hm.resolve_left hc

theorem timerCheck_pc_even (hs : s.pc.getLsbD 0 = false) : (timerCheck s).pc.getLsbD 0 = false := by
  cases hd : s.interruptEnabled timerSource && s.mtimecmp.ule (sampleClock s) with
  | true =>
    rw [((timerCheck_trap s).1 hd).2, takeInterrupt_pc s (Bool.and_eq_true_iff.1 hd).1]
    exact even_trapTarget _ _
  | false => rwa [((timerCheck_trap s).2 hd).2]

theorem even_fetchLength (x : BitVec 32) : (BitVec.ofNat 32 (fetchLength x)).getLsbD 0 = false := by
  unfold fetchLength
  split <;> rfl

/-- Settles O59: the decoder gives even offsets alone, and a trap goes to a multiple of 4. -/
theorem pcStaysEven : Obligations.PcStaysEven := by
  unfold Obligations.PcStaysEven
  intro s t hs h hm
  rcases step_next h with ⟨hn, h⟩ | ⟨_, rfl⟩
  · have hf := fetch_access s
    have hfs : (fetch s).2.pc.getLsbD 0 = false := by rwa [hf.pc]
    obtain ⟨u, hu, rfl⟩ := hartStep_next h
    rcases hu with ⟨i, hd, hu⟩ | ⟨_, rfl⟩
    · show u.pc.getLsbD 0 = false
      by_cases hi : i = .mret
      · subst hi
        refine execMret_pc_even ?_ hu
        rw [hf.params, State.csr_congr hf.csrs]
        exact hm hn hd
      · exact exec_pc_even (decode_wf hd) hi hfs hu
    · exact even_add hfs (even_fetchLength _)
  · rw [(checkPoint_frame s).pc]
    exact timerCheck_pc_even hs

end Sys2Proof.Machine
end

section
/-! SUPPORT. The invariant that every step keeps, and what an instruction leaves of guest memory (20_memory R56, R59, R63):
each from one lemma a shared operation of the meanings. -/

namespace Sys2Proof.Machine

open Sys2Proof

variable {s t u : State} {len ea v target : Word} {rd r : Reg} {w : Width} {i : Instr}

/-! ## The invariant -/

/-- The CSR file's part of the invariant (10_state R38, R40). -/
def CsrInv (s : State) : Prop := sparseWf s.csrs = true ∧ sparseBelow 0xC00 s.csrs = true

theorem CsrInv.setCsr {n : BitVec 12} (h : CsrInv s) (hn : n.toNat < 0xC00) (x : Word) : CsrInv (s.setCsr n x) :=
  ⟨State.setCsr_wf s n x h.1, State.setCsr_below s x hn h.2⟩

theorem CsrInv.congr (h : CsrInv s) (hc : t.csrs = s.csrs) : CsrInv t := by
  unfold CsrInv; rwa [hc]

namespace Inv

theorem access (h : Inv s) : AccessInv s :=
  ⟨⟨h.memCanonical, h.memBounded⟩, h.freq, h.lock, h.pending, h.disk, h.ring⟩

theorem csrInv (h : Inv s) : CsrInv s := ⟨h.csrsCanonical, h.csrsReadOnlyZero⟩

/-- The invariant from its parts: what an access could touch, the CSR file, and the rest. -/
theorem of_parts (ha : AccessInv s) (hc : CsrInv s) (hz : s.regs[0] = 0) (hk : s.mtimecur ≤ s.clockSeen)
    (hs : s.sched.stepsLeft ≤ s.sched.batchSteps) (hp : paramsWf s.params = true) : Inv s :=
  ⟨ha.mem.1, ha.mem.2, hc.1, hc.2, hz, hk, ha.freq, ha.lock, ha.pending, ha.ring, ha.disk, hs, hp⟩

theorem of_accessFrame (h : Inv s) (hf : AccessFrame s t) (ha : AccessInv t) : Inv t := by
  refine of_parts ha (h.csrInv.congr hf.csrs) ?_ ?_ ?_ ?_
  · rw [hf.regs]; exact h.zero
  · rw [hf.mtimecur]; exact BitVec.le_trans h.clock hf.clock
  · rw [hf.sched]; exact h.steps
  · rw [hf.params]; exact h.params

theorem retire (h : Inv s) (n : Word) : Inv (s.retire n) :=
  of_parts (h.access.congr rfl rfl rfl) h.csrInv (State.retire_zero s n) h.clock h.steps h.params

/-- One step of the sub-batch less. -/
theorem countStep (h : Inv s) : Inv { s with sched := { s.sched with stepsLeft := s.sched.stepsLeft - 1 } } :=
  of_parts (h.access.congr rfl rfl rfl) h.csrInv h.zero h.clock (Nat.le_trans (Nat.sub_le _ _) h.steps) h.params

end Inv

theorem csrOp_csrInv {kind : CsrKind} {c : BitVec 12} {x : Word} (hs : CsrInv s) (h : csrOp kind rd c x s = .next t) :
    CsrInv t := by
  rw [csrOp_next h]
  split
  · next hw => exact hs.setCsr ((csrWritable_iff c).1 (csrDoesWrite_writable hw)) _
  · exact hs

theorem exec_csrInv (hs : CsrInv s) (h : exec i s = .next t) : CsrInv t := by
  by_cases hc : i.isCsr = true
  · obtain ⟨kind, rd, c, x, he⟩ := exec_of_isCsr hc s
    exact csrOp_csrInv hs (he ▸ h)
  · by_cases hm : i = .mret
    · subst hm
      cases h
      exact hs.setCsr (n := mstatusNo) (by decide) _
    · exact hs.congr ((exec_frame h).csrs (by simpa using hc) hm)

theorem exec_inv (hs : Inv s) (h : exec i s = .next t) : Inv t := by
  have hf := exec_frame h
  refine .of_parts (hf.inv hs.access) (exec_csrInv hs.csrInv h) hf.zero ?_ ?_ ?_
  · rw [hf.mtimecur]; exact BitVec.le_trans hs.clock hf.clock
  · rw [hf.sched]; exact hs.steps
  · rw [hf.params]; exact hs.params

theorem hartStep_inv (hs : Inv s) (h : hartStep s = .next t) : Inv t := by
  have hf : Inv (fetch s).2 := hs.of_accessFrame (fetch_access s) (fetch_inv hs.access)
  obtain ⟨u, hu, rfl⟩ := hartStep_next h
  rcases hu with ⟨i, _, hu⟩ | ⟨_, rfl⟩
  · exact (exec_inv hf hu).countStep
  · exact (hf.retire _).countStep

theorem timerCheck_csrInv (hs : CsrInv s) : CsrInv (timerCheck s) := by
  cases hd : s.interruptEnabled timerSource && s.mtimecmp.ule (sampleClock s) with
  | true => exact CsrInv.congr (s := takeInterrupt timerSource s) (takeInterrupt_csrs _ _ hs) ((timerCheck_trap s).1 hd).1
  | false => exact hs.congr ((timerCheck_trap s).2 hd).1

theorem timerCheck_inv (hs : Inv s) : Inv (timerCheck s) := by
  have hf := timerCheck_frame s
  refine .of_parts (hs.access.congr hf.mem hf.dev hf.params) (timerCheck_csrInv hs.csrInv) ?_ ?_ ?_ ?_
  · rw [hf.regs]; exact hs.zero
  · rw [(timerCheck_clock s).1, (timerCheck_clock s).2]; exact BitVec.le_refl _
  · rw [hf.sched]; exact hs.steps
  · rw [hf.params]; exact hs.params

theorem checkPoint_access (hs : AccessInv (timerCheck s)) : AccessInv (checkPoint s) := by
  simp only [checkPoint]
  split
  · exact (frameEnd_inv hs).congr rfl rfl rfl
  · exact hs.congr rfl rfl rfl

theorem checkPoint_steps (s : State) : (checkPoint s).sched.stepsLeft ≤ (checkPoint s).sched.batchSteps := by
  simp only [checkPoint]
  split <;> exact Nat.le_refl _

theorem checkPoint_inv (hs : Inv s) : Inv (checkPoint s) := by
  have ht := timerCheck_inv hs
  have hf := checkPoint_frame s
  refine .of_parts (checkPoint_access ht.access) (ht.csrInv.congr hf.csrs) ?_ ?_ (checkPoint_steps s) ?_
  · rw [hf.regs]; exact ht.zero
  · rw [hf.mtimecur, hf.clockSeen]; exact ht.clock
  · rw [hf.params]; exact ht.params

/-- Settles O55: a step of the hart is a fetch and an instruction or an unmatched word, and a check point is the check of
the timer and, at the frame's end, the frame end; each of them keeps the invariant. -/
theorem invariantKept : Obligations.InvariantKept := by
  unfold Obligations.InvariantKept
  intro s t hs h
  rcases step_next h with ⟨_, h⟩ | ⟨_, rfl⟩
  · exact hartStep_inv hs h
  · exact checkPoint_inv hs

/-! ## The frame of guest memory (R56, R59, R63) -/

/-- What a store of `n` bytes at `ea` leaves of guest memory: every byte that the agent cannot disturb, but those of the
store, where it starts no bit-blt. -/
def StoreLeaves (s t : State) (ea : Word) (n : Nat) : Prop :=
  StoreCalm s ea n → ∀ a, Undisturbed s a → ¬ Stored s ea n a → t.byteAt a = s.byteAt a

/-- What an instruction leaves of guest memory, by where it stores. -/
def MemoryRule (s t : State) : Option (Word × Nat) → Prop
  | none => ∀ a, Undisturbed s a → t.byteAt a = s.byteAt a
  | some (ea, n) => StoreLeaves s t ea n

theorem StoreLeaves.of_eq {n : Nat} (h : StoreLeaves s u ea n) (hm : t.mem = u.mem) (hp : t.params = u.params) :
    StoreLeaves s t ea n :=
  fun hc a ha hn => (State.byteAt_congr hm hp a).trans (h hc a ha hn)

theorem MemoryRule.of_byteFrame (h : ByteFrame s u) (hm : t.mem = u.mem) (hp : t.params = u.params) :
    MemoryRule s t none :=
  fun a ha => (State.byteAt_congr hm hp a).trans (h.bytes a ha)

theorem memWrite_leaves (h : memWrite w ea v s = .ok t) : StoreLeaves s t ea w.bytes := by
  intro hc a ha hn
  have hp : (ea, w.bytes) ∈ storeParts ea w.bytes := by simp [storeParts_width]
  exact (memWrite_bytes (hc.1 _ hp) h).1 a ha fun ⟨hg, hk⟩ => hn ⟨_, hp, hg, hk⟩

theorem memWrite64_leaves {x : DWord} (h : memWrite64 ea x s = .ok t) : StoreLeaves s t ea 8 := by
  obtain ⟨u, hu, ht⟩ := memWrite64_cases h
  intro hc a ha hn
  have hlo : (ea, 4) ∈ storeParts ea 8 := by simp [storeParts]
  have hhi : (ea + 4, 4) ∈ storeParts ea 8 := by simp [storeParts]
  obtain ⟨hbu, hp, hd⟩ := memWrite_bytes (hc.1 _ hlo) hu
  have hc' : u.selects (ea + 4) ≠ some (.display 7) := selects_congr hp _ ▸ hc.1 _ hhi
  refine ((memWrite_bytes hc' ht).1 a (hd (hc.2 rfl) a ha) ?_).trans (hbu a ha fun ⟨hg, hk⟩ => hn ⟨_, hlo, hg, hk⟩)
  rw [hp]
  exact fun ⟨hg, hk⟩ => hn ⟨_, hhi, hg, hk⟩

theorem StoreLeaves.of_byteFrame {n : Nat} (hf : ByteFrame s u) (h : StoreLeaves u t ea n) : StoreLeaves s t ea n := by
  intro hc a ha hn
  refine (h ?_ a (hf.undisturbed a ha) ?_).trans (hf.bytes a ha)
  · simpa only [StoreCalm, selects_congr hf.params] using hc
  · simpa only [Stored, hf.params] using hn

theorem loadReg_memory {ext : Word → Word} (h : loadReg len w ext rd ea s = .next t) : MemoryRule s t none := by
  cases h; exact .of_byteFrame (memRead_byteFrame w ea s) rfl rfl

theorem loadFreg64_memory (h : loadFreg64 rd ea s = .next t) : MemoryRule s t none := by
  cases h; exact .of_byteFrame ((memRead_byteFrame .word ea s).trans (memRead_byteFrame .word (ea + 4) _)) rfl rfl

theorem loadFreg32_memory (h : loadFreg32 rd ea s = .next t) : MemoryRule s t none := by
  cases h; exact .of_byteFrame (memRead_byteFrame .word ea s) rfl rfl

theorem execLrW_memory {rs1 : Reg} {aq rl : BitVec 1} (h : exec (.lrW rd rs1 aq rl) s = .next t) :
    MemoryRule s t none := by
  cases h; exact .of_byteFrame (memRead_byteFrame .word _ s) rfl rfl

theorem storeReg_memory (h : storeReg len w ea v s = .next t) : StoreLeaves s t ea w.bytes := by
  obtain ⟨u, hu, rfl⟩ := storeReg_next h
  exact (memWrite_leaves hu).of_eq rfl rfl

theorem storeFreg64_memory (h : storeFreg64 r ea s = .next t) : StoreLeaves s t ea 8 := by
  obtain ⟨u, hu, rfl⟩ := retireAfter_next h
  exact (memWrite64_leaves hu).of_eq rfl rfl

theorem storeFreg32_memory (h : storeFreg32 r ea s = .next t) : StoreLeaves s t ea 4 := by
  obtain ⟨u, hu, rfl⟩ := retireAfter_next h
  exact (memWrite_leaves hu).of_eq rfl rfl

theorem amo_memory {f : Word → Word → Word} {rs1 rs2 : Reg} (h : amo f rd rs1 rs2 s = .next t) :
    StoreLeaves s t (s.getReg rs1) 4 := by
  obtain ⟨u, hu, rfl⟩ := amo_next h
  exact .of_byteFrame (memRead_byteFrame .word _ s) ((memWrite_leaves hu).of_eq rfl rfl)

theorem execScW_memory {rs1 rs2 : Reg} {aq rl : BitVec 1} (h : exec (.scW rd rs1 rs2 aq rl) s = .next t) :
    MemoryRule s t (storeAt s (.scW rd rs1 rs2 aq rl)) := by
  rcases execScW_next (aq := aq) (rl := rl) h with ⟨hr, u, hu, rfl⟩ | ⟨hr, rfl⟩
  · rw [storeAt, if_pos hr]; exact (memWrite_leaves hu).of_eq rfl rfl
  · rw [storeAt, if_neg hr]; exact .of_byteFrame (.refl s) rfl rfl

theorem fpMove_load_memory {b : Bool} {res : Result} (hr : res = .next t → MemoryRule s t none)
    (h : fpMove b s res = .next t) : MemoryRule s t none := by
  rcases fpMove_next h with ⟨_, h⟩ | ⟨_, rfl⟩
  · exact hr h
  · exact .of_byteFrame (.refl s) rfl rfl

theorem fpMove_store_memory {b : Bool} {res : Result} {n : Nat} (hr : res = .next t → StoreLeaves s t ea n)
    (h : fpMove b s res = .next t) : MemoryRule s t (if b then some (ea, n) else none) := by
  rcases fpMove_next h with ⟨rfl, h⟩ | ⟨rfl, rfl⟩
  · exact hr h
  · exact .of_byteFrame (.refl s) rfl rfl

theorem branch_memory {taken : Bool} {offset : Word} (h : branch len taken offset s = .next t) :
    MemoryRule s t none := by
  rw [branch_next h]; exact .of_byteFrame (.refl s) rfl rfl

theorem divReg_memory {f : DivCorner → Word → Word → Except Refusal Word} {rs1 rs2 : Reg}
    (h : divReg f rd rs1 rs2 s = .next t) : MemoryRule s t none := by
  obtain ⟨q, _, rfl⟩ := divReg_next h
  exact .of_byteFrame (.refl s) rfl rfl

theorem csrOp_memory {kind : CsrKind} {c : BitVec 12} {x : Word} (h : csrOp kind rd c x s = .next t) :
    MemoryRule s t none := by
  rw [csrOp_next h]
  split <;> exact .of_byteFrame (.refl s) rfl rfl

theorem execEcall_memory (h : execEcall s = .next t) : MemoryRule s t none := by
  unfold execEcall at h
  split at h <;> cases h
  · exact .of_byteFrame (captureInstant_frame s).byteFrame rfl rfl
  · exact .of_byteFrame (.refl s) rfl rfl

/-- What an instruction leaves of guest memory. -/
theorem exec_memory (h : exec i s = .next t) : MemoryRule s t (storeAt s i) := by
  cases i with
  | lrW => exact execLrW_memory h
  | scW => exact execScW_memory h
  | sb | sh | sw | cSw | cSwsp => exact storeReg_memory h
  | amoswapW | amoaddW | amoxorW | amoandW | amoorW | amominW | amomaxW | amominuW | amomaxuW =>
    exact amo_memory (exec_amo h rfl)
  | cFsd | cFsdsp => exact fpMove_store_memory storeFreg64_memory h
  | cFsw | cFswsp => exact fpMove_store_memory storeFreg32_memory h
  | lb | lh | lw | lbu | lhu | cLw | cLwsp => exact loadReg_memory h
  | cFld | cFldsp => exact fpMove_load_memory loadFreg64_memory h
  | cFlw | cFlwsp => exact fpMove_load_memory loadFreg32_memory h
  | beq | bne | blt | bge | bltu | bgeu | cBeqz | cBnez => exact branch_memory h
  | div | divu | rem | remu => exact divReg_memory h
  | csrrw | csrrs | csrrc | csrrwi | csrrsi | csrrci => exact csrOp_memory h
  | ecall => exact execEcall_memory h
  | _ => cases h; exact .of_byteFrame (.refl s) rfl rfl

/-- Settles O43, by the rule for each kind of instruction. -/
theorem guestMemoryFrame : Obligations.GuestMemoryFrame := by
  unfold Obligations.GuestMemoryFrame
  intro i s t h
  have hr := exec_memory h
  generalize storeAt s i = x at hr ⊢
  rcases x with _ | ⟨ea, n⟩ <;> exact hr

end Sys2Proof.Machine
end

section
/-! SUPPORT. The statements about accesses (20_memory R56, R62, R67): guest addresses that name the same bytes, a word read
back where it was stored, and the one read that a load from the device window makes. -/

namespace Sys2Proof.Machine

open Sys2Proof

variable {s t : State} {rd rs1 rs2 : Reg} {imm : BitVec 12} {m : DevMap} {a : Word}

/-! ## Guest memory wraps (R56, R57) -/

theorem memSize_dvd (p : Params) : memSize p ∣ 2 ^ 32 := Nat.pow_dvd_pow 2 (Nat.le_of_lt p.memLog2.isLt)

/-- The addresses' own wrapping does not show: `MEM_SIZE` divides 2^32. -/
theorem backingIndex_add (p : Params) (a b : Word) :
    backingIndex p (a + b) = (backingIndex p a + b.toNat) % memSize p := by
  rw [backingIndex, backingIndex, BitVec.toNat_add, Nat.mod_mod_of_dvd _ (memSize_dvd p), Nat.mod_add_mod]

theorem backingIndex_add_congr {p : Params} {a b : Word} (h : backingIndex p a = backingIndex p b) (x : Word) :
    backingIndex p (a + x) = backingIndex p (b + x) := by
  rw [backingIndex_add, backingIndex_add, h]

theorem readBytes_congr (n : Nat) {a b : Word} {s : State} (h : backingIndex s.params a = backingIndex s.params b) :
    readBytes n a s = readBytes n b s := by
  induction n generalizing a b s with
  | zero => rfl
  | succ n ih =>
    have hp := (captureInstant_frame s).params
    have hb : (captureInstant s).byteAt a = (captureInstant s).byteAt b := by rw [State.byteAt, State.byteAt, hp, h]
    have hr := ih (a := a + 1) (b := b + 1) (s := captureInstant s) (by rw [hp]; exact backingIndex_add_congr h 1)
    simp only [readBytes, hb, hr]

theorem writeBytes_congr (n : Nat) {a b : Word} (v : Word) {s : State}
    (h : backingIndex s.params a = backingIndex s.params b) : writeBytes n a v s = writeBytes n b v s := by
  induction n generalizing a b v s with
  | zero => rfl
  | succ n ih =>
    have hp := (captureInstant_frame s).params
    have hs : (captureInstant s).setByte a (v.setWidth 8) = (captureInstant s).setByte b (v.setWidth 8) := by
      rw [State.setByte, State.setByte, hp, h]
    simp only [writeBytes, hs]
    exact ih (a := a + 1) (b := b + 1) _ (by rw [State.setByte_params, hp]; exact backingIndex_add_congr h 1)

/-- A write of guest memory is the write of its bytes, after which the reservation is looked at. -/
theorem memWrite_guest_eq (ha : InGuest a) (w : Width) (v : Word) (s : State) :
    memWrite w a v s = .ok (breakReservation w.bytes a (writeBytes w.bytes a v s)) := by
  simp [memWrite, memStore, isDevice_of_inGuest ha, selects_of_inGuest ha, Except.map]

/-- Settles O23: both accesses name the same bytes one by one; a write's two outcomes differ in the reservation alone. -/
theorem guestMemoryWraps : Obligations.GuestMemoryWraps := by
  unfold Obligations.GuestMemoryWraps
  intro s a b w ha hb hab
  constructor
  · simp only [memRead, isDevice_of_inGuest ha, isDevice_of_inGuest hb]
    exact readBytes_congr w.bytes hab
  · intro v
    refine ⟨_, _, memWrite_guest_eq ha w v s, memWrite_guest_eq hb w v s, fun x => ?_⟩
    rw [writeBytes_congr w.bytes v hab, breakReservation_eq, breakReservation_eq]
    exact State.byteAt_congr rfl rfl x

/-! ## A word read back (R62) -/

theorem memSize_four {p : Params} (h : 2 ≤ p.memLog2.val) : 4 ≤ memSize p := Nat.pow_le_pow_right (n := 2) (by decide) h

/-- Two offsets below `MEM_SIZE` name two bytes. -/
theorem backingIndex_offset_inj {p : Params} {a : Word} {j k : Nat} (hj : j < memSize p) (hk : k < memSize p)
    (h : backingIndex p (a + BitVec.ofNat 32 j) = backingIndex p (a + BitVec.ofNat 32 k)) : j = k := by
  have hm : memSize p ≤ 2 ^ 32 := Nat.le_of_dvd (by decide) (memSize_dvd p)
  rw [backingIndex_add, backingIndex_add, BitVec.toNat_ofNat, BitVec.toNat_ofNat,
    Nat.mod_eq_of_lt (Nat.lt_of_lt_of_le hj hm), Nat.mod_eq_of_lt (Nat.lt_of_lt_of_le hk hm)] at h
  exact Nat.ModEq.eq_of_lt_of_lt (Nat.ModEq.add_left_cancel' _ h) hj hk

/-- A byte written is there after the write, if no later one falls on it. -/
theorem byteAfter_of_inside {ea : Word} {w n k : Nat} {v : BitVec w} (hk : k < n)
    (h : ∀ j, k < j → j < n →
      backingIndex s.params (ea + BitVec.ofNat 32 j) ≠ backingIndex s.params (ea + BitVec.ofNat 32 k)) :
    byteAfter s ea v n (ea + BitVec.ofNat 32 k) = v.extractLsb' (8 * k) 8 := by
  induction n with
  | zero => exact absurd hk (Nat.not_lt_zero k)
  | succ n ih =>
    rw [byteAfter]
    by_cases hn : k = n
    · subst hn; exact if_pos rfl
    · have hlt : k < n := by omega
      rw [if_neg (h n hlt (Nat.lt_succ_self n))]
      exact ih hlt fun j hj hjn => h j hj (Nat.lt_succ_of_lt hjn)

/-- A word is fixed by its four bytes. -/
theorem word_ext_bytes {x y : Word} (h : ∀ k < 4, x.extractLsb' (8 * k) 8 = y.extractLsb' (8 * k) 8) : x = y := by
  refine word_ext fun i hi => ?_
  have hb := congrArg (fun b : Byte => b.getLsbD (i % 8)) (h (i / 8) (by omega))
  have h8 : 8 * (i / 8) + i % 8 = i := Nat.div_add_mod i 8
  simpa [BitVec.getLsbD_extractLsb', Nat.mod_lt, h8] using hb

/-- After a store of a word the bytes it wrote are known, and the agent can still not disturb them. -/
theorem Stores.undisturbed {i : Instr} {ea d target : Word} {n k : Nat} {v : BitVec k} {r : Reg} {res : Option Word}
    (h : Stores i s ea v n r d res target) : ∃ t, exec i s = .next t ∧
      (∀ a, Undisturbed s a → t.byteAt a = byteAfter s ea v n a ∧ Undisturbed t a) ∧
      (∀ q : Reg, t.getReg q = if q = 0 then 0 else if q = r then d else s.getReg q) := by
  obtain ⟨u, hu, t, ht, hb, hr, -, -, -, he⟩ := h
  refine ⟨t, ht, fun a ha => ⟨hb a ha, ?_⟩, hr⟩
  have hd := hu.undisturbed a ha
  rw [he]
  exact hd

/-- Settles O22: the four bytes of the store are distinct, so each byte that the load reads is the one written. -/
theorem storeThenLoadAtAnyAlignment : Obligations.StoreThenLoadAtAnyAlignment := by
  unfold Obligations.StoreThenLoadAtAnyAlignment
  intro s rd rs1 rs2 imm hg hm hu
  have hst := storeReg_guest (i := .sw rs1 rs2 imm) (w := .word) (v := s.getReg rs2) (len := len4) (s := s) rfl hg
  obtain ⟨t, ht, hb, hr⟩ := hst.undisturbed
  have hrs : t.getReg rs1 = s.getReg rs1 := by
    rw [hr]; by_cases h0 : rs1 = 0#5 <;> simp [h0]
  have hea : eaSigned t rs1 imm = eaSigned s rs1 imm := by rw [eaSigned, eaSigned, hrs]
  obtain ⟨x, hx, v, hv, u, hu', hw⟩ :=
    loadReg_guest (i := .lw rd rs1 imm) (w := .word) (ext := id) (len := len4) (s := t) rfl (hea ▸ hg)
  obtain ⟨hreg, -, -, hwe⟩ := hw
  rw [hea] at hx
  have hval : x = s.getReg rs2 := word_ext_bytes fun k hk => by
    rw [hx.2 k hk (hb _ (hu k hk)).2, (hb _ (hu k hk)).1]
    have h4 := memSize_four hm
    exact byteAfter_of_inside hk fun j hkj hj he =>
      absurd (backingIndex_offset_inj (Nat.lt_of_lt_of_le hj h4) (Nat.lt_of_lt_of_le hk h4) he) (Nat.ne_of_gt hkj)
  refine ⟨t, u, ht, hu', fun h0 => ?_, fun a ha => ?_⟩
  · rw [hreg, if_neg h0, if_pos rfl, id, hval]
  · rw [← hv.bytes a (hb a ha).2, hwe]
    exact State.byteAt_congr rfl rfl a

/-! ## Which register an address of the window selects (R67, R69) -/

/-- Each scalar register is selected at its own address. -/
structure ScalarsSelected (m : DevMap) : Prop where
  stdio : select m m.stdio = some .stdio
  stderr : select m m.stderr = some .stderr
  getch : select m m.getch = some .getch
  kbhit : select m m.kbhit = some .kbhit
  consoleClear : select m m.consoleClear = some .consoleClear
  consoleGoto : select m m.consoleGoto = some .consoleGoto
  sleep : select m m.sleep = some .sleep
  mouseXy : select m m.mouseXy = some .mouseXy
  mouseBtn : select m m.mouseBtn = some .mouseBtn
  mtimecurL : select m m.mtimecurL = some .mtimecurL
  mtimecurH : select m m.mtimecurH = some .mtimecurH
  mtimecmpL : select m m.mtimecmpL = some .mtimecmpL
  mtimecmpH : select m m.mtimecmpH = some .mtimecmpH
  realtime : select m m.realtime = some .realtime
  diskSectorNum : select m m.diskSectorNum = some .diskSectorNum
  diskSectorSize : select m m.diskSectorSize = some .diskSectorSize
  diskSectorIdx : select m m.diskSectorIdx = some .diskSectorIdx
  diskSectorDat : select m m.diskSectorDat = some .diskSectorDat
  cpuFreq : select m m.cpuFreq = some .cpuFreq

theorem scalarsSelected (h : devMapWf m = true) : ScalarsSelected m := by
  constructor <;> exact select_scalar h (by simp [scalarTable, scalarAddresses])

/-- An address of the keyboard block selects one of its registers. -/
theorem select_keybd_of_mem (h : devMapWf m = true) (ha : m.keybdBase.toNat ≤ a.toNat ∧ a.toNat < m.keybdBase.toNat + 16) :
    ∃ i, select m a = some (.keybd i) := by
  have hi : (a.toNat - m.keybdBase.toNat) / 4 < 4 := by omega
  exact ⟨⟨_, hi⟩, select_keybd h ⟨_, hi⟩ (by simp only; omega) (by simp only; omega)⟩

/-- The register of an address that names a byte of its word (R67). -/
theorem word_bounds {b k : Nat} (hk : k < 4) {x i : Nat} (h : x = b + 4 * i + k) : b + 4 * i ≤ x ∧ x < b + 4 * i + 4 := by
  omega

/-! ## Loads from the device window (R67, R122) -/

/-- The reads that are draws (log 29). -/
theorem devRead_draw (h : select m a = none ∨ (devMapWf m = true ∧
    (a = m.stdio ∨ a = m.stderr ∨ a = m.getch ∨ a = m.kbhit ∨ a = m.consoleClear ∨ a = m.consoleGoto ∨ a = m.sleep ∨
      a = m.mouseXy ∨ a = m.mouseBtn ∨ a = m.realtime ∨
      (m.keybdBase.toNat ≤ a.toNat ∧ a.toNat < m.keybdBase.toNat + 16)))) (u : State) :
    devRead (select m a) u = drawWord u := by
  rcases h with h | ⟨hw, h⟩
  · rw [h]; rfl
  · have hs := scalarsSelected hw
    rcases h with rfl | rfl | rfl | rfl | rfl | rfl | rfl | rfl | rfl | rfl | hk
    · rw [hs.stdio]; rfl
    · rw [hs.stderr]; rfl
    · rw [hs.getch]; rfl
    · rw [hs.kbhit]; rfl
    · rw [hs.consoleClear]; rfl
    · rw [hs.consoleGoto]; rfl
    · rw [hs.sleep]; rfl
    · rw [hs.mouseXy]; rfl
    · rw [hs.mouseBtn]; rfl
    · rw [hs.realtime]; rfl
    · obtain ⟨i, hi⟩ := select_keybd_of_mem hw hk
      rw [hi]; rfl

/-- A load of any width from the device window. -/
theorem loadForm_device {g : LoadForm} (h : g ∈ loadForms rd rs1 imm) (hd : ¬ InGuest (eaSigned s rs1 imm)) :
    LoadsFrom g.instr s (devRead (select s.params.devAddr (eaSigned s rs1 imm)) (captureInstant s)).2 rd
      (g.ext (devRead (select s.params.devAddr (eaSigned s rs1 imm)) (captureInstant s)).1) (s.pc + 4) := by
  obtain ⟨w, ext, hx, he⟩ := loadForms_exec h s
  have hl := loadReg_device hx (not_inGuest_iff.1 hd)
  rwa [selects_of_not_inGuest hd, he] at hl

/-- Settles O20, by the device load of every width and the reads that are draws. -/
theorem loadsFromTheDeviceWindow : Obligations.LoadsFromTheDeviceWindow := by
  unfold Obligations.LoadsFromTheDeviceWindow
  intro s rd rs1 imm hd
  have hl : ∀ g ∈ loadForms rd rs1 imm, _ := fun g hg => loadForm_device hg hd
  simp only [loadForms, List.forall_mem_cons] at hl
  obtain ⟨hb, hh, hw, hbu, hhu, -⟩ := hl
  exact ⟨hb, hh, hw, hbu, hhu, fun h g hg => loadForm_draw hg hd (devRead_draw h)⟩

end Sys2Proof.Machine
end

section
/-! SUPPORT. The statements about the device registers (20_memory R67 to R79), each for the five loads and the three stores of
RV32I: what the selected register does, carried to the instruction by one lemma for loads and one for stores. -/

namespace Sys2Proof.Machine

open Sys2Proof

variable {s t : State} {rd rs1 rs2 : Reg} {imm : BitVec 12} {m : DevMap} {a v x : Word} {r : DevReg}

/-! ## A selected register lies in the window -/

theorem pick_mem {l : List (Word × DevReg)} (h : pick a l = some r) : (a, r) ∈ l := by
  induction l with
  | nil => cases h
  | cons c rest ih =>
    rw [pick] at h
    split at h
    · next hc => cases h; rw [hc]; exact List.mem_cons_self ..
    · exact List.mem_cons_of_mem _ (ih h)

theorem base_le_of_blockIndex {base : Word} {k : Nat} {i : Fin k} (h : blockIndex base k a = some i) :
    base.toNat ≤ a.toNat := by
  unfold blockIndex at h
  split at h
  · next hin => exact hin.1
  · cases h

theorem deviceBase_le_of_block (h : devMapWf m = true) {b : Word × Nat} (hb : b ∈ blocks m) {i : Fin b.2}
    (hi : blockIndex b.1 b.2 a = some i) : deviceBase.toNat ≤ a.toNat :=
  Nat.le_trans ((devMapWf_parts h).1.2 b hb).1 (base_le_of_blockIndex hi)

/-- An address that selects a register is no guest address (R69). -/
theorem not_inGuest_of_select (h : devMapWf m = true) (hs : select m a = some r) : ¬ InGuest a := by
  suffices hb : deviceBase.toNat ≤ a.toNat from Nat.not_lt.2 hb
  unfold select at hs
  split at hs
  · next r' hr =>
    rw [selectScalar_eq_pick] at hr
    exact scalar_in_window h (List.of_mem_zip (pick_mem hr)).1
  · split at hs
    · next i hi => exact deviceBase_le_of_block h (b := (m.keybdBase, 4)) (by simp [blocks]) hi
    · split at hs
      · next i hi => exact deviceBase_le_of_block h (b := (m.displayBase, 8)) (by simp [blocks]) hi
      · split at hs
        · next i hi => exact deviceBase_le_of_block h (b := (m.audioOutBase, 7)) (by simp [blocks]) hi
        · split at hs
          · next i hi => exact deviceBase_le_of_block h (b := (m.audioInBase, 7)) (by simp [blocks]) hi
          · cases hs

/-! ## From the register to the instruction -/

section Forms

variable {f : StoreForm} {g : LoadForm} (hw : devMapWf s.params.devAddr = true)
  (hs : select s.params.devAddr (eaSigned s rs1 imm) = some r)
include hw hs

/-- A load that selects a register reads it once, after the capture agent has acted. -/
theorem loadForm_selected (hg : g ∈ loadForms rd rs1 imm) :
    LoadsFrom g.instr s (devRead (some r) (captureInstant s)).2 rd (g.ext (devRead (some r) (captureInstant s)).1)
      (s.pc + 4) := by
  have h := loadForm_device hg (not_inGuest_of_select hw hs)
  rwa [hs] at h

/-- The same where the read changes nothing. -/
theorem loadForm_kept (hg : g ∈ loadForms rd rs1 imm)
    (hr : devRead (some r) (captureInstant s) = (x, captureInstant s)) : Loads g.instr s rd (g.ext x) (s.pc + 4) :=
  loadForm_stored hg (not_inGuest_of_select hw hs) (hs ▸ hr)

/-- The same where the read is a draw. -/
theorem loadForm_drawn (hg : g ∈ loadForms rd rs1 imm)
    (hr : devRead (some r) (captureInstant s) = drawWord (captureInstant s)) : LoadsDraw g s rd (s.pc + 4) := by
  have h := loadForm_selected hw hs hg
  rw [hr] at h
  exact ⟨_, _, captureInstant_frame s, h⟩

/-- A store that selects a register and starts no copy does what the register does, after the capture agent has acted. -/
theorem storeForm_selected {k : State → State} (hf : f ∈ storeForms s rs1 rs2 imm) (h7 : r ≠ .display 7)
    (hd : devStore (some r) f.value (captureInstant s) = .ok (k (captureInstant s))) :
    StoresTo f.instr s (eaSigned s rs1 imm) f.bytes k (s.pc + 4) :=
  storeForm_device hf (not_inGuest_of_select hw hs) (hs ▸ fun h => h7 (Option.some.inj h)) (hs ▸ hd)

/-- A store that the register refuses. -/
theorem storeForm_refused {e : Refusal} (hf : f ∈ storeForms s rs1 rs2 imm)
    (hd : devStore (some r) f.value (captureInstant s) = .error e) : exec f.instr s = .refused e := by
  obtain ⟨w, hx, -, hv⟩ := storeForms_exec hf
  have hng := not_inGuest_of_select hw hs
  rw [← hs, ← hv, ← selects_of_not_inGuest hng s] at hd
  simp only [hx, storeReg, memWrite, memStore, not_inGuest_iff.1 hng, if_true, hd, Except.map, retireAfter]

end Forms

/-! ## The timer registers (R77) -/

/-- Settles O47: the four registers have four addresses; a read of the clock is a sample, no earlier than any before. -/
theorem timerRegisters : Obligations.TimerRegisters := by
  unfold Obligations.TimerRegisters
  intro s rd rs1 rs2 imm hw f hf g hg m ea
  have hs := scalarsSelected hw
  have hclock : s.clockSeen ≤ sampleClock (captureInstant s) := le_sampleClock (captureInstant s)
  refine ⟨fun h => ?_, fun h => ?_, fun h => ?_⟩
  · have hl : select m ea = some .mtimecmpL := h ▸ hs.mtimecmpL
    exact ⟨storeForm_selected hw hl hf (by decide) rfl, loadForm_kept hw hl hg rfl⟩
  · have hh : select m ea = some .mtimecmpH := h ▸ hs.mtimecmpH
    exact ⟨storeForm_selected hw hh hf (by decide) rfl, loadForm_kept hw hh hg rfl⟩
  · by_cases hl : ea = m.mtimecurL
    · have hc : select m ea = some .mtimecurL := hl ▸ hs.mtimecurL
      refine ⟨storeForm_selected hw hc hf (by decide) rfl, _, _, captureInstant_frame s, hclock, ?_⟩
      rw [if_pos hl]
      exact loadForm_selected hw hc hg
    · have hc : select m ea = some .mtimecurH := (h.resolve_left hl) ▸ hs.mtimecurH
      refine ⟨storeForm_selected hw hc hf (by decide) rfl, _, _, captureInstant_frame s, hclock, ?_⟩
      rw [if_neg hl]
      exact loadForm_selected hw hc hg

/-! ## The display and audio-out registers (R73, R75) -/

theorem storeDisplay_kept {i : Fin 8} (h : ¬ (i = 0 ∧ v ≠ s.dev.display[0])) :
    storeDisplay i v s = { s with dev := { s.dev with display := s.dev.display.set i.val v i.isLt } } := if_neg h

theorem storeDisplay_changed (h : v ≠ s.dev.display[0]) :
    storeDisplay 0 v s = { s with
      dev := { s.dev with display := s.dev.display.set 0 v, displayDev := reinit s.draws s.dev.displayDev }
      draws := s.draws + 1
      sent := [.displayInit v] ++ s.sent } := if_pos ⟨rfl, h⟩

theorem storeAudioOut_kept {i : Fin 7} (h : ¬ (i = 0 ∧ v ≠ s.dev.audioOut[0])) :
    storeAudioOut i v s = { s with dev := { s.dev with audioOut := s.dev.audioOut.set i.val v i.isLt } } := if_neg h

theorem storeAudioOut_changed (h : v ≠ s.dev.audioOut[0]) :
    storeAudioOut 0 v s = { s with
      dev := { s.dev with audioOut := s.dev.audioOut.set 0 v, audioOutDev := reinit s.draws s.dev.audioOutDev }
      draws := s.draws + 1
      sent := [.audioOutInit v] ++ s.sent } := if_pos ⟨rfl, h⟩

/-- Settles O48: each register at the addresses of its word; DISP_WH and AUDIO_OUT_FMT by whether the value changes. -/
theorem displayAndAudioOutRegisters : Obligations.DisplayAndAudioOutRegisters := by
  unfold Obligations.DisplayAndAudioOutRegisters
  intro s rd rs1 rs2 imm k hw hk f hf g hg ea v
  refine ⟨fun i hi => ?_, fun i hi => ?_⟩
  · obtain ⟨h1, h2⟩ := word_bounds hk hi
    have hs := select_display hw i h1 h2
    refine ⟨loadForm_kept hw hs hg rfl, fun h0 h7 => ?_, fun h0 => ?_⟩
    · refine storeForm_selected hw hs hf (fun h => h7 (DevReg.display.inj h)) (congrArg Except.ok (storeDisplay_kept ?_))
      exact fun h => h0 h.1
    · subst h0
      by_cases hv : v = s.dev.display[0]
      · refine ⟨s.dev.displayDev, 0, [], fun _ => ⟨rfl, rfl, rfl⟩, storeForm_selected hw hs hf (by decide) ?_⟩
        exact congrArg Except.ok (storeDisplay_kept (s := captureInstant s) fun h => h.2 hv)
      · refine ⟨reinit (captureInstant s).draws s.dev.displayDev, 1, [.displayInit v], fun h => absurd h hv,
           storeForm_selected hw hs hf (by decide) ?_⟩
        exact congrArg Except.ok (storeDisplay_changed (s := captureInstant s) hv)
  · obtain ⟨h1, h2⟩ := word_bounds hk hi
    have hs := select_audioOut hw i h1 h2
    refine ⟨loadForm_kept hw hs hg rfl, fun h0 => ?_, fun h0 => ?_⟩
    · refine storeForm_selected hw hs hf nofun (congrArg Except.ok (storeAudioOut_kept ?_))
      exact fun h => h0 h.1
    · subst h0
      by_cases hv : v = s.dev.audioOut[0]
      · refine ⟨s.dev.audioOutDev, 0, [], fun _ => ⟨rfl, rfl, rfl⟩, storeForm_selected hw hs hf nofun ?_⟩
        exact congrArg Except.ok (storeAudioOut_kept (s := captureInstant s) fun h => h.2 hv)
      · refine ⟨reinit (captureInstant s).draws s.dev.audioOutDev, 1, [.audioOutInit v], fun h => absurd h hv,
           storeForm_selected hw hs hf nofun ?_⟩
        exact congrArg Except.ok (storeAudioOut_changed (s := captureInstant s) hv)

/-! ## CPU_FREQ (R79) -/

theorem clamp_eq_min (x y : Word) : (if x.ult y then x else y) = BitVec.ofNat 32 (min x.toNat y.toNat) := by
  by_cases h : x.toNat < y.toNat
  · rw [if_pos (by simpa [BitVec.ult] using h), Nat.min_eq_left (Nat.le_of_lt h), BitVec.ofNat_toNat, BitVec.setWidth_eq]
  · rw [if_neg (by simpa [BitVec.ult] using h), Nat.min_eq_right (Nat.not_lt.1 h), BitVec.ofNat_toNat, BitVec.setWidth_eq]

/-- Settles O49: the clamp is the smaller of the two values. -/
theorem cpuFrequencyIsClamped : Obligations.CpuFrequencyIsClamped := by
  unfold Obligations.CpuFrequencyIsClamped
  intro s rd rs1 rs2 imm hw hea f hf g hg
  have hs : select s.params.devAddr (eaSigned s rs1 imm) = some .cpuFreq := hea ▸ (scalarsSelected hw).cpuFreq
  refine ⟨loadForm_kept hw hs hg rfl, storeForm_selected hw hs hf (by decide) ?_⟩
  rw [← clamp_eq_min]
  rfl

/-! ## Console and inert writes (R68, R70, R71) -/

/-- Settles O50, register by register. -/
theorem consoleAndInertWrites : Obligations.ConsoleAndInertWrites := by
  unfold Obligations.ConsoleAndInertWrites
  intro s rs1 rs2 imm hw f hf m ea v sends
  have hs := scalarsSelected hw
  have hb : v.extractLsb' 0 8 = v.setWidth 8 := by ext i hi; simp
  refine ⟨fun h => ?_, fun h => ?_, fun h => ?_, fun h => ?_, fun h => ?_, fun h => ?_, fun h => ?_, fun hd hn => ?_⟩
  · rw [hb]; exact storeForm_selected hw (h ▸ hs.stdio) hf (by decide) rfl
  · rw [hb]; exact storeForm_selected hw (h ▸ hs.stderr) hf (by decide) rfl
  · exact storeForm_selected hw (h ▸ hs.consoleClear) hf (by decide) rfl
  · exact storeForm_selected hw (h ▸ hs.consoleGoto) hf (by decide) rfl
  · exact storeForm_selected hw (h ▸ hs.sleep) hf (by decide) rfl
  · exact storeForm_selected hw (h ▸ hs.realtime) hf (by decide) rfl
  · rcases h with h | h | h | h | h | h | h
    · exact storeForm_selected hw (h ▸ hs.getch) hf (by decide) rfl
    · exact storeForm_selected hw (h ▸ hs.kbhit) hf (by decide) rfl
    · exact storeForm_selected hw (h ▸ hs.mouseXy) hf (by decide) rfl
    · exact storeForm_selected hw (h ▸ hs.mouseBtn) hf (by decide) rfl
    · exact storeForm_selected hw (h ▸ hs.diskSectorNum) hf (by decide) rfl
    · exact storeForm_selected hw (h ▸ hs.diskSectorSize) hf (by decide) rfl
    · obtain ⟨i, hi⟩ := select_keybd_of_mem hw h
      exact storeForm_selected hw hi hf nofun rfl
  · exact storeForm_device hf hd (by rw [hn]; nofun) (by rw [hn]; rfl)

/-! ## The disk (R78) -/

theorem find?_sparseInsert {w : Nat} (l : List (Nat × BitVec w)) (k j : Nat) (b : BitVec w) :
    (sparseInsert l k b).find? (fun c => c.1 == j) = if j = k then some (k, b) else l.find? (fun c => c.1 == j) := by
  induction l with
  | nil =>
    by_cases h : j = k
    · simp [sparseInsert, h]
    · simp [sparseInsert, h, Ne.symm h]
  | cons c rest ih =>
    rw [sparseInsert]
    by_cases h : j = k
    · subst h
      split
      · simp
      · next h1 =>
        split
        · simp
        · next h2 => simp [ih, Ne.symm h2]
    · split
      · simp [Ne.symm h]
      · next h1 =>
        split
        · next h2 => simp [Ne.symm h, ← h2]
        · simp [List.find?_cons, ih, h]

/-- A byte of the file after a write: the one written at the cursor, the old one elsewhere. -/
theorem diskByte_diskWrite (d : DiskFile) (pos p : Nat) (b : Byte) :
    diskByte (diskWrite d pos b) p = if p = pos then b else diskByte d p := by
  simp only [diskByte, diskWrite, find?_sparseInsert]
  by_cases h : p = pos
  · rw [if_pos h, if_pos h]
  · rw [if_neg h, if_neg h]

theorem readDiskData_of_lt {d : DiskFile} (hd : s.dev.disk = some d) (h : s.dev.diskPos < d.size) :
    readDiskData s = ((diskByte d s.dev.diskPos).setWidth 32,
      { s with dev := { s.dev with diskPos := s.dev.diskPos + 1 } }) := by
  simp only [readDiskData, hd, if_pos h]

theorem readDiskData_of_le {d : DiskFile} (hd : s.dev.disk = some d) (h : d.size ≤ s.dev.diskPos) :
    readDiskData s = (s.params.diskEof, s) := by
  simp only [readDiskData, hd, if_neg (Nat.not_lt.2 h)]

theorem readDiskData_of_none (hd : s.dev.disk = none) : readDiskData s = (s.params.diskEof, s) := by
  simp only [readDiskData, hd]

theorem storeDiskData_of_some {d : DiskFile} (hd : s.dev.disk = some d) :
    storeDiskData v s = { s with dev := { s.dev with
      disk := some (diskWrite d s.dev.diskPos (v.setWidth 8))
      diskPos := s.dev.diskPos + 1 } } := by
  simp only [storeDiskData, hd]

theorem storeDiskData_of_none (hd : s.dev.disk = none) : storeDiskData v s = s := by
  simp only [storeDiskData, hd]

theorem storeDiskIndex_of_some {d : DiskFile} (hd : s.dev.disk = some d) :
    storeDiskIndex v s = { s with dev := { s.dev with diskPos := 512 * v.toNat, diskIndex := v } } := by
  simp only [storeDiskIndex, hd, Option.isSome_some, if_true, sectorBytes, Nat.mul_comm]

theorem storeDiskIndex_of_none (hd : s.dev.disk = none) : storeDiskIndex v s = s := by
  simp only [storeDiskIndex, hd, Option.isSome_none, Bool.false_eq_true, if_false]

/-- Settles O51: what each register does with a disk and without one, where the capture agent moves no part of it. -/
theorem diskRegisters : Obligations.DiskRegisters := by
  unfold Obligations.DiskRegisters
  intro s rd rs1 rs2 imm hw f hf g hg m ea
  have hs := scalarsSelected hw
  have hnum (h : ea = m.diskSectorNum) : select m ea = some .diskSectorNum := h ▸ hs.diskSectorNum
  have hsize (h : ea = m.diskSectorSize) : select m ea = some .diskSectorSize := h ▸ hs.diskSectorSize
  have hidx (h : ea = m.diskSectorIdx) : select m ea = some .diskSectorIdx := h ▸ hs.diskSectorIdx
  have hdat (h : ea = m.diskSectorDat) : select m ea = some .diskSectorDat := h ▸ hs.diskSectorDat
  have hc : (captureInstant s).dev.disk = s.dev.disk := rfl
  refine ⟨fun d hd => ?_, fun hd => ?_⟩
  · rw [hd] at hc
    refine ⟨fun h => ?_, fun h => ?_, fun h => ?_, fun h => ?_, fun h hlt => ?_, fun h hle => ?_, fun h => ?_⟩
    · exact storeForm_selected hw (hidx h) hf (by decide) (congrArg Except.ok (storeDiskIndex_of_some hc))
    · exact loadForm_kept hw (hnum h) hg (by simp only [devRead, hc]; rfl)
    · exact loadForm_kept hw (hsize h) hg (by simp only [devRead, hc]; rfl)
    · exact loadForm_drawn hw (hidx h) hg (by simp only [devRead, hc]; rfl)
    · have hl := loadForm_selected hw (hdat h) hg
      rw [devRead, readDiskData_of_lt hc hlt] at hl
      exact ⟨_, captureInstant_frame s, hl⟩
    · exact loadForm_kept hw (hdat h) hg (readDiskData_of_le hc hle)
    · have hb : f.value.extractLsb' 0 8 = f.value.setWidth 8 := by ext i hi; simp
      refine ⟨diskWrite d s.dev.diskPos (f.value.setWidth 8), rfl, fun p => ?_, ?_⟩
      · rw [hb]; exact diskByte_diskWrite d _ p _
      · exact storeForm_selected hw (hdat h) hf (by decide) (congrArg Except.ok (storeDiskData_of_some hc))
  · rw [hd] at hc
    refine ⟨fun h => ?_, fun h => ?_, fun h => ?_⟩
    · exact loadForm_kept hw (hdat h) hg (readDiskData_of_none hc)
    · rcases h with h | h | h
      · exact loadForm_kept hw (hnum h) hg (by simp only [devRead, hc]; rfl)
      · exact loadForm_kept hw (hsize h) hg (by simp only [devRead, hc]; rfl)
      · exact loadForm_kept hw (hidx h) hg (by simp only [devRead, hc]; rfl)
    · rcases h with h | h
      · exact storeForm_selected hw (hidx h) hf (by decide) (congrArg Except.ok (storeDiskIndex_of_none hc))
      · exact storeForm_selected hw (hdat h) hf (by decide) (congrArg Except.ok (storeDiskData_of_none hc))

end Sys2Proof.Machine
end

section
/-! SUPPORT. The statement about the audio-in registers (20_memory R76, R83): a load, a store beside a capture step in
progress, and the mutex. -/

namespace Sys2Proof.Machine

open Sys2Proof

variable {s u : State} {v : Word}

/-! ## A store beside the capture agent (R76; log 9) -/

/-- What a store of `v` to an audio-in register other than LOCK leaves: the value stored, and a changed FMT handed to the
host. -/
def audioStored (i : Fin 7) (v : Word) (s : State) : State :=
  if i = 0 ∧ v ≠ s.dev.audioIn[0] then
    { ((storeAudioReg i v s).drawn.send (.audioInInit v)) with
      dev := { (storeAudioReg i v s).dev with audioInDev := reinit s.draws s.dev.audioInDev } }
  else storeAudioReg i v s

theorem storeAudioIn_of_ne {i : Fin 7} (h : i ≠ 6) : storeAudioIn i v s = .ok (audioStored i v s) := by
  rw [storeAudioIn, if_neg h]
  unfold audioStored
  split <;> rfl

theorem audioStored_kept {i : Fin 7} (h : i ≠ 0 ∨ v = s.dev.audioIn[0]) : audioStored i v s = storeAudioReg i v s :=
  if_neg fun hc => h.elim (fun h0 => h0 hc.1) fun hv => hc.2 hv

theorem audioStored_audioIn (i : Fin 7) (v : Word) (s : State) :
    (audioStored i v s).dev.audioIn = s.dev.audioIn.set i.val v i.isLt := by
  unfold audioStored; split <;> rfl

theorem audioStored_pending (i : Fin 7) (v : Word) (s : State) :
    (audioStored i v s).dev.capturePending =
      if s.dev.audioOwner = .capture then rereadPending s.draws i v s.dev.capturePending
      else s.dev.capturePending := by
  unfold audioStored; split <;> rfl

/-- All that such a store changes. -/
theorem audioStored_frame (i : Fin 7) (v : Word) (s : State) :
    audioStored i v s = { s with
      dev := { s.dev with
        audioIn := (audioStored i v s).dev.audioIn
        capturePending := (audioStored i v s).dev.capturePending
        ringMade := (audioStored i v s).dev.ringMade
        audioInDev := (audioStored i v s).dev.audioInDev }
      draws := (audioStored i v s).draws
      sent := (audioStored i v s).sent } := by
  unfold audioStored; split <;> rfl

theorem audioStored_draws {i : Fin 7} (hc : s.dev.audioOwner ≠ .capture) (h : i ≠ 0 ∨ v = s.dev.audioIn[0]) :
    (audioStored i v s).draws = s.draws := by
  rw [audioStored_kept h]; exact if_neg hc

theorem audioStored_pending_length (i : Fin 7) (v : Word) (s : State) :
    (audioStored i v s).dev.capturePending.length = s.dev.capturePending.length := by
  rw [audioStored_pending]
  split
  · exact List.length_mapIdx
  · rfl

/-- Each pending effect is as it was, or has read the register again. -/
theorem audioStored_pending_getElem {i : Fin 7} {j : Nat} (h : j < (audioStored i v s).dev.capturePending.length)
    (h' : j < s.dev.capturePending.length) :
    (audioStored i v s).dev.capturePending[j] = s.dev.capturePending[j] ∨
      s.dev.audioOwner = .capture ∧ ∃ again : Nat → Bool, (audioStored i v s).dev.capturePending[j] =
        { s.dev.capturePending[j] with
          seen := s.dev.capturePending[j].seen.reread again (isDue .tail s.dev.capturePending)
            (isDue .curr s.dev.capturePending) i v } := by
  have he := audioStored_pending i v s
  by_cases hc : s.dev.audioOwner = .capture
  · rw [if_pos hc] at he
    refine .inr ⟨hc, Config.captureReread s.draws j, ?_⟩
    simp only [he, rereadPending, List.getElem_mapIdx]
  · rw [if_neg hc] at he
    exact .inl (by simp only [he])

/-! ## The mutex (R76; log 13) -/

/-- Taking the mutex, where the hart does not own it: the capture step is completed first. -/
theorem storeAudioLock_take (hv : v ≠ 0) (ho : s.dev.audioOwner ≠ .hart) (hp : PendingInv s) :
    storeAudioLock v s = .ok { finishCapture s with dev := { (finishCapture s).dev with
      audioIn := (finishCapture s).dev.audioIn.set 6 v
      audioOwner := .hart
      capturePending := [] } } := by
  rw [storeAudioLock, if_neg hv, if_neg ho]
  exact congrArg (fun p : List CaptureEffect => Except.ok { finishCapture s with dev := { (finishCapture s).dev with
    audioIn := (finishCapture s).dev.audioIn.set 6 v
    audioOwner := .hart
    capturePending := p } }) (finishCapture_done hp).2

theorem storeAudioLock_free (ho : s.dev.audioOwner = .hart) :
    storeAudioLock 0 s = .ok { s with dev := { s.dev with audioIn := s.dev.audioIn.set 6 0, audioOwner := .free } } := by
  rw [storeAudioLock, if_pos rfl, if_pos ho]

theorem storeAudioLock_retaken (hv : v ≠ 0) (ho : s.dev.audioOwner = .hart) :
    storeAudioLock v s = .error .audioLockRetaken := by
  rw [storeAudioLock, if_neg hv, if_pos ho]

theorem storeAudioLock_notOwned (ho : s.dev.audioOwner ≠ .hart) : storeAudioLock 0 s = .error .audioLockNotOwned := by
  rw [storeAudioLock, if_pos rfl, if_neg ho]

/-- A store that does `k` after the agent has done `c` as well. -/
theorem StoresTo.after {i : Instr} {ea target : Word} {n : Nat} {c k : State → State}
    (hc : ∀ u, CaptureFrame u (c u)) (h : StoresTo i s ea n (fun u => k (c u)) target) : StoresTo i s ea n k target := by
  obtain ⟨u, hu, h⟩ := h
  exact ⟨c u, hu.trans (hc u), h⟩

/-- Settles O52: a load after the agent has acted, a store to a register other than LOCK, and the four cases of LOCK. -/
theorem audioInRegisters : Obligations.AudioInRegisters := by
  unfold Obligations.AudioInRegisters
  intro s rd rs1 rs2 imm i k hw hk hi f hf g hg ea v
  obtain ⟨h1, h2⟩ := word_bounds hk hi
  have hs := select_audioIn hw i h1 h2
  have hc := captureInstant_frame s
  refine ⟨⟨_, hc, loadForm_selected hw hs hg⟩, fun h6 => ?_, fun h6 hp => ?_⟩
  · obtain ⟨u, hu, t, ht, hr, hz, he⟩ := storeForm_selected (k := audioStored i v) hw hs hf nofun (storeAudioIn_of_ne h6)
    have h0 : u.dev.audioIn[0] = s.dev.audioIn[0] := hu.regs 0 (by decide) (by decide) (by decide) (by decide)
    have hdev : u.dev.audioInDev = s.dev.audioInDev := by rw [hu.rest]
    have hd : t.dev = (audioStored i v u).dev := by rw [he]
    have hn : t.draws = (audioStored i v u).draws := by rw [he]
    have hsent : t.sent = (audioStored i v u).sent := by rw [he]
    refine ⟨u, hu, t, ht, ?_, ?_, fun j hj hj' => ?_, fun h => ?_, fun ho h => ?_, hr, hz, ?_⟩
    · rw [hd, audioStored_audioIn]
    · rw [hd, audioStored_pending_length]
    · simp only [hd]
      exact audioStored_pending_getElem (hd ▸ hj) hj'
    · rw [hd, hsent, audioStored_kept (h0 ▸ h), ← hu.frameEnd.sent]
      exact ⟨hdev, rfl⟩
    · rw [hn, audioStored_draws ho (h0 ▸ h)]
    · rw [hd, hn, hsent, he]
      exact congrArg (fun x : State => { x with
        regs := t.regs, pc := s.pc + 4, mreserved := reservationAfter s ea f.bytes }) (audioStored_frame i v u)
  · subst h6
    have ho : (captureInstant s).dev.audioOwner = .hart ↔ s.dev.audioOwner = .hart := hc.hart
    refine ⟨fun hv hn => ?_, fun hv hh => ?_, fun hv hh => ?_, fun hv hn => ?_⟩
    · refine StoresTo.after finishCapture_frame (storeForm_selected hw hs hf nofun ?_)
      exact storeAudioLock_take hv (mt ho.1 hn) (captureInstant_pendingInv hp)
    · refine storeForm_selected hw hs hf nofun ?_
      rw [captureInstant_of_hart hh, show f.value = 0 from hv]
      exact storeAudioLock_free hh
    · exact storeForm_refused hw hs hf (storeAudioLock_retaken hv (ho.2 hh))
    · refine storeForm_refused hw hs hf ?_
      rw [show f.value = 0 from hv]
      exact storeAudioLock_notOwned (mt ho.1 hn)

end Sys2Proof.Machine
end

section
/-! SUPPORT. The statement about one whole capture step (20_memory R83; logs 9, 11, 12): the effects of a step performed in
their order are its bytes, which change memory alone, and then the four registers' effects. -/

namespace Sys2Proof.Machine

open Sys2Proof

variable {s : State} {c : CaptureSeen} {p : Params} {r : CaptureRing} {samples : List Byte}

/-! ## A step in progress, completed -/

/-- The machine after the agent has started a step that appends `samples`. -/
def captureStarted (s : State) (samples : List Byte) : State :=
  s.withRing (captureMove s s.ring (.start samples))

/-- What a step that starts now with `samples` has read. -/
def stepSeen (s : State) (samples : List Byte) : CaptureSeen := s.captureSeen s.ring samples.length

/-- The bytes of a step. -/
def byteEffects (c : CaptureSeen) (samples : List Byte) : List CaptureEffect :=
  samples.mapIdx fun j v => ⟨.byte j v, c⟩

/-- The agent's part of the machine after a step has been performed. -/
def stepRing (p : Params) (c : CaptureSeen) (samples : List Byte) (r : CaptureRing) : CaptureRing where
  mem := ((byteEffects c samples).foldl (applyEffect p) r).mem
  head := if c.overflows then c.newTail else r.head
  tail := c.newTail
  curr := if c.overflows then c.size else c.sum
  owner := r.owner
  pending := r.pending

theorem byteEffects_foldl (l : List CaptureEffect) (hl : ∀ e ∈ l, ∃ j v, e.part = .byte j v) (r : CaptureRing) :
    l.foldl (applyEffect p) r = { r with mem := (l.foldl (applyEffect p) r).mem } := by
  induction l generalizing r with
  | nil => rfl
  | cons e l ih =>
    obtain ⟨j, v, he⟩ := hl e (List.mem_cons_self ..)
    have h1 : applyEffect p r e = { r with mem := (applyEffect p r e).mem } := by
      simp only [applyEffect, he]; split <;> rfl
    have h2 := ih (fun x hx => hl x (List.mem_cons_of_mem _ hx)) (applyEffect p r e)
    rw [List.foldl_cons, h2, h1]

theorem mem_byteEffects {e : CaptureEffect} (h : e ∈ byteEffects c samples) :
    ∃ j, ∃ hj : j < samples.length, e = ⟨.byte j samples[j], c⟩ := by
  obtain ⟨j, hj, rfl⟩ := List.mem_mapIdx.1 h
  exact ⟨j, hj, rfl⟩

/-- The four registers' effects, after the bytes. -/
theorem captureEffects_foldl (c : CaptureSeen) (samples : List Byte) (r : CaptureRing) :
    (captureEffects c samples).foldl (applyEffect p) r = stepRing p c samples r := by
  have hb := byteEffects_foldl (p := p) (byteEffects c samples)
    (fun e he => by obtain ⟨j, hj, rfl⟩ := mem_byteEffects he; exact ⟨j, _, rfl⟩) r
  rw [captureEffects, List.foldl_append]
  change List.foldl _ ((byteEffects c samples).foldl (applyEffect p) r) _ = _
  rw [hb]
  simp only [List.foldl_cons, List.foldl_nil, applyEffect, stepRing]
  cases c.overflows <;> rfl

theorem captureStarted_eq (h : s.dev.audioOwner = .free) : captureStarted s samples =
    s.withRing { s.ring with owner := .capture, pending := captureEffects (stepSeen s samples) samples } := by
  have ho : s.ring.owner = .free := h
  rw [captureStarted, captureMove, if_pos ho]
  rfl

/-- What the completion of a step that has just started leaves. -/
theorem finishCapture_started (h : s.dev.audioOwner = .free) : finishCapture (captureStarted s samples) =
    (captureStarted s samples).withRing { stepRing s.params (stepSeen s samples) samples (captureStarted s samples).ring with
      owner := .free, pending := [] } := by
  have he := captureStarted_eq (samples := samples) h
  have ho : (captureStarted s samples).dev.audioOwner = .capture := by rw [he]; rfl
  have hp : (captureStarted s samples).dev.capturePending = captureEffects (stepSeen s samples) samples := by rw [he]; rfl
  have hs : (captureStarted s samples).params = s.params := by rw [he]; rfl
  rw [finishCapture, if_pos ho, hp, hs, captureEffects_foldl]

theorem captureStarted_frame (h : s.dev.audioOwner = .free) : CaptureFrame s (captureStarted s samples) :=
  .of_ring (captureMove_frame s s.ring _) s.draws rfl fun ho => by rw [h] at ho; cases ho

/-! ## The bytes of a step -/

/-- Effects write no byte but their targets. -/
theorem applyEffects_byte {l : List CaptureEffect} {k : Nat}
    (h : ∀ e ∈ l, ∀ b, e.target = some b → backingIndex p b ≠ k) :
    sparseGet (l.foldl (applyEffect p) r).mem k = sparseGet r.mem k := by
  induction l generalizing r with
  | nil => rfl
  | cons e l ih =>
    exact (ih fun x hx => h x (List.mem_cons_of_mem _ hx)).trans (applyEffect_byte (h e (List.mem_cons_self ..)))

/-- A byte of a step is in memory after it, if no later one falls on it. -/
theorem byteEffects_written {j : Nat} (hj : j < samples.length) {a : Word} (ha : c.byteAddr j = some a)
    (h : ∀ j' b, j < j' → j' < samples.length → c.byteAddr j' = some b → backingIndex p b ≠ backingIndex p a) :
    sparseGet ((byteEffects c samples).foldl (applyEffect p) r).mem (backingIndex p a) = samples[j] := by
  have hl : j < (byteEffects c samples).length := by simpa [byteEffects] using hj
  have hget : (byteEffects c samples)[j] = ⟨.byte j samples[j], c⟩ := by simp [byteEffects]
  have hsplit : byteEffects c samples =
      (byteEffects c samples).take j ++ (byteEffects c samples)[j] :: (byteEffects c samples).drop (j + 1) := by simp
  rw [hsplit, List.foldl_append, List.foldl_cons, applyEffects_byte, hget]
  · simp only [applyEffect, ha, sparseGet_set, if_true]
  · intro e he b hb
    obtain ⟨i, hi, rfl⟩ := List.mem_iff_getElem.1 he
    have hi' : j + 1 + i < samples.length := by simp [byteEffects] at hi; omega
    have hei : ((byteEffects c samples).drop (j + 1))[i] = ⟨.byte (j + 1 + i) samples[j + 1 + i], c⟩ := by
      simp [byteEffects]
    rw [hei] at hb
    exact h (j + 1 + i) b (by omega) hi' hb

/-- The place of sample `j` in the ring, where no sum of TAIL and an offset wraps. -/
theorem byteAddr_of_lt {j : Nat} (hc : c.count ≤ j + c.size.toNat) (hj : c.tail.toNat + j < 2 ^ 32) :
    c.byteAddr j = some (c.addr + BitVec.ofNat 32 ((c.tail.toNat + j) % c.size.toNat)) := by
  rw [CaptureSeen.byteAddr, if_pos hc]
  congr 2
  apply BitVec.eq_of_toNat_eq
  have hm : (c.tail.toNat + j) % c.size.toNat < 2 ^ 32 := Nat.lt_of_le_of_lt (Nat.mod_le _ _) hj
  rw [BitVec.toNat_umod, BitVec.toNat_add, BitVec.toNat_ofNat, BitVec.toNat_ofNat, Nat.add_mod_mod, Nat.mod_eq_of_lt hj,
    Nat.mod_eq_of_lt hm]

/-- Of the last SIZE samples no two fall on one byte of the ring. -/
theorem ring_offset_ne {n size x j j' : Nat} (hlt : j < j') (hj' : j' < n) (hn : n ≤ j + size) :
    (x + j') % size ≠ (x + j) % size := by
  intro he
  have hd : size ∣ (x + j') - (x + j) := (Nat.modEq_iff_dvd' (by omega)).1 he.symm
  have := Nat.le_of_dvd (by omega) hd
  omega

/-! ## The machine after the step -/

theorem hasRing_of_size (h : s.dev.audioIn[4] ≠ 0) : s.hasRing = true := by
  simpa [State.hasRing] using Or.inr h

theorem stepSeen_newTail (h : s.dev.audioIn[4] ≠ 0) :
    (stepSeen s samples).newTail = (s.dev.audioIn[3] + BitVec.ofNat 32 samples.length) % s.dev.audioIn[4] := if_neg h

/-- Guest memory after the step is what its bytes leave. -/
theorem captureStep_byteAt (h : s.dev.audioOwner = .free) (hs : s.dev.audioIn[4] ≠ 0) (a : Word) :
    ∃ r : CaptureRing, r.mem = s.mem ∧ (finishCapture (captureStarted s samples)).byteAt a =
      sparseGet ((byteEffects (stepSeen s samples) samples).foldl (applyEffect s.params) r).mem
        (backingIndex s.params a) := by
  have hr : (captureStarted s samples).hasRing = true := by
    rw [captureStarted_eq h]; exact hasRing_of_size hs
  have hm : (captureStarted s samples).ring.mem = s.mem := by
    rw [captureStarted_eq h]; exact if_pos (hasRing_of_size hs)
  refine ⟨_, hm, ?_⟩
  have hp := (captureStarted_frame (samples := samples) h).params
  rw [finishCapture_started h, State.byteAt, State.withRing_params, hp]
  exact congrArg (fun l => sparseGet l _) (if_pos hr)

/-- The registers after the step. -/
theorem captureStep_regs (h : s.dev.audioOwner = .free) :
    (finishCapture (captureStarted s samples)).dev.audioIn[3] = (stepSeen s samples).newTail ∧
    (finishCapture (captureStarted s samples)).dev.audioIn[5] =
      (if (stepSeen s samples).overflows then (stepSeen s samples).size else (stepSeen s samples).sum) ∧
    (finishCapture (captureStarted s samples)).dev.audioIn[2] =
      (if (stepSeen s samples).overflows then (stepSeen s samples).newTail else s.dev.audioIn[2]) := by
  have h2 : (captureStarted s samples).ring.head = s.dev.audioIn[2] := by rw [captureStarted_eq h]; rfl
  rw [finishCapture_started h, ← h2]
  exact ⟨rfl, rfl, rfl⟩

theorem stepSeen_overflows (s : State) (samples : List Byte) : (stepSeen s samples).overflows =
    s.dev.audioIn[4].ult (s.dev.audioIn[5] + BitVec.ofNat 32 samples.length) := rfl

/-- Settles O54, by the registers and the bytes after the whole step; the last SIZE samples go to distinct bytes. -/
theorem captureStepAppends : Obligations.CaptureStepAppends := by
  unfold Obligations.CaptureStepAppends
  intro s samples hfree addr tail size sum t hsize
  obtain ⟨h3, h5, h2⟩ := captureStep_regs (samples := samples) hfree
  have hbyte := captureStep_byteAt (samples := samples) hfree hsize
  rw [stepSeen_newTail hsize] at h3
  rw [stepSeen_newTail hsize, ← h3] at h2
  rw [stepSeen_overflows] at h5 h2
  refine ⟨?_, ?_, h3, fun ho => ?_, fun ho => ?_, fun hle hsum j hj hlast => ?_, fun a ha => ?_,
    (captureStarted_frame hfree).trans (finishCapture_frame _)⟩
  · exact congrArg (fun x : State => x.dev.audioOwner) (finishCapture_started hfree)
  · exact congrArg (fun x : State => x.dev.capturePending) (finishCapture_started hfree)
  · have ho : size.ult sum = true := BitVec.ult_iff_lt.2 ho
    exact ⟨h5.trans (if_pos ho), h2.trans (if_pos ho)⟩
  · have ho : ¬ size.ult sum = true := fun h => absurd (BitVec.ult_iff_lt.1 h) (BitVec.not_lt.2 ho)
    exact ⟨h5.trans (if_neg ho), h2.trans (if_neg ho)⟩
  · have hpos : 0 < size.toNat := Nat.pos_of_ne_zero fun h => hsize (BitVec.eq_of_toNat_eq h)
    have hoff (x : Nat) : x % size.toNat < memSize s.params := Nat.lt_of_lt_of_le (Nat.mod_lt _ hpos) hle
    have hplace {i : Nat} (hi : i < samples.length) (hl : samples.length ≤ i + size.toNat) :
        (stepSeen s samples).byteAddr i = some (addr + BitVec.ofNat 32 ((tail.toNat + i) % size.toNat)) :=
      byteAddr_of_lt (c := stepSeen s samples) hl (show tail.toNat + i < 2 ^ 32 by omega)
    obtain ⟨r, -, hr⟩ := hbyte (addr + BitVec.ofNat 32 ((tail.toNat + j) % size.toNat))
    refine hr.trans (byteEffects_written hj (hplace hj hlast) fun j' b hjj hj' hb => ?_)
    cases (hplace hj' (by omega)).symm.trans hb
    exact fun he => ring_offset_ne hjj hj' hlast (backingIndex_offset_inj (hoff _) (hoff _) he)
  · obtain ⟨r, hm, hr⟩ := hbyte a
    refine hr.trans ((applyEffects_byte fun e he b hb hk => ha ?_).trans (by rw [hm]; rfl))
    obtain ⟨x, hx, rfl⟩ := captureEffects_target (c := stepSeen s samples) (samples := samples) rfl
      (List.mem_append_left _ he) hb
    exact ⟨x, hx, hk⟩

end Sys2Proof.Machine
end

section
/-! SUPPORT. The statement about the bit-blt (20_memory R74): a store that selects DISP_BITBLT_WH is the copy of the rectangle;
the copy goes byte by byte, and what it has done so far is an invariant of its two loops. -/

namespace Sys2Proof.Machine

open Sys2Proof

variable {s x y u : State} {q : BltParams} {b : Blt} {base : Word} {display : Vector Word 8} {r j : Nat}

/-! ## From the store to the copy -/

/-- The state in which the copy starts: the register stored, after the capture agent has acted. -/
def bltStart (s : State) (ea : Word) (n : Nat) (v : Word) : State :=
  { captureInstant s with
    dev := { (captureInstant s).dev with display := s.dev.display.set 7 v }
    mreserved := reservationAfter s ea n }

theorem memStore_display7 {w : Width} {a v : Word} (hd : ¬ InGuest a)
    (hs : select s.params.devAddr a = some (.display 7)) : memStore w a v s = .ok (bltStart s a w.bytes (w.low v)) := by
  have hk : devStore (s.selects a) (w.low v) (captureInstant s) =
      .ok { captureInstant s with dev := { (captureInstant s).dev with display := s.dev.display.set 7 (w.low v) } } := by
    rw [selects_of_not_inGuest hd, hs]
    exact congrArg Except.ok (storeDisplay_kept (i := 7) (s := captureInstant s) fun h => absurd h.1 (by decide))
  rw [memStore, if_pos (not_inGuest_iff.1 hd), hk]
  simp only [Except.map, breakReservation_eq]
  exact congrArg (fun m => Except.ok { captureInstant s with
    dev := { (captureInstant s).dev with display := s.dev.display.set 7 (w.low v) }
    mreserved := m })
    (reservationAfter_congr (captureInstant_frame s).mreserved (captureInstant_frame s).params a w.bytes)

/-- A store that selects DISP_BITBLT_WH ends as its copy does. -/
theorem storeForm_bitBlt {f : StoreForm} {rs1 rs2 : Reg} {imm : BitVec 12} (hw : devMapWf s.params.devAddr = true)
    (hs : select s.params.devAddr (eaSigned s rs1 imm) = some (.display 7)) (hf : f ∈ storeForms s rs1 rs2 imm) :
    exec f.instr s = retireAfter len4 (bitBlt (bltStart s (eaSigned s rs1 imm) f.bytes f.value)) := by
  obtain ⟨w, hx, hb, hv⟩ := storeForms_exec hf
  have hd := not_inGuest_of_select hw hs
  rw [hx, storeReg, memWrite, memStore_display7 hd hs, hb, hv]
  simp only [selects_of_not_inGuest hd, hs, if_true]

theorem bitBlt_of_some (h : x.params.blt = some q) : bitBlt x =
    (List.range (bltOf q x.dev.display).h.toNat).foldlM (fun t r => bltRow q (bltOf q x.dev.display) r t) x := by
  simp only [bitBlt, h]

theorem bitBlt_refused (h : x.params.blt = none) (h0 : x.dev.display[7].extractLsb' 0 16 ≠ 0)
    (h1 : x.dev.display[7].extractLsb' 16 16 ≠ 0) : bitBlt x = .error .bitBltNotFixed := by
  simp only [bitBlt, h, if_pos (And.intro h0 h1)]

theorem bitBlt_empty (h : x.params.blt = none)
    (h0 : x.dev.display[7].extractLsb' 0 16 = 0 ∨ x.dev.display[7].extractLsb' 16 16 = 0) : bitBlt x = .ok x := by
  simp only [bitBlt, h]
  exact if_neg fun hn => h0.elim hn.1 hn.2

/-! ## What the copy leaves but for memory -/

/-- `s` with what the capture agent has changed in `x`, but for memory. -/
def agentPart (s x : State) : State :=
  { s with
    draws := x.draws
    dev := { s.dev with
      audioIn := x.dev.audioIn
      audioOwner := x.dev.audioOwner
      capturePending := x.dev.capturePending } }

/-- `x` is `s` with the display registers `display`, but for memory, the reservation and what the capture agent did. -/
structure BltFrame (s : State) (display : Vector Word 8) (x : State) : Prop where
  agent : CaptureFrame s (agentPart s x)
  rest : x = { agentPart s x with
    mem := x.mem
    mreserved := x.mreserved
    dev := { (agentPart s x).dev with display := display } }

namespace BltFrame

theorem params (h : BltFrame s display x) : x.params = s.params := by rw [h.rest]; rfl

theorem display_eq (h : BltFrame s display x) : x.dev.display = display := by rw [h.rest]

theorem undisturbed (h : BltFrame s display x) {a : Word} (ha : Undisturbed s a) : Undisturbed x a := by
  have := h.agent.undisturbed a ha
  unfold Undisturbed InRing Owed at *
  rwa [h.params]

theorem start (s : State) (ea : Word) (n : Nat) (v : Word) :
    BltFrame s (s.dev.display.set 7 v) (bltStart s ea n v) := by
  have hc := captureInstant_frame s
  refine ⟨⟨rfl, hc.regs, hc.hart, fun ho => ?_, fun _ _ => rfl, hc.undisturbed⟩, rfl⟩
  rw [agentPart, bltStart, captureInstant_of_hart ho]

/-- A read of guest memory. -/
theorem capture (h : BltFrame s display x) (h' : CaptureFrame x y) : BltFrame s display y where
  agent := by
    refine ⟨rfl, fun i hi h2 h3 h5 => (h'.regs i hi h2 h3 h5).trans (h.agent.regs i hi h2 h3 h5),
      h'.hart.trans h.agent.hart, fun ho => ?_, fun _ _ => rfl, fun a ha => ?_⟩
    · rw [h'.held (h.agent.hart.2 ho)]; exact h.agent.held ho
    · have hy := h'.undisturbed a (h.undisturbed ha)
      unfold Undisturbed InRing Owed at *
      rwa [h'.params, h.params] at hy
  rest := by
    have hx := h.rest
    have hy := h'.rest
    rw [hx] at hy
    rw [h'.mreserved]
    exact hy

/-- A store to guest memory. -/
theorem store (h : BltFrame s display y) (hx : x = { y with mem := x.mem, mreserved := x.mreserved }) :
    BltFrame s display x := by
  have hp : agentPart s x = agentPart s y := by rw [hx]; rfl
  refine ⟨hp ▸ h.agent, ?_⟩
  rw [hp, hx, h.rest]
  rfl

end BltFrame

/-! ## The bytes of the copy -/

/-- Where byte `j` of row `r` comes from (R74). -/
def bltSource (q : BltParams) (b : Blt) (r j : Nat) : Word := b.source + BitVec.ofNat 32 (r * b.w.toNat * q.bpp + j)

/-- Where byte `j` of row `r` goes (R74). -/
def bltDest (q : BltParams) (b : Blt) (base : Word) (r j : Nat) : Word :=
  base + BitVec.ofNat 32 (((b.dy.toNat + r) * b.width.toNat + b.dx.toNat) * q.bpp + j)

/-- Byte `j` of row `r` is one of the rectangle that BLT_CLIP does not skip. -/
def BltCopied (q : BltParams) (b : Blt) (r j : Nat) : Prop :=
  r < b.h.toNat ∧ j < b.w.toNat * q.bpp ∧
    ¬ (q.clip = true ∧ (b.width.toNat ≤ b.dx.toNat + j / q.bpp ∨ b.height.toNat ≤ b.dy.toNat + r))

theorem bltSource_eq (q : BltParams) (b : Blt) (r j : Nat) :
    b.source + BitVec.ofNat 32 r * b.w * BitVec.ofNat 32 q.bpp + BitVec.ofNat 32 j = bltSource q b r j := by
  simp only [bltSource, BitVec.ofNat_add, BitVec.ofNat_mul, BitVec.ofNat_toNat, BitVec.setWidth_eq, BitVec.add_assoc]

theorem bltDest_eq (q : BltParams) (b : Blt) (base : Word) (r j : Nat) :
    base + ((b.dy + BitVec.ofNat 32 r) * b.width + b.dx) * BitVec.ofNat 32 q.bpp + BitVec.ofNat 32 j =
      bltDest q b base r j := by
  simp only [bltDest, BitVec.ofNat_add, BitVec.ofNat_mul, BitVec.ofNat_toNat, BitVec.setWidth_eq, BitVec.add_assoc]

theorem bltSkips_iff : bltSkips q b r j = true ↔
    q.clip = true ∧ (b.width.toNat ≤ b.dx.toNat + j / q.bpp ∨ b.height.toNat ≤ b.dy.toNat + r) := by
  simp [bltSkips]

/-- The bytes of the copy lie in guest memory, the agent disturbs none of them, and no two fall on one byte where one of
them is written. -/
structure BltReady (s : State) (q : BltParams) (b : Blt) (base : Word) : Prop where
  guest : ∀ r j, BltCopied q b r j → InGuest (bltSource q b r j) ∧ InGuest (bltDest q b base r j) ∧
    Undisturbed s (bltSource q b r j) ∧ Undisturbed s (bltDest q b base r j)
  apart : ∀ r j r' j', BltCopied q b r j → BltCopied q b r' j' →
    backingIndex s.params (bltSource q b r j) ≠ backingIndex s.params (bltDest q b base r' j') ∧
    (backingIndex s.params (bltDest q b base r j) = backingIndex s.params (bltDest q b base r' j') → r = r' ∧ j = j')

/-- The copy has written the bytes of `done`, and no other. -/
structure BltDone (s : State) (display : Vector Word 8) (q : BltParams) (b : Blt) (base : Word)
    (done : Nat → Nat → Prop) (x : State) : Prop where
  frame : BltFrame s display x
  copied : ∀ r j, done r j → x.byteAt (bltDest q b base r j) = s.byteAt (bltSource q b r j)
  kept : ∀ a, Undisturbed s a →
    (∀ r j, done r j → backingIndex s.params (bltDest q b base r j) ≠ backingIndex s.params a) →
    x.byteAt a = s.byteAt a

/-- One byte read and stored in guest memory. -/
theorem copyByte_guest {src dst : Word} (hsrc : InGuest src) (hdst : InGuest dst) (hu : Undisturbed x src)
    (hf : BltFrame s display x) :
    ∃ t, memStore .byte dst (memRead .byte src x).1 (memRead .byte src x).2 = .ok t ∧ BltFrame s display t ∧
      ∀ a, Undisturbed x a →
        t.byteAt a = if backingIndex s.params dst = backingIndex s.params a then x.byteAt src else x.byteAt a := by
  obtain ⟨hc, hr⟩ := memRead_guest hsrc .byte x
  obtain ⟨u, hu', t, ht, hb, -, he⟩ := memStore_guest (s := (memRead .byte src x).2) hdst .byte (memRead .byte src x).1
  refine ⟨t, ht, ((hf.capture hc).capture hu').store he, fun a ha => ?_⟩
  have hv := hr.2 0 (by decide)
  have h0 (z : Word) : z + BitVec.ofNat 32 0 = z := by simp
  rw [h0] at hv
  rw [(hb a (hc.undisturbed a ha)).1]
  simp only [Width.bytes, byteAfter, h0, hc.params, hf.params, hv hu, hc.bytes a ha]

/-- Byte `j` of row `r`, where the bytes of `done` are done and it is none of them. -/
theorem bltByte_done {done done' : Nat → Nat → Prop} (hready : BltReady s q b display[1]) (hr : r < b.h.toNat)
    (hj : j < b.w.toNat * q.bpp) (hold : ∀ r' j', done r' j' → BltCopied q b r' j' ∧ ¬ (r' = r ∧ j' = j))
    (hnew : ∀ r' j', done' r' j' ↔ done r' j' ∨ (BltCopied q b r' j' ∧ r' = r ∧ j' = j))
    (hx : BltDone s display q b display[1] done x) :
    ∃ t, bltByte q b r j x = .ok t ∧ BltDone s display q b display[1] done' t := by
  by_cases hskip : bltSkips q b r j = true
  · have hsame (r' j' : Nat) : done' r' j' ↔ done r' j' := by
      rw [hnew]
      refine or_iff_left ?_
      rintro ⟨hc, rfl, rfl⟩
      exact hc.2.2 (bltSkips_iff.1 hskip)
    refine ⟨x, by rw [bltByte, if_pos hskip], hx.frame, fun r' j' h => hx.copied r' j' ((hsame _ _).1 h),
      fun a ha h => hx.kept a ha fun r' j' h' => h r' j' ((hsame _ _).2 h')⟩
  · have hc : BltCopied q b r j := ⟨hr, hj, fun h => hskip (bltSkips_iff.2 h)⟩
    obtain ⟨hsrc, hdst, husrc, hudst⟩ := hready.guest r j hc
    obtain ⟨t, ht, hft, hbt⟩ := copyByte_guest hsrc hdst (hx.frame.undisturbed husrc) hx.frame
    have hval : x.byteAt (bltSource q b r j) = s.byteAt (bltSource q b r j) :=
      hx.kept _ husrc fun r' j' h => (hready.apart r j r' j' hc (hold r' j' h).1).1.symm
    rw [hval] at hbt
    refine ⟨t, ?_, hft, fun r' j' h => ?_, fun a ha h => ?_⟩
    · have hd : (memRead .byte (bltSource q b r j) x).2.dev.display = display :=
        (hx.frame.capture (memRead_guest hsrc .byte x).1).display_eq
      rw [bltByte, if_neg hskip]
      simp only [bltSource_eq, hd, bltDest_eq]
      exact ht
    · rcases (hnew r' j').1 h with h | ⟨-, rfl, rfl⟩
      · obtain ⟨hc', hne⟩ := hold r' j' h
        rw [hbt _ (hx.frame.undisturbed (hready.guest r' j' hc').2.2.2),
          if_neg fun he => hne (((hready.apart r j r' j' hc hc').2 he).imp Eq.symm Eq.symm)]
        exact hx.copied r' j' h
      · rw [hbt _ (hx.frame.undisturbed hudst), if_pos rfl]
    · rw [hbt a (hx.frame.undisturbed ha), if_neg (h r j ((hnew r j).2 (.inr ⟨hc, rfl, rfl⟩)))]
      exact hx.kept a ha fun r' j' h' => h r' j' ((hnew r' j').2 (.inl h'))

/-! ## The two loops -/

/-- A loop over a range that completes, with what holds before each of its steps. -/
theorem foldlM_range_ok {ε σ : Type} {f : σ → Nat → Except ε σ} {P : Nat → σ → Prop} {n : Nat} {s : σ} (hs : P 0 s)
    (h : ∀ k < n, ∀ x, P k x → ∃ t, f x k = .ok t ∧ P (k + 1) t) :
    ∃ t, (List.range n).foldlM f s = .ok t ∧ P n t := by
  induction n with
  | zero => exact ⟨s, rfl, hs⟩
  | succ n ih =>
    obtain ⟨x, hx, hp⟩ := ih fun k hk => h k (Nat.lt_succ_of_lt hk)
    obtain ⟨t, ht, hp'⟩ := h n (Nat.lt_succ_self n) x hp
    refine ⟨t, ?_, hp'⟩
    rw [List.range_succ, List.foldlM_append, hx]
    show (f x n >>= pure) = _
    rw [bind_pure, ht]

/-- The bytes of the copy before byte `j` of row `r`. -/
def BltBefore (q : BltParams) (b : Blt) (r j r' j' : Nat) : Prop :=
  BltCopied q b r' j' ∧ (r' < r ∨ (r' = r ∧ j' < j))

theorem BltDone.congr {done done' : Nat → Nat → Prop} (h : BltDone s display q b base done x)
    (hd : ∀ r j, done' r j ↔ done r j) : BltDone s display q b base done' x :=
  ⟨h.frame, fun r j h' => h.copied r j ((hd r j).1 h'), fun a ha h' => h.kept a ha fun r j hj => h' r j ((hd r j).2 hj)⟩

theorem bltRow_done (hready : BltReady s q b display[1]) (hr : r < b.h.toNat)
    (hx : BltDone s display q b display[1] (BltBefore q b r 0) x) :
    ∃ t, bltRow q b r x = .ok t ∧ BltDone s display q b display[1] (BltBefore q b (r + 1) 0) t := by
  obtain ⟨t, ht, hd⟩ := foldlM_range_ok (f := fun t j => bltByte q b r j t) (n := b.w.toNat * q.bpp)
    (P := fun j => BltDone s display q b display[1] (BltBefore q b r j)) hx fun j hj y hy =>
      bltByte_done hready hr hj (fun r' j' h => ⟨h.1, by have := h.2; omega⟩) (fun r' j' => by
        have : (r' < r ∨ r' = r ∧ j' < j + 1) ↔ (r' < r ∨ r' = r ∧ j' < j) ∨ (r' = r ∧ j' = j) := by omega
        simp only [BltBefore, this, and_or_left]) hy
  refine ⟨t, ht, hd.congr fun r' j' => ?_⟩
  refine and_congr_right fun hc => ?_
  have := hc.2.1
  omega

/-- The whole copy. -/
theorem bitBlt_done (hq : x.params.blt = some q) (hb : b = bltOf q display) (hready : BltReady s q b display[1])
    (hf : BltFrame s display x) (hm : ∀ a, Undisturbed s a → x.byteAt a = s.byteAt a) :
    ∃ t, bitBlt x = .ok t ∧ BltDone s display q b display[1] (BltCopied q b) t := by
  rw [bitBlt_of_some hq, hf.display_eq, ← hb]
  have h0 : BltDone s display q b display[1] (BltBefore q b 0 0) x :=
    ⟨hf, fun r j h => absurd h.2 (by omega), fun a ha _ => hm a ha⟩
  obtain ⟨t, ht, hd⟩ := foldlM_range_ok (f := fun t r => bltRow q b r t) (n := b.h.toNat)
    (P := fun r => BltDone s display q b display[1] (BltBefore q b r 0)) h0 fun r hr y hy => bltRow_done hready hr hy
  exact ⟨t, ht, hd.congr fun r j => (and_iff_left_of_imp fun h => .inl h.1).symm⟩

/-- Settles O53: the store is the copy; by the invariant of its loops, or by the parameters that are not fixed. -/
theorem bitBltOnDisplayWrite : Obligations.BitBltOnDisplayWrite := by
  unfold Obligations.BitBltOnDisplayWrite
  intro s rs1 rs2 imm k hw hk hea f hf ea v display
  obtain ⟨h1, h2⟩ := word_bounds hk (i := 7) hea
  have hs := select_display hw 7 h1 h2
  have hx := storeForm_bitBlt hw hs hf
  have hstart := BltFrame.start s ea f.bytes v
  have h7 : (bltStart s ea f.bytes v).dev.display[7] = v := by simp [bltStart]
  refine ⟨fun q hq => ?_, fun hn hv0 hv1 => ?_, fun hn hv => ?_⟩
  · intro b source dest copied hguest hapart
    have hbase : display[1] = s.dev.display[1] := by simp [display]
    have hready : BltReady s q b display[1] := by rw [hbase]; exact ⟨hguest, hapart⟩
    obtain ⟨t, ht, hd⟩ := bitBlt_done (x := bltStart s ea f.bytes v) hq rfl hready hstart
      (captureInstant_frame s).bytes
    have hr := hd.frame.rest
    have hregs : t.regs = s.regs := by rw [hr]; rfl
    have hpc : t.pc = s.pc := by rw [hr]; rfl
    rw [hbase] at hd
    refine ⟨agentPart s t, hd.frame.agent, t.retire len4, by rw [hx, ht]; rfl, hd.copied, hd.kept, ?_, fun r => ?_,
      State.retire_zero t _, ?_, ?_⟩
    · exact congrArg State.dev hr
    · rw [State.getReg_retire]; exact State.getReg_congr hregs r
    · rw [State.retire_pc, hpc]; rfl
    · exact congrArg (fun z : State => { z with
        regs := (t.retire len4).regs, pc := (t.retire len4).pc, dev := t.dev }) hr
  · rw [hx, bitBlt_refused (x := bltStart s ea f.bytes v) hn (by rw [h7]; exact hv0) (by rw [h7]; exact hv1)]
    rfl
  · rw [bitBlt_empty (x := bltStart s ea f.bytes v) hn (by rw [h7]; exact hv)] at hx
    exact ⟨_, captureInstant_frame s, _, hx, fun r => State.getReg_retire _ _ r, State.retire_zero _ _, rfl⟩

end Sys2Proof.Machine
end

section
/-! SUPPORT. The statements about encoding and decoding (30_encoding). Decoding an encoding reads back the fields that
were placed in it. Encoding what was decoded puts the fields of the word together again: one lemma a format and one a
decoder. The statements about the step of the hart follow from the lemmas of Laws/Schedule. -/

namespace Sys2Proof

/-! ## The decoder reads back the fields that the encoder wrote -/

/-- What the decoder of an encoding's length gives (30_encoding R89). -/
def Encoded.decoded : Encoded → Except Reject Instr
  | .w32 w => decode32 w
  | .w16 h => decode16 h

/-! ### One lemma a major opcode of several rows: its words reach its own selector -/

section MajorOpcodes

variable (rd rs1 rs2 : Reg) (f3 : BitVec 3)

theorem decoded_branch {imm : BitVec 13} (hz : lowZero 1 imm = true) :
    (fmtB imm rs2 rs1 f3 0x63).decoded = decodeBranch f3 rs1 rs2 imm := by
  simp (disch := decide) [Encoded.decoded, fmtB, decode32, immB, BitVec.extractLsb'_or, extract_place,
    extract_place_below, extract_place_above, join_immB _ hz]

theorem decoded_load (imm : BitVec 12) : (fmtI imm rs1 f3 rd 0x03).decoded = decodeLoad f3 rd rs1 imm := by
  simp (disch := decide) [Encoded.decoded, fmtI, decode32, BitVec.extractLsb'_or, extract_place,
    extract_place_below, extract_place_above]

theorem decoded_store (imm : BitVec 12) : (fmtS imm rs2 rs1 f3 0x23).decoded = decodeStore f3 rs1 rs2 imm := by
  simp (disch := decide) [Encoded.decoded, fmtS, decode32, immS, BitVec.extractLsb'_or, extract_place,
    extract_place_below, extract_place_above, join_immS]

theorem decoded_opImm (imm : BitVec 12) : (fmtI imm rs1 f3 rd 0x13).decoded =
    decodeOpImm (imm.extractLsb' 5 7) f3 rd rs1 (imm.extractLsb' 0 5) imm := by
  simp (disch := decide) [Encoded.decoded, fmtI, decode32, BitVec.extractLsb'_or, extract_place,
    extract_place_below, extract_place_above]

theorem decoded_op (f7 : BitVec 7) : (fmtR f7 rs2 rs1 f3 rd 0x33).decoded = decodeOp f7 f3 rd rs1 rs2 := by
  simp (disch := decide) [Encoded.decoded, fmtR, decode32, BitVec.extractLsb'_or, extract_place,
    extract_place_below, extract_place_above]

theorem decoded_amo (f5 : BitVec 5) (aq rl : BitVec 1) :
    (fmtA f5 aq rl rs2 rs1 rd).decoded = decodeAmo f5 2 rd rs1 rs2 aq rl := by
  simp (disch := decide) [Encoded.decoded, fmtA, decode32, BitVec.extractLsb'_or, extract_place,
    extract_place_below, extract_place_above]

end MajorOpcodes

theorem setWidth_eq_place {n w : Nat} (v : BitVec n) : v.setWidth w = place w 0 v := by simp [place]

/-- The decoder of its length reads back a well-formed instruction: the selectors are the codes the encoder wrote, and
each immediate is put together again from its pieces. -/
theorem decoded_encode {i : Instr} (h : i.wf = true) : (encode i).decoded = .ok i := by
  cases i with
  | lui | auipc =>
    simp (disch := decide) [encode, fmtU, Encoded.decoded, decode32, BitVec.extractLsb'_or, extract_place,
      extract_place_below, extract_place_above]
  | jal =>
    simp (disch := decide) [encode, fmtJ, Encoded.decoded, decode32, immJ, BitVec.extractLsb'_or, extract_place,
      extract_place_below, extract_place_above, join_immJ _ h]
  | jalr =>
    simp (disch := decide) [encode, fmtI, Encoded.decoded, decode32, BitVec.extractLsb'_or, extract_place,
      extract_place_below, extract_place_above]
  | beq | bne | blt | bge | bltu | bgeu => exact decoded_branch _ _ _ h
  | lb | lh | lw | lbu | lhu => exact decoded_load _ _ _ _
  | sb | sh | sw => exact decoded_store _ _ _ _
  | addi | slti | sltiu | xori | ori | andi => exact decoded_opImm _ _ _ _
  | slli | srli | srai =>
    simp (disch := decide) [encode, fmtR, Encoded.decoded, decode32, decodeOpImm, BitVec.extractLsb'_or, extract_place,
      extract_place_below, extract_place_above]
  | add | sub | sll | slt | sltu | xor | srl | sra | or | and
    | mul | mulh | mulhsu | mulhu | div | divu | rem | remu => exact decoded_op _ _ _ _ _
  | fence =>
    simp (disch := decide) [encode, Encoded.decoded, decode32, decodeMiscMem, BitVec.extractLsb'_or, extract_place,
      extract_place_below, extract_place_above]
  | fenceI =>
    simp (disch := decide) [encode, fmtI, Encoded.decoded, decode32, decodeMiscMem, BitVec.extractLsb'_or,
      extract_place, extract_place_below, extract_place_above]
  | lrW | scW | amoswapW | amoaddW | amoxorW | amoandW | amoorW | amominW | amomaxW | amominuW | amomaxuW =>
    exact decoded_amo _ _ _ _ _ _
  | ecall | ebreak | mret | wfi => rfl
  | csrrw | csrrs | csrrc | csrrwi | csrrsi | csrrci =>
    simp (disch := decide) [encode, fmtI, Encoded.decoded, decode32, decodeSystem, BitVec.extractLsb'_or, extract_place,
      extract_place_below, extract_place_above]
  | cAddi4spn rd imm =>
    obtain ⟨hz, hi⟩ := Bool.and_eq_true_iff.1 h
    have h0 : imm ≠ 0#10 := bne_iff_ne.1 hi
    simp (disch := decide) [encode, fmtCIW, Encoded.decoded, decode16, decodeQ0, immAddi4spn, BitVec.extractLsb'_or,
      extract_place, extract_place_below, extract_place_above, join_immAddi4spn _ hz, h0]
  | cFld | cFsd =>
    simp (disch := decide) [encode, fmtCLD, Encoded.decoded, decode16, decodeQ0, immCD, BitVec.extractLsb'_or,
      extract_place, extract_place_below, extract_place_above, join_immCD _ h]
  | cLw | cFlw | cSw | cFsw =>
    simp (disch := decide) [encode, fmtCLW, Encoded.decoded, decode16, decodeQ0, immCW, BitVec.extractLsb'_or,
      extract_place, extract_place_below, extract_place_above, join_immCW _ h]
  | cNop | cLi =>
    simp (disch := decide) [encode, fmtCI, Encoded.decoded, decode16, decodeQ1, immCI, BitVec.extractLsb'_or,
      extract_place, extract_place_below, extract_place_above, join_immCI]
  | cAddi rd =>
    have h0 : rd ≠ 0#5 := bne_iff_ne.1 h
    simp (disch := decide) [encode, fmtCI, Encoded.decoded, decode16, decodeQ1, immCI, BitVec.extractLsb'_or,
      extract_place, extract_place_below, extract_place_above, join_immCI, h0]
  | cJal | cJ =>
    simp (disch := decide) [encode, fmtCJ, Encoded.decoded, decode16, decodeQ1, immCJ, BitVec.extractLsb'_or,
      extract_place, extract_place_below, extract_place_above, join_immCJ _ h]
  | cAddi16sp imm =>
    obtain ⟨hz, hi⟩ := Bool.and_eq_true_iff.1 h
    have h0 : imm ≠ 0#10 := bne_iff_ne.1 hi
    simp (disch := decide) [encode, fmtAddi16sp, Encoded.decoded, decode16, decodeQ1, immAddi16sp,
      BitVec.extractLsb'_or, extract_place, extract_place_below, extract_place_above, join_immAddi16sp _ hz, h0]
  | cLui rd imm =>
    obtain ⟨hd, hzi⟩ := Bool.and_eq_true_iff.1 h
    obtain ⟨hz, hi⟩ := Bool.and_eq_true_iff.1 hzi
    have h2 : rd ≠ 2#5 := bne_iff_ne.1 hd
    have h0 : imm ≠ 0#18 := bne_iff_ne.1 hi
    simp (disch := decide) [encode, fmtCLui, Encoded.decoded, decode16, decodeQ1, immCLui,
      BitVec.extractLsb'_or, extract_place, extract_place_below, extract_place_above, join_immCLui _ hz, h2, h0]
  | cSrli | cSrai | cAndi =>
    simp (disch := decide) [encode, fmtCBAlu, Encoded.decoded, decode16, decodeQ1, decodeQ1Alu, immCI,
      BitVec.extractLsb'_or, extract_place, extract_place_below, extract_place_above, join_immCI,
      setWidth_eq_place]
  | cSub | cXor | cOr | cAnd =>
    simp (disch := decide) [encode, fmtCA, Encoded.decoded, decode16, decodeQ1, decodeQ1Alu, BitVec.extractLsb'_or,
      extract_place, extract_place_below, extract_place_above]
  | cBeqz | cBnez =>
    simp (disch := decide) [encode, fmtCB, Encoded.decoded, decode16, decodeQ1, immCB, BitVec.extractLsb'_or,
      extract_place, extract_place_below, extract_place_above, join_immCB _ h]
  | cSlli =>
    simp (disch := decide) [encode, fmtCI, Encoded.decoded, decode16, decodeQ2, setWidth_eq_place,
      BitVec.extractLsb'_or, extract_place, extract_place_below, extract_place_above]
  | cFldsp =>
    simp (disch := decide) [encode, fmtFldsp, Encoded.decoded, decode16, decodeQ2, immFldsp, BitVec.extractLsb'_or,
      extract_place, extract_place_below, extract_place_above, join_immFldsp _ h]
  | cLwsp rd =>
    obtain ⟨hd, hz⟩ := Bool.and_eq_true_iff.1 h
    have h0 : rd ≠ 0#5 := bne_iff_ne.1 hd
    simp (disch := decide) [encode, fmtLwsp, Encoded.decoded, decode16, decodeQ2, immLwsp, BitVec.extractLsb'_or,
      extract_place, extract_place_below, extract_place_above, join_immLwsp _ hz, h0]
  | cFlwsp =>
    simp (disch := decide) [encode, fmtLwsp, Encoded.decoded, decode16, decodeQ2, immLwsp, BitVec.extractLsb'_or,
      extract_place, extract_place_below, extract_place_above, join_immLwsp _ h]
  | cJr r | cJalr r | cMv _ r | cAdd _ r =>
    have h0 : r ≠ 0#5 := bne_iff_ne.1 h
    simp (disch := decide) [encode, fmtCR, Encoded.decoded, decode16, decodeQ2, decodeQ2Reg, BitVec.extractLsb'_or,
      extract_place, extract_place_below, extract_place_above, h0]
  | cEbreak => rfl
  | cFsdsp =>
    simp (disch := decide) [encode, fmtFsdsp, Encoded.decoded, decode16, decodeQ2, immFsdsp, BitVec.extractLsb'_or,
      extract_place, extract_place_below, extract_place_above, join_immFsdsp _ h]
  | cSwsp | cFswsp =>
    simp (disch := decide) [encode, fmtSwsp, Encoded.decoded, decode16, decodeQ2, immSwsp, BitVec.extractLsb'_or,
      extract_place, extract_place_below, extract_place_above, join_immSwsp _ h]

/-- The family EncodedLength, over every instruction. -/
theorem encode_agrees (i : Instr) : Laws.EncodedLength.Statement i := by
  cases i with
  | lui | auipc => exact Laws.EncodedLength.fmtU_agrees _ _ _ (by decide)
  | jal => exact Laws.EncodedLength.fmtJ_agrees _ _ _ (by decide)
  | beq | bne | blt | bge | bltu | bgeu => exact Laws.EncodedLength.fmtB_agrees _ _ _ _ _ (by decide)
  | sb | sh | sw => exact Laws.EncodedLength.fmtS_agrees _ _ _ _ _ (by decide)
  | jalr | lb | lh | lw | lbu | lhu | addi | slti | sltiu | xori | ori | andi | fenceI | ecall | ebreak | mret | wfi
    | csrrw | csrrs | csrrc | csrrwi | csrrsi | csrrci => exact Laws.EncodedLength.fmtI_agrees _ _ _ _ _ (by decide)
  | slli | srli | srai | add | sub | sll | slt | sltu | xor | srl | sra | or | and
    | mul | mulh | mulhsu | mulhu | div | divu | rem | remu =>
    exact Laws.EncodedLength.fmtR_agrees _ _ _ _ _ _ (by decide)
  | fence => exact Laws.EncodedLength.fence _ _ _ _ _
  | lrW | scW | amoswapW | amoaddW | amoxorW | amoandW | amoorW | amominW | amomaxW | amominuW | amomaxuW =>
    exact Laws.EncodedLength.fmtA_agrees _ _ _ _ _ _
  | cAddi4spn => exact Laws.EncodedLength.fmtCIW_agrees _ _
  | cFld | cFsd => exact Laws.EncodedLength.fmtCLD_agrees _ _ _ _
  | cLw | cFlw | cSw | cFsw => exact Laws.EncodedLength.fmtCLW_agrees _ _ _ _
  | cNop | cAddi | cLi | cSlli => exact Laws.EncodedLength.fmtCI_agrees _ _ _ _ (by decide)
  | cJal | cJ => exact Laws.EncodedLength.fmtCJ_agrees _ _
  | cAddi16sp => exact Laws.EncodedLength.fmtAddi16sp_agrees _
  | cLui => exact Laws.EncodedLength.fmtCLui_agrees _ _
  | cSrli | cSrai | cAndi => exact Laws.EncodedLength.fmtCBAlu_agrees _ _ _
  | cSub | cXor | cOr | cAnd => exact Laws.EncodedLength.fmtCA_agrees _ _ _
  | cBeqz | cBnez => exact Laws.EncodedLength.fmtCB_agrees _ _ _
  | cFldsp => exact Laws.EncodedLength.fmtFldsp_agrees _ _
  | cLwsp | cFlwsp => exact Laws.EncodedLength.fmtLwsp_agrees _ _ _
  | cJr | cMv | cEbreak | cJalr | cAdd => exact Laws.EncodedLength.fmtCR_agrees _ _ _
  | cFsdsp => exact Laws.EncodedLength.fmtFsdsp_agrees _ _
  | cSwsp | cFswsp => exact Laws.EncodedLength.fmtSwsp_agrees _ _ _

/-- A fetched word of 32 bits is decoded as a whole. -/
theorem decode_of_long {w : BitVec 32} (hl : w.extractLsb' 0 2 = 3#2) : decode w = decode32 w := if_pos hl

/-- Of a fetched word that is no 32-bit instruction the low half is decoded. -/
theorem decode_of_short {w : BitVec 32} (hl : w.extractLsb' 0 2 ≠ 3#2) : decode w = decode16 (w.extractLsb' 0 16) :=
  if_neg hl

/-- Settles O1: the low two bits of an encoding name its length, and that length's decoder reads its fields back. -/
theorem decodeOfEncode : Obligations.DecodeOfEncode := by
  unfold Obligations.DecodeOfEncode
  intro i h
  have hd := decoded_encode h
  have ha := encode_agrees i
  rw [Laws.EncodedLength.Statement] at ha
  cases he : encode i with
  | w32 w =>
    rw [he] at hd ha
    exact (decode_of_long ha).trans hd
  | w16 x =>
    rw [he] at hd ha
    intro next
    rw [decode_of_short (by rwa [extract_append_low _ _ _ _ (by decide)]), extract_append_low _ _ _ _ (by decide),
      extract_full]
    exact hd

/-! ## The words of a decoded instruction are the words that were read -/

/-- Every instruction that a decoder gives has the encoding `e`. -/
def SpelledBy (e : Encoded) (r : Except Reject Instr) : Prop := ∀ i, r = .ok i → encode i = e

namespace SpelledBy

variable {e : Encoded}

theorem ok {i : Instr} (h : encode i = e) : SpelledBy e (.ok i) := by
  rintro _ ⟨⟩
  exact h

theorem error (x : Reject) : SpelledBy e (.error x) := nofun

theorem ite {c : Prop} [Decidable c] {a b : Except Reject Instr} (ha : c → SpelledBy e a)
    (hb : ¬ c → SpelledBy e b) : SpelledBy e (if c then a else b) := by
  split
  · next hc => exact ha hc
  · next hc => exact hb hc

end SpelledBy

/-! ### Adjacent fields of one word -/

section Fields

variable {n lo hi k m : Nat} {v : BitVec n}

@[simp] theorem place_zero : place n lo (0 : BitVec k) = 0 := by simp [place]

@[simp] theorem place_whole (v : BitVec n) : place n 0 v = v := by simp [place]

/-- Two adjacent fields of a word are one field of it. -/
@[simp] theorem place_join (h : hi = lo + k) :
    place n hi (v.extractLsb' hi m) ||| place n lo (v.extractLsb' lo k) = place n lo (v.extractLsb' lo (k + m)) := by
  subst h
  refine BitVec.eq_of_getLsbD_eq fun i hi => ?_
  simp only [BitVec.getLsbD_or, getLsbD_place, BitVec.getLsbD_extractLsb', hi, decide_true, Bool.true_and]
  by_cases hl : lo ≤ i
  · by_cases hk : lo + k ≤ i
    · have h1 : ¬ i - lo < k := by omega
      have h2 : i - (lo + k) < m ↔ i - lo < k + m := by omega
      simp [hl, hk, h1, h2]
    · have h1 : i - lo < k := by omega
      have h2 : i - lo < k + m := by omega
      simp [hl, hk, h1, h2]
  · have hk : ¬ lo + k ≤ i := by omega
    simp [hl, hk]

/-- A field with the zero field above it. -/
theorem place_extend_up (h0 : v.extractLsb' hi m = 0) (h : hi = lo + k) :
    place n lo (v.extractLsb' lo k) = place n lo (v.extractLsb' lo (k + m)) := by
  rw [← place_join h, h0, place_zero]
  exact BitVec.zero_or.symm

/-- A field with the zero field below it. -/
theorem place_extend_down (h0 : v.extractLsb' lo k = 0) (h : hi = lo + k) :
    place n hi (v.extractLsb' hi m) = place n lo (v.extractLsb' lo (k + m)) := by
  rw [← place_join h, h0, place_zero]
  exact BitVec.or_zero.symm

end Fields

/-! ### One lemma a format: the format of a word's own fields is the word -/

section Words

variable {w : BitVec 32} {rd rs1 rs2 : Reg} {f3 : BitVec 3} {op : BitVec 7}

theorem fmtR_of_fields {f7 : BitVec 7} (h7 : w.extractLsb' 25 7 = f7) (hs2 : w.extractLsb' 20 5 = rs2)
    (hs1 : w.extractLsb' 15 5 = rs1) (h3 : w.extractLsb' 12 3 = f3) (hd : w.extractLsb' 7 5 = rd)
    (hop : w.extractLsb' 0 7 = op) : fmtR f7 rs2 rs1 f3 rd op = .w32 w := by
  subst_vars
  simp (disch := decide) [fmtR]

theorem fmtI_of_fields {imm : BitVec 12} (hi : w.extractLsb' 20 12 = imm) (hs1 : w.extractLsb' 15 5 = rs1)
    (h3 : w.extractLsb' 12 3 = f3) (hd : w.extractLsb' 7 5 = rd) (hop : w.extractLsb' 0 7 = op) :
    fmtI imm rs1 f3 rd op = .w32 w := by
  subst_vars
  simp (disch := decide) [fmtI]

theorem fmtS_of_fields (hop : w.extractLsb' 0 7 = op) :
    fmtS (immS w) (w.extractLsb' 20 5) (w.extractLsb' 15 5) (w.extractLsb' 12 3) op = .w32 w := by
  subst hop
  simp (disch := decide) [fmtS, immS, BitVec.extractLsb'_or, extract_place, extract_place_below, extract_place_above]

theorem fmtB_of_fields (hop : w.extractLsb' 0 7 = op) :
    fmtB (immB w) (w.extractLsb' 20 5) (w.extractLsb' 15 5) (w.extractLsb' 12 3) op = .w32 w := by
  subst hop
  simp (disch := decide) [fmtB, immB, BitVec.extractLsb'_or, extract_place, extract_place_below, extract_place_above]

theorem fmtU_of_fields (hop : w.extractLsb' 0 7 = op) :
    fmtU (w.extractLsb' 12 20) (w.extractLsb' 7 5) op = .w32 w := by
  subst hop
  simp (disch := decide) [fmtU]

theorem fmtJ_of_fields (hop : w.extractLsb' 0 7 = op) : fmtJ (immJ w) (w.extractLsb' 7 5) op = .w32 w := by
  subst hop
  simp (disch := decide) [fmtJ, immJ, BitVec.extractLsb'_or, extract_place, extract_place_below, extract_place_above]

theorem fmtA_of_fields (h3 : w.extractLsb' 12 3 = 2#3) (hop : w.extractLsb' 0 7 = 0x2F#7) :
    fmtA (w.extractLsb' 27 5) (w.extractLsb' 26 1) (w.extractLsb' 25 1) (w.extractLsb' 20 5) (w.extractLsb' 15 5)
      (w.extractLsb' 7 5) = .w32 w := by
  rw [fmtA, ← h3, ← hop]
  simp (disch := decide)

theorem encode_fence_of_fields (h3 : w.extractLsb' 12 3 = 0#3) (hop : w.extractLsb' 0 7 = 0x0F#7) :
    encode (.fence (w.extractLsb' 28 4) (w.extractLsb' 24 4) (w.extractLsb' 20 4) (w.extractLsb' 15 5)
      (w.extractLsb' 7 5)) = .w32 w := by
  rw [encode, ← hop, place_extend_down h3 (hi := 15) rfl]
  simp (disch := decide)

end Words

section Halfwords

variable {h : BitVec 16} {f3 : BitVec 3} {rd rs2 : Reg}

theorem fmtCIW_of_fields (h3 : h.extractLsb' 13 3 = 0#3) (hq : h.extractLsb' 0 2 = 0#2) :
    fmtCIW (immAddi4spn h) (h.extractLsb' 2 3) = .w16 h := by
  rw [fmtCIW, place_extend_down hq (hi := 2) rfl]
  simp (disch := decide) [immAddi4spn, BitVec.extractLsb'_or, extract_place, extract_place_below, extract_place_above,
    place_extend_up h3]

theorem fmtCLD_of_fields (h3 : h.extractLsb' 13 3 = f3) (hq : h.extractLsb' 0 2 = 0#2) :
    fmtCLD f3 (immCD h) (h.extractLsb' 7 3) (h.extractLsb' 2 3) = .w16 h := by
  rw [fmtCLD, ← h3, place_extend_down hq (hi := 2) rfl]
  simp (disch := decide) [immCD, BitVec.extractLsb'_or, extract_place, extract_place_below, extract_place_above]

theorem fmtCLW_of_fields (h3 : h.extractLsb' 13 3 = f3) (hq : h.extractLsb' 0 2 = 0#2) :
    fmtCLW f3 (immCW h) (h.extractLsb' 7 3) (h.extractLsb' 2 3) = .w16 h := by
  rw [fmtCLW, ← h3, place_extend_down hq (hi := 2) rfl]
  simp (disch := decide) [immCW, BitVec.extractLsb'_or, extract_place, extract_place_below, extract_place_above]

theorem fmtCI_of_fields {q : BitVec 2} (h3 : h.extractLsb' 13 3 = f3) (hd : h.extractLsb' 7 5 = rd)
    (hq : h.extractLsb' 0 2 = q) : fmtCI f3 (immCI h) rd q = .w16 h := by
  subst_vars
  simp (disch := decide) [fmtCI, immCI, BitVec.extractLsb'_or, extract_place, extract_place_below, extract_place_above]

/-- A shift amount below 32 is the CI immediate (30_encoding R106). -/
theorem immCI_of_shamt (h12 : h.extractLsb' 12 1 = 0#1) : immCI h = (h.extractLsb' 2 5).setWidth 6 := by
  rw [immCI, h12]
  simp [place]

theorem fmtCI_of_shamt {q : BitVec 2} (h3 : h.extractLsb' 13 3 = f3) (h12 : h.extractLsb' 12 1 = 0#1)
    (hq : h.extractLsb' 0 2 = q) : fmtCI f3 ((h.extractLsb' 2 5).setWidth 6) (h.extractLsb' 7 5) q = .w16 h := by
  rw [← immCI_of_shamt h12]
  exact fmtCI_of_fields h3 rfl hq

theorem fmtCJ_of_fields (h3 : h.extractLsb' 13 3 = f3) (hq : h.extractLsb' 0 2 = 1#2) :
    fmtCJ f3 (immCJ h) = .w16 h := by
  rw [fmtCJ, ← h3, ← hq]
  simp (disch := decide) [immCJ, BitVec.extractLsb'_or, extract_place, extract_place_below, extract_place_above]

theorem fmtAddi16sp_of_fields (h3 : h.extractLsb' 13 3 = 3#3) (hd : h.extractLsb' 7 5 = 2#5)
    (hq : h.extractLsb' 0 2 = 1#2) : fmtAddi16sp (immAddi16sp h) = .w16 h := by
  rw [fmtAddi16sp, ← h3, ← hd, ← hq]
  simp (disch := decide) [immAddi16sp, BitVec.extractLsb'_or, extract_place, extract_place_below, extract_place_above]

theorem fmtCLui_of_fields (h3 : h.extractLsb' 13 3 = 3#3) (hq : h.extractLsb' 0 2 = 1#2) :
    fmtCLui (immCLui h) (h.extractLsb' 7 5) = .w16 h := by
  rw [fmtCLui, ← h3, ← hq]
  simp (disch := decide) [immCLui, BitVec.extractLsb'_or, extract_place, extract_place_below, extract_place_above]

theorem fmtCBAlu_of_fields {sel : BitVec 2} (h3 : h.extractLsb' 13 3 = 4#3) (hs : h.extractLsb' 10 2 = sel)
    (hq : h.extractLsb' 0 2 = 1#2) : fmtCBAlu sel (immCI h) (h.extractLsb' 7 3) = .w16 h := by
  rw [fmtCBAlu, ← h3, ← hs, ← hq]
  simp (disch := decide) [immCI, BitVec.extractLsb'_or, extract_place, extract_place_below, extract_place_above]

theorem fmtCBAlu_of_shamt {sel : BitVec 2} (h3 : h.extractLsb' 13 3 = 4#3) (h12 : h.extractLsb' 12 1 = 0#1)
    (hs : h.extractLsb' 10 2 = sel) (hq : h.extractLsb' 0 2 = 1#2) :
    fmtCBAlu sel ((h.extractLsb' 2 5).setWidth 6) (h.extractLsb' 7 3) = .w16 h := by
  rw [← immCI_of_shamt h12]
  exact fmtCBAlu_of_fields h3 hs hq

theorem fmtCA_of_fields {f2 : BitVec 2} (h3 : h.extractLsb' 13 3 = 4#3) (h12 : h.extractLsb' 12 1 = 0#1)
    (hs : h.extractLsb' 10 2 = 3#2) (h2 : h.extractLsb' 5 2 = f2) (hq : h.extractLsb' 0 2 = 1#2) :
    fmtCA f2 (h.extractLsb' 7 3) (h.extractLsb' 2 3) = .w16 h := by
  rw [fmtCA, ← h3, ← hs, ← h2, ← hq, place_extend_up h12 (lo := 10) rfl]
  simp (disch := decide)

theorem fmtCB_of_fields (h3 : h.extractLsb' 13 3 = f3) (hq : h.extractLsb' 0 2 = 1#2) :
    fmtCB f3 (immCB h) (h.extractLsb' 7 3) = .w16 h := by
  rw [fmtCB, ← h3, ← hq]
  simp (disch := decide) [immCB, BitVec.extractLsb'_or, extract_place, extract_place_below, extract_place_above]

theorem fmtFldsp_of_fields (h3 : h.extractLsb' 13 3 = 1#3) (hq : h.extractLsb' 0 2 = 2#2) :
    fmtFldsp (immFldsp h) (h.extractLsb' 7 5) = .w16 h := by
  rw [fmtFldsp, ← h3, ← hq]
  simp (disch := decide) [immFldsp, BitVec.extractLsb'_or, extract_place, extract_place_below, extract_place_above]

theorem fmtLwsp_of_fields (h3 : h.extractLsb' 13 3 = f3) (hq : h.extractLsb' 0 2 = 2#2) :
    fmtLwsp f3 (immLwsp h) (h.extractLsb' 7 5) = .w16 h := by
  rw [fmtLwsp, ← h3, ← hq]
  simp (disch := decide) [immLwsp, BitVec.extractLsb'_or, extract_place, extract_place_below, extract_place_above]

theorem fmtFsdsp_of_fields (h3 : h.extractLsb' 13 3 = 5#3) (hq : h.extractLsb' 0 2 = 2#2) :
    fmtFsdsp (immFsdsp h) (h.extractLsb' 2 5) = .w16 h := by
  rw [fmtFsdsp, ← h3, ← hq]
  simp (disch := decide) [immFsdsp, BitVec.extractLsb'_or, extract_place, extract_place_below, extract_place_above]

theorem fmtSwsp_of_fields (h3 : h.extractLsb' 13 3 = f3) (hq : h.extractLsb' 0 2 = 2#2) :
    fmtSwsp f3 (immSwsp h) (h.extractLsb' 2 5) = .w16 h := by
  rw [fmtSwsp, ← h3, ← hq]
  simp (disch := decide) [immSwsp, BitVec.extractLsb'_or, extract_place, extract_place_below, extract_place_above]

theorem fmtCR_of_fields {b12 : BitVec 1} (h3 : h.extractLsb' 13 3 = 4#3) (h12 : h.extractLsb' 12 1 = b12)
    (hd : h.extractLsb' 7 5 = rd) (hs : h.extractLsb' 2 5 = rs2) (hq : h.extractLsb' 0 2 = 2#2) :
    fmtCR b12 rd rs2 = .w16 h := by
  rw [fmtCR, ← h3, ← h12, ← hd, ← hs, ← hq]
  simp (disch := decide)

end Halfwords

/-! ### One lemma a decoder

Each proof follows the decoder's own chain of tests, which name the fields of the word. The last arm of a chain has no
test: there every other value of the field is excluded. -/

theorem eq_one_of_others : ∀ x : BitVec 1, ¬ x = 0 → x = 1 := by decide

theorem eq_two_of_others : ∀ x : BitVec 2, ¬ x = 0 → ¬ x = 1 → ¬ x = 3 → x = 2 := by decide

theorem eq_three_of_others : ∀ x : BitVec 2, ¬ x = 0 → ¬ x = 1 → ¬ x = 2 → x = 3 := by decide

theorem eq_five_of_others : ∀ x : BitVec 3,
    ¬ x = 0 → ¬ x = 2 → ¬ x = 3 → ¬ x = 4 → ¬ x = 6 → ¬ x = 7 → ¬ x = 1 → x = 5 := by bv_omega

theorem eq_seven_of_others : ∀ x : BitVec 3,
    ¬ x = 0 → ¬ x = 1 → ¬ x = 2 → ¬ x = 3 → ¬ x = 4 → ¬ x = 5 → ¬ x = 6 → x = 7 := by bv_omega

theorem decodeBranch_spelledBy (f3 : BitVec 3) (rs1 rs2 : Reg) (imm : BitVec 13) :
    SpelledBy (fmtB imm rs2 rs1 f3 0x63) (decodeBranch f3 rs1 rs2 imm) := by
  unfold decodeBranch
  repeat' refine .ite (fun _ => ?_) (fun _ => ?_)
  all_goals rintro _ ⟨⟩ <;> subst_vars <;> rfl

theorem decodeLoad_spelledBy (f3 : BitVec 3) (rd rs1 : Reg) (imm : BitVec 12) :
    SpelledBy (fmtI imm rs1 f3 rd 0x03) (decodeLoad f3 rd rs1 imm) := by
  unfold decodeLoad
  repeat' refine .ite (fun _ => ?_) (fun _ => ?_)
  all_goals rintro _ ⟨⟩ <;> subst_vars <;> rfl

theorem decodeStore_spelledBy (f3 : BitVec 3) (rs1 rs2 : Reg) (imm : BitVec 12) :
    SpelledBy (fmtS imm rs2 rs1 f3 0x23) (decodeStore f3 rs1 rs2 imm) := by
  unfold decodeStore
  repeat' refine .ite (fun _ => ?_) (fun _ => ?_)
  all_goals rintro _ ⟨⟩ <;> subst_vars <;> rfl

/-- OP-IMM has two formats: the shifts are R-format words. -/
theorem decodeOpImm_spelledBy {e : Encoded} {f7 : BitVec 7} {f3 : BitVec 3} {rd rs1 : Reg} {shamt : BitVec 5}
    {imm : BitVec 12} (hi : fmtI imm rs1 f3 rd 0x13 = e) (hr : fmtR f7 shamt rs1 f3 rd 0x13 = e) :
    SpelledBy e (decodeOpImm f7 f3 rd rs1 shamt imm) :=
  .ite (fun h3 => .ok (by rw [← hi, h3]; rfl)) fun n0 =>
  .ite (fun h3 => .ok (by rw [← hi, h3]; rfl)) fun n2 =>
  .ite (fun h3 => .ok (by rw [← hi, h3]; rfl)) fun n3 =>
  .ite (fun h3 => .ok (by rw [← hi, h3]; rfl)) fun n4 =>
  .ite (fun h3 => .ok (by rw [← hi, h3]; rfl)) fun n6 =>
  .ite (fun h3 => .ok (by rw [← hi, h3]; rfl)) fun n7 =>
  .ite (fun h3 => .ite (fun h7 => .ok (by rw [← hr, h3, h7]; rfl)) fun _ => .error _) fun n1 =>
  have h3 : f3 = 5 := eq_five_of_others f3 n0 n2 n3 n4 n6 n7 n1
  .ite (fun h7 => .ok (by rw [← hr, h3, h7]; rfl)) fun _ =>
  .ite (fun h7 => .ok (by rw [← hr, h3, h7]; rfl)) fun _ => .error _

theorem decodeOp_spelledBy (f7 : BitVec 7) (f3 : BitVec 3) (rd rs1 rs2 : Reg) :
    SpelledBy (fmtR f7 rs2 rs1 f3 rd 0x33) (decodeOp f7 f3 rd rs1 rs2) := by
  -- for the last arm of a chain over `funct3`
  have h7 := eq_seven_of_others f3
  unfold decodeOp
  repeat' refine .ite (fun _ => ?_) (fun _ => ?_)
  all_goals rintro _ ⟨⟩
  all_goals
    simp_all only [not_false_eq_true, forall_const]
    rfl

theorem decodeMiscMem_spelledBy {e : Encoded} {f3 : BitVec 3} {fm pred succ : BitVec 4} {imm : BitVec 12} {rs1 rd : Reg}
    (h0 : f3 = 0 → encode (.fence fm pred succ rs1 rd) = e) (hi : fmtI imm rs1 f3 rd 0x0F = e) :
    SpelledBy e (decodeMiscMem f3 fm pred succ imm rs1 rd) :=
  .ite (fun h3 => .ok (h0 h3)) fun _ => .ite (fun h3 => .ok (by rw [← hi, h3]; rfl)) fun _ => .error _

theorem decodeAmo_spelledBy {e : Encoded} {f5 : BitVec 5} {f3 : BitVec 3} {rd rs1 rs2 : Reg} {aq rl : BitVec 1}
    (ha : f3 = 2 → fmtA f5 aq rl rs2 rs1 rd = e) : SpelledBy e (decodeAmo f5 f3 rd rs1 rs2 aq rl) := by
  refine .ite (fun h3 => ?_) fun _ => .error _
  rw [← ha h3]
  repeat' refine .ite (fun _ => ?_) (fun _ => ?_)
  all_goals rintro _ ⟨⟩ <;> subst_vars <;> rfl

/-- SYSTEM has CSR words and, with `funct3 = 0`, four whole words. -/
theorem decodeSystem_spelledBy {e : Encoded} {upper : BitVec 25} {f3 : BitVec 3} {rd rs1 : Reg} {csr : BitVec 12}
    (hw : .w32 (upper ++ 0x73#7) = e) (hi : fmtI csr rs1 f3 rd 0x73 = e) :
    SpelledBy e (decodeSystem upper f3 rd rs1 csr) := by
  refine .ite (fun _ => ?_) (fun _ => ?_)
  · rw [← hw]
    repeat' refine .ite (fun _ => ?_) (fun _ => ?_)
    all_goals rintro _ ⟨⟩ <;> subst_vars <;> rfl
  · rw [← hi]
    repeat' refine .ite (fun _ => ?_) (fun _ => ?_)
    all_goals rintro _ ⟨⟩ <;> subst_vars <;> rfl

/-- A word is its upper 25 bits after its major opcode. -/
theorem append_of_fields {w : BitVec 32} {op : BitVec 7} (hop : w.extractLsb' 0 7 = op) :
    w.extractLsb' 7 25 ++ op = w := by
  rw [← hop, BitVec.extractLsb'_append_extractLsb'_eq_extractLsb' (by decide : 7 = 0 + 7)]
  exact extract_full w

theorem decode32_spelledBy (w : BitVec 32) : SpelledBy (.w32 w) (decode32 w) :=
  .ite (fun hop => .ok (fmtU_of_fields hop)) fun _ =>
  .ite (fun hop => .ok (fmtU_of_fields hop)) fun _ =>
  .ite (fun hop => .ok (fmtJ_of_fields hop)) fun _ =>
  .ite (fun hop => .ite (fun h3 => .ok (fmtI_of_fields rfl rfl h3 rfl hop)) fun _ => .error _) fun _ =>
  .ite (fun hop => fmtB_of_fields hop ▸ decodeBranch_spelledBy _ _ _ _) fun _ =>
  .ite (fun hop => fmtI_of_fields rfl rfl rfl rfl hop ▸ decodeLoad_spelledBy _ _ _ _) fun _ =>
  .ite (fun hop => fmtS_of_fields hop ▸ decodeStore_spelledBy _ _ _ _) fun _ =>
  .ite (fun hop => decodeOpImm_spelledBy (fmtI_of_fields rfl rfl rfl rfl hop) (fmtR_of_fields rfl rfl rfl rfl rfl hop))
    fun _ =>
  .ite (fun hop => fmtR_of_fields rfl rfl rfl rfl rfl hop ▸ decodeOp_spelledBy _ _ _ _ _) fun _ =>
  .ite (fun hop => decodeMiscMem_spelledBy (fun h3 => encode_fence_of_fields h3 hop)
    (fmtI_of_fields rfl rfl rfl rfl hop)) fun _ =>
  .ite (fun hop => decodeAmo_spelledBy fun h3 => fmtA_of_fields h3 hop) fun _ =>
  .ite (fun hop => decodeSystem_spelledBy (congrArg _ (append_of_fields hop))
    (fmtI_of_fields rfl rfl rfl rfl hop)) fun _ => .error _

theorem decodeQ0_spelledBy {h : BitVec 16} (hq : h.extractLsb' 0 2 = 0) : SpelledBy (.w16 h) (decodeQ0 h) :=
  .ite (fun h3 => .ite (fun _ => .error _) fun _ => .ok (fmtCIW_of_fields h3 hq)) fun n0 =>
  .ite (fun h3 => .ok (fmtCLD_of_fields h3 hq)) fun n1 =>
  .ite (fun h3 => .ok (fmtCLW_of_fields h3 hq)) fun n2 =>
  .ite (fun h3 => .ok (fmtCLW_of_fields h3 hq)) fun n3 =>
  .ite (fun _ => .error _) fun n4 =>
  .ite (fun h3 => .ok (fmtCLD_of_fields h3 hq)) fun n5 =>
  .ite (fun h3 => .ok (fmtCLW_of_fields h3 hq)) fun n6 =>
  .ok (fmtCLW_of_fields (eq_seven_of_others _ n0 n1 n2 n3 n4 n5 n6) hq)

theorem decodeQ1Alu_spelledBy {h : BitVec 16} (hq : h.extractLsb' 0 2 = 1) (h3 : h.extractLsb' 13 3 = 4) :
    SpelledBy (.w16 h) (decodeQ1Alu h) :=
  .ite (fun hs => .ite (fun h12 => .ok (fmtCBAlu_of_shamt h3 h12 hs hq)) fun _ => .error _) fun n0 =>
  .ite (fun hs => .ite (fun h12 => .ok (fmtCBAlu_of_shamt h3 h12 hs hq)) fun _ => .error _) fun n1 =>
  .ite (fun hs => .ok (fmtCBAlu_of_fields h3 hs hq)) fun n2 =>
  have hs : h.extractLsb' 10 2 = 3 := eq_three_of_others _ n0 n1 n2
  .ite (fun h12 =>
    .ite (fun h2 => .ok (fmtCA_of_fields h3 h12 hs h2 hq)) fun m0 =>
    .ite (fun h2 => .ok (fmtCA_of_fields h3 h12 hs h2 hq)) fun m1 =>
    .ite (fun h2 => .ok (fmtCA_of_fields h3 h12 hs h2 hq)) fun m2 =>
    .ok (fmtCA_of_fields h3 h12 hs (eq_three_of_others _ m0 m1 m2) hq)) fun _ => .error _

theorem decodeQ1_spelledBy {h : BitVec 16} (hq : h.extractLsb' 0 2 = 1) : SpelledBy (.w16 h) (decodeQ1 h) :=
  .ite (fun h3 => .ite (fun hd => .ok (fmtCI_of_fields h3 hd hq)) fun _ => .ok (fmtCI_of_fields h3 rfl hq)) fun n0 =>
  .ite (fun h3 => .ok (fmtCJ_of_fields h3 hq)) fun n1 =>
  .ite (fun h3 => .ok (fmtCI_of_fields h3 rfl hq)) fun n2 =>
  .ite (fun h3 => .ite
    (fun hd => .ite (fun _ => .error _) fun _ => .ok (fmtAddi16sp_of_fields h3 hd hq))
    fun _ => .ite (fun _ => .error _) fun _ => .ok (fmtCLui_of_fields h3 hq)) fun n3 =>
  .ite (fun h3 => decodeQ1Alu_spelledBy hq h3) fun n4 =>
  .ite (fun h3 => .ok (fmtCJ_of_fields h3 hq)) fun n5 =>
  .ite (fun h3 => .ok (fmtCB_of_fields h3 hq)) fun n6 =>
  .ok (fmtCB_of_fields (eq_seven_of_others _ n0 n1 n2 n3 n4 n5 n6) hq)

theorem decodeQ2Reg_spelledBy {h : BitVec 16} (hq : h.extractLsb' 0 2 = 2) (h3 : h.extractLsb' 13 3 = 4) :
    SpelledBy (.w16 h) (decodeQ2Reg h) :=
  .ite
    (fun h12 => .ite
      (fun hs => .ite (fun _ => .error _) fun _ => .ok (fmtCR_of_fields h3 h12 rfl hs hq))
      fun _ => .ok (fmtCR_of_fields h3 h12 rfl rfl hq))
    fun n12 => .ite
      (fun hs => .ite (fun hd => .ok (fmtCR_of_fields h3 (eq_one_of_others _ n12) hd hs hq))
        fun _ => .ok (fmtCR_of_fields h3 (eq_one_of_others _ n12) rfl hs hq))
      fun _ => .ok (fmtCR_of_fields h3 (eq_one_of_others _ n12) rfl rfl hq)

theorem decodeQ2_spelledBy {h : BitVec 16} (hq : h.extractLsb' 0 2 = 2) : SpelledBy (.w16 h) (decodeQ2 h) :=
  .ite (fun h3 => .ite (fun h12 => .ok (fmtCI_of_shamt h3 h12 hq)) fun _ => .error _) fun n0 =>
  .ite (fun h3 => .ok (fmtFldsp_of_fields h3 hq)) fun n1 =>
  .ite (fun h3 => .ite (fun _ => .error _) fun _ => .ok (fmtLwsp_of_fields h3 hq)) fun n2 =>
  .ite (fun h3 => .ok (fmtLwsp_of_fields h3 hq)) fun n3 =>
  .ite (fun h3 => decodeQ2Reg_spelledBy hq h3) fun n4 =>
  .ite (fun h3 => .ok (fmtFsdsp_of_fields h3 hq)) fun n5 =>
  .ite (fun h3 => .ok (fmtSwsp_of_fields h3 hq)) fun n6 =>
  .ok (fmtSwsp_of_fields (eq_seven_of_others _ n0 n1 n2 n3 n4 n5 n6) hq)

theorem decode16_spelledBy {h : BitVec 16} (hn : ¬ h.extractLsb' 0 2 = 3) : SpelledBy (.w16 h) (decode16 h) :=
  .ite decodeQ0_spelledBy fun n0 => .ite decodeQ1_spelledBy fun n1 => decodeQ2_spelledBy (eq_two_of_others _ n0 n1 hn)

/-- The words that a fetched word holds: itself, or of a 16-bit form its low half (R89). -/
def fetchedWords (w : BitVec 32) : Encoded := if w.extractLsb' 0 2 = 3 then .w32 w else .w16 (w.extractLsb' 0 16)

/-- A decoded instruction is encoded as it was read. -/
theorem encode_of_decode {w : BitVec 32} {i : Instr} (h : decode w = .ok i) : encode i = fetchedWords w := by
  unfold decode at h
  unfold fetchedWords
  split at h
  · next hl => exact (decode32_spelledBy w i h).trans (if_pos hl).symm
  · next hl => exact (decode16_spelledBy (by simpa using hl) i h).trans (if_neg hl).symm

/-- Settles O2: by one lemma a format, that puts the fields of a word together again, and one a decoder. -/
theorem encodeOfDecode : Obligations.EncodeOfDecode := by
  unfold Obligations.EncodeOfDecode
  intro w i h
  refine ⟨decode_wf h, ?_⟩
  rw [encode_of_decode h]
  by_cases hl : w.extractLsb' 0 2 = 3
  · rw [fetchedWords, if_pos hl]
  · rw [fetchedWords, if_neg hl]

/-! ## The length -/

theorem length_encodeBytes_of_decode {w : BitVec 32} {i : Instr} (h : decode w = .ok i) :
    (encodeBytes i).length = fetchLength w := by
  rw [encodeBytes, encode_of_decode h, fetchedWords, fetchLength]
  split <;> rfl

/-- The length is read in the low half. -/
theorem extract_low_half (w : BitVec 32) : (w.extractLsb' 0 16).extractLsb' 0 2 = w.extractLsb' 0 2 := by simp

/-- Settles O4: a word that is no 32-bit instruction is decoded by its low half, which holds the length bits. -/
theorem lengthFromLowTwoBits : Obligations.LengthFromLowTwoBits := by
  unfold Obligations.LengthFromLowTwoBits
  refine ⟨fun _ => rfl, fun _ _ h => length_encodeBytes_of_decode h, fun w v hw hv => ?_⟩
  have hl : v.extractLsb' 0 2 ≠ 3#2 := by rwa [← extract_low_half v, ← hv, extract_low_half]
  rw [decode_of_short hw, decode_of_short hl, hv]

/-- Settles O3, by running the decoder on each word. -/
theorem decodeSpecWords : Obligations.DecodeSpecWords := by
  unfold Obligations.DecodeSpecWords
  decide

end Sys2Proof

namespace Sys2Proof.Machine

open Sys2Proof

variable {s : State} {i : Instr}

/-! ## The step -/

theorem hartStep_of_ok (h : decode (fetch s).1 = .ok i) : hartStep s = countStep (exec i (fetch s).2) := by
  rw [hartStep, h]

theorem hartStep_of_error {e : Reject} (h : decode (fetch s).1 = .error e) :
    hartStep s = countStep (unmatched (BitVec.ofNat 32 (fetchLength (fetch s).1)) (fetch s).2) := by
  rw [hartStep, h]

/-- Settles O7: an instruction and an unmatched word force x0 to 0, and a check point keeps every register. -/
theorem zeroAfterEveryStep : Obligations.ZeroAfterEveryStep := by
  unfold Obligations.ZeroAfterEveryStep
  intro s t h
  refine ⟨fun hn => ?_, fun hc => ?_⟩
  · rw [step_of_hartNext hn] at h
    obtain ⟨u, ⟨i, -, hu⟩ | ⟨-, rfl⟩, rfl⟩ := hartStep_next h
    · exact (exec_frame hu).zero
    · exact State.retire_zero (fetch s).2 (BitVec.ofNat 32 (fetchLength (fetch s).1))
  · rw [step_checkNext hc h]
    exact (checkPoint_frame s).regs.trans (timerCheck_frame s).regs

/-- Only 16-bit forms can be disabled (R103). -/
theorem length_encodeBytes_of_disabled {p : Params} (h : i.enabled p = false) : (encodeBytes i).length = 2 := by
  cases i with
  | cFld | cFlw | cFsd | cFsw | cFldsp | cFlwsp | cFsdsp | cFswsp => rfl
  | _ => cases h

/-- A word that spells no implemented instruction acts as an unmatched word of its length (R103, R104). -/
theorem hartStep_of_unmatched (h : ∀ i, decode (fetch s).1 = .ok i → i.enabled s.params = false) :
    hartStep s = countStep (unmatched (BitVec.ofNat 32 (fetchLength (fetch s).1)) (fetch s).2) := by
  cases hd : decode (fetch s).1 with
  | error e => exact hartStep_of_error hd
  | ok i =>
    have hi := h i hd
    rw [hartStep_of_ok hd, ← length_encodeBytes_of_decode hd, length_encodeBytes_of_disabled hi]
    rw [← (fetch_access s).params] at hi
    rw [exec_of_disabled hi]
    rfl

theorem unmatched_of_noop {len : Word} (h : s.params.decodeReserved = .noop) :
    unmatched len s = .next (s.retire len) := by
  rw [unmatched, h]

theorem unmatched_of_refuse {len : Word} (h : s.params.decodeReserved = .refuse) :
    unmatched len s = .refused .reservedEncoding := by
  rw [unmatched, h]

/-- Settles O6: such a step is the fetch and the end of an instruction, or the refusal. -/
theorem unmatchedWordIsNoop : Obligations.UnmatchedWordIsNoop := by
  unfold Obligations.UnmatchedWordIsNoop
  intro s hn h
  have hf := fetch_access s
  rw [step_of_hartNext hn, hartStep_of_unmatched h]
  cases hr : s.params.decodeReserved with
  | noop =>
    rw [unmatched_of_noop (by rw [hf.params, hr])]
    generalize BitVec.ofNat 32 (fetchLength (fetch s).1) = n
    refine ⟨_, rfl, fun r => ?_, State.retire_zero (fetch s).2 n, ?_, ?_⟩
    · exact (State.getReg_retire (fetch s).2 n r).trans (hf.getReg r)
    · exact congrArg (· + n) hf.pc
    · rw [← hf.sched]; rfl
  | refuse => rw [unmatched_of_refuse (by rw [hf.params, hr])]; rfl

/-- Settles O5: the step is `hartStep`, and the fetch is a read of guest memory or of a device register. -/
theorem stepRunsDecodedInstruction : Obligations.StepRunsDecodedInstruction := by
  unfold Obligations.StepRunsDecodedInstruction
  intro s i hn hd
  rw [step_of_hartNext hn, hartStep_of_ok hd]
  refine ⟨fun t ht => ?_, fun r hr => ?_, fun hg => ?_, fun hg => ?_⟩
  · rw [ht]; rfl
  · rw [hr]; rfl
  · exact (fetch_guest hg).symm
  · exact ⟨captureInstant_frame s, memRead_device hg .word s⟩

end Sys2Proof.Machine
end

section
/-! SUPPORT. The statements about RV32I (40_rv32i): the model's operations in exact integers, what a jump and a branch
answer, and the accesses of guest memory by the load and the store of every width. -/

namespace Sys2Proof.Machine

open Sys2Proof

variable {s : State} {i : Instr} {rd : Reg} {len v x target offset : Word} {taken : Bool} {p : Prop} [Decidable p]

/-! ## The operations in exact integers (R23, R132) -/

theorem sub_eq_ofInt (a b : Word) : a - b = BitVec.ofInt 32 (a.toInt - b.toInt) :=
  BitVec.eq_of_toInt_eq (by rw [BitVec.toInt_sub, BitVec.toInt_ofInt])

/-- A sum with a signed immediate of fewer bits. -/
theorem add_sext {n : Nat} (hn : n ≤ 32) (a : Word) (imm : BitVec n) :
    a + sext imm = BitVec.ofInt 32 (a.toInt + imm.toInt) := by
  rw [← BitVec.toInt_signExtend_of_le hn, BitVec.ofInt_add, BitVec.ofInt_toInt, BitVec.ofInt_toInt, sext]

theorem shl_eq_ofNat (a : Word) (n : Nat) : shl a n = BitVec.ofNat 32 (a.toNat * 2 ^ n) :=
  BitVec.eq_of_toNat_eq (by rw [shl, BitVec.toNat_shiftLeft, Nat.shiftLeft_eq, BitVec.toNat_ofNat])

theorem shrU_eq_ofNat (a : Word) (n : Nat) : shrU a n = BitVec.ofNat 32 (a.toNat / 2 ^ n) := by
  rw [← Nat.shiftRight_eq_div_pow, ← BitVec.toNat_ushiftRight, BitVec.ofNat_toNat, BitVec.setWidth_eq, shrU]

theorem shrS_eq_ofInt (a : Word) (n : Nat) : shrS a n = BitVec.ofInt 32 (a.toInt / 2 ^ n) := by
  rw [shrS, BitVec.sshiftRight_eq, Int.shiftRight_eq_div_pow, Nat.cast_pow, Nat.cast_ofNat]

theorem shiftAmount_eq_mod (a : Word) : shiftAmount a = a.toNat % 32 := by
  rw [shiftAmount, BitVec.extractLsb'_toNat, Nat.shiftRight_zero]

theorem immUpper_eq_ofNat (imm : BitVec 20) : immUpper imm = BitVec.ofNat 32 (imm.toNat * 4096) := by
  have hi := imm.isLt
  apply BitVec.eq_of_toNat_eq
  rw [immUpper, BitVec.toNat_append, BitVec.toNat_ofNat, BitVec.toNat_ofNat, Nat.shiftLeft_eq, Nat.zero_mod,
    Nat.or_zero]
  omega

theorem clearBit0_eq_append (a : Word) : clearBit0 a = a.extractLsb' 1 31 ++ 0#1 := by
  have ha : a.extractLsb' 1 31 ++ a.extractLsb' 0 1 = a := by
    rw [BitVec.extractLsb'_append_extractLsb'_eq_extractLsb' (by decide : 1 = 0 + 1), BitVec.extractLsb'_eq_self]
  have hm : 0xFFFFFFFE#32 = BitVec.allOnes 31 ++ 0#1 := rfl
  calc clearBit0 a = (a.extractLsb' 1 31 ++ a.extractLsb' 0 1) &&& (BitVec.allOnes 31 ++ 0#1) := by
        rw [ha, ← hm, clearBit0]
    _ = a.extractLsb' 1 31 ++ 0#1 := by rw [BitVec.and_append, BitVec.and_allOnes, BitVec.and_zero]

theorem ltS_iff (a b : Word) : ltS a b = true ↔ a.toInt < b.toInt := BitVec.slt_iff_toInt_lt

theorem ltU_iff (a b : Word) : ltU a b = true ↔ a.toNat < b.toNat := BitVec.ult_iff_toNat_lt

/-- A signed comparison with a signed immediate of fewer bits. -/
theorem ltS_sext_iff {n : Nat} (hn : n ≤ 32) (a : Word) (imm : BitVec n) :
    ltS a (sext imm) = true ↔ a.toInt < imm.toInt := by
  rw [ltS_iff, sext, BitVec.toInt_signExtend_of_le hn]

theorem ofCond_eq_ite (h : taken = true ↔ p) : ofCond taken = if p then 1 else 0 := if_congr h rfl rfl

/-! ## What an instruction without an access answers -/

/-- `retireWith` of a value that the statement spells in another way. -/
theorem retireWith_gives_of_eq (h : exec i s = retireWith len rd x s) (hv : x = v) : Gives i s rd v (s.pc + len) :=
  hv ▸ retireWith_gives h

theorem jumpLink_gives (h : exec i s = jumpLink len rd x s) (hv : x = target) : Gives i s rd (s.pc + len) target :=
  hv ▸ ⟨_, h, writesReg_jumpTo s rd _ _⟩

theorem retire_goes (h : exec i s = .next (s.retire len)) : Goes i s (s.pc + len) := jumpTo_goes h

/-- A branch that is taken exactly if `p` holds (R115). -/
theorem branch_goes (h : exec i s = branch len taken offset s) (hp : taken = true ↔ p) :
    Goes i s (if p then s.pc + offset else s.pc + len) := by
  refine jumpTo_goes (h.trans ?_)
  by_cases hc : p
  · rw [branch, if_pos (hp.2 hc), if_pos hc]
  · rw [branch, if_neg (mt hp.1 hc), if_neg hc, State.retire]

/-- A branch that is taken exactly unless `p` holds (R119, R121). -/
theorem branch_goes_unless (h : exec i s = branch len (!taken) offset s) (hp : taken = true ↔ p) :
    Goes i s (if p then s.pc + len else s.pc + offset) := by
  rw [← ite_not]
  exact branch_goes h (by rw [← hp, Bool.not_eq_true', Bool.not_eq_true])

/-! ## The statements -/

/-- Settles O19, by the load of guest memory at every width. -/
theorem loadsFromGuestMemory : Obligations.LoadsFromGuestMemory := by
  unfold Obligations.LoadsFromGuestMemory
  intro s
  refine ⟨fun rd rs1 imm hg => ⟨?_, ?_, ?_, ?_, ?_⟩, fun rd rs1 imm hg => ?_, fun rd imm hg => ?_⟩
  · exact loadReg_guest (w := .byte) (ext := sextByte) rfl hg
  · exact loadReg_guest (w := .half) (ext := sextHalf) rfl hg
  · exact loadReg_guest (w := .word) (ext := id) rfl hg
  · exact loadReg_guest (w := .byte) (ext := id) rfl hg
  · exact loadReg_guest (w := .half) (ext := id) rfl hg
  · exact loadReg_guest (w := .word) (ext := id) rfl hg
  · exact loadReg_guest (w := .word) (ext := id) rfl hg

/-- Settles O21, by the store to guest memory at every width. -/
theorem storesToGuestMemory : Obligations.StoresToGuestMemory := by
  unfold Obligations.StoresToGuestMemory
  intro s
  refine ⟨fun rs1 rs2 imm hg => ⟨?_, ?_, ?_⟩, fun rs2 rs1 imm hg => ?_, fun rs2 imm hg => ?_⟩
  · exact storeReg_guest (w := .byte) rfl hg
  · exact storeReg_guest (w := .half) rfl hg
  · exact storeReg_guest (w := .word) rfl hg
  · exact storeReg_guest (w := .word) rfl hg
  · exact storeReg_guest (w := .word) rfl hg

/-- Settles O28: each operation ends by `retireWith`, with the value that its fact in exact integers says. -/
theorem registerArithmetic : Obligations.RegisterArithmetic := by
  unfold Obligations.RegisterArithmetic
  intro s rd rs1 rs2 a b
  have hn : shiftAmount b = b.toNat % 32 := shiftAmount_eq_mod b
  refine ⟨?add, ?sub, ?sll, ?slt, ?sltu, ?xor, ?srl, ?sra, ?or, ?and⟩
  case add => exact retireWith_gives_of_eq rfl (BitVec.add_def a b)
  case sub => exact retireWith_gives_of_eq rfl (sub_eq_ofInt a b)
  case sll => exact retireWith_gives_of_eq rfl (hn ▸ shl_eq_ofNat a (shiftAmount b))
  case slt => exact retireWith_gives_of_eq rfl (ofCond_eq_ite (ltS_iff a b))
  case sltu => exact retireWith_gives_of_eq rfl (ofCond_eq_ite (ltU_iff a b))
  case srl => exact retireWith_gives_of_eq rfl (hn ▸ shrU_eq_ofNat a (shiftAmount b))
  case sra => exact retireWith_gives_of_eq rfl (hn ▸ shrS_eq_ofInt a (shiftAmount b))
  case xor | or | and => exact retireWith_gives rfl

/-- Settles O29: as for the register-register operations, with the immediate sign-extended. -/
theorem immediateArithmetic : Obligations.ImmediateArithmetic := by
  unfold Obligations.ImmediateArithmetic
  intro s rd rs1 imm shamt upper a k
  refine ⟨?lui, ?auipc, ?addi, ?slti, ?sltiu, ?xori, ?ori, ?andi, ?slli, ?srli, ?srai⟩
  case lui => exact retireWith_gives_of_eq rfl (immUpper_eq_ofNat upper)
  case auipc => exact retireWith_gives_of_eq rfl (congrArg (s.pc + ·) (immUpper_eq_ofNat upper))
  case addi => exact retireWith_gives_of_eq rfl (add_sext (by decide) a imm)
  case slti => exact retireWith_gives_of_eq rfl (ofCond_eq_ite (ltS_sext_iff (by decide) a imm))
  case sltiu => exact retireWith_gives_of_eq rfl (ofCond_eq_ite (ltU_iff a k))
  case slli => exact retireWith_gives_of_eq rfl (shl_eq_ofNat a shamt.toNat)
  case srli => exact retireWith_gives_of_eq rfl (shrU_eq_ofNat a shamt.toNat)
  case srai => exact retireWith_gives_of_eq rfl (shrS_eq_ofInt a shamt.toNat)
  case xori | ori | andi => exact retireWith_gives rfl

/-- Settles O31: both write the link and jump, JALR to an address with bit 0 cleared. -/
theorem jumps : Obligations.Jumps := by
  unfold Obligations.Jumps
  intro s rd rs1 off imm
  constructor
  · exact jumpLink_gives rfl (add_sext (by decide) s.pc off)
  · exact jumpLink_gives rfl (clearBit0_eq_append _)

/-- Settles O32: each branch by its comparison, BGE and BGEU by the one that does not hold. -/
theorem branches : Obligations.Branches := by
  unfold Obligations.Branches
  intro s rs1 rs2 off a b target
  refine ⟨?beq, ?bne, ?blt, ?bge, ?bltu, ?bgeu⟩
  case beq => exact branch_goes rfl beq_iff_eq
  case bne => exact branch_goes rfl bne_iff_ne
  case blt => exact branch_goes rfl (ltS_iff a b)
  case bge => exact branch_goes_unless rfl (ltS_iff a b)
  case bltu => exact branch_goes rfl (ltU_iff a b)
  case bgeu => exact branch_goes_unless rfl (ltU_iff a b)

/-- Settles O30: each of the six retires with its own length and ignores its fields. -/
theorem noOperations : Obligations.NoOperations := by
  unfold Obligations.NoOperations
  intro s fm pred succ rs1 rd imm imm6
  exact ⟨retire_goes rfl, retire_goes rfl, retire_goes rfl, retire_goes rfl, retire_goes rfl, retire_goes rfl⟩

end Sys2Proof.Machine
end

section
/-! SUPPORT. The statements about RV32M (41_rv32m): a high word in exact integers, what a division gives inside and
outside the corner cases, and the law of division of R155. -/

namespace Sys2Proof.Machine

open Sys2Proof

variable {s : State} {i : Instr} {rd rs1 rs2 : Reg} {a b v : Word}

/-! ## Products in exact integers (R155) -/

theorem mulLow_eq_ofInt (a b : Word) : mulLow a b = BitVec.ofInt 32 (a.toInt * b.toInt) := by
  rw [BitVec.ofInt_mul, BitVec.ofInt_toInt, BitVec.ofInt_toInt, mulLow]

/-- Bits 63:32 of a product are its quotient by 2^32, rounded down, as a word. -/
theorem highWord_eq_ofInt (p : Int) : highWord p = BitVec.ofInt 32 (p / 2 ^ 32) := by
  apply BitVec.eq_of_toNat_eq
  rw [highWord, BitVec.extractLsb'_toNat, BitVec.toNat_ofInt, BitVec.toNat_ofInt, Nat.shiftRight_eq_div_pow]
  omega

theorem mulHighUU_eq_ofNat (a b : Word) : mulHighUU a b = BitVec.ofNat 32 (a.toNat * b.toNat / 2 ^ 32) := by
  rw [mulHighUU, highWord_eq_ofInt, ← BitVec.ofInt_natCast, Int.natCast_ediv, Nat.cast_mul, Nat.cast_pow,
    Nat.cast_ofNat]

/-! ## The divisions outside the corner cases (R160 to R163) -/

theorem signedOverflow_eq_false (h : ¬ (a = 0x80000000#32 ∧ b = 0xFFFFFFFF#32)) : signedOverflow a b = false := by
  rw [← Bool.not_eq_true, signedOverflow, Bool.and_eq_true, beq_iff_eq, beq_iff_eq]
  exact h

theorem divSigned_ordinary (c : DivCorner) (hb : b ≠ 0) (h : ¬ (a = 0x80000000#32 ∧ b = 0xFFFFFFFF#32)) :
    divSigned c a b = .ok (BitVec.ofInt 32 (a.toInt.tdiv b.toInt)) := by
  rw [divSigned, if_neg hb, signedOverflow_eq_false h]
  rfl

theorem remSigned_ordinary (c : DivCorner) (hb : b ≠ 0) (h : ¬ (a = 0x80000000#32 ∧ b = 0xFFFFFFFF#32)) :
    remSigned c a b = .ok (BitVec.ofInt 32 (a.toInt.tmod b.toInt)) := by
  rw [remSigned, if_neg hb, signedOverflow_eq_false h, Int.tmod_def]
  rfl

theorem divUnsigned_ordinary (c : DivCorner) (a : Word) (hb : b ≠ 0) :
    divUnsigned c a b = .ok (BitVec.ofNat 32 (a.toNat / b.toNat)) := by
  rw [divUnsigned, beq_false_of_ne hb]
  rfl

theorem remUnsigned_ordinary (c : DivCorner) (a : Word) (hb : b ≠ 0) :
    remUnsigned c a b = .ok (BitVec.ofNat 32 (a.toNat % b.toNat)) := by
  rw [remUnsigned, beq_false_of_ne hb]
  rfl

/-! ## What a division answers -/

section DivReg

variable {f : DivCorner → Word → Word → Except Refusal Word} {c : DivCorner}
variable (hc : s.params.divCorner = c) (ha : s.getReg rs1 = a) (hb : s.getReg rs2 = b)
include hc ha hb

theorem divReg_gives (h : exec i s = divReg f rd rs1 rs2 s) (hf : f c a b = .ok v) : Gives i s rd v (s.pc + 4) :=
  retireWith_gives (h.trans (by rw [divReg, hc, ha, hb, hf]; rfl))

theorem divReg_refused {e : Refusal} (hf : f c a b = .error e) : divReg f rd rs1 rs2 s = .refused e := by
  rw [divReg, hc, ha, hb, hf]

end DivReg

/-! ## The law of division (R155) -/

/-- Outside the signed overflow the quotient fits a word; at a divisor of 0 both sides are 0. -/
theorem toInt_ofInt_tdiv (h : ¬ (a = 0x80000000#32 ∧ b = 0xFFFFFFFF#32)) :
    (BitVec.ofInt 32 (a.toInt.tdiv b.toInt)).toInt = a.toInt.tdiv b.toInt := by
  have hq : (a.sdiv b).toInt = a.toInt.tdiv b.toInt := BitVec.toInt_sdiv_of_ne_or_ne a b (not_and_or.1 h)
  rw [← hq, BitVec.ofInt_toInt]

/-- The remainder fits a word whatever the operands. -/
theorem toInt_ofInt_tmod (a b : Word) :
    (BitVec.ofInt 32 (a.toInt.tmod b.toInt)).toInt = a.toInt.tmod b.toInt := by
  rw [← BitVec.toInt_srem, BitVec.ofInt_toInt]

theorem toNat_ofNat_div (a b : Word) : (BitVec.ofNat 32 (a.toNat / b.toNat)).toNat = a.toNat / b.toNat := by
  rw [← BitVec.toNat_udiv, BitVec.ofNat_toNat, BitVec.setWidth_eq]

theorem toNat_ofNat_mod (a b : Word) : (BitVec.ofNat 32 (a.toNat % b.toNat)).toNat = a.toNat % b.toNat := by
  rw [← BitVec.toNat_umod, BitVec.ofNat_toNat, BitVec.setWidth_eq]

theorem natAbs_tmod_lt (m : Int) {n : Int} (hn : n ≠ 0) : (m.tmod n).natAbs < n.natAbs :=
  Int.natAbs_tmod m n ▸ Nat.mod_lt _ (Int.natAbs_pos.2 hn)

theorem tmod_nonpos {m : Int} (n : Int) (hm : m ≤ 0) : m.tmod n ≤ 0 := by
  have h : 0 ≤ (-m).tmod n := Int.tmod_nonneg n (neg_nonneg.2 hm)
  rwa [Int.neg_tmod, neg_nonneg] at h

/-! ## The statements -/

/-- Settles O33: each product ends by `retireWith`, with the half that its fact in exact integers says. -/
theorem multiplications : Obligations.Multiplications := by
  unfold Obligations.Multiplications
  intro s rd rs1 rs2 a b
  refine ⟨?mul, ?mulh, ?mulhsu, ?mulhu⟩
  case mul => exact retireWith_gives_of_eq rfl (mulLow_eq_ofInt a b)
  case mulh => exact retireWith_gives_of_eq rfl (highWord_eq_ofInt _)
  case mulhsu => exact retireWith_gives_of_eq rfl (highWord_eq_ofInt _)
  case mulhu => exact retireWith_gives_of_eq rfl (mulHighUU_eq_ofNat a b)

/-- Settles O34: outside its corner cases a division answers its ordinary result whatever DIV_CORNER is. -/
theorem divisions : Obligations.Divisions := by
  unfold Obligations.Divisions
  intro s rd rs1 rs2 hb a b
  refine ⟨fun h => ⟨?div, ?rem⟩, ?divu, ?remu⟩
  case div => exact divReg_gives rfl rfl rfl rfl (divSigned_ordinary _ hb h)
  case rem => exact divReg_gives rfl rfl rfl rfl (remSigned_ordinary _ hb h)
  case divu => exact divReg_gives rfl rfl rfl rfl (divUnsigned_ordinary _ a hb)
  case remu => exact divReg_gives rfl rfl rfl rfl (remUnsigned_ordinary _ a hb)

/-- Settles O35: each clause fixes DIV_CORNER and the operands that make the corner, and there the division computes;
at the overflow's operands the unsigned divisions compute their ordinary results. -/
theorem divisionCorners : Obligations.DivisionCorners := by
  unfold Obligations.DivisionCorners
  intro s rd rs1 rs2 a b
  refine ⟨fun hc hb => ?zero, fun hc ha hb => ?overflow, fun hc hb => ?zeroRefused, fun hc ha hb => ?overflowRefused⟩
  case zero =>
    exact ⟨divReg_gives hc rfl hb rfl rfl, divReg_gives hc rfl hb rfl rfl, divReg_gives hc rfl hb rfl rfl,
      divReg_gives hc rfl hb rfl rfl⟩
  case overflow =>
    exact ⟨divReg_gives hc ha hb rfl rfl, divReg_gives hc ha hb rfl rfl, divReg_gives hc ha hb rfl rfl,
      divReg_gives hc ha hb rfl rfl⟩
  case zeroRefused =>
    exact ⟨divReg_refused hc rfl hb rfl, divReg_refused hc rfl hb rfl, divReg_refused hc rfl hb rfl,
      divReg_refused hc rfl hb rfl⟩
  case overflowRefused => exact ⟨divReg_refused hc ha hb rfl, divReg_refused hc ha hb rfl⟩

/-- Settles O36: the results that O34 names fit a word, and obey the law of the library's truncated division. -/
theorem divisionIdentity : Obligations.DivisionIdentity := by
  unfold Obligations.DivisionIdentity
  intro s rd rs1 rs2 hb a b
  obtain ⟨signed, hdivu, hremu⟩ := divisions s rd rs1 rs2 hb
  constructor
  · intro h
    obtain ⟨hdiv, hrem⟩ := signed h
    have hb0 : b.toInt ≠ 0 := fun h0 => hb (BitVec.toInt_inj.1 h0)
    refine ⟨_, _, hdiv, hrem, ?_⟩
    rw [toInt_ofInt_tdiv h, toInt_ofInt_tmod]
    exact ⟨(Int.tdiv_mul_add_tmod _ _).symm, natAbs_tmod_lt _ hb0, Int.tmod_nonneg _, tmod_nonpos _⟩
  · have hb0 : 0 < b.toNat := Nat.pos_of_ne_zero fun h0 => hb (BitVec.eq_of_toNat_eq h0)
    refine ⟨_, _, hdivu, hremu, ?_⟩
    rw [toNat_ofNat_div, toNat_ofNat_mod]
    exact ⟨(Nat.div_add_mod' _ _).symm, Nat.mod_lt _ hb0⟩

end Sys2Proof.Machine
end

section
/-! SUPPORT. The statements about RV32A (42_rv32a): what a word store does whose instruction then writes a register and may
clear the reservation, in guest memory and in the device window; an AMO as one read and one such store; LR.W as one read. -/

namespace Sys2Proof.Machine

open Sys2Proof

variable {s q : State} {i : Instr} {rd rs1 rs2 : Reg} {len ea v d : Word}

/-- The end of an instruction that wrote `x[rd]`, after effects that left the pc as it was. -/
theorem retire_writesReg (h : q.pc = s.pc) : WritesReg q ((q.setReg rd d).retire len) rd d (s.pc + len) :=
  h ▸ writesReg_jumpTo q rd d _

/-! ## A word store whose instruction writes a register (R168, R169)

`q` is the state in which the store starts, `s` the one in which the instruction did; `res` is what the instruction makes
of the reservation that the store leaves. -/

section WordStore

variable {res : Option Word → Option Word}
variable (h : exec i s = retireAfter len ((memWrite .word ea v q).map fun x =>
  ({ x with mreserved := res x.mreserved }).setReg rd d))
include h

theorem wordStore_guest (hq : CaptureFrame s q) (ha : InGuest ea) :
    Stores i s ea v 4 rd d (res (reservationAfter s ea 4)) (s.pc + len) := by
  obtain ⟨u, hu, x, hx, hb, hm, hxu⟩ := memWrite_guest (s := q) ha .word v
  have hr : x.mreserved = reservationAfter s ea 4 := hm.trans (reservationAfter_congr hq.mreserved hq.params ea 4)
  have hacc := hq.access.trans (memWrite_access hx)
  obtain ⟨hreg, hzero, hpc, hrest⟩ :=
    retire_writesReg (q := { x with mreserved := res x.mreserved }) (rd := rd) (d := d) (len := len) hacc.pc
  rw [hx] at h
  refine ⟨u, hq.trans hu, _, h, fun a ha => ?_, fun r => ?_, hzero, congrArg res hr, hpc, ?_⟩
  · exact (hb a (hq.undisturbed a ha)).1.trans (byteAfter_congr hq.params ea v 4 (hq.bytes a ha))
  · rw [← hacc.getReg r]; exact hreg r
  · rw [hxu] at hrest ⊢; exact hrest

theorem wordStore_device (hq : AccessFrame s q) (ha : ¬ InGuest ea) : match deviceStore q ea v with
    | .ok u => LoadsFrom i s { u with mreserved := res u.mreserved } rd d (s.pc + len)
    | .error e => exec i s = .refused e := by
  rw [memWrite_device ha] at h
  split
  · next u hu =>
    have hacc := hq.trans (memWrite_access ((memWrite_device ha v q).trans hu))
    rw [hu] at h
    exact ⟨_, h, retire_writesReg hacc.pc, hacc.getReg⟩
  · next e he => rw [h, he]; rfl

end WordStore

/-! ## The AMOs (R169) -/

section Amo

variable {f : Word → Word → Word} (h : exec i s = amo f rd rs1 rs2 s)
include h

theorem amo_guest (ha : InGuest (s.getReg rs1)) : ∃ old, MayRead s (s.getReg rs1) 4 old ∧
    Stores i s (s.getReg rs1) (f old (s.getReg rs2)) 4 rd old (reservationAfter s (s.getReg rs1) 4) (s.pc + 4) := by
  obtain ⟨hq, hr⟩ := memRead_guest ha .word s
  exact ⟨_, hr, wordStore_guest (res := id) h hq ha⟩

theorem amo_device (ha : ¬ InGuest (s.getReg rs1)) :
    let got := devRead (select s.params.devAddr (s.getReg rs1)) (captureInstant s)
    match deviceStore got.2 (s.getReg rs1) (f got.1 (s.getReg rs2)) with
    | .ok u => LoadsFrom i s u rd got.1 (s.pc + 4)
    | .error e => exec i s = .refused e := by
  have hq := memRead_access .word (s.getReg rs1) s
  have hw := wordStore_device (res := id) h hq ha
  rwa [memRead_device ha] at hw

end Amo

/-! ## LR.W (R167) -/

/-- LR.W makes one read, and after it reserves the address and writes the word to its destination. -/
theorem execLrW_writesReg (s : State) (rd rs1 : Reg) (aq rl : BitVec 1) : ∃ t, exec (.lrW rd rs1 aq rl) s = .next t ∧
    WritesReg { (memRead .word (s.getReg rs1) s).2 with mreserved := some (s.getReg rs1) } t rd
      (memRead .word (s.getReg rs1) s).1 (s.pc + 4) :=
  ⟨_, rfl, retire_writesReg (memRead_access .word (s.getReg rs1) s).pc⟩

/-! ## The signed and unsigned orders (R175 to R178) -/

theorem minS_eq (t b : Word) : minS t b = if t.toInt < b.toInt then t else b := if_congr (ltS_iff t b) rfl rfl

theorem maxS_eq (t b : Word) : maxS t b = if b.toInt < t.toInt then t else b := if_congr (ltS_iff b t) rfl rfl

theorem minU_eq (t b : Word) : minU t b = if t.toNat < b.toNat then t else b := if_congr (ltU_iff t b) rfl rfl

theorem maxU_eq (t b : Word) : maxU t b = if b.toNat < t.toNat then t else b := if_congr (ltU_iff b t) rfl rfl

/-! ## The statements -/

/-- Settles O24: the read is the one of guest memory or of the selected register. -/
theorem loadReserved : Obligations.LoadReserved := by
  unfold Obligations.LoadReserved
  intro s rd rs1 aq rl
  have hw := execLrW_writesReg s rd rs1 aq rl
  refine ⟨fun ha => ?_, fun ha => ?_⟩
  · obtain ⟨hu, hr⟩ := memRead_guest ha .word s
    exact ⟨_, hr, _, hu, hw⟩
  · rwa [memRead_device ha] at hw

/-- Settles O25: where the reservation matches, SC.W is a word store that clears it; else it writes 1 alone. -/
theorem storeConditional : Obligations.StoreConditional := by
  unfold Obligations.StoreConditional
  intro s rd rs1 rs2 aq rl
  have hmatch : s.mreserved = some (s.getReg rs1) → exec (.scW rd rs1 rs2 aq rl) s =
      retireAfter len4 ((memWrite .word (s.getReg rs1) (s.getReg rs2) s).map fun x =>
        ({ x with mreserved := none }).setReg rd 0) := fun hm => if_pos hm
  refine ⟨fun hm ha => ?_, fun hm ha => ?_, fun hm => ?_⟩
  · exact wordStore_guest (res := fun _ => none) (hmatch hm) (.refl s) ha
  · exact wordStore_device (res := fun _ => none) (hmatch hm) (CaptureFrame.refl s).access ha
  · exact ⟨_, if_neg hm, retire_writesReg (q := { s with mreserved := none }) rfl⟩

/-- Settles O26: each of the nine is `amo` of its operation, which is one read and one word store. -/
theorem atomicMemoryOperations : Obligations.AtomicMemoryOperations := by
  unfold Obligations.AtomicMemoryOperations
  intro s rd rs1 rs2 aq rl ea b got does
  have of_amo {i : Instr} (f : Word → Word → Word) {g : Word → Word} (h : exec i s = amo f rd rs1 rs2 s)
      (hg : ∀ old, f old b = g old) : does i g := by
    obtain rfl : (f · b) = g := funext hg
    exact ⟨amo_guest h, amo_device h⟩
  refine ⟨?swap, ?add, ?xor, ?and, ?or, ?min, ?max, ?minu, ?maxu⟩
  case swap => exact of_amo (fun _ b => b) rfl fun _ => rfl
  case add => exact of_amo (· + ·) rfl fun _ => rfl
  case xor => exact of_amo (· ^^^ ·) rfl fun _ => rfl
  case and => exact of_amo (· &&& ·) rfl fun _ => rfl
  case or => exact of_amo (· ||| ·) rfl fun _ => rfl
  case min => exact of_amo minS rfl fun old => minS_eq old b
  case max => exact of_amo maxS rfl fun old => maxS_eq old b
  case minu => exact of_amo minU rfl fun old => minU_eq old b
  case maxu => exact of_amo maxU rfl fun old => maxU_eq old b

end Sys2Proof.Machine
end

section
/-! SUPPORT. The statements about the system instructions (43_system): the words and the meaning of the six CSR
instructions, the bits of mstatus that MRET restores after a trap, and the two branches of ECALL. -/

namespace Sys2Proof.Machine

open Sys2Proof

variable {s : State} {i : Instr} {rd : Reg} {c : BitVec 12} {x : Word}

/-! ## The words of the six CSR instructions (R183) -/

/-- An I-format word is its fields side by side (30_encoding R97). -/
theorem fmtI_eq_append (imm : BitVec 12) (rs1 : Reg) (f3 : BitVec 3) (rd : Reg) (op : BitVec 7) :
    fmtI imm rs1 f3 rd op = .w32 (imm ++ rs1 ++ f3 ++ rd ++ op) := by
  have past {m n k lo : Nat} (hi : BitVec m) (low : BitVec n) (h : n ≤ lo) :
      (hi ++ low).extractLsb' lo k = hi.extractLsb' (lo - n) k := BitVec.extractLsb'_append_eq_of_le h
  refine fmtI_of_fields ?imm ?rs1 ?funct3 ?rd BitVec.extractLsb'_append_eq_right
  case imm =>
    exact (past _ op (by decide)).trans <| (past _ rd (by decide)).trans <| (past _ f3 (by decide)).trans
      BitVec.extractLsb'_append_eq_left
  case rs1 =>
    exact (past _ op (by decide)).trans <| (past _ rd (by decide)).trans <| (past _ f3 (by decide)).trans
      BitVec.extractLsb'_append_eq_right
  case funct3 =>
    exact (past _ op (by decide)).trans <| (past _ rd (by decide)).trans BitVec.extractLsb'_append_eq_right
  case rd => exact (past _ op (by decide)).trans BitVec.extractLsb'_append_eq_right

/-- A 32-bit encoding is decoded to its instruction. -/
theorem decode_of_encode_w32 {w : BitVec 32} (hi : i.wf = true) (h : encode i = .w32 w) : decode w = .ok i := by
  have hd := decodeOfEncode i hi
  rwa [h] at hd

/-! ## What a CSR instruction answers (R183) -/

theorem zext_eq_zero_iff (v : BitVec 5) : zext v = 0 ↔ v = 0 := by
  have hv : v.toNat < 2 ^ 32 := v.isLt.trans (by decide)
  rw [← BitVec.toNat_inj, ← BitVec.toNat_inj, zext, BitVec.toNat_setWidth, Nat.mod_eq_of_lt hv]
  rfl

/-- CSRRW and CSRRWI write whatever the operand is. -/
theorem csrDoesWrite_write_iff : csrDoesWrite .write c x = true ↔ c.toNat < 0xC00 ∧ ¬ False := by
  rw [csrDoesWrite, csrWritable_iff, not_false_eq_true, and_true]

theorem csrDoesWrite_set_iff : csrDoesWrite .set c x = true ↔ c.toNat < 0xC00 ∧ ¬ x = 0 := by
  rw [csrDoesWrite, Bool.and_eq_true, csrWritable_iff, bne_iff_ne]

theorem csrDoesWrite_clear_iff : csrDoesWrite .clear c x = true ↔ c.toNat < 0xC00 ∧ ¬ x = 0 :=
  csrDoesWrite_set_iff

theorem csrOp_access {kind : CsrKind} {skip : Prop} (h : exec i s = csrOp kind rd c x s)
    (hw : csrDoesWrite kind c x = true ↔ c.toNat < 0xC00 ∧ ¬ skip) :
    CsrAccess i s rd c (csrNew kind (s.csr c) x) skip := by
  cases hd : csrDoesWrite kind c x with
  | true =>
    have hx : exec i s = retireWith len4 rd (s.csr c) (s.setCsr c (csrNew kind (s.csr c) x)) :=
      h.trans (by rw [csrOp, hd]; rfl)
    obtain ⟨hreg, hzero, hpc, -⟩ :=
      retire_writesReg (q := s.setCsr c (csrNew kind (s.csr c) x)) (s := s) (rd := rd) (d := s.csr c) (len := len4) rfl
    refine ⟨_, hx, hreg, hzero, hpc, fun _ => ?_, fun hn => absurd (hw.1 hd) hn, fun n hn => ?_, rfl⟩
    · exact (State.csr_setCsr s c c _).trans (if_pos rfl)
    · exact (State.csr_setCsr s c n _).trans (if_neg hn)
  | false =>
    have hx : exec i s = retireWith len4 rd (s.csr c) s := h.trans (by rw [csrOp, hd]; rfl)
    obtain ⟨hreg, hzero, hpc, -⟩ := writesReg_jumpTo s rd (s.csr c) (s.pc + len4)
    exact ⟨_, hx, hreg, hzero, hpc, fun hc => (by rw [hw.2 hc] at hd; cases hd), fun _ => rfl, fun _ _ => rfl, rfl⟩

/-- Settles O14: each of the six is a `CsrOp` of its kind and operand, and its word is an I-format word. -/
theorem csrInstructions : Obligations.CsrInstructions := by
  unfold Obligations.CsrInstructions
  intro s rd rs1 uimm c
  have decodes {i : Instr} (f : Reg) (f3 : BitVec 3) (hi : i.wf = true) (h : encode i = fmtI c f f3 rd 0x73) :
      decode (c ++ f ++ f3 ++ rd ++ 0x73#7) = .ok i := decode_of_encode_w32 hi (h.trans (fmtI_eq_append ..))
  have hz : c.toNat < 0xC00 ∧ ¬ zext uimm = 0 ↔ c.toNat < 0xC00 ∧ ¬ uimm = 0 :=
    and_congr_right' (zext_eq_zero_iff uimm).not
  refine ⟨decodes _ _ rfl rfl, decodes _ _ rfl rfl, decodes _ _ rfl rfl, decodes _ _ rfl rfl, decodes _ _ rfl rfl,
    decodes _ _ rfl rfl, ?csrrw, ?csrrs, ?csrrc, ?csrrwi, ?csrrsi, ?csrrci⟩
  case csrrw => exact csrOp_access (kind := .write) rfl csrDoesWrite_write_iff
  case csrrs => exact csrOp_access (kind := .set) rfl csrDoesWrite_set_iff
  case csrrc => exact csrOp_access (kind := .clear) rfl csrDoesWrite_clear_iff
  case csrrwi => exact csrOp_access (kind := .write) rfl csrDoesWrite_write_iff
  case csrrsi => exact csrOp_access (kind := .set) rfl (csrDoesWrite_set_iff.trans hz)
  case csrrci => exact csrOp_access (kind := .clear) rfl (csrDoesWrite_clear_iff.trans hz)

/-! ## MRET (R181) and the trap it returns from (60_exceptions R232, R236) -/

theorem mstatusOnReturn_getLsbD (m : Word) (k : Nat) :
    (mstatusOnReturn m).getLsbD k = if k = 3 then m.getLsbD 7 else if k = 7 then true else m.getLsbD k := by
  rw [mstatusOnReturn, setBit_getLsbD _ (by decide), setBit_getLsbD _ (by decide)]
  by_cases h3 : k = 3
  · rw [if_pos h3, if_pos h3, if_neg (by omega)]
  · rw [if_neg h3, if_neg h3]

/-- Trap entry saves MIE in MPIE. -/
theorem mstatusOnTrap_mpie (m : Word) : (mstatusOnTrap m).getLsbD 7 = m.getLsbD 3 := by
  rw [mstatusOnTrap, setBit_getLsbD _ (by decide), if_neg (by decide), setBit_getLsbD _ (by decide), if_pos rfl]

theorem returnFromTrap_mstatus (s : State) : (returnFromTrap s).csr mstatusNo = mstatusOnReturn (s.csr mstatusNo) :=
  (State.csr_setCsr s mstatusNo mstatusNo _).trans (if_pos rfl)

theorem returnTarget_of_kept (h : s.params.mretClearsBit0 = false) : returnTarget s = s.csr mepcNo :=
  if_neg (Bool.eq_false_iff.1 h)

theorem returnTarget_of_cleared (h : s.params.mretClearsBit0 = true) : returnTarget s = clearBit0 (s.csr mepcNo) :=
  if_pos h

theorem clearBit0_of_even {v : Word} (h : v.getLsbD 0 = false) : clearBit0 v = v := by
  refine word_ext fun k hk => ?_
  cases k with
  | zero => exact (even_clearBit0 v).trans h.symm
  | succ k =>
    rw [clearBit0_eq_append]
    exact BitVec.getLsbD_append.trans (by simp [Nat.lt_of_succ_lt_succ hk, Nat.add_comm])

/-- Settles O12: MRET is one CSR write and a jump. -/
theorem mretReturns : Obligations.MretReturns := by
  unfold Obligations.MretReturns
  refine ⟨decode_of_encode_w32 (i := .mret) rfl rfl, fun s => ⟨returnFromTrap s, rfl, returnTarget_of_kept,
    fun hc => ?cleared, fun k _ => ?mstatus, fun n hn => ?csrs, fun r => ?regs, ?zero, rfl⟩⟩
  case cleared => exact (returnTarget_of_cleared hc).trans (clearBit0_eq_append _)
  case mstatus => exact (congrArg (·.getLsbD k) (returnFromTrap_mstatus s)).trans (mstatusOnReturn_getLsbD _ k)
  case csrs => exact execMret_csr rfl hn
  case regs => exact State.getReg_jumpTo _ _ r
  case zero => exact State.jumpTo_zero _ _

/-- Settles O13: the trap leaves the pc in `mepc` and the enable in MPIE, and MRET puts both back. -/
theorem trapThenMretRestores : Obligations.TrapThenMretRestores := by
  unfold Obligations.TrapThenMretRestores
  intro s u hmie hmtie hmepc hmstatus heven
  have he : s.interruptEnabled 7 = true := Bool.and_eq_true_iff.2 ⟨hmie, hmtie⟩
  have hpc : u.csr mepcNo = s.pc := hmepc.trans ((takeInterrupt_csr s he mepcNo).trans (if_pos rfl))
  have hms : u.csr mstatusNo = mstatusOnTrap (s.csr mstatusNo) := hmstatus.trans (takeInterrupt_csr s he mstatusNo)
  refine ⟨returnFromTrap u, rfl, show returnTarget u = s.pc from ?_, ?_⟩
  · cases hc : u.params.mretClearsBit0 with
    | true => rw [returnTarget_of_cleared hc, hpc, clearBit0_of_even (heven hc)]
    | false => rw [returnTarget_of_kept hc, hpc]
  · calc ((returnFromTrap u).csr mstatusNo).getLsbD 3
      _ = (u.csr mstatusNo).getLsbD 7 := by rw [returnFromTrap_mstatus, mstatusOnReturn_getLsbD, if_pos rfl]
      _ = (s.csr mstatusNo).getLsbD 3 := by rw [hms, mstatusOnTrap_mpie]
      _ = true := hmie

/-! ## ECALL (R179) -/

/-- Settles O17: ECALL has two branches; a step from a state with the exit flag faults. -/
theorem ecallExitsOrReturnsZero : Obligations.EcallExitsOrReturnsZero := by
  unfold Obligations.EcallExitsOrReturnsZero
  refine ⟨decode_of_encode_w32 (i := .ecall) rfl rfl, fun s t he h => ?ended,
    fun s => ⟨fun h93 => ?exits, fun h93 => ?zero⟩⟩
  case ended =>
    have hf : step s = .fault .exited := (stepFaultsOnlyAfterTheRun s .exited).2 (.inl ⟨rfl, he⟩)
    cases hf.symm.trans h
  case exits =>
    have hu := captureInstant_frame s
    exact ⟨_, hu, _, if_pos h93, rfl, fun r => (State.getReg_retire _ _ r).trans (hu.getReg r), State.retire_zero _ _,
      congrArg (· + len4) hu.access.pc, rfl⟩
  case zero => exact retireWith_gives (if_neg h93)

end Sys2Proof.Machine
end

section
/-! SUPPORT. The statements about RV32C (44_rvc): the register forms, jumps and branches by the rules of RV32I, the
floating-point moves by the word accesses they are made of, and each form against its expansion. -/

namespace Sys2Proof.Machine

open Sys2Proof

variable {s t q u : State} {c e i : Instr} {rd fs rs1 : Reg} {len ea ea' v v' k : Word} {x : DWord}

/-! ## Immediates -/

/-- A signed immediate of fewer bits. -/
theorem sext_eq_ofInt {n : Nat} (imm : BitVec n) : sext imm = BitVec.ofInt 32 imm.toInt := rfl

/-- An immediate sign-extended to the width of the expansion's. -/
theorem sext_signExtend {n m : Nat} (h : n ≤ m) (imm : BitVec n) : sext (imm.signExtend m) = sext imm := by
  rw [sext_eq_ofInt, BitVec.toInt_signExtend_of_le h, sext_eq_ofInt]

/-- An immediate zero-extended to the width of the expansion's, so that its sign bit is 0. -/
theorem sext_setWidth {n m : Nat} (h : n < m) (imm : BitVec n) : sext (imm.setWidth m) = zext imm := by
  have hmsb : (imm.setWidth m).msb = false := by
    rw [BitVec.msb_setWidth, BitVec.getLsbD_of_ge _ _ (Nat.le_sub_one_of_lt h), Bool.and_false]
  rw [sext, BitVec.signExtend_eq_setWidth_of_msb_false hmsb, BitVec.setWidth_setWidth (by omega), zext]

/-- The bits above the twelve zeros of C.LUI's immediate are the immediate of its expansion (30_encoding R100). -/
theorem immUpper_signExtend {imm : BitVec 18} (h : lowZero 12 imm = true) :
    immUpper ((imm.extractLsb' 12 6).signExtend 20) = sext imm := by
  have hlow : imm.extractLsb' 0 12 = 0#12 := beq_iff_eq.1 h
  have himm : imm.extractLsb' 12 6 ++ 0#12 = imm := by
    rw [← hlow, BitVec.extractLsb'_append_extractLsb'_eq_extractLsb' (by decide : 12 = 0 + 12),
      BitVec.extractLsb'_eq_self]
  apply BitVec.eq_of_toInt_eq
  calc (immUpper ((imm.extractLsb' 12 6).signExtend 20)).toInt
    _ = 2 ^ 12 * (imm.extractLsb' 12 6).toInt := by
      rw [immUpper, BitVec.toInt_append_zero, BitVec.toInt_signExtend_of_le (by decide)]
    _ = (sext imm).toInt := by
      rw [← BitVec.toInt_append_zero, himm, sext, BitVec.toInt_signExtend_of_le (by decide)]

/-! ## The register forms, jumps and branches -/

/-- Settles O37: each form ends by `retireWith`, with the value that its fact in exact integers says. -/
theorem compressedArithmetic : Obligations.CompressedArithmetic := by
  unfold Obligations.CompressedArithmetic
  intro s rd rs2 cd cs imm6 imm10 imm18 shamt d x y
  refine ⟨?addi4spn, ?addi, ?li, ?addi16sp, ?lui, ?srli, ?srai, ?andi, ?sub, ?xor, ?or, ?and, ?slli, ?mv, ?add⟩
  case addi | addi16sp => exact retireWith_gives_of_eq rfl (add_sext (by decide) _ _)
  case li | lui => exact retireWith_gives_of_eq rfl (sext_eq_ofInt _)
  case srli => exact retireWith_gives_of_eq rfl (shrU_eq_ofNat x shamt.toNat)
  case srai => exact retireWith_gives_of_eq rfl (shrS_eq_ofInt x shamt.toNat)
  case slli => exact retireWith_gives_of_eq rfl (shl_eq_ofNat _ shamt.toNat)
  case addi4spn | andi | sub | xor | or | and | mv | add => exact retireWith_gives rfl

/-- Settles O38: a jump to a register clears bit 0 of its target, and a branch compares with 0. -/
theorem compressedJumpsAndBranches : Obligations.CompressedJumpsAndBranches := by
  unfold Obligations.CompressedJumpsAndBranches
  intro s rs1 cs off12 off9 y
  have hjr : Goes (.cJr rs1) s (clearBit0 (s.getReg rs1)) := jumpTo_goes rfl
  refine ⟨?jal, ?j, ?beqz, ?bnez, ?jr, ?jalr⟩
  case jal => exact jumpLink_gives rfl rfl
  case j => exact jumpTo_goes rfl
  case beqz => exact branch_goes rfl beq_iff_eq
  case bnez => exact branch_goes rfl bne_iff_ne
  case jr => exact clearBit0_eq_append (s.getReg rs1) ▸ hjr
  case jalr => exact jumpLink_gives rfl (clearBit0_eq_append _)

/-! ## The floating-point loads (R191) -/

theorem exec_of_fpMove {b : Bool} {r : Result} (hb : b = true) (h : exec i s = fpMove b s r) : exec i s = r :=
  h.trans (if_pos hb)

theorem AccessFrame.getFreg (h : AccessFrame s t) (r : Reg) : t.getFreg r = s.getFreg r := by
  rw [State.getFreg, State.getFreg, h.fregs]

/-- The end of a load into a slot, whose accesses led to `q`. -/
theorem retire_loadsFregFrom (h : exec i s = .next ((q.setFreg rd x).retire len)) (hq : AccessFrame s q) :
    LoadsFregFrom i s q rd x (s.pc + len) := by
  refine ⟨_, h, fun r => ?_, fun r => ?_, State.retire_zero _ _, congrArg (· + len) hq.pc, rfl⟩
  · rw [← hq.getFreg r]; exact State.getFreg_setFreg q rd r x
  · rw [State.getReg_retire]; exact hq.getReg r

/-- A 64-bit load is two reads of a word, the second in the state that the first leaves. -/
theorem loadFreg64_readsWord (h : exec i s = loadFreg64 rd ea s) : ∃ lo hi u v, ReadsWord s ea lo u ∧
    ReadsWord u (ea + 4) hi v ∧ LoadsFregFrom i s v rd (hi ++ lo) (s.pc + 2) :=
  ⟨_, _, _, _, memRead_readsWord s ea, memRead_readsWord _ _, retire_loadsFregFrom h (memRead64_access ea s)⟩

theorem loadFreg64_guest (h : exec i s = loadFreg64 rd ea s) (ha : InGuest ea) (ha4 : InGuest (ea + 4)) :
    ∃ lo hi, MayRead s ea 4 lo ∧ MayRead s (ea + 4) 4 hi ∧ LoadsFreg i s rd (hi ++ lo) (s.pc + 2) := by
  obtain ⟨lo, hi, u, v, hlo, hhi, hload⟩ := loadFreg64_readsWord h
  obtain ⟨hlo, hu⟩ := hlo.1 ha
  obtain ⟨hhi, hv⟩ := hhi.1 ha4
  exact ⟨lo, hi, hlo, hu.mayRead hhi, v, hu.trans hv, hload⟩

/-- A 32-bit load is one read of a word. -/
theorem loadFreg32_readsWord (h : exec i s = loadFreg32 rd ea s) :
    ∃ v u, ReadsWord s ea v u ∧ LoadsFregFrom i s u rd (0#32 ++ v) (s.pc + 2) := by
  have hzext (v : Word) : v.setWidth 64 = 0#32 ++ v := BitVec.setWidth_eq_append (by decide)
  rw [loadFreg32, hzext] at h
  exact ⟨_, _, memRead_readsWord s ea, retire_loadsFregFrom h (memRead_access .word ea s)⟩

/-- Settles O39: an enabled load is the load of its width, which is made of reads of a word. -/
theorem floatingLoads : Obligations.FloatingLoads := by
  unfold Obligations.FloatingLoads
  intro s wide narrow
  have of_wide {i : Instr} {fd : Reg} {ea : Word} (h : exec i s = loadFreg64 fd ea s) : wide i fd ea :=
    ⟨loadFreg64_guest h, loadFreg64_readsWord h⟩
  refine ⟨fun rd rs1 imm hb => ?fld, fun rd rs1 imm hb => ?flw, fun rd imm hb => ?fldsp, fun rd imm hb => ?flwsp⟩
  case fld | fldsp => exact of_wide (exec_of_fpMove hb rfl)
  case flw | flwsp => exact loadFreg32_readsWord (exec_of_fpMove hb rfl)

/-! ## The floating-point stores (R191) -/

/-- Where the first `m` bytes of a value were written, a write of its next `n` bytes is the write of `m + n`. -/
theorem byteAfter_extractLsb' {w k m n : Nat} {y : BitVec w} {a : Word} (hn : 8 * n ≤ k) (hp : t.params = s.params)
    (h : t.byteAt a = byteAfter s ea y m a) :
    byteAfter t (ea + BitVec.ofNat 32 m) (y.extractLsb' (8 * m) k) n a = byteAfter s ea y (m + n) a := by
  induction n with
  | zero => exact h
  | succ n ih =>
    have haddr : ea + BitVec.ofNat 32 m + BitVec.ofNat 32 n = ea + BitVec.ofNat 32 (m + n) := by
      rw [BitVec.add_assoc, BitVec.ofNat_add]
    have hbyte : (y.extractLsb' (8 * m) k).extractLsb' (8 * n) 8 = y.extractLsb' (8 * (m + n)) 8 := by
      ext j hj
      have hk : 8 * n + j < k := by omega
      simp only [BitVec.getElem_extractLsb', BitVec.getLsbD_extractLsb', hk, decide_true, Bool.true_and,
        Nat.mul_add, Nat.add_assoc]
    rw [byteAfter, ih (by omega), haddr, hbyte, hp, ← Nat.add_assoc, byteAfter]

/-- The low bytes of a value are those of its low word. -/
theorem byteAfter_low {w n : Nat} (hn : n ≤ 4) (y : BitVec w) (a : Word) :
    byteAfter s ea (y.extractLsb' 0 32) n a = byteAfter s ea y n a := by
  have h : byteAfter s (ea + 0#32) (y.extractLsb' 0 32) n a = byteAfter s ea y (0 + n) a :=
    byteAfter_extractLsb' (m := 0) (by omega) rfl rfl
  rwa [BitVec.add_zero, Nat.zero_add] at h

/-- What the capture agent does after memory and the reservation were written, done in the state before. -/
theorem CaptureFrame.of_written {m : List Host.Cell} {r : Option Word}
    (h : CaptureFrame { s with mem := m, mreserved := r } u) :
    CaptureFrame s { u with mem := s.mem, mreserved := s.mreserved } where
  rest := by rw [h.rest]
  regs := h.regs
  hart := h.hart
  held ho := by rw [h.held ho]
  bytes a _ := State.byteAt_congr (s := s) (t := { u with mem := s.mem, mreserved := s.mreserved }) rfl h.params a
  undisturbed := h.undisturbed

/-- The end of an instruction that wrote no register, after effects that left the pc as it was. -/
theorem retire_writesReg_none (h : q.pc = s.pc) : WritesReg q (q.retire len) 0 0 (s.pc + len) :=
  h ▸ writesReg_jumpTo_none q _

/-- The end of a store, whose accesses led to `q`. -/
theorem retire_storesFrom (h : exec i s = .next (q.retire len)) (hq : AccessFrame s q) :
    StoresFrom i s q (s.pc + len) :=
  ⟨_, h, fun r => (State.getReg_retire q len r).trans (hq.getReg r), State.retire_zero _ _, by rw [← hq.pc]; rfl⟩

/-- A refused write of a word is one to the device window. -/
theorem memWrite_word_error {r : Refusal} (h : memWrite .word ea v s = .error r) :
    ¬ InGuest ea ∧ deviceStore s ea v = .error r := by
  have hg : ¬ InGuest ea := fun ha => by
    obtain ⟨_, _, t, ht, _⟩ := memWrite_guest (s := s) ha .word v
    cases h.symm.trans ht
  exact ⟨hg, (memWrite_device hg v s).symm.trans h⟩

theorem storeFreg64_guest (h : exec i s = storeFreg64 fs ea s) (ha : InGuest ea) (ha4 : InGuest (ea + 4)) :
    Stores i s ea (s.getFreg fs) 8 0 0 (reservationAfter s ea 8) (s.pc + 2) := by
  obtain ⟨u, hu, q, hq, hqb, hqm, hqe⟩ := memWrite_guest (s := s) ha .word ((s.getFreg fs).extractLsb' 0 32)
  obtain ⟨p, hp, t, ht, htb, htm, hte⟩ := memWrite_guest (s := q) ha4 .word ((s.getFreg fs).extractLsb' 32 32)
  have hw : memWrite64 ea (s.getFreg fs) s = .ok t := by rw [memWrite64, hq]; exact ht
  have hpar : q.params = s.params := (memWrite_access hq).params
  have hacc : AccessFrame s t := memWrite64_access hw
  rw [storeFreg64, hw] at h
  rw [hqe] at hp
  obtain ⟨hreg, hzero, hpc, hrest⟩ := retire_writesReg_none (len := len2) hacc.pc
  refine ⟨_, hu.trans hp.of_written, _, h, fun a ha => ?_, fun r => ?_, hzero,
    htm.trans (reservationAfter_two hqm hpar), hpc, ?_⟩
  · obtain ⟨hb, hd⟩ := hqb a ha
    have hlow := hb.trans (byteAfter_low (by decide) (s.getFreg fs) a)
    exact (htb a hd).1.trans (byteAfter_extractLsb' (m := 4) (n := 4) (by decide) hpar hlow)
  · rw [← hacc.getReg r]; exact hreg r
  · rw [hte] at hrest ⊢; exact hrest

/-- A 64-bit store is two writes of a word, the second in the state that the first leaves. -/
theorem storeFreg64_writesWord {lo hi : Word} (h : exec i s = storeFreg64 fs ea s)
    (hlo : (s.getFreg fs).extractLsb' 0 32 = lo) (hhi : (s.getFreg fs).extractLsb' 32 32 = hi) :
    (∃ u t, WritesWord s ea lo u ∧ WritesWord u (ea + 4) hi t ∧ StoresFrom i s t (s.pc + 2)) ∨
      (∃ r, ¬ InGuest ea ∧ deviceStore s ea lo = .error r ∧ exec i s = .refused r) ∨
      ∃ u r, WritesWord s ea lo u ∧ ¬ InGuest (ea + 4) ∧ deviceStore u (ea + 4) hi = .error r ∧
        exec i s = .refused r := by
  rw [storeFreg64, memWrite64, hlo, hhi] at h
  cases hu : memWrite .word ea lo s with
  | error r =>
    obtain ⟨hg, hd⟩ := memWrite_word_error hu
    exact .inr (.inl ⟨r, hg, hd, by rw [h, hu]; rfl⟩)
  | ok u =>
    simp only [hu] at h
    cases ht : memWrite .word (ea + 4) hi u with
    | error r =>
      obtain ⟨hg, hd⟩ := memWrite_word_error ht
      exact .inr (.inr ⟨u, r, memWrite_writesWord hu, hg, hd, by rw [h, ht]; rfl⟩)
    | ok t =>
      rw [ht] at h
      exact .inl ⟨u, t, memWrite_writesWord hu, memWrite_writesWord ht,
        retire_storesFrom h ((memWrite_access hu).trans (memWrite_access ht))⟩

theorem storeFreg32_guest (h : exec i s = storeFreg32 fs ea s) (ha : InGuest ea) :
    Stores i s ea (s.getFreg fs) 4 0 0 (reservationAfter s ea 4) (s.pc + 2) := by
  obtain ⟨u, hu, t, ht, hb, hrest⟩ := storeReg_guest (w := .word) h ha
  exact ⟨u, hu, t, ht, fun a ha => (hb a ha).trans (byteAfter_low (by decide) _ a), hrest⟩

theorem storeFreg32_device (h : exec i s = storeFreg32 fs ea s) (ha : ¬ InGuest ea) :
    match deviceStore s ea ((s.getFreg fs).extractLsb' 0 32) with
    | .ok u => StoresFrom i s u (s.pc + 2)
    | .error e => exec i s = .refused e := by
  rw [storeFreg32, memWrite_device ha] at h
  split
  · next u hu =>
    rw [hu] at h
    exact retire_storesFrom h (memWrite_access ((memWrite_device ha _ s).trans hu))
  · next r hr => rw [h, hr]; rfl

/-- Settles O40: an enabled store is the store of its width, which is made of writes of a word. -/
theorem floatingStores : Obligations.FloatingStores := by
  unfold Obligations.FloatingStores
  intro s wide narrow
  have of_wide {i : Instr} {fs : Reg} {ea : Word} (h : exec i s = storeFreg64 fs ea s) :
      wide i (s.getFreg fs) ea := ⟨storeFreg64_guest h, storeFreg64_writesWord h rfl rfl⟩
  have of_narrow {i : Instr} {fs : Reg} {ea : Word} (h : exec i s = storeFreg32 fs ea s) :
      narrow i (s.getFreg fs) ea := ⟨storeFreg32_guest h, storeFreg32_device h⟩
  refine ⟨fun rs2 rs1 imm hb => ?fsd, fun rs2 rs1 imm hb => ?fsw, fun rs2 imm hb => ?fsdsp, fun rs2 imm hb => ?fswsp⟩
  case fsd | fsdsp => exact of_wide (exec_of_fpMove hb rfl)
  case fsw | fswsp => exact of_narrow (exec_of_fpMove hb rfl)

/-! ## The expansions (R190) -/

/-- In `s` the 16-bit `c` and the 32-bit `e` do the same, but for their lengths, or are both refused for one reason. -/
def SameButLength (c e : Instr) (s : State) : Prop :=
  (∃ t, exec c s = .next t ∧ exec e s = .next { t with pc := t.pc + 2 }) ∨
    ∃ r, exec c s = .refused r ∧ exec e s = .refused r

/-- Both end after the same effect, refused or not. -/
theorem retireAfter_sameButLength (res : Except Refusal State) (hc : exec c s = retireAfter len2 res)
    (he : exec e s = retireAfter len4 res) : SameButLength c e s := by
  cases res with
  | ok q =>
    refine .inl ⟨q.retire len2, hc, he.trans (congrArg Host.Outcome.next ?_)⟩
    have hpc : q.pc + len4 = q.pc + len2 + 2 := by rw [BitVec.add_assoc]; rfl
    rw [State.retire, hpc]
    rfl
  | error r => exact .inr ⟨r, hc, he⟩

theorem retireWith_sameButLength (hc : exec c s = retireWith len2 rd v s) (he : exec e s = retireWith len4 rd v' s)
    (hv : v' = v) : SameButLength c e s :=
  retireAfter_sameButLength (.ok (s.setReg rd v)) hc (hv ▸ he)

/-- An operation on a register and an immediate, which `c` and `e` spell in fields of their own widths. -/
theorem opImm_sameButLength {f : Word → Word → Word} {imm : BitVec 12} (he : exec e s = opImm f rd rs1 imm s)
    (hk : sext imm = k) (hc : exec c s = retireWith len2 rd (f (s.getReg rs1) k) s) : SameButLength c e s :=
  retireWith_sameButLength hc he (congrArg (f (s.getReg rs1)) hk)

/-- A write of x0 does not last (30_encoding R92). -/
theorem State.retire_setReg_zero (s : State) (v len : Word) : (s.setReg 0 v).retire len = s.retire len := by
  have hregs : (s.regs.set 0 v).set 0 0 = s.regs.set 0 0 := Vector.set_set _ _
  exact congrArg (fun x : Vector Word 32 => { s with regs := x, pc := s.pc + len }) hregs

theorem loadReg_sameButLength (hc : exec c s = loadReg len2 .word id rd ea s)
    (he : exec e s = loadReg len4 .word id rd ea' s) (hea : ea' = ea) : SameButLength c e s :=
  retireAfter_sameButLength (.ok ((memRead .word ea s).2.setReg rd (memRead .word ea s).1)) hc (hea ▸ he)

theorem storeReg_sameButLength (hc : exec c s = storeReg len2 .word ea v s)
    (he : exec e s = storeReg len4 .word ea' v s) (hea : ea' = ea) : SameButLength c e s :=
  retireAfter_sameButLength (memWrite .word ea v s) hc (hea ▸ he)

/-- The address of a word access with a zero-extended displacement is the one with a signed displacement. -/
theorem eaSigned_setWidth {n : Nat} (h : n < 12) (s : State) (r : Reg) (imm : BitVec n) :
    eaSigned s r (imm.setWidth 12) = eaUnsigned s r imm := congrArg (s.getReg r + ·) (sext_setWidth h imm)

/-- Settles O41: the two end after the same effect, once the expansion's immediate is read back. -/
theorem compressedExpansions : Obligations.CompressedExpansions := by
  unfold Obligations.CompressedExpansions
  intro c e s hwf he
  change SameButLength c e s
  cases c with
  | cAddi4spn => cases he; exact opImm_sameButLength rfl (sext_setWidth (by decide) _) rfl
  | cAddi | cAddi16sp | cAndi => cases he; exact opImm_sameButLength rfl (sext_signExtend (by decide) _) rfl
  | cLw | cLwsp => cases he; exact loadReg_sameButLength rfl rfl (eaSigned_setWidth (by decide) s _ _)
  | cSw | cSwsp => cases he; exact storeReg_sameButLength rfl rfl (eaSigned_setWidth (by decide) s _ _)
  | cNop imm =>
    cases he
    exact retireAfter_sameButLength (.ok s) rfl (congrArg Host.Outcome.next (State.retire_setReg_zero s _ len4))
  | cLi rd imm =>
    cases he
    exact retireWith_sameButLength rfl rfl ((BitVec.zero_add _).trans (sext_signExtend (by decide) imm))
  | cLui rd imm =>
    cases he
    obtain ⟨-, hlow, -⟩ : _ ∧ lowZero 12 imm = true ∧ _ := by simpa only [Instr.wf, Bool.and_eq_true] using hwf
    exact retireWith_sameButLength rfl rfl (immUpper_signExtend hlow)
  | cMv => cases he; exact retireWith_sameButLength rfl rfl (BitVec.zero_add _)
  | cSrli | cSrai | cSub | cXor | cOr | cAnd | cSlli | cAdd => cases he; exact retireWith_sameButLength rfl rfl rfl
  | cEbreak => cases he; exact retireAfter_sameButLength (.ok s) rfl rfl
  | _ => cases he

end Sys2Proof.Machine
end

section
/-! SUPPORT. The statements about exceptions and the schedule (60_exceptions): why an instruction is refused, what trap
entry writes and where it goes, the check point, and the frame end with its audio pump and its sleep. -/

namespace Sys2Proof.Machine

open Sys2Proof

variable {s t u : State} {i : Instr} {e : Refusal} {len ea v : Word} {w : Width}

/-! ## Why a store is refused (R227, 20_memory R74, R76) -/

/-- What a refusal of a store of `n` bytes at `ea` is, by the register that one of its accesses selects. -/
def StoreRefusal (s : State) (ea : Word) (n : Nat) (e : Refusal) : Prop :=
  ∃ p ∈ storeParts ea n,
    ((e = .audioLockRetaken ∨ e = .audioLockNotOwned) ∧
      (s.selects p.1 = some (.audioIn 6) ∨ s.selects p.1 = some (.display 7))) ∨
    (e = .bitBltNotFixed ∧ s.params.blt = none ∧ s.selects p.1 = some (.display 7))

/-- Which registers the accesses select depends on the parameters alone. -/
theorem StoreRefusal.of_params {n : Nat} (h : StoreRefusal u ea n e) (hp : u.params = s.params) :
    StoreRefusal s ea n e := by
  unfold StoreRefusal at *
  simpa only [selects_congr hp, hp] using h

theorem memWrite_refusal (h : memWrite w ea v s = .error e) : StoreRefusal s ea w.bytes e :=
  ⟨(ea, w.bytes), by simp [storeParts_width], memWrite_error h⟩

/-- A 64-bit store is refused where one of its two words is (20_memory R60). -/
theorem memWrite64_refusal {x : DWord} (h : memWrite64 ea x s = .error e) : StoreRefusal s ea 8 e := by
  unfold memWrite64 at h
  split at h
  · next u hu =>
    have hr : StoreRefusal u ea 8 e := ⟨(ea + 4, 4), by simp [storeParts], memWrite_error h⟩
    exact hr.of_params (memWrite_access hu).params
  · next hr => cases h; exact ⟨(ea, 4), by simp [storeParts], memWrite_error hr⟩

theorem retireAfter_refused {x : Except Refusal State} (h : retireAfter len x = .refused e) : x = .error e := by
  cases x with
  | ok _ => cases h
  | error _ => cases h; rfl

/-- What comes after a write is not refused. -/
theorem error_of_map_error {x : Except Refusal State} {f : State → State} (h : x.map f = .error e) :
    x = .error e := by
  cases x with
  | ok _ => cases h
  | error _ => cases h; rfl

theorem storeReg_refusal (h : storeReg len w ea v s = .refused e) : StoreRefusal s ea w.bytes e :=
  memWrite_refusal (retireAfter_refused h)

theorem storeFreg64_refusal {fs : Reg} (h : storeFreg64 fs ea s = .refused e) : StoreRefusal s ea 8 e :=
  memWrite64_refusal (retireAfter_refused h)

theorem storeFreg32_refusal {fs : Reg} (h : storeFreg32 fs ea s = .refused e) : StoreRefusal s ea 4 e :=
  memWrite_refusal (retireAfter_refused h)

theorem amo_refusal {f : Word → Word → Word} {rd rs1 rs2 : Reg} (h : amo f rd rs1 rs2 s = .refused e) :
    StoreRefusal s (s.getReg rs1) 4 e :=
  (memWrite_refusal (error_of_map_error (retireAfter_refused h))).of_params (memRead_access _ _ _).params

/-! ## Why an instruction is refused (R227) -/

/-- The refusals that the spec names for an instruction (R227). -/
def NamedRefusal (i : Instr) (s : State) (e : Refusal) : Prop :=
  (e = .divisionCorner ∧ i.isDivision = true ∧ s.params.divCorner = .refuse) ∨
  (e = .reservedEncoding ∧ i.enabled s.params = false ∧ s.params.decodeReserved = .refuse) ∨
  ∃ ea n, storeAt s i = some (ea, n) ∧ StoreRefusal s ea n e

theorem NamedRefusal.of_store {n : Nat} (ha : storeAt s i = some (ea, n)) (h : StoreRefusal s ea n e) :
    NamedRefusal i s e := .inr (.inr ⟨ea, n, ha, h⟩)

theorem unmatched_refused (h : unmatched len s = .refused e) :
    e = .reservedEncoding ∧ s.params.decodeReserved = .refuse := by
  unfold unmatched at h
  split at h
  · cases h
  · next hr => cases h; exact ⟨rfl, hr⟩

/-- A division, as DIV_CORNER fixes it, is refused in a corner case alone and under the switch alone (41_rv32m R155). -/
def RefusesCorners (f : DivCorner → Word → Word → Except Refusal Word) : Prop :=
  ∀ c a b e, f c a b = .error e → e = .divisionCorner ∧ c = .refuse

theorem divResult_error {c : DivCorner} {isCorner : Bool} {x y : Word} (h : divResult c isCorner x y = .error e) :
    e = .divisionCorner ∧ c = .refuse := by
  cases isCorner with
  | false => cases h
  | true => cases c <;> cases h; exact ⟨rfl, rfl⟩

theorem divSigned_refusesCorners : RefusesCorners divSigned := fun c a b e h => by
  unfold divSigned at h
  split at h <;> exact divResult_error h

theorem remSigned_refusesCorners : RefusesCorners remSigned := fun c a b e h => by
  unfold remSigned at h
  split at h <;> exact divResult_error h

theorem divUnsigned_refusesCorners : RefusesCorners divUnsigned := fun _ _ _ _ h => divResult_error h

theorem remUnsigned_refusesCorners : RefusesCorners remUnsigned := fun _ _ _ _ h => divResult_error h

theorem divReg_namedRefusal {f : DivCorner → Word → Word → Except Refusal Word} {rd rs1 rs2 : Reg}
    (hf : RefusesCorners f) (hi : i.isDivision = true) (h : divReg f rd rs1 rs2 s = .refused e) :
    NamedRefusal i s e := by
  unfold divReg at h
  split at h
  · cases h
  · next e' he =>
    cases h
    obtain ⟨hcorner, hc⟩ := hf _ _ _ _ he
    exact .inl ⟨hcorner, hi, hc⟩

theorem exec_eq_amo {f : Word → Word → Word} {rd rs1 rs2 : Reg} (hf : amoFields i = some (f, rd, rs1, rs2))
    (s : State) : exec i s = amo f rd rs1 rs2 s := by
  cases i with
  | amoswapW | amoaddW | amoxorW | amoandW | amoorW | amominW | amomaxW | amominuW | amomaxuW => cases hf; rfl
  | _ => cases hf

theorem amo_namedRefusal {f : Word → Word → Word} {rd rs1 rs2 : Reg} (hf : amoFields i = some (f, rd, rs1, rs2))
    (ha : storeAt s i = some (s.getReg rs1, 4)) (h : exec i s = .refused e) : NamedRefusal i s e :=
  .of_store ha (amo_refusal ((exec_eq_amo hf s).symm.trans h))

/-- SC.W is refused where its store is, which it makes under a reservation of the address alone (42_rv32a R168). -/
theorem execScW_namedRefusal {rd rs1 rs2 : Reg} {aq rl : BitVec 1} (h : execScW rd rs1 rs2 aq rl s = .refused e) :
    NamedRefusal (.scW rd rs1 rs2 aq rl) s e := by
  simp only [execScW] at h
  split at h
  · next hr => exact .of_store (if_pos hr) (memWrite_refusal (error_of_map_error (retireAfter_refused h)))
  · cases h

/-- A floating-point move of FP_MOVES is refused where its access is (44_rvc R191). -/
theorem fpMove_refused {b : Bool} {res : Result} (hb : b = true) (h : fpMove b s res = .refused e) :
    res = .refused e := (if_pos hb).symm.trans h

theorem fpMove_namedRefusal {b : Bool} {res : Result} {n : Nat} (ha : storeAt s i = if b then some (ea, n) else none)
    (hb : b = true) (hr : res = .refused e → StoreRefusal s ea n e) (h : fpMove b s res = .refused e) :
    NamedRefusal i s e := .of_store (ha.trans (if_pos hb)) (hr (fpMove_refused hb h))

theorem branch_ne_refused {taken : Bool} {offset : Word} : branch len taken offset s ≠ .refused e := by
  cases taken <;> nofun

theorem execEcall_ne_refused : execEcall s ≠ .refused e := by
  unfold execEcall
  split <;> nofun

/-- An instruction that is implemented is refused where its division or its store is. -/
theorem exec_refused_of_enabled (hi : i.enabled s.params = true) (h : exec i s = .refused e) : NamedRefusal i s e := by
  cases i with
  | div => exact divReg_namedRefusal divSigned_refusesCorners rfl h
  | divu => exact divReg_namedRefusal divUnsigned_refusesCorners rfl h
  | rem => exact divReg_namedRefusal remSigned_refusesCorners rfl h
  | remu => exact divReg_namedRefusal remUnsigned_refusesCorners rfl h
  | scW => exact execScW_namedRefusal h
  | sb | sh | sw | cSw | cSwsp => exact .of_store rfl (storeReg_refusal h)
  | amoswapW | amoaddW | amoxorW | amoandW | amoorW | amominW | amomaxW | amominuW | amomaxuW =>
    exact amo_namedRefusal rfl rfl h
  | cFsd | cFsdsp => exact fpMove_namedRefusal rfl hi storeFreg64_refusal h
  | cFsw | cFswsp => exact fpMove_namedRefusal rfl hi storeFreg32_refusal h
  | cFld | cFldsp | cFlw | cFlwsp => cases fpMove_refused hi h
  | beq | bne | blt | bge | bltu | bgeu | cBeqz | cBnez => exact absurd h branch_ne_refused
  | ecall => exact absurd h execEcall_ne_refused
  | _ => cases h

theorem exec_namedRefusal (h : exec i s = .refused e) : NamedRefusal i s e := by
  cases hi : i.enabled s.params with
  | true => exact exec_refused_of_enabled hi h
  | false =>
    obtain ⟨he, hr⟩ := unmatched_refused ((exec_of_disabled hi).symm.trans h)
    exact .inr (.inl ⟨he, hi, hr⟩)

/-- Settles O46: no operation of the meanings faults, and of them divisions, stores and unimplemented encodings alone
are refused. -/
theorem onlyNamedRefusals : Obligations.OnlyNamedRefusals := by
  unfold Obligations.OnlyNamedRefusals
  exact fun i s => ⟨exec_ne_fault i s, fun _ h => exec_namedRefusal h⟩

/-! ## Where a trap goes (R233) -/

/-- Clearing the low two bits of a word is keeping the others, above two zeros. -/
theorem and_base_eq_append (v : Word) : v &&& 0xFFFFFFFC#32 = v.extractLsb' 2 30 ++ 0#2 := by
  have hv : v.extractLsb' 2 30 ++ v.extractLsb' 0 2 = v := by
    rw [BitVec.extractLsb'_append_extractLsb'_eq_extractLsb' (by decide : 2 = 0 + 2), BitVec.extractLsb'_eq_self]
  have hm : 0xFFFFFFFC#32 = BitVec.allOnes 30 ++ 0#2 := rfl
  calc v &&& 0xFFFFFFFC#32 = (v.extractLsb' 2 30 ++ v.extractLsb' 0 2) &&& (BitVec.allOnes 30 ++ 0#2) := by rw [hv, hm]
    _ = v.extractLsb' 2 30 ++ 0#2 := by rw [BitVec.and_append, BitVec.and_allOnes, BitVec.and_zero]

theorem trapTarget_vectored (h : v.extractLsb' 0 2 = 1#2) (src : Nat) :
    trapTarget v src = (v.extractLsb' 2 30 ++ 0#2) + BitVec.ofNat 32 (4 * src) := by
  rw [← and_base_eq_append, BitVec.ofNat_mul]
  exact if_pos h

theorem trapTarget_direct (h : v.extractLsb' 0 2 ≠ 1#2) (src : Nat) : trapTarget v src = v.extractLsb' 2 30 ++ 0#2 :=
  (if_neg h).trans (and_base_eq_append v)

/-- Settles O11, by the mode. -/
theorem trapTargets : Obligations.TrapTargets := by
  unfold Obligations.TrapTargets
  exact fun mtvec src => ⟨(trapTarget_vectored · src), (trapTarget_vectored · 7), (trapTarget_direct · src),
    trapTarget_aligned mtvec src⟩

/-! ## Trap entry (R232) -/

theorem interruptEnabled_iff (s : State) (src : Nat) :
    s.interruptEnabled src = true ↔ (s.csr 0x300#12).getLsbD 3 = true ∧ (s.csr 0x304#12).getLsbD src = true :=
  Bool.and_eq_true_iff

theorem mstatusOnTrap_getLsbD (m : Word) (k : Nat) :
    (mstatusOnTrap m).getLsbD k = if k = 7 then m.getLsbD 3 else if k = 3 then false else m.getLsbD k := by
  rw [mstatusOnTrap, setBit_getLsbD _ (by decide), setBit_getLsbD _ (by decide)]
  by_cases h7 : k = 7
  · rw [if_pos h7, if_pos h7, if_neg (by omega)]
  · rw [if_neg h7, if_neg h7]

/-- A bit set in a word, and the others as they were. -/
theorem getLsbD_or_one_shiftLeft (v : Word) (src : Nat) {k : Nat} (hk : k < 32) :
    (v ||| 1#32 <<< src).getLsbD k = (decide (k = src) || v.getLsbD k) := by
  have h1 : (1#32 <<< src).getLsbD k = decide (k = src) := by
    rw [BitVec.getLsbD_shiftLeft, BitVec.getLsbD_one, Bool.eq_iff_iff]
    simp only [Bool.and_eq_true, Bool.not_eq_true', decide_eq_true_eq, decide_eq_false_iff_not]
    omega
  rw [BitVec.getLsbD_or, h1, Bool.or_comm]

/-- Settles O10: where both enables are set the four CSRs hold what `takeInterrupt_csr` says, and no other changes. -/
theorem trapEntry : Obligations.TrapEntry := by
  unfold Obligations.TrapEntry
  intro s src _ t
  split
  · next h =>
    have he := (interruptEnabled_iff s src).2 h
    have hcsr : ∀ n, t.csr n = _ := takeInterrupt_csr s he
    have hstatus : t.csr 0x300#12 = mstatusOnTrap (s.csr 0x300#12) := hcsr _
    have hip : t.csr 0x344#12 = s.csr 0x344#12 ||| 1#32 <<< src := hcsr _
    refine ⟨fun k _ => hstatus ▸ mstatusOnTrap_getLsbD _ k, fun k hk => hip ▸ getLsbD_or_one_shiftLeft _ src hk,
      hcsr _, hcsr _, takeInterrupt_pc s he, fun n h300 h344 h342 h341 => ?_, takeInterrupt_frame s src⟩
    exact (hcsr n).trans ((if_neg h341).trans ((if_neg h342).trans ((if_neg h344).trans (if_neg h300))))
  · next h => exact takeInterrupt_of_disabled s (Bool.eq_false_iff.2 fun he => h ((interruptEnabled_iff s src).1 he))

/-! ## The check point (R230, R231, R244) -/

/-- The check point after the first sub-batch: the timer check, and the second sub-batch begins. -/
theorem checkPoint_of_first (h : s.sched.lastBatch = false) : checkPoint s =
    { timerCheck s with sched := { s.sched with stepsLeft := s.sched.batchSteps, lastBatch := true } } := by
  have hs := (timerCheck_frame s).sched
  simp only [checkPoint, hs, h, Bool.false_eq_true, if_false]

/-- The check point after the second sub-batch: the timer check, the frame end and the start of the next frame. -/
theorem checkPoint_of_last (h : s.sched.lastBatch = true) : checkPoint s = startFrame (frameEnd (timerCheck s)) := by
  rw [checkPoint, if_pos ((congrArg Sched.lastBatch (timerCheck_frame s).sched).trans h)]

/-- The timer is due at the sample and enabled. -/
theorem timerDue_iff (s : State) : (s.interruptEnabled timerSource && s.mtimecmp.ule (sampleClock s)) = true ↔
    (s.csr 0x300#12).getLsbD 3 = true ∧ (s.csr 0x304#12).getLsbD 7 = true ∧ s.mtimecmp ≤ sampleClock s := by
  rw [Bool.and_eq_true_iff, interruptEnabled_iff, BitVec.ule_iff_le, and_assoc]
  rfl

/-- Settles O9: of the CSRs and the pc a check point changes what the timer check does, which is trap entry where the
interrupt is due and enabled. -/
theorem timerCheckAtCheckPoint : Obligations.TimerCheckAtCheckPoint := by
  unfold Obligations.TimerCheckAtCheckPoint
  intro s hc
  have hp := checkPoint_frame s
  have ht := timerCheck_frame s
  obtain ⟨hcur, hseen⟩ := timerCheck_clock s
  have hsample : (checkPoint s).mtimecur = sampleClock s := hp.mtimecur.trans hcur
  refine ⟨checkPoint s, step_of_checkNext hc, ?clock, ?seen, hp.mtimecmp.trans ht.mtimecmp, hp.regs.trans ht.regs,
    hp.fregs.trans ht.fregs, hp.mreserved.trans ht.mreserved, (hp.exitFlag.trans ht.exitFlag).trans hc.1, ?trap,
    fun hl => ?first⟩
  case clock => rw [hsample]; exact le_sampleClock s
  case seen => rw [hsample, hp.clockSeen, hseen]
  case first =>
    rw [checkPoint_of_first hl]
    exact ⟨ht.mem, ht.dev, rfl⟩
  case trap =>
    rw [hsample]
    split
    · next hd =>
      obtain ⟨hcsrs, hpc⟩ := (timerCheck_trap s).1 ((timerDue_iff s).2 hd)
      have hcsrs : (checkPoint s).csrs = (takeInterrupt 7 s).csrs := hp.csrs.trans hcsrs
      obtain ⟨hmie, hmtie, -⟩ := hd
      have hentry := trapEntry s 7 (by decide)
      simp only [hmie, hmtie] at hentry
      obtain ⟨hstatus, hip, hcause, hepc, htarget, -⟩ := hentry
      simp only [State.csr_congr hcsrs]
      exact ⟨hcsrs, (hp.pc.trans hpc).trans htarget, hepc, hcause, hstatus, hip⟩
    · next hd =>
      obtain ⟨hcsrs, hpc⟩ := (timerCheck_trap s).2 (Bool.eq_false_iff.2 fun h => hd ((timerDue_iff s).1 h))
      exact ⟨hp.pc.trans hpc, hp.csrs.trans hcsrs⟩

/-! ## The schedule (R244, R245) -/

theorem hartStep_sched (h : hartStep s = .next t) : t.sched = { s.sched with stepsLeft := s.sched.stepsLeft - 1 } := by
  obtain ⟨u, hu, rfl⟩ := hartStep_next h
  have hs : u.sched = (fetch s).2.sched := by
    rcases hu with ⟨i, _, hu⟩ | ⟨_, rfl⟩
    · exact (exec_frame hu).sched
    · rfl
  rw [hs, (fetch_access s).sched]

/-- The audio-out registers after the host has consumed `d` bytes (20_memory R75); `n` is the number of the draw. -/
def consume (n d : Nat) (v : Vector Word 7) : Vector Word 7 :=
  (v.set 2 (ringMod n (v[2] + BitVec.ofNat 32 d) v[4])).set 5 (v[5] - BitVec.ofNat 32 d)

theorem consume_getElem (n d : Nat) (v : Vector Word 7) :
    (consume n d v)[5] = v[5] - BitVec.ofNat 32 d ∧
    (v[4] ≠ 0 → (consume n d v)[2] = (v[2] + BitVec.ofNat 32 d) % v[4]) ∧
    ∀ (i : Nat) (h : i < 7), i ≠ 2 → i ≠ 5 → (consume n d v)[i] = v[i] := by
  refine ⟨Vector.getElem_set_self _, fun h4 => ?_, fun i hi h2 h5 => ?_⟩
  · exact (Vector.getElem_set_ne _ _ (by decide)).trans ((Vector.getElem_set_self _).trans (if_neg h4))
  · exact (Vector.getElem_set_ne _ _ h5.symm).trans (Vector.getElem_set_ne _ _ h2.symm)

theorem pumpRegs_of_held {v : Vector Word 7} (h : v[6] ≠ 0) (n : Nat) : pumpRegs n v = v := if_pos h

/-- The audio pump does nothing, or consumes at most CURR bytes. -/
theorem pumpRegs_cases (n : Nat) (v : Vector Word 7) :
    pumpRegs n v = v ∨ ∃ d, d ≤ v[5].toNat ∧ pumpRegs n v = consume n d v := by
  by_cases h : v[6] ≠ 0
  · exact .inl (pumpRegs_of_held h n)
  · rw [pumpRegs, if_neg h]
    cases Config.hostPump n with
    | none => exact .inl rfl
    | some k => exact .inr ⟨k % (v[5].toNat + 1), Nat.le_of_lt_succ (Nat.mod_lt _ (Nat.succ_pos _)), rfl⟩

/-- The sleep is what the agent does to a machine whose mutex may have been released for it, and may be retaken after
it. -/
theorem frameSleep_agent (s : State) : ∃ before after u,
    CaptureFrame { s with dev := { s.dev with audioOwner := before } } u ∧
      frameSleep s = { u with dev := { u.dev with audioOwner := after } } := by
  unfold frameSleep
  split
  · exact ⟨.free, .hart, _, (captureInstant_frame _).trans (finishCapture_frame _), rfl⟩
  · exact ⟨s.dev.audioOwner, _, _, captureInstant_frame s, rfl⟩

theorem frameSleep_audioOut (s : State) : (frameSleep s).dev.audioOut = s.dev.audioOut := by
  obtain ⟨_, _, u, hu, he⟩ := frameSleep_agent s
  rw [he, hu.rest]

/-- In the sleep the agent writes bytes of the ring and bytes it owes alone (20_memory R83). -/
theorem frameSleep_byteAt {a : Word} (hr : ¬ InRing s a) (ho : ¬ Owed s a) :
    (frameSleep s).byteAt a = s.byteAt a := by
  obtain ⟨_, _, u, hu, he⟩ := frameSleep_agent s
  rw [he]
  exact hu.bytes a (.inr ⟨hr, ho⟩)

/-- The frame end changes the audio-out registers by the pump alone. -/
theorem frameEnd_audioOut (s : State) : (frameEnd s).dev.audioOut = pumpRegs s.draws s.dev.audioOut :=
  frameSleep_audioOut (audioPump s)

theorem frameEnd_byteAt {a : Word} (hr : ¬ InRing s a) (ho : ¬ Owed s a) : (frameEnd s).byteAt a = s.byteAt a :=
  frameSleep_byteAt (s := audioPump s) hr ho

/-- Settles O60: a step of the hart is counted once; the frame end is the pump and the sleep, after which the next frame
starts. -/
theorem frameSchedule : Obligations.FrameSchedule := by
  unfold Obligations.FrameSchedule
  intro s t h
  refine ⟨fun hn => hartStep_sched ((step_of_hartNext hn).symm.trans h), fun hc hl => ?_⟩
  obtain rfl : t = startFrame (frameEnd (timerCheck s)) := (step_checkNext hc h).trans (checkPoint_of_last hl)
  have ht := timerCheck_frame s
  have hf := frameEnd_frame (timerCheck s)
  have hfreq := hf.cpuFreq.trans (congrArg Devices.cpuFreq ht.dev)
  have hpump : (frameEnd (timerCheck s)).dev.audioOut = pumpRegs (timerCheck s).draws s.dev.audioOut :=
    (frameEnd_audioOut _).trans (by rw [ht.dev])
  refine ⟨?batch, rfl, rfl, hf.regs.trans ht.regs, hf.fregs.trans ht.fregs, hf.mreserved.trans ht.mreserved, hfreq,
    hf.display.trans (congrArg Devices.display ht.dev), hf.disk.trans (congrArg Devices.disk ht.dev),
    fun a hr ho => ?bytes, fun h6 => hpump.trans (pumpRegs_of_held h6 _), ?pump⟩
  case batch => exact congrArg₂ batchLength (hf.params.trans ht.params) hfreq
  case bytes =>
    have hi : ¬ InRing (timerCheck s) a ∧ ¬ Owed (timerCheck s) a := by
      rw [InRing, Owed, ht.dev, ht.params]; exact ⟨hr, ho⟩
    exact (frameEnd_byteAt hi.1 hi.2).trans (State.byteAt_congr ht.mem ht.params a)
  case pump =>
    rcases pumpRegs_cases (timerCheck s).draws s.dev.audioOut with hp | ⟨d, hd, hp⟩
    · exact .inl (hpump.trans hp)
    · refine .inr ⟨d, hd, ?_⟩
      have hout : (startFrame (frameEnd (timerCheck s))).dev.audioOut = _ := hpump.trans hp
      rw [hout]
      exact consume_getElem _ _ _

end Sys2Proof.Machine
end

section
/-! SUPPORT. The statements about reset and a launch (70_reset_and_hazards): what reset leaves, that it meets the invariant,
and what a launch loads. -/

namespace Sys2Proof.Machine

open Sys2Proof

/-! ## Reset (R248) -/

theorem State.reset_getReg (r : Reg) : State.reset.getReg r = 0 := by
  by_cases h : r = 0
  · exact if_pos h
  · exact (State.getReg_of_ne _ h).trans (Vector.getElem_replicate _)

theorem State.reset_getFreg (r : Reg) : State.reset.getFreg r = 0 := Vector.getElem_replicate r.isLt

/-- At reset the mutex is free and AUDIO_IN_LOCK is 0. -/
theorem Devices.reset_lock : Devices.reset.audioOwner = .hart ↔ Devices.reset.audioIn[6] ≠ 0 :=
  iff_of_false (by decide) (not_not_intro (Vector.getElem_replicate _))

/-- The parameters of log 1 meet their constraints, whatever `DEVADDR` the launch gives. -/
theorem launchParams_wf : paramsWf launchParams = true :=
  Bool.and_eq_true_iff.2 ⟨by decide, launchDevMap_wf⟩

/-- Settles O56: the storage is empty, the registers are 0, and the parameters are well formed. -/
theorem invariantAtReset : Obligations.InvariantAtReset where
  memCanonical := rfl
  memBounded := rfl
  csrsCanonical := rfl
  csrsReadOnlyZero := rfl
  zero := Vector.getElem_replicate _
  clock := BitVec.le_refl _
  freq := by decide
  lock := Devices.reset_lock
  pending := fun _ => rfl
  ring := fun _ => ⟨Vector.getElem_replicate _, fun _ he => absurd he List.not_mem_nil⟩
  disk := fun _ hd => nomatch hd
  steps := Nat.le_refl _
  params := launchParams_wf

/-- Settles O57: the register files are vectors of zeros, memory and the CSR file list no entry. -/
theorem resetValues : Obligations.ResetValues := by
  unfold Obligations.ResetValues
  have hdisplay : ∀ i : Fin 8, State.reset.dev.display[i] = 0 := fun i => Vector.getElem_replicate i.isLt
  have haudio : ∀ i : Fin 7, State.reset.dev.audioOut[i] = 0 ∧ State.reset.dev.audioIn[i] = 0 := fun i =>
    ⟨Vector.getElem_replicate i.isLt, Vector.getElem_replicate i.isLt⟩
  exact ⟨rfl, fun r => ⟨State.reset_getReg r, State.reset_getFreg r⟩, fun _ => rfl, fun _ => rfl, rfl, rfl, rfl, rfl,
    hdisplay, haudio, rfl, rfl, rfl, rfl, rfl, rfl, rfl, rfl, rfl, rfl⟩

/-! ## The ROM image (R249) -/

/-- Loading a ROM at `a` leaves the bytes below `a` and past the ROM's end as they were. -/
theorem sparseGet_loadRom (mem : List Host.Cell) (a : Nat) (rom : List Byte) (j : Nat) :
    sparseGet (loadRom mem a rom) j =
      if j < a then sparseGet mem j else rom.getD (j - a) (sparseGet mem j) := by
  induction rom generalizing mem a with
  | nil => exact (ite_self _).symm
  | cons b rest ih =>
    rw [loadRom, ih, sparseGet_set]
    rcases Nat.lt_trichotomy j a with h | rfl | h
    · rw [if_pos (by omega), if_neg (by omega), if_pos h]
    · rw [if_pos (by omega), if_pos rfl, if_neg (by omega), Nat.sub_self, List.getD_cons_zero]
    · rw [if_neg (by omega), if_neg (by omega), if_neg (by omega), show j - a = j - (a + 1) + 1 by omega,
        List.getD_cons_succ]

theorem loadRom_wf {mem : List Host.Cell} (h : Memory.wf mem = true) (a : Nat) (rom : List Byte) :
    Memory.wf (loadRom mem a rom) = true := by
  induction rom generalizing mem a with
  | nil => exact h
  | cons b rest ih => exact ih (sparseWf_set h) (a + 1)

/-! ## The disk image (R249, 20_memory R78) -/

theorem find?_imageFrom (a : Nat) (image : List Byte) (i : Nat) (h : i < image.length) :
    (imageFrom a image).find? (fun c => c.1 == a + i) = some (a + i, image[i]) := by
  induction image generalizing a i with
  | nil => exact absurd h (Nat.not_lt_zero i)
  | cons b rest ih =>
    cases i with
    | zero => exact List.find?_cons_of_pos (by simp)
    | succ i =>
      rw [imageFrom, List.find?_cons_of_neg (by simp), ← Nat.succ_add_eq_add_succ]
      exact ih (a + 1) i (Nat.lt_of_succ_lt_succ h)

theorem diskByte_diskOfImage (image : List Byte) (i : Nat) (h : i < image.length) :
    diskByte (diskOfImage image) i = image[i] := by
  have hi := find?_imageFrom 0 image i h
  rw [Nat.zero_add] at hi
  rw [diskByte, diskOfImage, hi]

/-! ## A launch (R249, R250) -/

/-- Settles O58: a launch is reset with the ROM loaded into empty memory and the image as the disk file. -/
theorem bootLoadsTheRom : Obligations.BootLoadsTheRom := by
  unfold Obligations.BootLoadsTheRom
  intro p rom disk
  refine ⟨fun hfits => ⟨_, if_pos hfits, fun a => ?bytes, loadRom_wf rfl 0 rom, rfl, rfl, rfl, State.reset_getReg,
    fun _ => rfl, rfl, ?noDisk, ?image⟩, fun hlarge => if_neg (Nat.not_le.2 hlarge)⟩
  case bytes => exact sparseGet_loadRom [] 0 rom (backingIndex p a)
  case noDisk => rintro rfl; rfl
  case image =>
    rintro image rfl
    exact ⟨diskOfImage image, rfl, rfl, diskByte_diskOfImage image⟩

end Sys2Proof.Machine
end
